-- ==== Sys2Proof/Word.lean ====
section
/-! DEFINITION. The plain types the whole model shares: bytes, and the numbers that name the part's links,
slots, records, engines and channels (00_scope sections 3 and 7). -/

namespace Sys2Proof

/-- One byte on a link or in a payload. -/
abbrev Byte := BitVec 8

/-- A byte string: a payload, a label, a message. -/
abbrev Bytes := List (BitVec 8)

/-- S0 to S3. -/
abbrev SrcLink := Fin 4

/-- D0 to D5. -/
abbrev Dest := Fin 6

/-- The look engines 0 and 1, which feed V0 and V1. -/
abbrev Engine := Fin 2

/-- The inspection channels 0 to 7. -/
abbrev Channel := Fin 8

/-- The slots 0 to 1023 of the Slot Buffer. -/
abbrev SlotIx := Fin 1024

/-- The file record indices 0 to 511. -/
abbrev FileIx := Fin 512

/-- The positions 0 to 15 of the card table. -/
abbrev CardIx := Fin 16

end Sys2Proof
end

