-- ==== Sys2Proof/Syntax.lean ====
section
/-! DEFINITION. The commands of the part: one constructor for each row of spec/opcode_table.json, in the table's
order. Each is one whole step of the part (95_what_each_step_holds). An operand is what the outside gives the
step: which link, destination, engine or channel it happens at, and the bytes that arrive. -/

namespace Sys2Proof

/-- The 52 steps of spec/opcode_table.json. -/
inductive Instr where
  /-- POWER_ON_RESET (R210): RESET_N is released while the pins ADR6..ADR0 hold `adr`. -/
  | powerOnReset (adr : BitVec 7)
  /-- SOURCE_PARTNER_DETECTED (R1). -/
  | sourcePartnerDetected (l : SrcLink)
  /-- SOURCE_ALIGNMENT_ACHIEVED (R1, R4). -/
  | sourceAlignmentAchieved (l : SrcLink)
  /-- SOURCE_LOSS_OF_ALIGNMENT (R1, R18). -/
  | sourceLossOfAlignment (l : SrcLink)
  /-- SOURCE_PARTNER_LOST (R1, R18). -/
  | sourcePartnerLost (l : SrcLink)
  /-- SEGMENT_ARRIVAL (R6, R7): the last byte of the segment `wire` (laid out as R212 gives) is received. -/
  | segmentArrival (l : SrcLink) (wire : Bytes)
  /-- RETURN_ITEM_START (R11): the link's return-direction arbiter acts. -/
  | returnItemStart (l : SrcLink)
  /-- RETURN_ITEM_END_GOOD (R9): the link's return transmission is sent whole. -/
  | returnItemEndGood (l : SrcLink)
  /-- MOUNT (R41): the segment at the head of the link, a MOUNT, is taken. -/
  | mount (l : SrcLink)
  /-- UNMOUNT (R44). -/
  | unmount (l : SrcLink)
  /-- CARD_END (R43). -/
  | cardEnd (l : SrcLink)
  /-- OPEN (R31). -/
  | openFile (l : SrcLink)
  /-- ESSENCE (R36). -/
  | essence (l : SrcLink)
  /-- PREVIEW (R36). -/
  | preview (l : SrcLink)
  /-- META (R36). -/
  | metaRecord (l : SrcLink)
  /-- ENTRY_START (R135): the look engine starts its head entry. -/
  | entryStart (e : Engine)
  /-- ENTRY_COMPLETION (R136). -/
  | entryCompletion (e : Engine)
  /-- DEST_PARTNER_DETECTED (R75). -/
  | destPartnerDetected (d : Dest)
  /-- ANNOUNCE (R76, R218): the inbound message `wire`, of type 3, is received whole. -/
  | announce (d : Dest) (wire : Bytes)
  /-- DEST_LOSS_OF_ALIGNMENT (R87, R92). -/
  | destLossOfAlignment (d : Dest)
  /-- DEST_PARTNER_LOST (R75). -/
  | destPartnerLost (d : Dest)
  /-- RETRAIN_TIMER_EXPIRY (R89). -/
  | retrainTimerExpiry (d : Dest)
  /-- DEST_TRANSMISSION_START (R82). -/
  | destTransmissionStart (d : Dest)
  /-- DEST_TRANSMISSION_END_GOOD (R83). -/
  | destTransmissionEndGood (d : Dest)
  /-- CREDIT (R78, R218): the inbound message `wire`, of type 0, is received whole. -/
  | credit (d : Dest) (wire : Bytes)
  /-- VERIFY (R98, R218): type 1. -/
  | verify (d : Dest) (wire : Bytes)
  /-- WRITE_ERROR (R100, R218): type 2. -/
  | writeError (d : Dest) (wire : Bytes)
  /-- UNKNOWN_DEST_MESSAGE (R218): type 4..255. -/
  | unknownDestMessage (d : Dest) (wire : Bytes)
  /-- VERIFY_TIMER_EXPIRY (R99): the verify timer of record index `f` on destination `d` expires. -/
  | verifyTimerExpiry (d : Dest) (f : FileIx)
  /-- IDENTIFY (R196): the segment at the head of the link, a CONTROL segment, is taken; so for the 19 below. -/
  | identify (l : SrcLink)
  /-- WRITE_TABLE (R193). -/
  | writeTable (l : SrcLink)
  /-- READ_TABLE (R194). -/
  | readTable (l : SrcLink)
  /-- READ_STATE (R197). -/
  | readState (l : SrcLink)
  /-- READ_FAULTS (R198). -/
  | readFaults (l : SrcLink)
  /-- ACK_FAULTS_KEYS (R183). -/
  | ackFaultsKeys (l : SrcLink)
  /-- ACK_FAULTS_LABEL (R184). -/
  | ackFaultsLabel (l : SrcLink)
  /-- WAIVE_LOSS (R185). -/
  | waiveLoss (l : SrcLink)
  /-- RELEASE_CARD (R46). -/
  | releaseCard (l : SrcLink)
  /-- CLEAR_CARD (R47). -/
  | clearCard (l : SrcLink)
  /-- WAIVE_FILE (R48). -/
  | waiveFile (l : SrcLink)
  /-- DEST_QUARANTINE (R94). -/
  | destQuarantine (l : SrcLink)
  /-- DEST_RESTORE (R95). -/
  | destRestore (l : SrcLink)
  /-- REVIEW_SELECT (R142). -/
  | reviewSelect (l : SrcLink)
  /-- SET_COUNTER_EVENTS (R205). -/
  | setCounterEvents (l : SrcLink)
  /-- READ_COUNTERS (R207). -/
  | readCounters (l : SrcLink)
  /-- TEST_FRAME (R168). -/
  | testFrame (l : SrcLink)
  /-- TEST_FRAME_EVALUATION (R170): the channel in TEST evaluates its next synthetic frame. -/
  | testFrameEvaluation (c : Channel)
  /-- LINK_RESET_SOURCE (R208). -/
  | linkResetSource (l : SrcLink)
  /-- LINK_RESET_DEST (R90, R208). -/
  | linkResetDest (l : SrcLink)
  /-- SOFT_RESET (R209). -/
  | softReset (l : SrcLink)
  /-- UNKNOWN_KIND_SEGMENT (R16): the segment at the head of the link has a kind field of 8..255. -/
  | unknownKindSegment (l : SrcLink)
  /-- RESET_N_HELD_LOW (R210): RESET_N is driven low. -/
  | resetNHeldLow
  deriving DecidableEq, Repr

end Sys2Proof
end

