-- ==== Sys2Proof/Config.lean ====
section
/-! DEFINITION. What an instance of the part fixes: the capacities the data book states, and the FREE VALUES, the
values the data book leaves open. A free value is a constant with no body, read with the counter `freeCtr` of
State, so no proof can know it. -/

namespace Sys2Proof.Config

/-- R3: slots each source link may hold. -/
def quota : Nat := 256
/-- R9: replies a reply queue holds. -/
def replyCap : Nat := 4
/-- R10: items the notice queue holds. -/
def noticeCap : Nat := 16
/-- R133: entries a look queue holds. -/
def lookQueueCap : Nat := 8
/-- R178: records the Fault Log holds. -/
def logCap : Nat := 64
/-- R118: decoded records a metadata store holds. -/
def storeCap : Nat := 4
/-- R51: payload bytes a slot holds. -/
def slotBytes : Nat := 16384
/-- R206: where the loss counters, and the counts of a card record (R23), saturate. -/
def satMax : Nat := 65535
/-- R93: where the consecutive-failure count saturates. -/
def failureMax : Nat := 15
/-- R64: the digest modulus, the largest prime below 2^32. -/
def modulus : Nat := 4294967291
/-- R196: the vendor code. -/
def vendorCode : Nat := 0x0C3D
/-- R196: the part code. -/
def partCode : Nat := 0x00D6
/-- R196: the revision number. -/
def revision : Nat := 3

/-- FREE VALUE (LOG 8; DESIGN CHOICE: R135 and R136 give grading a duration and no rate at which a soft reset or
a READ STATE finds it): a number that picks how far an engine has graded the entry in processing. -/
opaque freeProgress : Nat → Nat

/-- FREE VALUE (LOG 9; DESIGN CHOICE: R189 asks a REFUSED_FIELD reply for the offset of the first field that
failed, and a body of the wrong length has no such field). -/
opaque freeOffset : Nat → BitVec 16

end Sys2Proof.Config
end

