-- ==== Sys2Proof/Machine/State.lean ====
section
/-! DEFINITION. The state of the part, as plain data: every table, record, queue, counter, flag and setting the data
book names, with its power-on value (State.reset). The state also holds the queue of commands that wait. -/

namespace Sys2Proof.Machine

open Sys2Proof

/-! ### Segments and the Slot Buffer (chapters 1, 3 and 11) -/

/-- A segment as R212 lays it out: the common header's fields in order, the extension's bytes (8 for PREVIEW, META
and CONTROL, none for the other kinds) and the payload. -/
structure Segment where
  kind : Byte
  flags : Byte
  slotByte : Byte
  mbz3 : Byte
  /-- the payload length field, bytes 4 and 5 -/
  len : Nat
  mbz6 : Nat
  fileNumber : Nat
  /-- bytes 12 to 19 as one number; a 48-bit quantity when the upper two bytes are zero -/
  offset : Nat
  mbz20 : Nat
  ext : Bytes
  payload : Bytes
  deriving DecidableEq, Repr

/-- What a FREE slot holds in the model; R51: "The contents of a FREE slot are of no account" (LOG 6). -/
def Segment.blank : Segment := ⟨0, 0, 0, 0, 0, 0, 0, 0, 0, [], []⟩

/-- R51: a slot of the Slot Buffer. -/
structure Slot where
  owner : Option SrcLink
  mark : Bool
  refs : Nat
  seg : Segment
  deriving DecidableEq, Repr

/-- R51: a FREE slot. -/
def Slot.free : Slot := ⟨none, false, 0, Segment.blank⟩

/-- R14: the card handle, a source link and a card slot. -/
structure Handle where
  link : SrcLink
  slot : Fin 8
  deriving DecidableEq, Repr

/-- R25: a transfer id, a file record index with its generation. -/
structure Tid where
  index : FileIx
  gen : BitVec 8
  deriving DecidableEq, Repr

/-! ### The tables (R192) -/

/-- R21: a ROUTE entry; `none` for a profile or format index is the value 255. -/
structure RouteEntry where
  enabled : Bool
  matchValue : BitVec 24
  matchMask : BitVec 24
  dests : BitVec 6
  required : Nat
  look : Fin 16
  profile : Option (Fin 8)
  format : Option (Fin 8)
  deriving DecidableEq, Repr

/-- R21: the power-on entry. -/
def RouteEntry.initial : RouteEntry := ⟨false, 0, 0, 0, 1, 0, none, none⟩

/-- R107: the pixel packings of a FORMAT entry; `none_` is NONE. -/
inductive Packing where
  | p8 | p10w | p12h | none_
  deriving DecidableEq, Repr

/-- R105: the frame rates. -/
inductive FrameRate where
  | fps24 | fps25 | fps30 | fps48 | fps50 | fps60
  deriving DecidableEq, Repr

/-- R105: a FORMAT entry. -/
structure FormatEntry where
  valid : Bool
  packing : Packing
  width : Nat
  height : Nat
  rate : FrameRate
  timecodeOffset : Option Nat
  counterOffset : Option Nat
  recordLength : Nat
  deriving DecidableEq, Repr

/-- R105: the power-on entry. -/
def FormatEntry.initial : FormatEntry := ⟨false, .p8, 16, 16, .fps24, none, none, 8⟩

/-- R123: the rounding modes, in the order of the field table. -/
inductive Rounding where
  | nearestEven | down | up | towardZero
  deriving DecidableEq, Repr

/-- R123: the range policies. -/
inductive RangePolicy where
  | saturate | mark
  deriving DecidableEq, Repr

/-- R123: a LOOK entry; `matrix[i][j]` belongs to output channel i and input channel j. -/
structure LookTableEntry where
  matrix : Vector (Vector Int 3) 3
  offsets : Vector Int 3
  curves : Vector (Vector Nat 65) 3
  rounding : Rounding
  policy : RangePolicy
  marker : Vector Nat 3
  deriving DecidableEq, Repr

/-- R123: the power-on curve, L[k] = min(1023, 16k). -/
def plainCurve : Vector Nat 65 := Vector.ofFn fun k => min 1023 (16 * k.val)

/-- R123: the power-on entry, the plain look. -/
def LookTableEntry.initial : LookTableEntry :=
  { matrix := #v[#v[4096, 0, 0], #v[0, 4096, 0], #v[0, 0, 4096]]
    offsets := #v[0, 0, 0]
    curves := Vector.replicate 3 plainCurve
    rounding := .nearestEven
    policy := .saturate
    marker := #v[1023, 0, 1023] }

/-- R149: the sources a probe can read, in the order of the field table. -/
inductive Source where
  | clip | black | luma | range | frozen | tcBreak | countGap | tcInvalid
  deriving DecidableEq, Repr

/-- R165: the report modes. -/
inductive ReportMode where
  | assert | clear | both
  deriving DecidableEq, Repr

/-- R175: the severities. -/
inductive Severity where
  | note | warn | hold
  deriving DecidableEq, Repr

/-- R149: one probe of a PROFILE entry. -/
structure ProbeConfig where
  enabled : Bool
  source : Source
  dHi : Nat
  dLo : Nat
  persistence : Nat
  mode : ReportMode
  window : Nat
  severity : Severity
  deriving DecidableEq, Repr

/-- R149: the power-on probe. -/
def ProbeConfig.initial : ProbeConfig := ⟨false, .clip, 255, 255, 1, .assert, 0, .note⟩

/-- R149: a PROFILE entry. -/
structure ProfileEntry where
  clipCode : Nat
  blackCode : Nat
  probes : Vector ProbeConfig 8
  deriving DecidableEq, Repr

/-- R149: the power-on entry. -/
def ProfileEntry.initial : ProfileEntry := ⟨4095, 0, Vector.replicate 8 ProbeConfig.initial⟩

/-- R101: a DEST_CONFIG entry; seconds and milliseconds. -/
structure DestConfig where
  enabled : Bool
  verifyTimeout : Nat
  retrainLimit : Nat
  label : Vector Byte 8
  deriving DecidableEq, Repr

/-- R101: the power-on entry. -/
def DestConfig.initial : DestConfig := ⟨true, 120, 100, Vector.replicate 8 0x20⟩

/-- R195: the PART_CONFIG entry. -/
structure PartConfig where
  station : SrcLink
  notices : Bool
  manifests : Bool
  addressMask : BitVec 7
  broadcast : Bool
  threshold : Nat
  deriving DecidableEq, Repr

/-- R195: the power-on entry. -/
def PartConfig.initial : PartConfig := ⟨0, true, true, 0x7F, false, 3⟩

/-! ### Cards and files (chapter 2) -/

/-- R23: the mount states. -/
inductive MountState where
  | active | ended | detached
  deriving DecidableEq, Repr

/-- R24: the verdicts. -/
inductive Verdict where
  | pending | held | releasable
  deriving DecidableEq, Repr

/-- R23: a card record. -/
structure Card where
  label : Bytes
  handle : Option Handle
  camera : BitVec 16
  expected : Option Nat
  opened : Nat
  completed : Nat
  waived : Nat
  mount : MountState
  verdict : Verdict
  ended : Bool
  pulled : Bool
  lostMark : Bool
  refused : Option Nat
  deriving DecidableEq, Repr

/-- R27: the reasons of FAILED, in the order R217 carries them. -/
inductive FailReason where
  | mismatch | writeError | timeout | link | quarantined | aborted | sequence
  deriving DecidableEq, Repr

/-- R27: the state of one copy; `none_` is NONE. -/
inductive CopyState where
  | none_ | pending | sending | closed | verified
  | failed (r : FailReason)
  deriving DecidableEq, Repr

/-- R26: the state of a file record. -/
inductive FileState where
  | streaming | settling | short
  deriving DecidableEq, Repr

/-- R22: the route result a file record latches. -/
structure Route where
  dests : BitVec 6
  required : Nat
  look : Fin 16
  profile : Option (Fin 8)
  format : Option (Fin 8)
  deriving DecidableEq, Repr

/-- R65, R72: the running sums of a digest with the carried bytes. -/
structure Sums where
  a : Nat
  b : Nat
  carried : Bytes
  deriving DecidableEq, Repr

/-- R64: the sums before any word. -/
def Sums.initial : Sums := ⟨1, 0, []⟩

/-- R113: why a frame was marked partial; `incomplete` is the code INCOMPLETE of a closure. -/
inductive PartialCause where
  | shape | line | order | incomplete
  deriving DecidableEq, Repr

/-- R109: the assembly state. -/
inductive AssemblyState where
  | idle | building
  | broken (c : PartialCause)
  deriving DecidableEq, Repr

/-- R117: a decoded valid timecode. -/
structure Timecode where
  hours : Nat
  minutes : Nat
  seconds : Nat
  frames : Nat
  deriving DecidableEq, Repr

/-- R116: the timecode of a decoded metadata record: absent from the format, decoded and invalid, or valid. -/
inductive TimecodeField where
  | absent | invalid
  | valid (t : Timecode)
  deriving DecidableEq, Repr

/-- R116: a decoded metadata record. -/
structure MetaRec where
  frame : Nat
  timecode : TimecodeField
  counter : Option Nat
  deriving DecidableEq, Repr

/-- R106, R109: the frame assembly state of a STREAMING file with the format entry it latched (`none` when the
route's format index is 255). -/
structure Assembly where
  format : Option FormatEntry
  state : AssemblyState
  lastFrame : Option Nat
  nextLine : Nat
  digest : Option Sums
  store : List MetaRec
  prevTimecode : Option Timecode
  prevCounter : Option Nat
  deriving DecidableEq, Repr

/-- R25: a file record. The generation stands beside it, because it outlives the record. -/
structure FileRec where
  card : CardIx
  number : Nat
  name : Option Bytes
  declared : Option Nat
  nextOffset : Nat
  sums : Sums
  finalDigest : Option Nat
  route : Route
  state : FileState
  recopy : Bool
  copies : Vector CopyState 6
  channel : Option Channel
  stamp : Nat
  assembly : Option Assembly
  deriving DecidableEq, Repr

/-- R25: a position of the file table: the generation, which is kept, and the record, if the position is in use. -/
structure FilePos where
  gen : BitVec 8
  file : Option FileRec
  deriving DecidableEq, Repr

/-! ### The Fault Log (chapter 9) -/

/-- R176: the classes, in the order of its table. -/
inductive FaultClass where
  | probe | test | copyFailed | fileShort | sequence | sizeMismatch | duplicateOpen | unrouted | lateOpen
  | fileTableFull | countMismatch | cardPulled | partialFrame | metaParse | uninspected | cardCleared
  | overrun | destDown | destQuarantined | duplicateLabel | handleBusy | cardTableFull
  deriving DecidableEq, Repr

/-- R175: the direction of a probe's flip. -/
inductive FlipDirection where
  | asserted | cleared
  deriving DecidableEq, Repr

/-- R175: the probe part of a record. -/
structure ProbePart where
  channel : Channel
  probe : Fin 8
  direction : FlipDirection
  deriving DecidableEq, Repr

/-- R175: the frame numbers a record covers. -/
structure FrameSpan where
  first : Nat
  last : Nat
  deriving DecidableEq, Repr

/-- R176, R217: the codes, each of its class. -/
inductive FaultCode where
  | copyFailed (r : FailReason)
  | shortAborted | shortSettled
  | partialFrame (c : PartialCause)
  | byCommand | byThreshold
  deriving DecidableEq, Repr

/-- R175: the state of a record. -/
inductive RecordState where
  | opened | acked
  deriving DecidableEq, Repr

/-- R175: a fault record. An offered record is one with key 0, to which the Fault Log gives its key. -/
structure FaultRec where
  key : Nat
  cls : FaultClass
  severity : Severity
  label : Option Bytes
  file : Option Nat
  dest : Option Dest
  probe : Option ProbePart
  frames : Option FrameSpan
  merges : Nat
  code : Option FaultCode
  values : List Nat
  state : RecordState
  deriving DecidableEq, Repr

/-! ### Source links (chapter 1) -/

/-- R1: the states of a source link. -/
inductive SrcState where
  | down | training | up
  deriving DecidableEq, Repr

/-- R214: the results of a reply, in the order they are carried. -/
inductive CmdResult where
  | done | partialDone | refusedField | refusedValue | refusedState | notFound | unknownCommand
  deriving DecidableEq, Repr

/-- R190: a reply. -/
structure Reply where
  tag : Nat
  code : Nat
  result : CmdResult
  body : Bytes
  deriving DecidableEq, Repr

/-- R11: what a return transmission carries. A reply is the oldest of the link's reply queue, a notice the one
entry of the notice queue that names the link. -/
inductive ReturnKind where
  | credit (count : Nat)
  | reply
  | notice
  deriving DecidableEq, Repr

/-- A return transmission in progress, with the item's bytes (R214). -/
structure ReturnTx where
  kind : ReturnKind
  wire : Bytes
  deriving DecidableEq, Repr

/-- The state of one Source Link Interface. `arrivals` names the slots of the accepted segments not yet processed,
oldest first (R12). `headAddressed` is the address decision of R188, made when a CONTROL segment reaches the head. -/
structure SrcPort where
  state : SrcState
  held : Nat
  granted : Nat
  withheld : Nat
  unannounced : Nat
  arrivals : List SlotIx
  headAddressed : Option Bool
  replies : List Reply
  tx : Option ReturnTx
  overrun : Bool
  deriving DecidableEq, Repr

/-- R1, R3: the power-on state of a source link. -/
def SrcPort.initial : SrcPort := ⟨.down, 0, 0, 256, 0, [], none, [], none, false⟩

/-- R40: a manifest record. -/
structure Manifest where
  label : Bytes
  required : Nat
  file : Nat
  tid : Tid
  size : Nat
  verified : BitVec 6
  recopy : Bool
  waived : Bool
  digest : Option Nat
  name : Option Bytes
  deriving DecidableEq, Repr

/-- R46: a CARD_RELEASED notice. -/
structure Released where
  label : Bytes
  pulled : Bool
  opened : Nat
  completed : Nat
  waived : Nat
  deriving DecidableEq, Repr

/-- R10: an item of the notice queue. -/
inductive NoticeItem where
  | fault (r : FaultRec)
  | manifest (m : Manifest)
  | released (c : Released)
  deriving DecidableEq, Repr

/-- An entry of the notice queue with the link that is transmitting it, if any (R10). -/
structure NoticeEntry where
  item : NoticeItem
  sending : Option SrcLink
  deriving DecidableEq, Repr

/-! ### Destination links (chapter 5) -/

/-- R74: the states of a destination link. -/
inductive DestState where
  | down | training | up | retraining | quarantined
  deriving DecidableEq, Repr

/-- R74: the credit limit. -/
inductive CreditLimit where
  | absent
  | number (n : Nat)
  | unlimited
  deriving DecidableEq, Repr

/-- R80: an entry of a destination queue; `openMsg` is OPEN. -/
inductive QEntry where
  | openMsg (tid : Tid) (label : Bytes) (file : Nat) (name : Option Bytes) (size : Option Nat)
  | data (tid : Tid) (slot : SlotIx)
  | close (tid : Tid) (digest : Nat) (size : Nat)
  | abort (tid : Tid)
  | halt
  deriving DecidableEq, Repr

/-- A transmission in progress: the head of the queue is being sent. `noResend` says that its copy or its queue was
withdrawn, so that it leaves the queue at its end, good or nullified (R86, R91, R103). `wire` is the message (R218). -/
structure DestTx where
  noResend : Bool
  wire : Bytes
  deriving DecidableEq, Repr

/-- R96: a running verify timer, by the record index of its copy, with the timeout it was started with. -/
structure VerifyTimer where
  file : FileIx
  seconds : Nat
  deriving DecidableEq, Repr

/-- R74: the state of one Destination Link Interface (its configuration stands in the DEST_CONFIG table). -/
structure DestPort where
  state : DestState
  partner : Bool
  aligned : Bool
  limit : CreditLimit
  inUse : Nat
  stall : Bool
  queue : List QEntry
  tx : Option DestTx
  retrain : Option Nat
  timers : List VerifyTimer
  failures : Nat
  openSet : List Tid
  deriving DecidableEq, Repr

/-- R74: the power-on state of a destination link. -/
def DestPort.initial : DestPort := ⟨.down, false, false, .absent, 0, false, [], none, none, [], 0, []⟩

/-! ### Look engines and review outputs (chapter 7) -/

/-- R142: a review selection; bit k of the link set stands for Sk. -/
inductive Selection where
  | off
  | follow (links : BitVec 4)
  | pin (label : Bytes) (file : Nat)
  deriving DecidableEq, Repr

/-- R132: the follow item, latched at the change of follow (R145). -/
structure Follow where
  tid : Tid
  label : Bytes
  file : Nat
  width : Nat
  height : Nat
  packing : Packing
  look : Fin 16
  ended : Bool
  deriving DecidableEq, Repr

/-- R133: the placement the Preview Assembler gave a segment; `continue_` is CONTINUE. -/
inductive Placement where
  | begin | continue_ | misfit
  deriving DecidableEq, Repr

/-- R133: a look-queue entry. -/
structure LookItem where
  slot : SlotIx
  frame : Nat
  firstLine : Nat
  lineCount : Nat
  placement : Placement
  complete : Bool
  gap : Bool
  deriving DecidableEq, Repr

/-- R132, R135: the entry in processing, which is the head of the look queue: the geometry it is read with, and how
many of its pixels have been graded. -/
structure Processing where
  width : Nat
  packing : Packing
  graded : Nat
  deriving DecidableEq, Repr

/-- R132: the output frame. -/
inductive OutFrame where
  | none_
  | opened (frame lines : Nat)
  | broken (frame lines : Nat)
  deriving DecidableEq, Repr

/-- R132: the working look with its index. -/
structure WorkingLook where
  index : Fin 16
  look : LookTableEntry
  deriving DecidableEq, Repr

/-- A pixel of three values: input codes (R108) or output values (R124), red, green, blue. -/
structure Pixel where
  r : Nat
  g : Nat
  b : Nat
  deriving DecidableEq, Repr

/-- R141: an item a review output sends; a frame-start marker carries the output, V0 or V1, by its engine. -/
inductive ReviewItem where
  | frameStart (output : Engine) (label : Bytes) (file : Nat) (tid : Tid) (frame width height : Nat) (look : Fin 16)
  | line (number : Nat) (pixels : List Pixel)
  | frameEnd (frame lines : Nat) (broken : Bool)
  deriving DecidableEq, Repr

/-- R132: a look engine with its review output. `closeAfter` says that step 5 of R145 waits for the completion of the
entry in processing. `sent` is what the output has sent since power-on, oldest first (LOG 7: the model's own). -/
structure EngineState where
  selection : Selection
  follow : Option Follow
  queue : List LookItem
  proc : Option Processing
  closeAfter : Bool
  pendingGap : Bool
  out : OutFrame
  working : Option WorkingLook
  flagInexact : Bool
  flagOver : Bool
  flagUnder : Bool
  sent : List ReviewItem
  deriving DecidableEq, Repr

/-- R132: the power-on state of an engine. -/
def EngineState.initial : EngineState :=
  ⟨.off, none, [], none, false, false, .none_, none, false, false, false, []⟩

/-! ### Inspection channels (chapter 8) -/

/-- R151: the owner of a channel in FILE. -/
structure Owner where
  tid : Tid
  label : Bytes
  file : Nat
  deriving DecidableEq, Repr

/-- R151, R169: a test run: the flat colour, the count of synthetic frames and the frame number next to be
evaluated. -/
structure TestRun where
  colour : Pixel
  count : Nat
  next : Nat
  deriving DecidableEq, Repr

/-- R151: the channel state with what belongs to it alone. -/
inductive ChannelState where
  | free
  | file (owner : Owner)
  | test (run : TestRun)
  deriving DecidableEq, Repr

/-- R153: a latched probe, with thresholds in place of setting points. -/
structure LatchedProbe where
  enabled : Bool
  source : Source
  tHi : Nat
  tLo : Nat
  persistence : Nat
  mode : ReportMode
  window : Nat
  severity : Severity
  deriving DecidableEq, Repr

/-- The probe of a channel that has latched no profile: "empty, absent or zero" (R151). -/
def LatchedProbe.blank : LatchedProbe := ⟨false, .clip, 0, 0, 0, .assert, 0, .note⟩

/-- R151: a probe's window record. -/
structure WindowRec where
  key : Nat
  first : Nat
  deriving DecidableEq, Repr

/-- R151: the state of a probe. -/
structure ProbeState where
  asserted : Bool
  run : Nat
  window : Option WindowRec
  deriving DecidableEq, Repr

/-- R152: the state a probe starts with. -/
def ProbeState.initial : ProbeState := ⟨false, 0, none⟩

/-- R151, R155: a frame in progress with its four accumulators and the look latched for RANGE. -/
structure FrameProgress where
  frame : Nat
  look : LookTableEntry
  lines : Nat
  clip : Nat
  black : Nat
  lumaSum : Nat
  range : Nat
  deriving DecidableEq, Repr

/-- R151: an inspection channel. P is width × height. -/
structure ChannelRec where
  state : ChannelState
  profile : Fin 8
  probes : Vector LatchedProbe 8
  clipCode : Nat
  blackCode : Nat
  width : Nat
  height : Nat
  frame : Option FrameProgress
  prevDigest : Option Nat
  evaluated : Nat
  probeStates : Vector ProbeState 8
  deriving DecidableEq, Repr

/-- R151: a channel in FREE. -/
def ChannelRec.initial : ChannelRec :=
  { state := .free, profile := 0, probes := Vector.replicate 8 LatchedProbe.blank, clipCode := 0, blackCode := 0,
    width := 0, height := 0, frame := none, prevDigest := none, evaluated := 0,
    probeStates := Vector.replicate 8 ProbeState.initial }

/-! ### Counters (chapter 10) -/

/-- R204: the events, in the order of its table. -/
inductive CountEvent where
  | segIn | bytesIn | segOut | framesInspected | reviewSkips | verifyOk | verifyFail | creditStall
  deriving DecidableEq, Repr

/-- R204: a qualifier. -/
inductive Qualifier where
  | all
  | link (l : SrcLink)
  | dest (d : Dest)
  deriving DecidableEq, Repr

/-- R204: an event counter. -/
structure EventCounter where
  count : Nat
  event : CountEvent
  qualifier : Qualifier
  deriving DecidableEq, Repr

/-- R204: the power-on event counter. -/
def EventCounter.initial : EventCounter := ⟨0, .segIn, .all⟩

/-- R204: a pair of event counters with its join setting; counters 0 and 1 are the even and odd ones of pair 0,
counters 2 and 3 those of pair 1. -/
structure CounterPair where
  joined : Bool
  even : EventCounter
  odd : EventCounter
  deriving DecidableEq, Repr

/-- R204: the power-on pair. -/
def CounterPair.initial : CounterPair := ⟨false, EventCounter.initial, EventCounter.initial⟩

/-- R206: the loss counters, in the order of its table. -/
structure LossCounters where
  skipsV0 : Nat
  skipsV1 : Nat
  noticesDropped : Nat
  faultsLost : Nat
  lateVerifies : Nat
  stray : Nat
  foreign : Nat
  malformed : Nat
  deriving DecidableEq, Repr

/-- R206: the power-on loss counters. -/
def LossCounters.initial : LossCounters := ⟨0, 0, 0, 0, 0, 0, 0, 0⟩

/-! ### The whole state -/

/-- The state of the part, and the commands that wait for it. -/
structure State where
  /-- R1 to R11: the four source links -/
  src : Vector SrcPort 4
  /-- R10: the notice queue -/
  notices : List NoticeEntry
  /-- R51: the slots -/
  slots : Vector Slot 1024
  /-- R192: the six tables -/
  routes : Vector RouteEntry 32
  formats : Vector FormatEntry 8
  looks : Vector LookTableEntry 16
  profiles : Vector ProfileEntry 8
  destConfig : Vector DestConfig 6
  part : PartConfig
  /-- R23: the card table -/
  cards : Vector (Option Card) 16
  /-- R25: the file table -/
  files : Vector FilePos 512
  /-- R25: the open counter -/
  openCounter : Nat
  /-- R74: the six destination links -/
  dest : Vector DestPort 6
  /-- R132: the two look engines -/
  engines : Vector EngineState 2
  /-- R151: the eight inspection channels -/
  channels : Vector ChannelRec 8
  /-- R178: the fault records, in creation order -/
  log : List FaultRec
  /-- R177: the key counter -/
  keyCounter : Nat
  /-- R188: the part address -/
  partAddress : BitVec 7
  /-- R204: the event counters, in pairs -/
  counters : Vector CounterPair 2
  /-- R206: the loss counters -/
  loss : LossCounters
  /-- R210: RESET_N is held low -/
  resetLow : Bool
  /-- the model's own: the counter the free values are read with (LOG 3) -/
  freeCtr : Nat
  /-- the model's own: the commands that wait, the next one first (LOG 1) -/
  pending : List Instr
  deriving DecidableEq, Repr

/-- The part right after a power-on reset (R210): every field at the power-on value stated where it is specified.
DESIGN CHOICE (LOG 2, unsafe): the part address, which the pins fix, is 0. -/
def State.reset : State :=
  { src := Vector.replicate 4 SrcPort.initial
    notices := []
    slots := Vector.replicate 1024 Slot.free
    routes := Vector.replicate 32 RouteEntry.initial
    formats := Vector.replicate 8 FormatEntry.initial
    looks := Vector.replicate 16 LookTableEntry.initial
    profiles := Vector.replicate 8 ProfileEntry.initial
    destConfig := Vector.replicate 6 DestConfig.initial
    part := PartConfig.initial
    cards := Vector.replicate 16 none
    files := Vector.replicate 512 ⟨0, none⟩
    openCounter := 0
    dest := Vector.replicate 6 DestPort.initial
    engines := Vector.replicate 2 EngineState.initial
    channels := Vector.replicate 8 ChannelRec.initial
    log := []
    keyCounter := 0
    partAddress := 0
    counters := Vector.replicate 2 CounterPair.initial
    loss := LossCounters.initial
    resetLow := false
    freeCtr := 0
    pending := [] }

/-! ### How a step can stop -/

/-- Why the model stops. -/
inductive Fault where
  /-- Raised by SEGMENT_ARRIVAL when a granted credit is spent and no slot is FREE. R52 says this never occurs
  ("A FREE slot is always available at acceptance"), so no run of the part stops here (LOG 32). Safe: the model goes no
  further in a state the part cannot be in. -/
  | noFreeSlot
  deriving DecidableEq, Repr

/-- Why the model has no meaning for a command. -/
inductive Refusal where
  /-- Raised by exec for a row that has no meaning yet, by its mnemonic; no arm raises it. Safe. -/
  | notModelled (mnemonic : String)
  deriving DecidableEq, Repr

end Sys2Proof.Machine
end

