-- ==== Sys2Proof/Machine/Wire.lean ====
section
/-! DEFINITION. How values are carried in bytes (R191, R211), the layouts of segments and inbound messages (R212,
R218), and the header checks of R15. -/

namespace Sys2Proof.Machine

open Sys2Proof

/-! ### Numbers in bytes (R211) -/

/-- R211: `n` bytes of `v`, the least significant first. -/
def le : Nat → Nat → Bytes
  | 0, _ => []
  | n + 1, v => BitVec.ofNat 8 v :: le n (v / 256)

/-- R211: the number that bytes hold, the least significant first. -/
def leNat : Bytes → Nat
  | [] => 0
  | b :: rest => b.toNat + 256 * leNat rest

/-- The number in the `n` bytes at `off`. -/
def fieldAt (bs : Bytes) (off n : Nat) : Nat := leNat ((bs.drop off).take n)

/-- The bytes from `off` on, `n` of them. -/
def bytesAt (bs : Bytes) (off n : Nat) : Bytes := (bs.drop off).take n

/-- Every byte is zero. -/
def allZero (bs : Bytes) : Bool := bs.all (· == 0)

/-- `bs` with zero bytes added up to `n` bytes, and cut there. -/
def padTo (n : Nat) (bs : Bytes) : Bytes := (bs ++ List.replicate n 0).take n

/-- `n` zero bytes, sent in a must-be-zero field (R211). -/
def zeros (n : Nat) : Bytes := List.replicate n 0

/-- R191: yes is 1 and no is 0. -/
def boolCode (b : Bool) : Nat := if b then 1 else 0

/-- R191: yes or no in one byte. -/
def yesNo (b : Bool) : Bytes := le 1 (boolCode b)

/-- R211: a card label, a length byte and then 16 bytes. -/
def labelField (label : Bytes) : Bytes := le 1 label.length ++ padTo 16 label

/-- The label a 17-byte label field holds. -/
def labelOf (field : Bytes) : Bytes := bytesAt field 1 (fieldAt field 0 1)

/-- R197, R211: a 17-byte label field is in form: a length of 1..16 and zero bytes beyond it. -/
def labelFieldOk (field : Bytes) : Bool :=
  let n := fieldAt field 0 1
  decide (1 ≤ n ∧ n ≤ 16) && allZero (bytesAt field (1 + n) (16 - n))

/-- R211: a transfer id in 4 bytes. -/
def tidField (t : Tid) : Bytes := le 2 t.index.val ++ le 1 t.gen.toNat ++ [0]

/-- R211, R216: an optional transfer id, zero where it is absent. -/
def optField (n : Nat) (v : Option Nat) : Bytes := le n (v.getD 0)

/-- R192: an optional quantity, a presence byte ahead of `n` value bytes. -/
def presentField (n : Nat) (v : Option Nat) : Bytes := yesNo v.isSome ++ optField n v

/-- A signed number in 16 bits, two's complement (LOG 17). -/
def signed16 (n : Nat) : Int := if n < 32768 then (n : Int) else (n : Int) - 65536

/-- The 16-bit carriage of a signed number. -/
def unsigned16 (i : Int) : Nat := (i % 65536).toNat

/-- R191: "stored as the nearest end of the range". -/
def clampNat (lo hi v : Nat) : Nat := if v < lo then lo else if hi < v then hi else v

/-- R191, for a signed quantity. -/
def clampInt (lo hi v : Int) : Int := if v < lo then lo else if hi < v then hi else v

/-- A count that saturates at 65535 (R23, R206). -/
def satInc (n : Nat) : Nat := if n < Config.satMax then n + 1 else n

/-! ### Enumerations, by their positions (R191) -/

/-- R192: the packings. -/
def Packing.all : List Packing := [.p8, .p10w, .p12h, .none_]
/-- R105: the frame rates. -/
def FrameRate.all : List FrameRate := [.fps24, .fps25, .fps30, .fps48, .fps50, .fps60]
/-- R123: the rounding modes. -/
def Rounding.all : List Rounding := [.nearestEven, .down, .up, .towardZero]
/-- R123: the range policies. -/
def RangePolicy.all : List RangePolicy := [.saturate, .mark]
/-- R149: the sources. -/
def Source.all : List Source := [.clip, .black, .luma, .range, .frozen, .tcBreak, .countGap, .tcInvalid]
/-- R149: the report modes. -/
def ReportMode.all : List ReportMode := [.assert, .clear, .both]
/-- R175: the severities. -/
def Severity.all : List Severity := [.note, .warn, .hold]
/-- R204: the events. -/
def CountEvent.all : List CountEvent :=
  [.segIn, .bytesIn, .segOut, .framesInspected, .reviewSkips, .verifyOk, .verifyFail, .creditStall]
/-- R176: the classes. -/
def FaultClass.all : List FaultClass :=
  [.probe, .test, .copyFailed, .fileShort, .sequence, .sizeMismatch, .duplicateOpen, .unrouted, .lateOpen,
    .fileTableFull, .countMismatch, .cardPulled, .partialFrame, .metaParse, .uninspected, .cardCleared, .overrun,
    .destDown, .destQuarantined, .duplicateLabel, .handleBusy, .cardTableFull]
/-- R27, R217: the FAILED reasons. -/
def FailReason.all : List FailReason := [.mismatch, .writeError, .timeout, .link, .quarantined, .aborted, .sequence]
/-- R113, R217: the causes of a PARTIAL_FRAME record. -/
def PartialCause.all : List PartialCause := [.shape, .line, .order, .incomplete]
/-- R74: the destination link states. -/
def DestState.all : List DestState := [.down, .training, .up, .retraining, .quarantined]
/-- R216: the source link states. -/
def SrcState.all : List SrcState := [.down, .training, .up]
/-- R214: the results. -/
def CmdResult.all : List CmdResult :=
  [.done, .partialDone, .refusedField, .refusedValue, .refusedState, .notFound, .unknownCommand]
/-- R216: the mount states. -/
def MountState.all : List MountState := [.active, .ended, .detached]
/-- R216: the verdicts. -/
def Verdict.all : List Verdict := [.pending, .held, .releasable]
/-- R216: the file states. -/
def FileState.all : List FileState := [.streaming, .settling, .short]

/-- R191: an enumeration's carriage, its position in its list. -/
def posOf {α : Type} [DecidableEq α] (all : List α) (a : α) : Nat := all.idxOf a

/-- R105: the frames per second of a rate. -/
def FrameRate.fps : FrameRate → Nat
  | .fps24 => 24 | .fps25 => 25 | .fps30 => 30 | .fps48 => 48 | .fps50 => 50 | .fps60 => 60

/-- R217: the carriage of a fault code within its class. -/
def FaultCode.carriage : FaultCode → Nat
  | .copyFailed r => posOf FailReason.all r
  | .shortAborted => 0
  | .shortSettled => 1
  | .partialFrame c => posOf PartialCause.all c
  | .byCommand => 0
  | .byThreshold => 1

/-- R216: the two bytes of a copy state, the state and then the FAILED reason or 0. -/
def CopyState.carriage : CopyState → Bytes
  | .none_ => [0, 0]
  | .pending => [1, 0]
  | .sending => [2, 0]
  | .closed => [3, 0]
  | .verified => [4, 0]
  | .failed r => le 1 5 ++ le 1 (posOf FailReason.all r)

/-! ### Segments (R212, R213) -/

/-- R212: the extension's length for a kind field. -/
def extLength (kind : Byte) : Nat := if kind = 5 ∨ kind = 6 ∨ kind = 7 then 8 else 0

/-- R212: the segment that `wire` holds, or none when `wire` is not a whole segment (R2: what is received of a
segment that is cut off is thrown away). For an unknown kind the extension is not known, and the bytes after the
common header count as its payload (LOG 26). -/
def Segment.ofBytes (wire : Bytes) : Option Segment :=
  let kind : Byte := wire.headD 0
  let n := fieldAt wire 4 2
  let x := extLength kind
  if 24 ≤ wire.length ∧ (wire.length = 24 + x + n ∨ (8 ≤ kind.toNat ∧ 24 + n ≤ wire.length)) then
    some { kind := kind
           flags := BitVec.ofNat 8 (fieldAt wire 1 1)
           slotByte := BitVec.ofNat 8 (fieldAt wire 2 1)
           mbz3 := BitVec.ofNat 8 (fieldAt wire 3 1)
           len := n
           mbz6 := fieldAt wire 6 2
           fileNumber := fieldAt wire 8 4
           offset := fieldAt wire 12 8
           mbz20 := fieldAt wire 20 4
           ext := bytesAt wire 24 x
           payload := bytesAt wire (24 + x) (min n Config.slotBytes) }
  else none

/-- R212: the bytes of a segment on its link. -/
def Segment.toBytes (g : Segment) : Bytes :=
  [g.kind, g.flags, g.slotByte, g.mbz3] ++ le 2 g.len ++ le 2 g.mbz6 ++ le 4 g.fileNumber ++ le 8 g.offset
    ++ le 4 g.mbz20 ++ g.ext ++ g.payload

/-- A segment as a link can carry it whole, with a payload a slot can hold: each field fits its bytes, the
extension is the kind's and the payload is as long as its length field says. -/
def Segment.fits (g : Segment) : Bool :=
  decide (g.len ≤ Config.slotBytes ∧ g.mbz6 < 2 ^ 16 ∧ g.fileNumber < 2 ^ 32 ∧ g.offset < 2 ^ 64
    ∧ g.mbz20 < 2 ^ 32 ∧ g.ext.length = extLength g.kind ∧ g.payload.length = g.len)

/-- R14: the LAST flag. -/
def Segment.last (g : Segment) : Bool := g.flags.getLsbD 0
/-- R14: the RECOPY flag. -/
def Segment.recopy (g : Segment) : Bool := g.flags.getLsbD 1
/-- R14: the card slot, bits 0 to 2 of byte 2. -/
def Segment.cardSlot (g : Segment) : Fin 8 := ⟨g.slotByte.toNat % 8, Nat.mod_lt _ (by decide)⟩
/-- R14: the card handle of a segment that arrived on `l`. -/
def Segment.handle (g : Segment) (l : SrcLink) : Handle := ⟨l, g.cardSlot⟩
/-- R212: the frame number of a PREVIEW or META extension. -/
def Segment.frame (g : Segment) : Nat := fieldAt g.ext 0 4
/-- R212: the first line of a PREVIEW extension. -/
def Segment.firstLine (g : Segment) : Nat := fieldAt g.ext 4 2
/-- R212: the line count of a PREVIEW extension. -/
def Segment.lineCount (g : Segment) : Nat := fieldAt g.ext 6 2
/-- R212: the target address of a CONTROL extension. -/
def Segment.target (g : Segment) : BitVec 7 := BitVec.ofNat 7 (fieldAt g.ext 0 1)
/-- R212: the tag of a CONTROL extension. -/
def Segment.tag (g : Segment) : Nat := fieldAt g.ext 2 2
/-- R212: the command code of a CONTROL extension. -/
def Segment.command (g : Segment) : Nat := fieldAt g.ext 4 2
/-- The kind field names ESSENCE, PREVIEW or META. -/
def Segment.isData (g : Segment) : Bool := g.kind == 4 || g.kind == 5 || g.kind == 6

/-- R15, R213: the fixed body length of a kind, if it has one. -/
def fixedBody (kind : Byte) : Option Nat :=
  if kind = 0 then some 26 else if kind = 1 ∨ kind = 2 then some 0 else if kind = 3 then some 80 else none

/-- R15, R212: the must-be-zero bits of the common header are zero. -/
def Segment.commonOk (g : Segment) : Bool :=
  decide (g.flags.toNat < 4 ∧ g.slotByte.toNat < 8 ∧ g.mbz3 = 0 ∧ g.mbz6 = 0 ∧ g.mbz20 = 0) &&
    (if g.isData then decide (g.offset < 2 ^ 48) else decide (g.fileNumber = 0 ∧ g.offset = 0))

/-- R15, R212: the must-be-zero bits of the kind's extension are zero. -/
def Segment.extOk (g : Segment) : Bool :=
  if g.kind = 6 then fieldAt g.ext 4 4 == 0
  else if g.kind = 7 then decide (fieldAt g.ext 0 1 < 128) && fieldAt g.ext 1 1 == 0 && fieldAt g.ext 6 2 == 0
  else true

/-- R15: the header passes its checks. -/
def Segment.headerOk (g : Segment) : Bool :=
  decide (g.kind.toNat < 8) && g.commonOk && g.extOk && decide (g.len ≤ Config.slotBytes) &&
    (match fixedBody g.kind with
     | some n => g.len == n
     | none => true)

/-- R213: the MOUNT body passes its checks, row 1 of R41 among them. -/
def mountBodyOk (b : Bytes) : Bool :=
  labelFieldOk (bytesAt b 0 17) && (labelOf (bytesAt b 0 17)).all (fun c => decide (0x20 ≤ c.toNat ∧ c.toNat ≤ 0x7E)) &&
    fieldAt b 17 1 == 0 && fieldAt b 21 1 == 0 && fieldAt b 24 2 == 0 &&
    (if fieldAt b 20 1 = 0 then fieldAt b 22 2 == 0 else fieldAt b 20 1 == 1 && fieldAt b 22 2 != 0)

/-- R213: the OPEN body passes its checks. -/
def openBodyOk (b : Bytes) : Bool :=
  let n := fieldAt b 7 1
  (if fieldAt b 5 1 = 0 then fieldAt b 8 8 == 0 else fieldAt b 5 1 == 1 && decide (fieldAt b 8 8 < 2 ^ 48)) &&
    (if fieldAt b 6 1 = 0 then n == 0 && allZero (bytesAt b 16 64)
     else fieldAt b 6 1 == 1 && decide (1 ≤ n ∧ n ≤ 64) && allZero (bytesAt b (16 + n) (64 - n)))

/-- R213: the name of an OPEN body. -/
def openName (b : Bytes) : Option Bytes :=
  if fieldAt b 6 1 = 1 then some (bytesAt b 16 (fieldAt b 7 1)) else none

/-- R213: the declared size of an OPEN body. -/
def openSize (b : Bytes) : Option Nat := if fieldAt b 5 1 = 1 then some (fieldAt b 8 8) else none

/-! ### Inbound destination messages (R218) -/

/-- R218: an inbound message: the header's fields and the body. -/
structure InMessage where
  type : Nat
  mbz1 : Nat
  index : Nat
  gen : BitVec 8
  mbz7 : Nat
  body : Bytes
  deriving DecidableEq, Repr

/-- R218: the message that `wire` holds, or none when it is not received whole. -/
def InMessage.ofBytes (wire : Bytes) : Option InMessage :=
  if wire.length = 8 + fieldAt wire 2 2 ∧ 8 ≤ wire.length then
    some { type := fieldAt wire 0 1
           mbz1 := fieldAt wire 1 1
           index := fieldAt wire 4 2
           gen := BitVec.ofNat 8 (fieldAt wire 6 1)
           mbz7 := fieldAt wire 7 1
           body := wire.drop 8 }
  else none

/-- R218: the bytes of a message with transfer id field `index`, `gen`. -/
def inboundBytes (type index : Nat) (gen : BitVec 8) (body : Bytes) : Bytes :=
  le 1 type ++ [0] ++ le 2 body.length ++ le 2 index ++ le 1 gen.toNat ++ [0] ++ body

/-- R218: a CREDIT or ANNOUNCE is in form: a zero transfer id and one number with three must-be-zero bytes. -/
def InMessage.numberOk (m : InMessage) : Bool :=
  m.mbz1 == 0 && m.index == 0 && m.gen == 0 && m.mbz7 == 0 && m.body.length == 4 && allZero (bytesAt m.body 1 3)

/-- R218: the count of a CREDIT, or the limit of an ANNOUNCE. -/
def InMessage.number (m : InMessage) : Nat := fieldAt m.body 0 1

/-- R218: a VERIFY is in form. -/
def InMessage.verifyOk (m : InMessage) : Bool := m.mbz1 == 0 && m.mbz7 == 0 && m.body.length == 8

/-- R218: a WRITE_ERROR is in form. -/
def InMessage.errorOk (m : InMessage) : Bool :=
  m.mbz1 == 0 && m.mbz7 == 0 && m.body.length == 4 && allZero (bytesAt m.body 2 2)

end Sys2Proof.Machine
end

