-- ==== Sys2Proof/Machine/Digest.lean ====
section
/-! DEFINITION. The Digest Unit's arithmetic (chapter 4): the dual sum over 32-bit words modulo 2^32 - 5, for the
digest of a file (R65 to R68) and of a frame (R72, R73). -/

namespace Sys2Proof.Machine

open Sys2Proof

/-- R64: one word applied: A becomes (A + w) mod p, then B becomes (B + A) mod p with the new A. -/
def Sums.word (x : Sums) (w : Nat) : Sums :=
  let a := (x.a + w) % Config.modulus
  { x with a := a, b := (x.b + a) % Config.modulus }

/-- R66: the whole words of a run applied in order; the 0..3 bytes left become the carried list. -/
def Sums.run (x : Sums) : Bytes → Sums
  | b0 :: b1 :: b2 :: b3 :: rest => (x.word (leNat [b0, b1, b2, b3])).run rest
  | left => { x with carried := left }

/-- R66: the sums advanced over a payload; the run is the carried bytes and then the payload. -/
def Sums.advance (x : Sums) (payload : Bytes) : Sums := x.run (x.carried ++ payload)

/-- R68: carried bytes are completed with zero bytes to a word and applied. -/
def Sums.finalise (x : Sums) : Sums :=
  if x.carried = [] then x else { x.word (leNat x.carried) with carried := [] }

/-- R64: the digest of the sums, B·2^32 + A. -/
def Sums.value (x : Sums) : Nat := x.b * 2 ^ 32 + x.a

/-- R64: the digest of a sequence of bytes. -/
def digestOf (bytes : Bytes) : Nat := (Sums.initial.advance bytes).finalise.value

end Sys2Proof.Machine
end

