-- ==== Sys2Proof/Machine/Look.lean ====
section
/-! DEFINITION. Pixels and the arithmetic of a look: the packings and their expansion to 12-bit codes (R107, R108),
stage 1 with its rounding and range conditions (R125 to R128) and stage 2 (R129). -/

namespace Sys2Proof.Machine

open Sys2Proof

/-! ### Pixels (R107, R108) -/

/-- R107: the bytes of one pixel; NONE has no pixels. -/
def Packing.bytesPerPixel : Packing → Nat
  | .p8 => 3
  | .p10w => 4
  | .p12h => 6
  | .none_ => 0

/-- R108: an 8-bit value as a 12-bit code. -/
def expand8 (v : Nat) : Nat := v * 16 + v / 16

/-- R108: a 10-bit value as a 12-bit code. -/
def expand10 (v : Nat) : Nat := v * 4 + v / 256

/-- R107, R108: the pixels of a P8 payload. -/
def pixels8 : Bytes → List Pixel
  | r :: g :: b :: rest => ⟨expand8 r.toNat, expand8 g.toNat, expand8 b.toNat⟩ :: pixels8 rest
  | _ => []

/-- R107, R108: the pixels of a P10W payload; bits 30 and 31 of each word are ignored. -/
def pixels10 : Bytes → List Pixel
  | b0 :: b1 :: b2 :: b3 :: rest =>
    let w := leNat [b0, b1, b2, b3]
    ⟨expand10 (w % 1024), expand10 (w / 1024 % 1024), expand10 (w / 1048576 % 1024)⟩ :: pixels10 rest
  | _ => []

/-- R107, R108: the pixels of a P12H payload; the upper 4 bits of each value are ignored. -/
def pixels12 : Bytes → List Pixel
  | r0 :: r1 :: g0 :: g1 :: b0 :: b1 :: rest =>
    ⟨leNat [r0, r1] % 4096, leNat [g0, g1] % 4096, leNat [b0, b1] % 4096⟩ :: pixels12 rest
  | _ => []

/-- R107, R108: the pixels of a payload, in line order, as 12-bit codes. -/
def pixelsOf (p : Packing) (payload : Bytes) : List Pixel :=
  match p with
  | .p8 => pixels8 payload
  | .p10w => pixels10 payload
  | .p12h => pixels12 payload
  | .none_ => []

/-- The largest of the three codes (R156). -/
def Pixel.largest (x : Pixel) : Nat := max x.r (max x.g x.b)

/-! ### Stage 1 -/

/-- R125: the accumulation of output channel `i`. -/
def LookTableEntry.acc (k : LookTableEntry) (i : Fin 3) (x : Pixel) : Int :=
  k.matrix[i][0] * x.r + k.matrix[i][1] * x.g + k.matrix[i][2] * x.b + k.offsets[i] * 4096

/-- R126, R129: a division by `n` (4096 or 64) under a rounding mode, from the quotient toward minus infinity and
its remainder. -/
def roundDiv (mode : Rounding) (n : Int) (acc : Int) : Int :=
  let d := acc / n
  let r := acc % n
  if r = 0 then d
  else match mode with
    | .down => d
    | .up => d + 1
    | .towardZero => if 0 ≤ acc then d else d + 1
    | .nearestEven => if 2 * r < n then d else if n < 2 * r then d + 1 else if d % 2 = 0 then d else d + 1

/-- R126: the result of stage 1 for output channel `i`. -/
def LookTableEntry.stage1 (k : LookTableEntry) (i : Fin 3) (x : Pixel) : Int := roundDiv k.rounding 4096 (k.acc i x)

/-- R127: the three conditions a pixel can show. -/
structure Conditions where
  inexact : Bool
  tooHigh : Bool
  tooLow : Bool
  deriving DecidableEq, Repr

/-- R131: conditions gathered over channels, stages and pixels. -/
def Conditions.or (p q : Conditions) : Conditions :=
  ⟨p.inexact || q.inexact, p.tooHigh || q.tooHigh, p.tooLow || q.tooLow⟩

/-- No condition. -/
def Conditions.clear : Conditions := ⟨false, false, false⟩

/-- R127: the conditions of output channel `i`: INEXACT when r is not 0, OVER when q is above 4095, UNDER when q is
below 0. -/
def LookTableEntry.cond1 (k : LookTableEntry) (i : Fin 3) (x : Pixel) : Conditions :=
  ⟨decide (k.acc i x % 4096 ≠ 0), decide (4095 < k.stage1 i x), decide (k.stage1 i x < 0)⟩

/-- R127: the conditions of stage 1 over the three channels. -/
def LookTableEntry.conditions1 (k : LookTableEntry) (x : Pixel) : Conditions :=
  ((k.cond1 0 x).or (k.cond1 1 x)).or (k.cond1 2 x)

/-- R127: a range pixel. -/
def LookTableEntry.isRangePixel (k : LookTableEntry) (x : Pixel) : Bool :=
  (k.conditions1 x).tooHigh || (k.conditions1 x).tooLow

/-- R128: what stage 1 hands to stage 2 under SATURATE. -/
def saturate12 (q : Int) : Nat := (clampInt 0 4095 q).toNat

/-! ### Stage 2 -/

/-- A point of a curve. -/
def curvePoint (c : Vector Nat 65) (k : Nat) : Nat := c.toList.getD k 0

/-- R129: the weighted sum n of the two curve points around x. -/
def curveSum (c : Vector Nat 65) (x : Nat) : Nat :=
  curvePoint c (x / 64) * (64 - x % 64) + curvePoint c (x / 64 + 1) * (x % 64)

/-- R129: the result of stage 2 for a channel. -/
def stage2 (mode : Rounding) (c : Vector Nat 65) (x : Nat) : Nat := (roundDiv mode 64 (curveSum c x)).toNat

/-- R129: INEXACT of stage 2. -/
def cond2 (c : Vector Nat 65) (x : Nat) : Conditions := ⟨decide (curveSum c x % 64 ≠ 0), false, false⟩

/-- R124: one pixel graded: the output pixel and the conditions it shows. -/
def LookTableEntry.grade (k : LookTableEntry) (x : Pixel) : Pixel × Conditions :=
  if k.policy = .mark ∧ k.isRangePixel x then (⟨k.marker[0], k.marker[1], k.marker[2]⟩, k.conditions1 x)
  else
    let r := saturate12 (k.stage1 0 x)
    let g := saturate12 (k.stage1 1 x)
    let b := saturate12 (k.stage1 2 x)
    (⟨stage2 k.rounding k.curves[0] r, stage2 k.rounding k.curves[1] g, stage2 k.rounding k.curves[2] b⟩,
      (k.conditions1 x).or (((cond2 k.curves[0] r).or (cond2 k.curves[1] g)).or (cond2 k.curves[2] b)))

end Sys2Proof.Machine
end

