-- ==== Sys2Proof/Machine/Flags.lean ====
section
/-! DEFINITION. The counters and flags of chapter 10: the eight loss counters (R206) and the four event counters
(R204), and the elementary updates of State they stand on. -/

namespace Sys2Proof.Machine

open Sys2Proof

/-! ### Elementary updates -/

/-- One place of a vector changed. -/
def vmod {α : Type} {n : Nat} (v : Vector α n) (i : Fin n) (f : α → α) : Vector α n := v.set i.val (f v[i]) i.isLt

/-- The lowest number that satisfies a test. -/
def firstIx {n : Nat} (p : Fin n → Bool) : Option (Fin n) := (List.finRange n).find? p

/-- The numbers that satisfy a test, in ascending order. -/
def allIx {n : Nat} (p : Fin n → Bool) : List (Fin n) := (List.finRange n).filter p

/-- A source link's record changed. -/
def modSrc (l : SrcLink) (f : SrcPort → SrcPort) (s : State) : State := { s with src := vmod s.src l f }
/-- A slot changed. -/
def modSlot (i : SlotIx) (f : Slot → Slot) (s : State) : State := { s with slots := vmod s.slots i f }
/-- A destination link's record changed. -/
def modDest (d : Dest) (f : DestPort → DestPort) (s : State) : State := { s with dest := vmod s.dest d f }
/-- A look engine's record changed. -/
def modEngine (e : Engine) (f : EngineState → EngineState) (s : State) : State :=
  { s with engines := vmod s.engines e f }
/-- An inspection channel changed. -/
def modChannel (c : Channel) (f : ChannelRec → ChannelRec) (s : State) : State :=
  { s with channels := vmod s.channels c f }
/-- A card record changed, where the position holds one. -/
def modCard (c : CardIx) (f : Card → Card) (s : State) : State := { s with cards := vmod s.cards c (Option.map f) }
/-- A file record changed, where the position holds one. -/
def modFile (i : FileIx) (f : FileRec → FileRec) (s : State) : State :=
  { s with files := vmod s.files i fun p => { p with file := p.file.map f } }

/-! ### Loss counters (R206) -/

/-- R206: the loss counters by name. -/
inductive Loss where
  | skips (e : Engine)
  | noticesDropped | faultsLost | lateVerifies | stray | foreign | malformed
  deriving DecidableEq, Repr

/-- R206: one occurrence, saturating at 65535. -/
def LossCounters.inc (c : LossCounters) : Loss → LossCounters
  | .skips e => if e = 0 then { c with skipsV0 := satInc c.skipsV0 } else { c with skipsV1 := satInc c.skipsV1 }
  | .noticesDropped => { c with noticesDropped := satInc c.noticesDropped }
  | .faultsLost => { c with faultsLost := satInc c.faultsLost }
  | .lateVerifies => { c with lateVerifies := satInc c.lateVerifies }
  | .stray => { c with stray := satInc c.stray }
  | .foreign => { c with foreign := satInc c.foreign }
  | .malformed => { c with malformed := satInc c.malformed }

/-- R206: one occurrence of a loss; `malformed` is the combined "overrun plus malformed" counter. -/
def loseOne (k : Loss) (s : State) : State := { s with loss := s.loss.inc k }

/-- R206, R216: the eight loss counters in the order of the table. -/
def LossCounters.toList (c : LossCounters) : List Nat :=
  [c.skipsV0, c.skipsV1, c.noticesDropped, c.faultsLost, c.lateVerifies, c.stray, c.foreign, c.malformed]

/-! ### Event counters (R204) -/

/-- R204: what an event is counted against. -/
inductive Against where
  | link (l : SrcLink)
  | dest (d : Dest)
  deriving DecidableEq, Repr

/-- R204: the qualifier is ALL or names the link or destination. -/
def Qualifier.admits : Qualifier → Against → Bool
  | .all, _ => true
  | .link l, .link m => l == m
  | .dest d, .dest e => d == e
  | _, _ => false

/-- R204: the counter counts the event. -/
def EventCounter.counts (c : EventCounter) (ev : CountEvent) (ag : Against) : Bool :=
  c.event == ev && c.qualifier.admits ag

/-- R204: an unjoined count, modulo 2^32. -/
def EventCounter.add (c : EventCounter) (amount : Nat) : EventCounter :=
  { c with count := (c.count + amount) % 2 ^ 32 }

/-- R204: one event at a pair; the odd counter of a joined pair counts the wraps of the even one. -/
def CounterPair.take (p : CounterPair) (ev : CountEvent) (ag : Against) (amount : Nat) : CounterPair :=
  if p.joined then
    if p.even.counts ev ag then
      { p with even := p.even.add amount, odd := p.odd.add ((p.even.count + amount) / 2 ^ 32) }
    else p
  else
    { p with even := if p.even.counts ev ag then p.even.add amount else p.even
             odd := if p.odd.counts ev ag then p.odd.add amount else p.odd }

/-- R204: an event is taken by every counter. -/
def countEvent (ev : CountEvent) (ag : Against) (amount : Nat) (s : State) : State :=
  { s with counters := s.counters.map fun p => p.take ev ag amount }

end Sys2Proof.Machine
end

