-- ==== Sys2Proof/Machine/Ops.lean ====
section
/-! DEFINITION. The operations every chapter shares: credits and slots (chapters 1 and 3), the notice queue (R10),
card verdicts (R24), the Fault Log (chapter 9), the replies of the source links (R9), and the live part (R210). -/

namespace Sys2Proof.Machine

open Sys2Proof

/-- R210: while RESET_N is held low the part accepts no segment, transmits on no link, trains no link and runs no
timer; the model lets no step but the release change anything then (LOG 18). -/
def live (s : State) (f : State → Host.Outcome State Fault Refusal) : Host.Outcome State Fault Refusal :=
  if s.resetLow then .next s else f s

/-! ### Credits and slots -/

/-- R5: the credit of a freed slot comes back, granted on an UP link and withheld on any other. -/
def SrcPort.creditBack (p : SrcPort) : SrcPort :=
  if p.state = .up then { p with held := p.held - 1, granted := p.granted + 1, unannounced := p.unannounced + 1 }
  else { p with held := p.held - 1, withheld := p.withheld + 1 }

/-- R54: the slot becomes FREE when its mark is clear and its count zero, and the release is reported to the owner
link (R61). -/
def settleSlot (i : SlotIx) (s : State) : State :=
  match s.slots[i].owner with
  | none => s
  | some l =>
    if s.slots[i].mark = false ∧ s.slots[i].refs = 0 then modSrc l SrcPort.creditBack (modSlot i (fun _ => Slot.free) s)
    else s

/-- R57, R58: a queue entry that pointed at the slot has gone. -/
def dropRef (i : SlotIx) (s : State) : State := settleSlot i (modSlot i (fun t => { t with refs := t.refs - 1 }) s)

/-- R56: a queue entry that points at the slot has joined. -/
def addRef (i : SlotIx) (s : State) : State := modSlot i (fun t => { t with refs := t.refs + 1 }) s

/-- R55: the segment's processing has ended, or it is discarded unprocessed. -/
def clearMark (i : SlotIx) (s : State) : State := settleSlot i (modSlot i (fun t => { t with mark := false }) s)

/-- R188: the target address is this part's under the address mask, or it is 0 and broadcast accept is on. -/
def addressed (s : State) (target : BitVec 7) : Bool :=
  (target ^^^ s.partAddress) &&& s.part.addressMask == 0 || (target == 0 && s.part.broadcast)

/-- R188: the decision for the segment now at the head of the link; only a CONTROL segment whose header passes
its checks has one. -/
def decideHead (l : SrcLink) (s : State) : State :=
  modSrc l (fun p => { p with headAddressed :=
    match p.arrivals.head? with
    | none => none
    | some i =>
      let g := s.slots[i].seg
      if g.kind = 7 ∧ g.headerOk then some (addressed s g.target) else none }) s

/-- R12: the segment at the head of the link's arrival queue, with its slot. -/
def headSegment (l : SrcLink) (s : State) : Option Segment := s.src[l].arrivals.head?.map fun i => s.slots[i].seg

/-- R12: the slot of the head of the link's arrival queue. -/
def headSlot (l : SrcLink) (s : State) : Option SlotIx := s.src[l].arrivals.head?

/-- R12, R55: processing of the head has ended; it leaves the arrival queue, and the next segment is at the head. -/
def endProcessing (l : SrcLink) (s : State) : State :=
  match s.src[l].arrivals with
  | [] => s
  | i :: rest => decideHead l (clearMark i (modSrc l (fun p => { p with arrivals := rest }) s))

/-- R17: the head of the link is a CONTROL segment addressed to this part, and the reply queue holds 4 replies. -/
def headIsHeld (l : SrcLink) (s : State) : Bool :=
  s.src[l].headAddressed == some true && decide (Config.replyCap ≤ s.src[l].replies.length)

/-- R9, R190: a reply joins the tail of the link's reply queue. -/
def queueReply (l : SrcLink) (r : Reply) (s : State) : State :=
  modSrc l (fun p => { p with replies := p.replies ++ [r] }) s

/-! ### The notice queue -/

/-- R10: an item is offered to the notice queue. -/
def offerNotice (item : NoticeItem) (s : State) : State :=
  if s.notices.length < Config.noticeCap then { s with notices := s.notices ++ [⟨item, none⟩] }
  else loseOne .noticesDropped s

/-! ### Cards and their verdicts -/

/-- The card record that has the label (R23: labels are unique). -/
def cardByLabel (label : Bytes) (s : State) : Option CardIx :=
  firstIx fun c : CardIx => (s.cards[c].map fun k => k.label == label).getD false

/-- The card record that holds the handle (R23: handles are unique). -/
def cardByHandle (h : Handle) (s : State) : Option CardIx :=
  firstIx fun c : CardIx => (s.cards[c].map fun k => k.handle == some h).getD false

/-- The record at a position is a file of the card, in a state that passes the test. -/
def isFileOf (s : State) (c : CardIx) (p : FileRec → Bool) (i : FileIx) : Bool :=
  (s.files[i].file.map fun f => f.card == c && p f).getD false

/-- The card's file records that pass a test, in ascending order of record index. -/
def filesOf (s : State) (c : CardIx) (p : FileRec → Bool) : List FileIx := allIx (isFileOf s c p)

/-- The record of the card with the file number (R25: at most one). -/
def fileByNumber (c : CardIx) (number : Nat) (s : State) : Option FileIx :=
  firstIx (isFileOf s c fun f => f.number == number)

/-- R24: a fault record in state OPEN, of severity HOLD, that carries the label. -/
def FaultRec.holds (r : FaultRec) (label : Bytes) : Bool :=
  r.state == .opened && r.severity == .hold && r.label == some label

/-- R24: the four RELEASABLE conditions. -/
def releasable (s : State) (c : CardIx) (k : Card) : Bool :=
  k.ended && (firstIx (isFileOf s c fun _ => true)).isNone && !s.log.any (·.holds k.label) && !k.lostMark

/-- R24: the value the verdict of a card record has. -/
def verdictOf (s : State) (c : CardIx) (k : Card) : Verdict :=
  if releasable s c k then .releasable
  else if k.ended && (firstIx (isFileOf s c fun f => f.state == .streaming || f.state == .settling)).isNone then .held
  else .pending

/-- R24: the verdict of a card record is evaluated again. -/
def reeval (c : CardIx) (s : State) : State := modCard c (fun k => { k with verdict := verdictOf s c k }) s

/-- R24: the same, for the card record that holds a label. -/
def reevalLabel (label : Bytes) (s : State) : State :=
  match cardByLabel label s with
  | none => s
  | some c => reeval c s

/-! ### The Fault Log -/

/-- R177: a present record holds the key. -/
def keyHeld (log : List FaultRec) (k : Nat) : Bool := log.any fun r => r.key == k

/-- R177: the first value from `k` on, wrapping from 65535 to 0, that no present record holds; `fuel` bounds the
search, and 64 is enough for at most 63 present records. -/
def freeKey (log : List FaultRec) : Nat → Nat → Nat
  | 0, k => k
  | fuel + 1, k => if keyHeld log k then freeKey log fuel ((k + 1) % 65536) else k

/-- R178: the oldest record that passes a test, removed. -/
def removeFirst (p : FaultRec → Bool) : List FaultRec → List FaultRec
  | [] => []
  | r :: rest => if p r then rest else r :: removeFirst p rest

/-- R178: the record can be stored: there is room, or an ACKED record to remove. -/
def logHasPlace (s : State) : Bool := decide (s.log.length < Config.logCap) || s.log.any (·.state == .acked)

/-- R178: the log after it has made room for one more record. -/
def roomInLog (log : List FaultRec) : List FaultRec :=
  if log.length < Config.logCap then log else removeFirst (·.state == .acked) log

/-- R177, R178: the record as it is stored, with its key. -/
def placed (r : FaultRec) (s : State) : FaultRec :=
  { r with key := freeKey (roomInLog s.log) Config.logCap s.keyCounter }

/-- R180: what the Fault Log reports of a stored record: the FAULT notice (R182), then, for a HOLD record, its
creation to the OFM. -/
def announceRecord (r : FaultRec) (s : State) : State :=
  let s := if s.part.notices then offerNotice (.fault r) s else s
  match r.severity, r.label with
  | .hold, some label => reevalLabel label s
  | _, _ => s

/-- R178: the record is stored at the end of the log, with its key. -/
def storeRecord (r : FaultRec) (s : State) : State :=
  let r' := placed r s
  announceRecord r' { s with log := roomInLog s.log ++ [r'], keyCounter := (r'.key + 1) % 65536 }

/-- R179: the record is lost; the card record that holds its label is marked. -/
def loseRecord (r : FaultRec) (s : State) : State :=
  let s := loseOne .faultsLost s
  match r.label with
  | none => s
  | some label =>
    match cardByLabel label s with
    | none => s
    | some c => reeval c (modCard c (fun k => { k with lostMark := true }) s)

/-- R180: a record's creation, one event: it is stored or lost. -/
def logFault (r : FaultRec) (s : State) : State := if logHasPlace s then storeRecord r s else loseRecord r s

/-- R178: the Fault Log's answer to the block that offers the record: its key, or lost. -/
def faultKey (r : FaultRec) (s : State) : Option Nat := if logHasPlace s then some (placed r s).key else none

/-- R175: a record as offered, with merge count 1 and state OPEN. -/
def FaultRec.offered (cls : FaultClass) (severity : Severity) : FaultRec :=
  { key := 0, cls := cls, severity := severity, label := none, file := none, dest := none, probe := none,
    frames := none, merges := 1, code := none, values := [], state := .opened }

/-- R176: a record that names a card. -/
def FaultRec.ofCard (cls : FaultClass) (severity : Severity) (label : Bytes) : FaultRec :=
  { FaultRec.offered cls severity with label := some label }

/-- R176: a record that names a card and a file number. -/
def FaultRec.ofFile (cls : FaultClass) (severity : Severity) (label : Bytes) (file : Nat) : FaultRec :=
  { FaultRec.offered cls severity with label := some label, file := some file }

/-- The label of a card record; empty where the position holds none. -/
def labelAt (c : CardIx) (s : State) : Bytes := (s.cards[c].map Card.label).getD []

/-- The transfer id of a file record index now (R25). -/
def tidOf (i : FileIx) (s : State) : Tid := ⟨i, s.files[i].gen⟩

/-- R179, R183: a record acknowledged, where it is OPEN. -/
def FaultRec.ack (r : FaultRec) : FaultRec := { r with state := .acked }

/-- R183: the OPEN records that pass a test become ACKED, and the OFM hears of each HOLD record among them. -/
def ackRecords (p : FaultRec → Bool) (s : State) : State :=
  let changed := s.log.filter fun r => p r && r.state == .opened
  let s := { s with log := s.log.map fun r => if p r then r.ack else r }
  changed.foldl (fun s r =>
    match r.severity, r.label with
    | .hold, some label => reevalLabel label s
    | _, _ => s) s

/-- R183: how many records would go from OPEN to ACKED. -/
def ackCount (p : FaultRec → Bool) (s : State) : Nat :=
  (s.log.filter fun r => p r && r.state == .opened).length

end Sys2Proof.Machine
end

