-- ==== Sys2Proof/Machine/Inspect.lean ====
section
/-! DEFINITION. The Inspection Unit (chapter 8): latching a profile, gathering a frame, measurements, probe evaluation,
reports and merges, test runs; and the step TEST_FRAME_EVALUATION. -/

namespace Sys2Proof.Machine

open Sys2Proof

/-! ### Latching a profile (R153) -/

/-- R153: the threshold of a setting point, by the source and the picture's pixel count P. -/
def threshold (source : Source) (pixels d : Nat) : Nat :=
  match source with
  | .clip | .black | .range => (d + 1) * pixels / 256
  | .luma => (d + 1) * 16
  | .frozen | .tcBreak | .countGap | .tcInvalid => d

/-- R153: a probe as a channel latches it; a T_lo greater than T_hi is set equal to T_hi. -/
def ProbeConfig.latch (q : ProbeConfig) (pixels : Nat) : LatchedProbe :=
  let hi := threshold q.source pixels q.dHi
  { enabled := q.enabled, source := q.source, tHi := hi, tLo := min (threshold q.source pixels q.dLo) hi,
    persistence := q.persistence, mode := q.mode, window := q.window, severity := q.severity }

/-- R152, R153, R169: a channel that starts to serve a file or a test run. -/
def latchedChannel (state : ChannelState) (profile : Fin 8) (width height : Nat) (s : State) : ChannelRec :=
  { ChannelRec.initial with
    state := state
    profile := profile
    probes := s.profiles[profile].probes.map fun q => q.latch (width * height)
    clipCode := s.profiles[profile].clipCode
    blackCode := s.profiles[profile].blackCode
    width := width
    height := height }

/-- R152: the lowest-numbered channel in FREE. -/
def freeChannel (s : State) : Option Channel := firstIx fun c : Channel => s.channels[c].state == .free

/-- R152: a channel is asked for at an OPEN whose profile and format indices are both other than 255. -/
def assignChannel (i : FileIx) (s : State) : State :=
  match s.files[i].file with
  | none => s
  | some f =>
    match f.route.profile, f.assembly.bind Assembly.format with
    | some p, some m =>
      match freeChannel s with
      | none => logFault (FaultRec.ofFile .uninspected .note (labelAt f.card s) f.number) s
      | some c =>
        modFile i (fun f => { f with channel := some c })
          (modChannel c (fun _ =>
            latchedChannel (.file ⟨tidOf i s, labelAt f.card s, f.number⟩) p m.width m.height s) s)
    | _, _ => s

/-- R154: the channel of a file that leaves STREAMING is released; its latched profile, codes, picture size and count of
frames evaluated go too (LOG 44). -/
def releaseChannel (i : FileIx) (s : State) : State :=
  match s.files[i].file.bind FileRec.channel with
  | none => s
  | some c => modFile i (fun f => { f with channel := none }) (modChannel c (fun _ => ChannelRec.initial) s)

/-! ### Gathering a frame (R155 to R157) -/

/-- R155: a frame has begun; the channel latches the look named by `look` for RANGE. -/
def beginFrame (c : Channel) (frame : Nat) (look : Fin 16) (s : State) : State :=
  modChannel c (fun k => { k with frame := some ⟨frame, s.looks[look], 0, 0, 0, 0, 0⟩ }) s

/-- R156: the LUMA term of a pixel. -/
def Pixel.luma (x : Pixel) : Nat := 1225 * x.r + 2404 * x.g + 467 * x.b

/-- R156: one pixel folded into the four accumulators. -/
def FrameProgress.pixel (clip black : Nat) (p : FrameProgress) (x : Pixel) : FrameProgress :=
  { p with
    clip := p.clip + if clip ≤ x.largest then 1 else 0
    black := p.black + if x.largest ≤ black then 1 else 0
    lumaSum := p.lumaSum + x.luma
    range := p.range + if p.look.isRangePixel x then 1 else 0 }

/-- R156: a parsed segment's pixels and line count. -/
def gather (c : Channel) (pixels : List Pixel) (lines : Nat) (s : State) : State :=
  modChannel c (fun k => { k with frame := k.frame.map fun p =>
    let p := pixels.foldl (FrameProgress.pixel k.clipCode k.blackCode) p
    { p with lines := p.lines + lines } }) s

/-- R157: the frame is reported discarded. -/
def discardFrame (c : Channel) (s : State) : State := modChannel c (fun k => { k with frame := none }) s

/-! ### Measurements (R158 to R160, R170) -/

/-- R160: the measurements of one evaluation; an unavailable one is none. -/
structure Measures where
  clip : Option Nat
  black : Option Nat
  luma : Option Nat
  range : Option Nat
  frozen : Option Nat
  tcInvalid : Option Nat
  tcBreak : Option Nat
  countGap : Option Nat
  deriving DecidableEq, Repr

/-- R119: the metadata measurements an evaluation event carries. -/
structure MetaMeasures where
  tcInvalid : Option Nat
  tcBreak : Option Nat
  countGap : Option Nat
  deriving DecidableEq, Repr

/-- The measurement a source reads. -/
def Measures.get (m : Measures) : Source → Option Nat
  | .clip => m.clip
  | .black => m.black
  | .luma => m.luma
  | .range => m.range
  | .frozen => m.frozen
  | .tcBreak => m.tcBreak
  | .countGap => m.countGap
  | .tcInvalid => m.tcInvalid

/-- R159: FROZEN. -/
def ChannelRec.frozen (k : ChannelRec) (digest : Nat) : Nat := if k.prevDigest = some digest then 1 else 0

/-- R158: the measurements of a completed frame of a PICTURE file. -/
def ChannelRec.pictureMeasures (k : ChannelRec) (digest : Nat) (m : MetaMeasures) : Measures :=
  { clip := k.frame.map FrameProgress.clip
    black := k.frame.map FrameProgress.black
    luma := k.frame.map fun p => p.lumaSum / (4096 * (k.width * k.height))
    range := k.frame.map FrameProgress.range
    frozen := some (k.frozen digest)
    tcInvalid := m.tcInvalid, tcBreak := m.tcBreak, countGap := m.countGap }

/-- R160: the measurements of a META_ONLY evaluation. -/
def metaOnlyMeasures (m : MetaMeasures) : Measures :=
  ⟨none, none, none, none, none, m.tcInvalid, m.tcBreak, m.countGap⟩

/-- R170: the measurements of a synthetic flat frame under look 0. -/
def ChannelRec.flatMeasures (k : ChannelRec) (run : TestRun) (look : LookTableEntry) : Measures :=
  let p := k.width * k.height
  let x := run.colour
  { clip := some (if k.clipCode ≤ x.largest then p else 0)
    black := some (if x.largest ≤ k.blackCode then p else 0)
    luma := some (x.luma / 4096)
    range := some (if look.isRangePixel x then p else 0)
    frozen := some (if run.next = 0 then 0 else 1)
    tcInvalid := none, tcBreak := none, countGap := none }

/-! ### Reports (R165 to R167, R171, R181) -/

/-- R181: the record is one that a probe of the channel may merge into. -/
def FaultRec.takesMerge (r : FaultRec) (cls : FaultClass) (key : Nat) (c : Channel) (p : Fin 8) : Bool :=
  r.key == key && r.state == .opened && r.cls == cls &&
    (r.probe.map fun q => q.channel == c && q.probe == p).getD false

/-- R181: a merge: the merge count increments, saturating, and the last frame becomes the evaluation's. -/
def FaultRec.merge (r : FaultRec) (frame : Nat) : FaultRec :=
  { r with merges := satInc r.merges, frames := r.frames.map fun f => { f with last := frame } }

/-- R166, R181: a merge made in the log. -/
def mergeInto (cls : FaultClass) (key : Nat) (c : Channel) (p : Fin 8) (frame : Nat) (s : State) : State :=
  { s with log := s.log.map fun r => if r.takesMerge cls key c p then r.merge frame else r }

/-- R167, R171: the class of a channel's reports: PROBE in FILE, TEST in TEST. -/
def ChannelState.reportClass : ChannelState → FaultClass
  | .test _ => .test
  | _ => .probe

/-- R166: the report is inside the window of the probe's window record, and the Fault Log would make the merge. -/
def insideWindow (c : Channel) (p : Fin 8) (frame : Nat) (s : State) : Option Nat :=
  match s.channels[c].probeStates[p].window with
  | none => none
  | some w =>
    if w.first ≤ frame ∧ frame - w.first < s.channels[c].probes[p].window ∧
        s.log.any (fun r => r.takesMerge s.channels[c].state.reportClass w.key c p) then
      some w.key
    else none

/-- R167, R171: the new record a report makes. -/
def reportRecord (c : Channel) (p : Fin 8) (dir : FlipDirection) (frame value : Nat) (s : State) : FaultRec :=
  let base := match s.channels[c].state with
    | .file o => FaultRec.ofFile .probe s.channels[c].probes[p].severity o.label o.file
    | _ => FaultRec.offered .test .note
  { base with probe := some ⟨c, p, dir⟩, frames := some ⟨frame, frame⟩, values := [value] }

/-- One probe's state changed. -/
def modProbe (c : Channel) (p : Fin 8) (f : ProbeState → ProbeState) (s : State) : State :=
  modChannel c (fun k => { k with probeStates := vmod k.probeStates p f }) s

/-- R166, R167: a report is merged, or makes a new record, to which the window record is then set. -/
def reportFlip (c : Channel) (p : Fin 8) (dir : FlipDirection) (frame value : Nat) (s : State) : State :=
  match insideWindow c p frame s with
  | some key => mergeInto s.channels[c].state.reportClass key c p frame s
  | none =>
    let r := reportRecord c p dir frame value s
    let key := faultKey r s
    modProbe c p (fun q => { q with window := key.map fun k => ⟨k, frame⟩ }) (logFault r s)

/-! ### Probe evaluation (R161 to R165) -/

/-- R165: a flip in a direction is reported under a report mode. -/
def ReportMode.reports : ReportMode → FlipDirection → Bool
  | .assert, .asserted => true
  | .clear, .cleared => true
  | .both, _ => true
  | _, _ => false

/-- R163: the raw condition for a value. -/
def LatchedProbe.raw (q : LatchedProbe) (asserted : Bool) (v : Nat) : Bool :=
  if asserted then decide (q.tLo ≤ v) else decide (q.tHi < v)

/-- R164: the state of a probe after a value; the second part says whether it flipped. -/
def LatchedProbe.next (q : LatchedProbe) (st : ProbeState) (v : Nat) : ProbeState × Bool :=
  if q.raw st.asserted v = st.asserted then ({ st with run := 0 }, false)
  else if st.run + 1 = q.persistence then ({ st with asserted := !st.asserted, run := 0 }, true)
  else ({ st with run := st.run + 1 }, false)

/-- R161 to R166: one probe at one evaluation. -/
def evalProbe (c : Channel) (m : Measures) (frame : Nat) (p : Fin 8) (s : State) : State :=
  let q := s.channels[c].probes[p]
  if q.enabled then
    match m.get q.source with
    | none => s
    | some v =>
      let n := q.next s.channels[c].probeStates[p] v
      let s := modProbe c p (fun _ => n.1) s
      let dir : FlipDirection := if n.1.asserted then .asserted else .cleared
      if n.2 && q.mode.reports dir then reportFlip c p dir frame v s else s
  else s

/-- R161: the probes in ascending order of index. -/
def evalProbes (c : Channel) (m : Measures) (frame : Nat) (s : State) : State :=
  (List.finRange 8).foldl (fun s p => evalProbe c m frame p s) s

/-- R151: the count of frames evaluated, wrapping at 2^32. -/
def ChannelRec.counted (k : ChannelRec) : ChannelRec := { k with evaluated := (k.evaluated + 1) % 2 ^ 32 }

/-- R158: the evaluation of a completed frame of a PICTURE file. -/
def evaluatePicture (c : Channel) (frame digest : Nat) (m : MetaMeasures) (s : State) : State :=
  modChannel c (fun k => { k.counted with prevDigest := some digest, frame := none })
    (evalProbes c (s.channels[c].pictureMeasures digest m) frame s)

/-- R160: a META_ONLY evaluation. -/
def evaluateMeta (c : Channel) (frame : Nat) (m : MetaMeasures) (s : State) : State :=
  modChannel c ChannelRec.counted (evalProbes c (metaOnlyMeasures m) frame s)

/-! ### Test runs (R168 to R172) -/

/-- R169: a channel enters TEST. -/
def startTest (c : Channel) (profile : Fin 8) (width height : Nat) (run : TestRun) (s : State) : State :=
  modChannel c (fun _ => latchedChannel (.test run) profile width height s) s

/-- R170, R172: the next synthetic frame is evaluated under look 0; after the last the channel is FREE. -/
def evaluateTest (c : Channel) (s : State) : State :=
  match s.channels[c].state with
  | .test run =>
    let s := evalProbes c (s.channels[c].flatMeasures run s.looks[0]) run.next s
    if run.next + 1 < run.count then
      modChannel c (fun k => { k.counted with state := .test { run with next := run.next + 1 } }) s
    else modChannel c (fun _ => ChannelRec.initial) s
  | _ => s

/-- TEST_FRAME_EVALUATION. -/
def execTestFrameEvaluation (c : Channel) (s : State) : Host.Outcome State Fault Refusal :=
  live s fun s => .next (evaluateTest c s)

end Sys2Proof.Machine
end

