-- ==== Sys2Proof/Machine/Review.lean ====
section
/-! DEFINITION. The look engines and review outputs (chapter 7): the output frame, grading an entry, the look queue,
review selection and the followed file; and the steps ENTRY_START and ENTRY_COMPLETION. -/

namespace Sys2Proof.Machine

open Sys2Proof

/-- R106: how the Preview Assembler reads a file. -/
inductive ParseMode where
  | none_ | picture | metaOnly
  deriving DecidableEq, Repr

/-- R106: the parsing mode a latched format gives; `none` is a route's format index of 255. -/
def parseMode : Option FormatEntry → ParseMode
  | none => .none_
  | some f => if f.valid = false then .none_ else if f.packing = .none_ then .metaOnly else .picture

/-- R106: the parsing mode of a file record; a record that is not STREAMING has none. -/
def FileRec.mode (f : FileRec) : ParseMode := parseMode (f.assembly.bind Assembly.format)

/-! ### The output frame -/

/-- R140: an output frame that is open ends with the broken mark. -/
def EngineState.endBroken (g : EngineState) : EngineState :=
  match g.out with
  | .none_ => g
  | .opened n k => { g with out := .none_, sent := g.sent ++ [.frameEnd n k true] }
  | .broken n k => { g with out := .none_, sent := g.sent ++ [.frameEnd n k true] }

/-- R139: the completion of a complete-marked entry ends the output frame, clean while it is OPEN. -/
def EngineState.endComplete (g : EngineState) : EngineState :=
  match g.out with
  | .opened n k => { g with out := .none_, sent := g.sent ++ [.frameEnd n k false] }
  | _ => g.endBroken

/-- R141: graded lines increase the output frame's count of lines sent. -/
def OutFrame.addLines (o : OutFrame) (n : Nat) : OutFrame :=
  match o with
  | .none_ => .none_
  | .opened f k => .opened f (k + n)
  | .broken f k => .broken f (k + n)

/-! ### Grading -/

/-- The pixels of an entry in processing. -/
def Processing.total (p : Processing) (item : LookItem) : Nat := item.lineCount * p.width

/-- R141: the lines finished when grading goes from pixel `a` to pixel `b` of the entry. -/
def linesBetween (width firstLine a b : Nat) (out : List Pixel) : List ReviewItem :=
  (List.range' (a / width) (b / width - a / width)).map fun j =>
    ReviewItem.line (firstLine + j) ((out.drop (j * width)).take width)

/-- R135, R131, R141: the entry in processing is graded up to pixel `b`: the sticky flags gather the conditions of
the pixels graded, and each finished line is handed to the review output in line order. -/
def EngineState.gradeTo (g : EngineState) (item : LookItem) (payload : Bytes) (b : Nat) : EngineState :=
  match g.proc, g.working with
  | some p, some w =>
    let graded := (pixelsOf p.packing payload).map w.look.grade
    let c := ((graded.drop p.graded).take (b - p.graded)).foldl (fun c q => c.or q.2) Conditions.clear
    let lines := linesBetween p.width item.firstLine p.graded b (graded.map Prod.fst)
    { g with
      proc := some { p with graded := b }
      flagInexact := g.flagInexact || c.inexact
      flagOver := g.flagOver || c.tooHigh
      flagUnder := g.flagUnder || c.tooLow
      sent := g.sent ++ lines
      out := g.out.addLines lines.length }
  | _, _ => g

/-- R135 (LOG 8): how far the engine has come with the entry in processing is a free value, short of its last
pixel; it is settled when a step can see it. -/
def progressEngine (e : Engine) (s : State) : State :=
  match s.engines[e].proc, s.engines[e].queue with
  | some p, item :: _ =>
    if p.graded < p.total item then
      let b := p.graded + Config.freeProgress s.freeCtr % (p.total item - p.graded)
      { modEngine e (fun g => g.gradeTo item s.slots[item.slot].seg.payload b) s with freeCtr := s.freeCtr + 1 }
    else s
  | _, _ => s

/-! ### The follow -/

/-- R146: when the ended flag is set, the queue is empty and nothing is in processing, the follow ends. -/
def EngineState.finishFollow (g : EngineState) : EngineState :=
  match g.follow with
  | some f =>
    if f.ended ∧ g.queue = [] ∧ g.proc = none then { g.endBroken with follow := none } else g
  | none => g

/-- R146: the ended flag of the follow is set. -/
def EngineState.setEnded (g : EngineState) : EngineState :=
  { g with follow := g.follow.map fun f => { f with ended := true } }

/-- The entries of the look queue that are not in processing. -/
def EngineState.waiting (g : EngineState) : List LookItem := if g.proc.isSome then g.queue.drop 1 else g.queue

/-- R145 step 1: one discarded entry: a review skip, a REVIEW_SKIPS event against the link that carried the segment,
and the slot reference released. -/
def discardCounted (e : Engine) (item : LookItem) (s : State) : State :=
  let s := loseOne (.skips e) s
  let s := match s.slots[item.slot].owner with
    | some l => countEvent .reviewSkips (.link l) 1 s
    | none => s
  dropRef item.slot s

/-- R145 step 1: every entry not in processing is discarded and counted. -/
def discardWaiting (e : Engine) (s : State) : State :=
  let gone := s.engines[e].waiting
  let s := gone.foldl (fun s item => discardCounted e item s) s
  modEngine e (fun g => { g with queue := if g.proc.isSome then g.queue.take 1 else [] }) s

/-- R145 step 5: once no entry is in processing, an output frame still open ends with the broken mark. -/
def EngineState.closeOld (g : EngineState) : EngineState :=
  if g.proc.isSome then { g with closeAfter := true } else g.endBroken

/-- R145: a change of follow. -/
def changeFollow (e : Engine) (new : Option Follow) (s : State) : State :=
  modEngine e (fun g => { g with pendingGap := false, follow := new }.closeOld) (discardWaiting e s)

/-- R145 step 4: what an engine latches of a file. -/
def followOf (i : FileIx) (s : State) : Option Follow :=
  match s.files[i].file with
  | none => none
  | some f =>
    match f.assembly.bind Assembly.format with
    | none => none
    | some m => some ⟨tidOf i s, labelAt f.card s, f.number, m.width, m.height, m.packing, f.route.look, false⟩

/-- R142, R143: the card of the file is mounted on a link of the set. -/
def onLinks (links : BitVec 4) (f : FileRec) (s : State) : Bool :=
  match (s.cards[f.card]).bind Card.handle with
  | some h => links.getLsbD h.link.val
  | none => false

/-- R142 to R144: the file is one the selection can follow. -/
def selects (sel : Selection) (f : FileRec) (s : State) : Bool :=
  f.state == .streaming && f.mode == .picture &&
    match sel with
    | .off => false
    | .follow links => onLinks links f s
    | .pin label number => labelAt f.card s == label && f.number == number

/-- R142: among record indices, the one with the highest open stamp. -/
def latestOpened (s : State) (is : List FileIx) : Option FileIx :=
  is.foldl (fun best i =>
    match best with
    | none => some i
    | some b =>
      if (s.files[b].file.map FileRec.stamp).getD 0 < (s.files[i].file.map FileRec.stamp).getD 0 then some i else best)
    none

/-- R142: the file a selection chooses. -/
def chooseFile (sel : Selection) (s : State) : Option FileIx :=
  latestOpened s (allIx fun i => (s.files[i].file.map fun f => selects sel f s).getD false)

/-- R142: a selection is stored and a followed file chosen under it. -/
def takeSelection (e : Engine) (sel : Selection) (s : State) : State :=
  let s := modEngine e (fun g => { g with selection := sel }) s
  let new := (chooseFile sel s).bind fun i => followOf i s
  if new.map Follow.tid = s.engines[e].follow.map Follow.tid then s else changeFollow e new s

/-- R143, R144: a taken OPEN is reported to one engine. -/
def reportOpenTo (i : FileIx) (e : Engine) (s : State) : State :=
  match s.files[i].file with
  | none => s
  | some f => if selects s.engines[e].selection f s then changeFollow e (followOf i s) s else s

/-- R143: a taken OPEN is reported to both engines. -/
def reportOpen (i : FileIx) (s : State) : State := reportOpenTo i 1 (reportOpenTo i 0 s)

/-- R146: the followed file's LAST is accepted. -/
def endFollowLast (tid : Tid) (e : Engine) (s : State) : State :=
  modEngine e (fun g => if g.follow.map Follow.tid = some tid then g.setEnded.finishFollow else g) s

/-- R146: a followed file that passes a test ends by an abort, a sequence break or CLEAR CARD. -/
def endFollowAbort (p : Follow → Bool) (e : Engine) (s : State) : State :=
  if (s.engines[e].follow.map p).getD false then
    modEngine e (fun g => g.setEnded.finishFollow) (discardWaiting e s)
  else s

/-- R146, on both engines. -/
def endFollowsAbort (p : Follow → Bool) (s : State) : State := endFollowAbort p 1 (endFollowAbort p 0 s)

/-- R134: an accepted PREVIEW segment of a file is offered to one engine. -/
def offerLookTo (l : SrcLink) (tid : Tid) (i : SlotIx) (g : Segment) (place : Placement) (complete : Bool)
    (e : Engine) (s : State) : State :=
  if s.engines[e].follow.map Follow.tid = some tid then
    if s.engines[e].queue.length < Config.lookQueueCap then
      addRef i (modEngine e (fun k => { k with
        queue := k.queue ++ [⟨i, g.frame, g.firstLine, g.lineCount, place, complete, k.pendingGap⟩]
        pendingGap := false }) s)
    else
      modEngine e (fun k => { k with pendingGap := true }) (countEvent .reviewSkips (.link l) 1 (loseOne (.skips e) s))
  else s

/-! ### Starting and completing entries -/

/-- R136: the head entry leaves the queue and its slot loses one reference; where the queue is then empty and the
ended flag set, the follow ends. -/
def leaveQueue (e : Engine) (s : State) : State :=
  match s.engines[e].queue with
  | [] => s
  | item :: rest =>
    dropRef item.slot (modEngine e (fun g => { g with queue := rest, proc := none }.finishFollow) s)

/-- R135: the head entry is in processing, with the followed file's latched geometry. -/
def EngineState.beginGrading (g : EngineState) (f : Follow) : EngineState :=
  { g with proc := some ⟨f.width, f.packing, 0⟩ }

/-- R137: the engine starts a BEGIN entry. -/
def startBegin (e : Engine) (item : LookItem) (f : Follow) (s : State) : State :=
  modEngine e (fun g =>
    let g := g.endBroken
    { g with
      working := some ⟨f.look, s.looks[f.look]⟩
      sent := g.sent ++ [ReviewItem.frameStart e f.label f.file f.tid item.frame f.width f.height f.look]
      out := .opened item.frame 0 }.beginGrading f) s

/-- R138: the engine starts a CONTINUE or MISFIT entry. -/
def startOther (e : Engine) (item : LookItem) (f : Follow) (s : State) : State :=
  match s.engines[e].out with
  | .none_ => leaveQueue e s
  | .opened n k =>
    if n ≠ item.frame then leaveQueue e (modEngine e EngineState.endBroken s)
    else if item.placement = .misfit then leaveQueue e (modEngine e (fun g => { g with out := .broken n k }) s)
    else modEngine e (fun g =>
      { g with out := if item.gap then .broken n k else .opened n k }.beginGrading f) s
  | .broken n _ =>
    if n ≠ item.frame then leaveQueue e (modEngine e EngineState.endBroken s)
    else if item.placement = .misfit then leaveQueue e s
    else modEngine e (fun g => g.beginGrading f) s

/-- R135: the engine starts its head entry, when no entry is in processing. -/
def startEntry (e : Engine) (s : State) : State :=
  match s.engines[e].proc, s.engines[e].queue, s.engines[e].follow with
  | none, item :: _, some f => if item.placement = .begin then startBegin e item f s else startOther e item f s
  | _, _, _ => s

/-- R136, R139, R145 step 5: the completion of the entry in processing, once its last line is handed over. -/
def completeEntry (e : Engine) (s : State) : State :=
  match s.engines[e].proc, s.engines[e].queue with
  | some p, item :: _ =>
    let s := modEngine e (fun g => g.gradeTo item s.slots[item.slot].seg.payload (p.total item)) s
    let s := modEngine e (fun g => if item.complete then g.endComplete else g) s
    let s := modEngine e (fun g => if g.closeAfter then { g.endBroken with closeAfter := false } else g) s
    leaveQueue e s
  | _, _ => s

/-- R147: a soft reset of one engine. -/
def softResetEngine (e : Engine) (s : State) : State :=
  let s := progressEngine e s
  let s := s.engines[e].queue.foldl (fun s item => dropRef item.slot s) s
  modEngine e (fun g => { g.endBroken with
    queue := [], proc := none, closeAfter := false, follow := none, pendingGap := false, working := none }) s

/-- ENTRY_START. -/
def execEntryStart (e : Engine) (s : State) : Host.Outcome State Fault Refusal :=
  live s fun s => .next (startEntry e s)

/-- ENTRY_COMPLETION. -/
def execEntryCompletion (e : Engine) (s : State) : Host.Outcome State Fault Refusal :=
  live s fun s => .next (completeEntry e s)

end Sys2Proof.Machine
end

