-- ==== Sys2Proof/Machine/Preview.lean ====
section
/-! DEFINITION. The Preview Assembler (chapter 6): frame assembly, metadata decode, timecode succession and evaluation
events. -/

namespace Sys2Proof.Machine

open Sys2Proof

/-- The frame assembly state of a file changed. -/
def modAssembly (i : FileIx) (f : Assembly → Assembly) (s : State) : State :=
  modFile i (fun r => { r with assembly := r.assembly.map f }) s

/-- R106, R109: the frame assembly state at an OPEN. -/
def Assembly.start (format : Option FormatEntry) : Assembly := ⟨format, .idle, none, 0, none, [], none, none⟩

/-- R106: the PVA starts a file's frame assembly and latches the entry its route names. -/
def startAssembly (i : FileIx) (s : State) : State :=
  modFile i (fun r => { r with assembly := some (Assembly.start (r.route.format.map fun k => s.formats[k])) }) s

/-! ### Timecodes (R117, R121) -/

/-- R117: the number two decimal digits stand for, if both are 0..9. -/
def bcd (b : Byte) : Option Nat :=
  if b.toNat / 16 < 10 ∧ b.toNat % 16 < 10 then some (b.toNat / 16 * 10 + b.toNat % 16) else none

/-- R117: the four bytes of a timecode, frames first, at a frame rate. -/
def decodeTimecode (rate : FrameRate) (bs : Bytes) : TimecodeField :=
  match bcd (bs.getD 0 0), bcd (bs.getD 1 0), bcd (bs.getD 2 0), bcd (bs.getD 3 0) with
  | some f, some sec, some m, some h =>
    if f < rate.fps ∧ sec < 60 ∧ m < 60 ∧ h < 24 then .valid ⟨h, m, sec, f⟩ else .invalid
  | _, _, _, _ => .invalid

/-- R121: the successor of a valid timecode. -/
def Timecode.successor (t : Timecode) (rate : FrameRate) : Timecode :=
  if t.frames + 1 < rate.fps then { t with frames := t.frames + 1 }
  else if t.seconds + 1 < 60 then { t with frames := 0, seconds := t.seconds + 1 }
  else if t.minutes + 1 < 60 then { t with frames := 0, seconds := 0, minutes := t.minutes + 1 }
  else if t.hours + 1 < 24 then ⟨t.hours + 1, 0, 0, 0⟩
  else ⟨0, 0, 0, 0⟩

/-! ### Metadata measurements (R119) -/

/-- R119: TC_INVALID of a record. -/
def TimecodeField.measureInvalid : TimecodeField → Option Nat
  | .absent => none
  | .invalid => some 1
  | .valid _ => some 0

/-- R119: TC_BREAK of a record against the previous timecode. -/
def TimecodeField.measureBreak (t : TimecodeField) (prev : Option Timecode) (rate : FrameRate) : Option Nat :=
  match t with
  | .absent => none
  | .invalid => some 0
  | .valid x =>
    match prev with
    | none => some 0
    | some p => some (if x = p.successor rate then 0 else 1)

/-- R119: COUNT_GAP of a counter against the previous counter, saturated at 65535. -/
def countGap (counter : Nat) (prev : Option Nat) : Nat :=
  match prev with
  | none => 0
  | some p => min 65535 ((((counter : Int) - p - 1) % 2 ^ 32).toNat)

/-- R119: the metadata measurements of an evaluation; a frame without metadata has none. -/
def Assembly.measures (a : Assembly) (rate : FrameRate) (m : Option MetaRec) : MetaMeasures :=
  match m with
  | none => ⟨none, none, none⟩
  | some r =>
    ⟨r.timecode.measureInvalid, r.timecode.measureBreak a.prevTimecode rate,
      r.counter.map fun c => countGap c a.prevCounter⟩

/-- R119: the previous values after an evaluation. -/
def Assembly.updatePrevious (a : Assembly) (m : Option MetaRec) : Assembly :=
  match m with
  | none => a
  | some r =>
    { a with
      prevTimecode := match r.timecode with
        | .valid t => some t
        | _ => a.prevTimecode
      prevCounter := match r.counter with
        | some c => some c
        | none => a.prevCounter }

/-! ### Frames (R110 to R115) -/

/-- R110: the shape of a PREVIEW segment is good. -/
def shapeOk (m : FormatEntry) (g : Segment) : Bool :=
  decide (1 ≤ g.lineCount ∧ g.lineCount ≤ 1024 ∧ g.firstLine + g.lineCount ≤ m.height ∧
    g.payload.length = g.lineCount * m.width * m.packing.bytesPerPixel)

/-- R113: a PARTIAL_FRAME record is logged. -/
def logPartial (i : FileIx) (frame : Nat) (c : PartialCause) (s : State) : State :=
  match s.files[i].file with
  | none => s
  | some f =>
    logFault { FaultRec.ofFile .partialFrame .warn (labelAt f.card s) f.number with
      frames := some ⟨frame, frame⟩, code := some (.partialFrame c) } s

/-- What the PVA tells the channel a file holds, if it holds one. -/
def toChannel (i : FileIx) (f : Channel → State → State) (s : State) : State :=
  match s.files[i].file.bind FileRec.channel with
  | none => s
  | some c => f c s

/-- R113: the frame in progress, in BUILDING or BROKEN, is closed as partial. -/
def closePartial (i : FileIx) (s : State) : State :=
  match s.files[i].file.bind FileRec.assembly with
  | none => s
  | some a =>
    let n := a.lastFrame.getD 0
    let cause : PartialCause := match a.state with
      | .broken c => c
      | _ => .incomplete
    let s := modAssembly i (fun a => { a with
      state := .idle, digest := none, store := a.store.filter fun r => r.frame != n }) s
    logPartial i n cause (toChannel i discardFrame s)

/-- R112: the frame is complete: its digest is finalised and its evaluation event issued (R119), against the source
link that carried the completing segment. -/
def completeFrame (i : FileIx) (l : SrcLink) (frame : Nat) (m : FormatEntry) (s : State) : State :=
  match s.files[i].file.bind FileRec.assembly with
  | none => s
  | some a =>
    let digest := (a.digest.getD Sums.initial).finalise.value
    let record := a.store.find? fun r => r.frame == frame
    let measures := a.measures m.rate record
    let s := modAssembly i (fun a => { a.updatePrevious record with
      state := .idle, digest := none, store := a.store.filter fun r => r.frame != frame }) s
    toChannel i (fun c s => evaluatePicture c frame digest measures (countEvent .framesInspected (.link l) 1 s)) s

/-- R112: a segment is parsed into the current frame; the answer says whether it completed the frame. -/
def parseSegment (i : FileIx) (l : SrcLink) (m : FormatEntry) (g : Segment) (s : State) : State × Bool :=
  let next := g.firstLine + g.lineCount
  let s := modAssembly i (fun a => { a with
    digest := a.digest.map fun d => d.advance g.payload, nextLine := next }) s
  let s := toChannel i (fun c => gather c (pixelsOf m.packing g.payload) g.lineCount) s
  if next = m.height then (completeFrame i l g.frame m s, true) else (s, false)

/-- R112: a frame begins at a segment whose first line is 0. -/
def beginAssembly (i : FileIx) (g : Segment) (s : State) : State :=
  let s := modAssembly i (fun a => { a with
    state := .building, lastFrame := some g.frame, nextLine := 0, digest := some Sums.initial,
    store := a.store.filter fun r => decide (g.frame ≤ r.frame) }) s
  match s.files[i].file with
  | none => s
  | some f => toChannel i (fun c => beginFrame c g.frame f.route.look) s

/-- R111: the cause a misfit in place gives. -/
def misfitCause (shape : Bool) : PartialCause := if shape then .line else .shape

/-- R111, the first two rows: a segment of a greater frame number placed in IDLE; a frame that begins broken counts as
begun (R109), so lower records leave the store too (LOG 28). -/
def placeGreater (i : FileIx) (l : SrcLink) (m : FormatEntry) (g : Segment) (s : State) :
    State × Placement × Bool :=
  let shape := shapeOk m g
  if g.firstLine = 0 ∧ shape then
    let r := parseSegment i l m g (beginAssembly i g s)
    (r.1, .begin, r.2)
  else
    (modAssembly i (fun a => { a with
      state := .broken (misfitCause shape), lastFrame := some g.frame,
      store := a.store.filter fun r => decide (g.frame ≤ r.frame) }) s, .misfit, false)

/-- R111: the frame number is greater than the last one, or there is no last one. -/
def Assembly.greater (a : Assembly) (frame : Nat) : Bool :=
  match a.lastFrame with
  | none => true
  | some n => decide (n < frame)

/-- R110 to R112: the PVA reads a PREVIEW segment of a PICTURE file; the answer holds the placement and whether the
segment completed its frame (R133). -/
def readPreview (i : FileIx) (l : SrcLink) (m : FormatEntry) (g : Segment) (s : State) : State × Placement × Bool :=
  match s.files[i].file.bind FileRec.assembly with
  | none => (s, .misfit, false)
  | some a =>
    match a.state with
    | .idle =>
      if a.greater g.frame then placeGreater i l m g s else (logPartial i g.frame .order s, .misfit, false)
    | .building =>
      if a.greater g.frame then placeGreater i l m g (closePartial i s)
      else if a.lastFrame ≠ some g.frame then
        (modAssembly i (fun a => { a with state := .broken .order }) s, .misfit, false)
      else if g.firstLine = a.nextLine ∧ shapeOk m g then
        let r := parseSegment i l m g s
        (r.1, .continue_, r.2)
      else (modAssembly i (fun a => { a with state := .broken (misfitCause (shapeOk m g)) }) s, .misfit, false)
    | .broken _ =>
      if a.greater g.frame then placeGreater i l m g (closePartial i s) else (s, .misfit, false)

/-- R115: at an accepted LAST segment, a frame still in BUILDING or BROKEN is closed as partial. -/
def closeAtLast (i : FileIx) (s : State) : State :=
  match s.files[i].file.bind FileRec.assembly with
  | none => s
  | some a => if a.state = .idle then s else closePartial i s

/-! ### Metadata records (R116, R118, R120) -/

/-- R116: a record of the latched length, decoded. -/
def decodeMeta (m : FormatEntry) (g : Segment) : MetaRec :=
  { frame := g.frame
    timecode := match m.timecodeOffset with
      | some o => decodeTimecode m.rate (bytesAt g.payload o 4)
      | none => .absent
    counter := m.counterOffset.map fun o => fieldAt g.payload o 4 }

/-- R118: a record put into its place in ascending order of frame number, replacing one of its own frame. -/
def insertRecord (r : MetaRec) : List MetaRec → List MetaRec
  | [] => [r]
  | x :: rest =>
    if r.frame < x.frame then r :: x :: rest
    else if r.frame = x.frame then r :: rest
    else x :: insertRecord r rest

/-- R118: a decoded record is offered to the metadata store. -/
def Assembly.offer (a : Assembly) (r : MetaRec) : Assembly :=
  let late : Bool := match a.lastFrame with
    | none => false
    | some n => decide (r.frame < n) || (r.frame == n && a.state == .idle)
  if late then a
  else
    let store := insertRecord r a.store
    { a with store := if Config.storeCap < store.length then store.drop 1 else store }

/-- R120: a decoded META of a META_ONLY file is an evaluation event, issued at once. -/
def evaluateMetaOnly (i : FileIx) (l : SrcLink) (m : FormatEntry) (r : MetaRec) (s : State) : State :=
  match s.files[i].file.bind FileRec.assembly with
  | none => s
  | some a =>
    let measures := a.measures m.rate (some r)
    let s := modAssembly i (fun a => a.updatePrevious (some r)) s
    toChannel i (fun c s => evaluateMeta c r.frame measures (countEvent .framesInspected (.link l) 1 s)) s

/-- R116: a META payload of another length than the record length. -/
def metaParseFailure (i : FileIx) (m : FormatEntry) (g : Segment) (s : State) : State :=
  match s.files[i].file with
  | none => s
  | some f =>
    let s := if parseMode (some m) = .picture then
        modAssembly i (fun a => { a with store := a.store.filter fun r => r.frame != g.frame }) s
      else s
    logFault { FaultRec.ofFile .metaParse .warn (labelAt f.card s) f.number with
      frames := some ⟨g.frame, g.frame⟩, values := [g.payload.length, m.recordLength] } s

/-- R116: the PVA reads a META segment of a PICTURE or META_ONLY file. -/
def readMeta (i : FileIx) (l : SrcLink) (m : FormatEntry) (g : Segment) (s : State) : State :=
  if g.payload.length ≠ m.recordLength then metaParseFailure i m g s
  else
    let r := decodeMeta m g
    if parseMode (some m) = .metaOnly then evaluateMetaOnly i l m r s else modAssembly i (fun a => a.offer r) s

end Sys2Proof.Machine
end

