-- ==== Sys2Proof/Machine/Queue.lean ====
section
/-! DEFINITION. The destination queues (chapter 5): their messages (R218), credit and stall (R77, R79), withdrawal (R85),
coalescing of ABORTs (R81), purges (R59) and the open transfer set (R84). -/

namespace Sys2Proof.Machine

open Sys2Proof

/-! ### Entries and messages -/

/-- R83: the transfer id of an entry; a HALT has none. -/
def QEntry.tid : QEntry → Option Tid
  | .openMsg t .. => some t
  | .data t _ => some t
  | .close t .. => some t
  | .abort t => some t
  | .halt => none

/-- R85: an OPEN, DATA or CLOSE entry of the transfer id. -/
def QEntry.belongs (t : Tid) : QEntry → Bool
  | .openMsg u .. => u == t
  | .data u _ => u == t
  | .close u .. => u == t
  | _ => false

/-- R85: the OPEN entry of the transfer id. -/
def QEntry.isOpen (t : Tid) : QEntry → Bool
  | .openMsg u .. => u == t
  | _ => false

/-- R77: every message but HALT needs one credit. -/
def QEntry.needsCredit : QEntry → Bool
  | .halt => false
  | _ => true

/-- R80: the slot a DATA entry refers to. -/
def QEntry.slot : QEntry → Option SlotIx
  | .data _ i => some i
  | _ => none

/-- R218: the header of an outward message. -/
def outHeader (type : Nat) (bodyLength : Nat) (tid : Bytes) : Bytes := le 1 type ++ [0] ++ le 2 bodyLength ++ tid

/-- R218: the message an entry becomes at the start of its transmission. A DATA message takes its offset and its
bytes from the slot (R82). -/
def QEntry.message (e : QEntry) (s : State) : Bytes :=
  match e with
  | .openMsg t label file name size =>
    outHeader 0 96 (tidField t) ++ labelField label ++ yesNo size.isSome ++ le 4 file ++ optField 8 size
      ++ yesNo name.isSome ++ le 1 (name.getD []).length ++ padTo 64 (name.getD [])
  | .data t i =>
    let g := s.slots[i].seg
    outHeader 1 (8 + g.payload.length) (tidField t) ++ le 8 g.offset ++ g.payload
  | .close t digest size => outHeader 2 16 (tidField t) ++ le 8 digest ++ le 8 size
  | .abort t => outHeader 3 0 (tidField t)
  | .halt => outHeader 4 0 (zeros 4)

/-- The entries of the queue that wait: all but the one in transmission, which is the head (R74). -/
def DestPort.waiting (p : DestPort) : List QEntry := if p.tx.isSome then p.queue.drop 1 else p.queue

/-- The entry in transmission, as a list of none or one. -/
def DestPort.sending (p : DestPort) : List QEntry := if p.tx.isSome then p.queue.take 1 else []

/-- The references of DATA entries that have left a queue are released (R57, R59). -/
def releaseEntries (es : List QEntry) (s : State) : State := (es.filterMap QEntry.slot).foldl (fun s i => dropRef i s) s

/-! ### Credit and stall -/

/-- R77: an entry can take a credit, or needs none. -/
def DestPort.canTake (p : DestPort) (e : QEntry) : Bool :=
  !e.needsCredit || match p.limit with
    | .absent => false
    | .number n => decide (p.inUse < n)
    | .unlimited => true

/-- R79: the conditions of the stall flag hold together. -/
def DestPort.stalled (p : DestPort) : Bool :=
  p.state == .up && p.tx.isNone && (p.queue.head?.map QEntry.needsCredit).getD false && p.limit == .number p.inUse

/-- R79: the stall flag goes from clear to set, and one CREDIT_STALL event is counted. -/
def checkStall (d : Dest) (s : State) : State :=
  if s.dest[d].stalled ∧ s.dest[d].stall = false then
    countEvent .creditStall (.dest d) 1 (modDest d (fun p => { p with stall := true }) s)
  else s

/-- R79, on every destination, at the end of a step that changes queues of several. -/
def checkStalls (s : State) : State := (List.finRange 6).foldl (fun s d => checkStall d s) s

/-! ### Joining and leaving the queue -/

/-- R80: an entry joins the tail. -/
def enqueue (d : Dest) (e : QEntry) (s : State) : State := modDest d (fun p => { p with queue := p.queue ++ [e] }) s

/-- R81: a waiting ABORT for the same record index with another generation. -/
def QEntry.isStaleAbort (t : Tid) : QEntry → Bool
  | .abort u => u.index == t.index && u.gen != t.gen
  | _ => false

/-- R81: an ABORT is to join the queue. -/
def DestPort.queueAbort (p : DestPort) (t : Tid) : DestPort :=
  if p.waiting.contains (.abort t) then p
  else { p with queue := p.sending ++ p.waiting.filter (fun e => !e.isStaleAbort t) ++ [.abort t] }

/-- R85, R86: the queue and timers of a destination after a copy is withdrawn. -/
def DestPort.withdraw (p : DestPort) (t : Tid) : DestPort :=
  let openWaits := p.waiting.any (QEntry.isOpen t)
  let p' : DestPort := { p with
    queue := p.sending ++ p.waiting.filter (fun e => !e.belongs t)
    tx := p.tx.map fun x =>
      if (p.queue.head?.map (QEntry.belongs t)).getD false then { x with noResend := true } else x
    timers := p.timers.filter fun v => v.file != t.index }
  if openWaits then p' else p'.queueAbort t

/-- R85: a copy is withdrawn from its destination; the references of the DATA entries removed are released. -/
def withdraw (d : Dest) (t : Tid) (s : State) : State :=
  let gone := s.dest[d].waiting.filter (QEntry.belongs t)
  releaseEntries gone (modDest d (fun p => p.withdraw t) s)

/-- R59: every waiting entry that fails a test is purged, and its reference released. -/
def purgeWaiting (d : Dest) (keep : QEntry → Bool) (s : State) : State :=
  let gone := s.dest[d].waiting.filter fun e => !keep e
  releaseEntries gone (modDest d (fun p => { p with queue := p.sending ++ p.waiting.filter keep }) s)

/-! ### The open transfer set (R84) -/

/-- R84: a transfer id put into its place in ascending order of record index, in place of a member of its index. -/
def insertTid (t : Tid) : List Tid → List Tid
  | [] => [t]
  | u :: rest =>
    if t.index < u.index then t :: u :: rest
    else if t.index = u.index then t :: rest
    else u :: insertTid t rest

/-- R84: the members of a record index leave the set. -/
def removeIndex (i : FileIx) (set : List Tid) : List Tid := set.filter fun u => u.index != i

/-! ### Ending a transmission nullified (R82, R86) -/

/-- R82, R86: a transmission in progress ends nullified. Its entry stays at the head, unless it is not to be sent
again; then it leaves, and a DATA entry releases its reference. -/
def nullify (d : Dest) (s : State) : State :=
  match s.dest[d].tx with
  | none => s
  | some x =>
    if x.noResend then
      releaseEntries s.dest[d].sending (modDest d (fun p => { p with queue := p.queue.drop 1, tx := none }) s)
    else modDest d (fun p => { p with tx := none }) s

end Sys2Proof.Machine
end

