-- ==== Sys2Proof/Machine/Offload.lean ====
section
/-! DEFINITION. The Offload Manager's operations on file records (chapter 2): copy states, aborts and sequence breaks,
settling and manifests, routing, and the freeing of records. -/

namespace Sys2Proof.Machine

open Sys2Proof

/-! ### Copy states (R27, R28) -/

/-- R27: a copy is unsettled in PENDING, SENDING and CLOSED. -/
def CopyState.unsettled : CopyState → Bool
  | .pending | .sending | .closed => true
  | .none_ | .verified | .failed _ => false

/-- The destinations on which a copy state passes a test, in ascending order. -/
def FileRec.destsWith (f : FileRec) (p : CopyState → Bool) : List Dest := allIx fun d : Dest => p f.copies[d]

/-- The destinations whose copies are unsettled, in ascending order. -/
def FileRec.unsettledDests (f : FileRec) : List Dest := f.destsWith CopyState.unsettled

/-- R40: the destinations whose copies are VERIFIED, as a set. -/
def FileRec.verifiedSet (f : FileRec) : BitVec 6 :=
  (f.destsWith (· == .verified)).foldl (fun acc d => acc ||| (1#6 <<< d.val)) 0#6

/-- R27: the count of VERIFIED copies across all six destinations. -/
def FileRec.verifiedCount (f : FileRec) : Nat := (f.destsWith (· == .verified)).length

/-- The copy of a file record on a destination; NONE where the record is free. -/
def copyAt (i : FileIx) (d : Dest) (s : State) : CopyState := (s.files[i].file.map fun f => f.copies[d]).getD .none_

/-- A copy state changed. -/
def setCopy (i : FileIx) (d : Dest) (c : CopyState) (s : State) : State :=
  modFile i (fun f => { f with copies := vmod f.copies d fun _ => c }) s

/-- R28: a copy enters FAILED; every reason but ABORTED logs a COPY_FAILED record. -/
def failCopy (i : FileIx) (d : Dest) (r : FailReason) (values : List Nat) (s : State) : State :=
  match s.files[i].file with
  | none => s
  | some f =>
    let s := setCopy i d (.failed r) s
    if r = .aborted then s
    else logFault { FaultRec.ofFile .copyFailed .warn (labelAt f.card s) f.number with
      dest := some d, code := some (.copyFailed r), values := values } s

/-! ### Freeing and settling (R39, R40) -/

/-- A file record is freed; its position keeps the generation. -/
def freeFile (i : FileIx) (s : State) : State := { s with files := vmod s.files i fun p => { p with file := none } }

/-- R40: the manifest record of a file record; a size of 2^48 shows as 0 in its 6 bytes (LOG 42). -/
def manifestOf (i : FileIx) (f : FileRec) (waived : Bool) (s : State) : Manifest :=
  { label := labelAt f.card s, required := f.route.required, file := f.number, tid := tidOf i s, size := f.nextOffset,
    verified := f.verifiedSet, recopy := f.recopy, waived := waived, digest := f.finalDigest, name := f.name }

/-- R40: a manifest record is issued: offered to the notice queue when manifests are on. -/
def issueManifest (m : Manifest) (s : State) : State := if s.part.manifests then offerNotice (.manifest m) s else s

/-- R39: the file completes: manifest, files completed, the record freed, the verdict. -/
def completeFile (i : FileIx) (f : FileRec) (s : State) : State :=
  let s := issueManifest (manifestOf i f false s) s
  let s := modCard f.card (fun k => { k with completed := satInc k.completed }) s
  reeval f.card (freeFile i s)

/-- R39: the file goes SHORT at settling. -/
def settleShort (i : FileIx) (f : FileRec) (s : State) : State :=
  let s := modFile i (fun f => { f with state := .short }) s
  reeval f.card (logFault { FaultRec.ofFile .fileShort .hold (labelAt f.card s) f.number with
    code := some .shortSettled, values := [f.verifiedCount, f.route.required] } s)

/-- R39: a SETTLING file with no unsettled copy settles. -/
def settleFile (i : FileIx) (s : State) : State :=
  match s.files[i].file with
  | none => s
  | some f =>
    if f.state = .settling ∧ f.unsettledDests = [] then
      if f.route.required ≤ f.verifiedCount then completeFile i f s else settleShort i f s
    else s

/-! ### Aborts and breaks (R29, R37) -/

/-- R29, R37: each unsettled copy, in ascending order of destination, fails with the reason, and its destination
withdraws it (R85). -/
def withdrawUnsettled (i : FileIx) (r : FailReason) (s : State) : State :=
  match s.files[i].file with
  | none => s
  | some f => f.unsettledDests.foldl (fun s d => withdraw d (tidOf i s) (failCopy i d r [] s)) s

/-- R26, R106: the file leaves STREAMING for another state: its channel is released and its frame assembly ends. -/
def leaveStreaming (i : FileIx) (next : FileState) (s : State) : State :=
  modFile i (fun f => { f with state := next, assembly := none }) (releaseChannel i s)

/-- The verdict of the card of a file record is evaluated again. -/
def reevalFile (i : FileIx) (s : State) : State :=
  match s.files[i].file with
  | none => s
  | some f => reeval f.card s

/-- R29, R146: a STREAMING file stops before its LAST: its copies are withdrawn, it goes SHORT, and a follow of it
ends by an abort. -/
def stopFile (i : FileIx) (r : FailReason) (s : State) : State :=
  let s := leaveStreaming i .short (withdrawUnsettled i r s)
  endFollowsAbort (fun f => f.tid == tidOf i s) s

/-- R29: a STREAMING file is aborted. -/
def abortFile (i : FileIx) (s : State) : State :=
  match s.files[i].file with
  | none => s
  | some f =>
    let s := stopFile i .aborted s
    reeval f.card (logFault { FaultRec.ofFile .fileShort .hold (labelAt f.card s) f.number with
      code := some .shortAborted } s)

/-- R37: a STREAMING file breaks; `received` is the offset of the segment that broke it. The offset expected may be 2^48
(LOG 42). -/
def breakFile (i : FileIx) (received : Nat) (s : State) : State :=
  match s.files[i].file with
  | none => s
  | some f =>
    let s := stopFile i .sequence s
    reeval f.card (logFault { FaultRec.ofFile .sequence .hold (labelAt f.card s) f.number with
      values := [f.nextOffset, received] } s)

/-- R44, R45: every STREAMING file of a card is aborted, in ascending order of record index. -/
def abortStreaming (is : List FileIx) (s : State) : State := is.foldl (fun s i => abortFile i s) s

/-! ### Routing (R22) -/

/-- R22: the 24-bit key. -/
def routeKey (camera : BitVec 16) (typeCode : Byte) : BitVec 24 := camera ++ typeCode

/-- R22: the entry matches the key. -/
def RouteEntry.takes (r : RouteEntry) (key : BitVec 24) : Bool :=
  r.enabled && (r.matchValue &&& r.matchMask) == (key &&& r.matchMask)

/-- R22: the lowest-numbered entry that matches. -/
def matchRoute (key : BitVec 24) (s : State) : Option RouteEntry :=
  (firstIx fun k : Fin 32 => s.routes[k].takes key).map fun k => s.routes[k]

/-- The number of destinations in a set. -/
def setSize (set : BitVec 6) : Nat := (allIx fun d : Dest => set.getLsbD d.val).length

/-- R22: the latch. -/
def RouteEntry.latch (r : RouteEntry) : Route :=
  { dests := r.dests, required := min r.required (setSize r.dests), look := r.look, profile := r.profile,
    format := r.format }

/-- R27, R102: a destination takes a new file: its link is UP and it is enabled. -/
def takesFiles (d : Dest) (s : State) : Bool := s.dest[d].state == .up && s.destConfig[d].enabled

/-! ### Sequence records without a break (R16, R30, R35) -/

/-- A HOLD record of a class that names a card and a file number, with values. -/
def logCardFile (cls : FaultClass) (c : CardIx) (number : Nat) (values : List Nat) (s : State) : State :=
  logFault { FaultRec.ofFile cls .hold (labelAt c s) number with values := values } s

end Sys2Proof.Machine
end

