-- ==== Sys2Proof/Machine/DestLink.lean ====
section
/-! DEFINITION. The Destination Link Interfaces (chapter 5): training and credit, transmissions, retrain and DOWN,
quarantine, verification; and their steps. -/

namespace Sys2Proof.Machine

open Sys2Proof

/-! ### Copies of a destination -/

/-- The file records whose copy on the destination is unsettled, in ascending order of record index. -/
def unsettledOn (d : Dest) (s : State) : List FileIx := allIx fun i : FileIx => (copyAt i d s).unsettled

/-- R89, R91: every unsettled copy on the destination fails with the reason, and the file settles where it was the
last one. -/
def failAll (d : Dest) (r : FailReason) (s : State) : State :=
  (unsettledOn d s).foldl (fun s i => settleFile i (failCopy i d r [] s)) s

/-- A record that names the destination and no card. -/
def logDest (cls : FaultClass) (code : Option FaultCode) (d : Dest) (s : State) : State :=
  logFault { FaultRec.offered cls .warn with dest := some d, code := code } s

/-! ### The DOWN procedure (R89) and the retrain (R87) -/

/-- R89: the destination's record after the DOWN procedure. -/
def DestPort.down (p : DestPort) : DestPort :=
  { p with
    state := .down, limit := .absent, inUse := 0, stall := false, queue := [], tx := none, retrain := none
    timers := [], openSet := [] }

/-- R89: the DOWN procedure. -/
def downProcedure (d : Dest) (s : State) : State :=
  let gone := s.dest[d].queue
  logDest .destDown none d (failAll d .link (releaseEntries gone (modDest d DestPort.down s)))

/-- R75, R90: training begins from DOWN if a partner is present. -/
def DestPort.train (p : DestPort) : DestPort :=
  { p with state := if p.state = .down ∧ p.partner then .training else p.state }

/-- R87: an UP link enters RETRAINING; its transmission ends nullified. -/
def startRetrain (d : Dest) (s : State) : State :=
  let limit := s.destConfig[d].retrainLimit
  modDest d (fun p => { p with state := .retraining, retrain := some limit }) (nullify d s)

/-- R90, R92: a QUARANTINED link is no longer aligned. -/
def loseQuarantined (d : Dest) (s : State) : State :=
  modDest d (fun p => { p with aligned := false, limit := .absent, inUse := 0 }) (nullify d s)

/-- R87, R92: what a loss of alignment or of the partner does to an UP or a QUARANTINED link. -/
def loseAlignment (d : Dest) (s : State) : State :=
  match s.dest[d].state with
  | .up => startRetrain d s
  | .quarantined => loseQuarantined d s
  | .down | .training | .retraining => s

/-- DEST_PARTNER_DETECTED (R75, R92). -/
def execDestPartnerDetected (d : Dest) (s : State) : Host.Outcome State Fault Refusal :=
  live s fun s => .next (modDest d (fun p => { p with partner := true }.train) s)

/-- DEST_LOSS_OF_ALIGNMENT (R75, R87, R92). -/
def execDestLossOfAlignment (d : Dest) (s : State) : Host.Outcome State Fault Refusal :=
  live s fun s => .next (loseAlignment d s)

/-- DEST_PARTNER_LOST (R75, R87, R92). -/
def execDestPartnerLost (d : Dest) (s : State) : Host.Outcome State Fault Refusal :=
  live s fun s => .next (modDest d (fun p =>
    { p with partner := false, state := if p.state = .training then .down else p.state }) (loseAlignment d s))

/-- RETRAIN_TIMER_EXPIRY (R75, R89); a timer that is not running cannot expire. -/
def execRetrainTimerExpiry (d : Dest) (s : State) : Host.Outcome State Fault Refusal :=
  live s fun s => .next (if s.dest[d].retrain.isSome then modDest d DestPort.train (downProcedure d s) else s)

/-! ### The credit announcement (R76, R88, R92, R218) -/

/-- R76: the limit an announcement records. -/
def announcedLimit (n : Nat) : CreditLimit := if n = 0 then .unlimited else .number n

/-- R76: the credit exchange. -/
def DestPort.exchange (p : DestPort) (n : Nat) : DestPort :=
  { p with limit := announcedLimit n, inUse := 0, stall := false }

/-- R75, R76, R92: alignment achieved, by the link state alone (LOG 27). -/
def DestPort.achieve (p : DestPort) (n : Nat) : DestPort :=
  match p.state with
  | .training => { p.exchange n with state := .up }
  | .retraining => { p.exchange n with state := .up, retrain := none }
  | .quarantined => if p.aligned then p else { p.exchange n with aligned := true }
  | .down | .up => p

/-- R218: the message held by `wire`, if its type is `k`. -/
def inboundOf (k : Nat) (wire : Bytes) : Option InMessage := (InMessage.ofBytes wire).filter fun m => m.type == k

/-- ANNOUNCE. -/
def execAnnounce (d : Dest) (wire : Bytes) (s : State) : Host.Outcome State Fault Refusal :=
  live s fun s => .next (match inboundOf 3 wire with
    | none => s
    | some m => if m.numberOk then checkStall d (modDest d (fun p => p.achieve m.number) s) else s)

/-! ### Transmissions (R77, R82, R83) -/

/-- R78, R82, R92: the link carries messages: it is UP, or QUARANTINED and aligned. -/
def DestPort.carries (p : DestPort) : Bool := p.state == .up || (p.state == .quarantined && p.aligned)

/-- R82: the head entry can be started; in QUARANTINED only a HALT can. -/
def DestPort.canStart (p : DestPort) (e : QEntry) : Bool :=
  p.carries && p.tx.isNone && p.canTake e && (p.state == .up || e == .halt)

/-- R77: the credit a start takes. -/
def DestPort.takeCredit (p : DestPort) (e : QEntry) : DestPort :=
  match p.limit with
  | .number _ => if e.needsCredit then { p with inUse := p.inUse + 1 } else p
  | .absent | .unlimited => p

/-- R77, R79, R82: the head entry's transmission starts. -/
def startTransmission (d : Dest) (e : QEntry) (s : State) : State :=
  let wire := e.message s
  modDest d (fun p => { p.takeCredit e with tx := some ⟨false, wire⟩, stall := false }) s

/-- DEST_TRANSMISSION_START. -/
def execDestTransmissionStart (d : Dest) (s : State) : Host.Outcome State Fault Refusal :=
  live s fun s => .next (match s.dest[d].queue with
    | [] => s
    | e :: _ => if s.dest[d].canStart e then startTransmission d e s else checkStall d s)

/-- R83, R97: the transfer id names the current generation of a file record. -/
def isCurrent (t : Tid) (s : State) : Bool := s.files[t.index].file.isSome && s.files[t.index].gen == t.gen

/-- R83: a copy of the current generation goes from one state to another. -/
def advanceCopy (t : Tid) (d : Dest) (old new : CopyState) (s : State) : State :=
  if isCurrent t s ∧ copyAt t.index d s = old then setCopy t.index d new s else s

/-- R96: a verify timer starts with the verify timeout as it stands. -/
def startTimer (i : FileIx) (d : Dest) (s : State) : State :=
  let t := s.destConfig[d].verifyTimeout
  modDest d (fun p => { p with timers := p.timers ++ [⟨i, t⟩] }) s

/-- R83: the effect of an entry's good end, by its kind. -/
def sentGood (d : Dest) (e : QEntry) (s : State) : State :=
  match e with
  | .openMsg t .. =>
    modDest d (fun p => { p with openSet := insertTid t p.openSet }) (advanceCopy t d .pending .sending s)
  | .data _ i => dropRef i (countEvent .segOut (.dest d) 1 s)
  | .close t .. =>
    if isCurrent t s ∧ copyAt t.index d s = .sending then startTimer t.index d (setCopy t.index d .closed s) else s
  | .abort t => modDest d (fun p => { p with openSet := removeIndex t.index p.openSet }) s
  | .halt => modDest d (fun p => { p with openSet := [] }) s

/-- R83: the transmission in progress ends good. -/
def endTransmission (d : Dest) (s : State) : State :=
  match s.dest[d].tx, s.dest[d].queue with
  | some _, e :: rest => checkStall d (sentGood d e (modDest d (fun p => { p with tx := none, queue := rest }) s))
  | _, _ => s

/-- DEST_TRANSMISSION_END_GOOD. -/
def execDestTransmissionEndGood (d : Dest) (s : State) : Host.Outcome State Fault Refusal :=
  live s fun s => .next (endTransmission d s)

/-! ### CREDIT (R78) -/

/-- R78: the CREDIT can be taken. -/
def DestPort.creditOk (p : DestPort) (n : Nat) : Bool :=
  match p.limit with
  | .number _ => decide (1 ≤ n ∧ n ≤ p.inUse)
  | .absent | .unlimited => false

/-- R78: a CREDIT taken on a link that carries messages. -/
def takeCreditMessage (d : Dest) (m : InMessage) (s : State) : State :=
  if m.numberOk && s.dest[d].creditOk m.number then modDest d (fun p => { p with inUse := p.inUse - m.number }) s
  else loseOne .stray s

/-- An inbound message of a type is taken on a link that carries messages; R87, R218: elsewhere it is discarded. -/
def takeInbound (k : Nat) (d : Dest) (wire : Bytes) (f : InMessage → State → State) (s : State) : State :=
  match inboundOf k wire with
  | none => s
  | some m => if s.dest[d].carries then f m s else s

/-- CREDIT. -/
def execCredit (d : Dest) (wire : Bytes) (s : State) : Host.Outcome State Fault Refusal :=
  live s fun s => .next (takeInbound 0 d wire (takeCreditMessage d) s)

/-! ### Quarantine (R91, R93) -/

/-- R91: a HALT is needed on entry from RETRAINING, TRAINING or DOWN. -/
def haltFor (queue : List QEntry) (openSet : List Tid) : List QEntry :=
  if openSet ≠ [] ∧ QEntry.halt ∉ queue then queue ++ [.halt] else queue

/-- R91: what every entry to QUARANTINED does to the destination's record. -/
def DestPort.quarantine (p : DestPort) : DestPort :=
  { p with state := .quarantined, timers := [], stall := false, retrain := none }

/-- R91: the destination's record on entry to QUARANTINED, by the state it leaves. From UP the message in
transmission is not sent again, even where it is a HALT (LOG 46). -/
def DestPort.enterQuarantine (p : DestPort) : DestPort :=
  match p.state with
  | .up => { p.quarantine with
      queue := p.sending ++ [.halt], tx := p.tx.map fun x => { x with noResend := true }, aligned := true }
  | .retraining => { p.quarantine with
      queue := haltFor [] p.openSet, aligned := false, limit := .absent, inUse := 0 }
  | .training | .down | .quarantined => { p.quarantine with queue := haltFor p.queue p.openSet, aligned := false }

/-- R91: the entries purged on entry to QUARANTINED. -/
def DestPort.quarantinePurge (p : DestPort) : List QEntry :=
  match p.state with
  | .up => p.waiting
  | .retraining => p.queue
  | .training | .down | .quarantined => []

/-- R91: entry to QUARANTINED. -/
def enterQuarantine (code : FaultCode) (d : Dest) (s : State) : State :=
  let gone := s.dest[d].quarantinePurge
  let s := releaseEntries gone (modDest d DestPort.enterQuarantine s)
  logDest .destQuarantined (some code) d (failAll d .quarantined s)

/-- R93: the consecutive-failure count has reached the threshold of a destination that is not QUARANTINED. -/
def reachesThreshold (d : Dest) (s : State) : Bool :=
  decide (1 ≤ s.part.threshold ∧ s.part.threshold ≤ s.dest[d].failures) && s.dest[d].state != .quarantined

/-- R93: automatic quarantine. -/
def autoQuarantine (d : Dest) (s : State) : State :=
  if reachesThreshold d s then enterQuarantine .byThreshold d s else s

/-- R93: a counted copy failure. -/
def countFailure (d : Dest) (s : State) : State :=
  countEvent .verifyFail (.dest d) 1
    (modDest d (fun p => { p with failures := min Config.failureMax (p.failures + 1) }) s)

/-! ### Verification (R97 to R100) -/

/-- R97: the file record the transfer id of an inbound message names. -/
def resolve (m : InMessage) (s : State) : Option FileIx :=
  if h : m.index < 512 then
    if isCurrent ⟨⟨m.index, h⟩, m.gen⟩ s then some ⟨m.index, h⟩ else none
  else none

/-- R96: the verify timer of a copy is cancelled. -/
def cancelTimer (i : FileIx) (d : Dest) (s : State) : State :=
  modDest d (fun p => { p with timers := p.timers.filter fun v => v.file != i }) s

/-- R98: the VERIFY proves the copy. -/
def proveCopy (i : FileIx) (d : Dest) (s : State) : State :=
  let t := tidOf i s
  let s := cancelTimer i d (setCopy i d .verified s)
  let s := modDest d (fun p => { p with failures := 0, openSet := p.openSet.filter fun u => u != t }) s
  settleFile i (countEvent .verifyOk (.dest d) 1 s)

/-- R93, R98, R99: a CLOSED copy fails by MISMATCH or TIMEOUT. -/
def failClosed (i : FileIx) (d : Dest) (r : FailReason) (s : State) : State :=
  autoQuarantine d (settleFile i (countFailure d (failCopy i d r [] (cancelTimer i d s))))

/-- R98: a VERIFY in form, for the copy its transfer id names. -/
def verifyCopy (i : FileIx) (d : Dest) (digest : Nat) (s : State) : State :=
  match copyAt i d s with
  | .closed =>
    if s.files[i].file.bind FileRec.finalDigest = some digest then proveCopy i d s else failClosed i d .mismatch s
  | .failed .timeout => loseOne .lateVerifies s
  | _ => loseOne .stray s

/-- R98: a VERIFY taken. -/
def takeVerify (d : Dest) (m : InMessage) (s : State) : State :=
  if m.verifyOk then
    match resolve m s with
    | some i => verifyCopy i d (leNat m.body) s
    | none => loseOne .stray s
  else loseOne .stray s

/-- R100: an unsettled copy fails by WRITE_ERROR and is withdrawn; then its file settles (LOG 14), and the automatic
quarantine follows, before R79 is evaluated (LOG 47). -/
def failWrite (i : FileIx) (d : Dest) (code : Nat) (s : State) : State :=
  let s := countFailure d (failCopy i d .writeError [code] s)
  autoQuarantine d (settleFile i (withdraw d (tidOf i s) s))

/-- R100: a WRITE_ERROR taken. -/
def takeWriteError (d : Dest) (m : InMessage) (s : State) : State :=
  if m.errorOk then
    match resolve m s with
    | some i => if (copyAt i d s).unsettled then checkStall d (failWrite i d (fieldAt m.body 0 2) s) else loseOne .stray s
    | none => loseOne .stray s
  else loseOne .stray s

/-- VERIFY. -/
def execVerify (d : Dest) (wire : Bytes) (s : State) : Host.Outcome State Fault Refusal :=
  live s fun s => .next (takeInbound 1 d wire (takeVerify d) s)

/-- WRITE_ERROR. -/
def execWriteError (d : Dest) (wire : Bytes) (s : State) : Host.Outcome State Fault Refusal :=
  live s fun s => .next (takeInbound 2 d wire (takeWriteError d) s)

/-- UNKNOWN_DEST_MESSAGE (R218): it is discarded, and no counter records it. -/
def execUnknownDestMessage (_d : Dest) (_wire : Bytes) (s : State) : Host.Outcome State Fault Refusal :=
  live s fun s => .next s

/-- R99: the verify timer of a CLOSED copy expires. -/
def expireTimer (i : FileIx) (d : Dest) (s : State) : State :=
  if s.dest[d].timers.any (fun v => v.file == i) ∧ copyAt i d s = .closed then failClosed i d .timeout s else s

/-- VERIFY_TIMER_EXPIRY (R99); a timer that is not running cannot expire. -/
def execVerifyTimerExpiry (d : Dest) (f : FileIx) (s : State) : Host.Outcome State Fault Refusal :=
  live s fun s => .next (expireTimer f d s)

/-! ### Restore and link reset (R90, R95) -/

/-- R95: the destination's record after DEST RESTORE. -/
def DestPort.restore (p : DestPort) : DestPort :=
  { p with
    failures := 0
    state := if p.aligned then .up else if p.partner then .training else .down }

/-- R90: a link reset of a destination. -/
def resetDest (d : Dest) (s : State) : State :=
  match s.dest[d].state with
  | .up | .retraining => modDest d DestPort.train (downProcedure d s)
  | .training => modDest d (fun p => { p with state := if p.partner then .training else .down }) s
  | .down => modDest d DestPort.train s
  | .quarantined => loseQuarantined d s

end Sys2Proof.Machine
end

