-- ==== Sys2Proof/Machine/Segments.lean ====
section
/-! DEFINITION. The Segment Classifier's taking of the segment at the head of a link (R12, R15, R16), the card events
MOUNT, UNMOUNT and CARD_END (R41 to R44), and a segment of an unknown kind. -/

namespace Sys2Proof.Machine

open Sys2Proof

/-! ### Header refusals (R16) -/

/-- R16: the refusal of a data kind, reported under the handle and the file number of the refused header. The offset
enters a record as a 48-bit value (LOG 19). -/
def refuseData (l : SrcLink) (g : Segment) (s : State) : State :=
  match cardByHandle (g.handle l) s with
  | none => loseOne .malformed s
  | some c =>
    if (s.cards[c].bind Card.refused) = some g.fileNumber then s
    else match fileByNumber c g.fileNumber s with
      | none => loseOne .malformed s
      | some i =>
        if (s.files[i].file.map FileRec.state) = some .streaming then
          checkStalls (breakFile i (g.offset % 2 ^ 48) s)
        else logCardFile .sequence c g.fileNumber [g.offset % 2 ^ 48] s

/-- R16: a segment whose header fails its checks. -/
def refuseHeader (l : SrcLink) (g : Segment) (s : State) : State :=
  if g.isData then refuseData l g s else loseOne .malformed s

/-- R12: the head of the link, where its kind passes a test, is taken: its effect, and then the end of its
processing. The step of a kind that does not stand at the head changes nothing (LOG 1). -/
def takeHead (l : SrcLink) (kind : Segment → Bool) (f : Segment → State → State) (s : State) : State :=
  match headSegment l s with
  | none => s
  | some g =>
    if kind g then endProcessing l (if g.headerOk then f g s else refuseHeader l g s) else s

/-- The segment's kind field is `k`. -/
def ofKind (k : Byte) (g : Segment) : Bool := g.kind == k

/-! ### MOUNT (R41, R42, R213) -/

/-- R41: a refused MOUNT logs a WARN record that names no card and holds the handle. -/
def refuseMount (cls : FaultClass) (h : Handle) (s : State) : State :=
  logFault { FaultRec.offered cls .warn with values := [h.link.val, h.slot.val] } s

/-- R41: the card record a MOUNT makes. -/
def newCard (label : Bytes) (h : Handle) (b : Bytes) : Card :=
  { label := label, handle := some h, camera := BitVec.ofNat 16 (fieldAt b 18 2)
    expected := if fieldAt b 20 1 = 1 then some (fieldAt b 22 2) else none
    opened := 0, completed := 0, waived := 0, mount := .active, verdict := .pending
    ended := false, pulled := false, lostMark := false, refused := none }

/-- R42: a DETACHED card record takes the new handle. -/
def Card.reattach (h : Handle) (k : Card) : Card :=
  { k with handle := some h, mount := if k.ended then .ended else .active }

/-- R23: the lowest-numbered free position of the card table. -/
def freeCard (s : State) : Option CardIx := firstIx fun c : CardIx => s.cards[c].isNone

/-- A card record put into a position of the card table, or taken out of it. -/
def putCard (c : CardIx) (k : Option Card) (s : State) : State := { s with cards := vmod s.cards c fun _ => k }

/-- The card record at a position is mounted (R23: ACTIVE or ENDED). -/
def mountedAt (c : CardIx) (s : State) : Bool := (s.cards[c].map fun k => k.mount != .detached).getD false

/-- R41: the OFM takes a MOUNT. -/
def takeMount (l : SrcLink) (g : Segment) (s : State) : State :=
  let h := g.handle l
  let label := labelOf (bytesAt g.payload 0 17)
  if mountBodyOk g.payload then
    if (cardByLabel label s).any (mountedAt · s) then refuseMount .duplicateLabel h s
    else if (cardByHandle h s).isSome then refuseMount .handleBusy h s
    else match cardByLabel label s with
      | some c => modCard c (Card.reattach h) s
      | none => match freeCard s with
        | none => refuseMount .cardTableFull h s
        | some c => putCard c (some (newCard label h g.payload)) s
  else loseOne .malformed s

/-! ### CARD_END and UNMOUNT (R43, R44) -/

/-- R43: the card's expected file count differs from its files opened count. -/
def Card.countMismatch (k : Card) : Option Nat := k.expected.filter fun n => n != k.opened

/-- R43: the OFM takes a CARD_END. -/
def takeCardEnd (l : SrcLink) (g : Segment) (s : State) : State :=
  match cardByHandle (g.handle l) s with
  | none => loseOne .malformed s
  | some c =>
    match s.cards[c] with
    | none => s
    | some k =>
      if k.mount = .active then
        let s := modCard c (fun k => { k with ended := true, mount := .ended }) s
        let s := match k.countMismatch with
          | some n => logFault { FaultRec.ofCard .countMismatch .hold k.label with values := [n, k.opened] } s
          | none => s
        reeval c s
      else s

/-- R44: the card is pulled: the flag is set and CARD_PULLED logged. -/
def pullCard (c : CardIx) (s : State) : State :=
  let s := modCard c (fun k => { k with pulled := true }) s
  logFault (FaultRec.ofCard .cardPulled .hold (labelAt c s)) s

/-- R44: the handle is removed, the refused file number cleared, and the card is DETACHED. -/
def Card.detach (k : Card) : Card := { k with handle := none, refused := none, mount := .detached }

/-- R44: the OFM takes an UNMOUNT. -/
def takeUnmount (l : SrcLink) (g : Segment) (s : State) : State :=
  match cardByHandle (g.handle l) s with
  | none => s
  | some c =>
    let open_ := filesOf s c fun f => f.state == .streaming
    let endedFlag := (s.cards[c].map Card.ended).getD false
    let s := checkStalls (abortStreaming open_ s)
    let s := if open_ ≠ [] ∨ endedFlag = false then pullCard c s else s
    reeval c (modCard c Card.detach s)

/-! ### The steps -/

/-- MOUNT. -/
def execMount (l : SrcLink) (s : State) : Host.Outcome State Fault Refusal :=
  live s fun s => .next (takeHead l (ofKind 0) (takeMount l) s)

/-- UNMOUNT. -/
def execUnmount (l : SrcLink) (s : State) : Host.Outcome State Fault Refusal :=
  live s fun s => .next (takeHead l (ofKind 1) (takeUnmount l) s)

/-- CARD_END. -/
def execCardEnd (l : SrcLink) (s : State) : Host.Outcome State Fault Refusal :=
  live s fun s => .next (takeHead l (ofKind 2) (takeCardEnd l) s)

/-- UNKNOWN_KIND_SEGMENT: a header of an unknown kind never passes its checks, so it is refused (R15, R16). -/
def execUnknownKindSegment (l : SrcLink) (s : State) : Host.Outcome State Fault Refusal :=
  live s fun s => .next (takeHead l (fun g => decide (8 ≤ g.kind.toNat)) (fun _ s => s) s)

end Sys2Proof.Machine
end

