-- ==== Sys2Proof/Machine/Files.lean ====
section
/-! DEFINITION. The opening of files and the taking of data segments (chapter 2): OPEN (R30 to R34), ESSENCE, PREVIEW and
META (R35, R36), and LAST (R38). -/

namespace Sys2Proof.Machine

open Sys2Proof

/-! ### OPEN -/

/-- What an OPEN carries: the fields of its body (R213) and its RECOPY flag. -/
structure OpenRequest where
  number : Nat
  typeCode : Byte
  name : Option Bytes
  size : Option Nat
  recopy : Bool
  deriving DecidableEq, Repr

/-- R213: the fields of an OPEN segment. -/
def openRequest (g : Segment) : OpenRequest :=
  { number := fieldAt g.payload 0 4, typeCode := BitVec.ofNat 8 (fieldAt g.payload 4 1)
    name := openName g.payload, size := openSize g.payload, recopy := g.recopy }

/-- R32: a refused OPEN logs a HOLD record of its class and sets the card's refused file number. -/
def refuseOpen (cls : FaultClass) (c : CardIx) (number : Nat) (s : State) : State :=
  modCard c (fun k => { k with refused := some number }) (logCardFile cls c number [] s)

/-- R27: the copy a fresh OPEN gives a destination. -/
def freshCopy (r : Route) (d : Dest) (s : State) : CopyState :=
  if r.dests.getLsbD d.val then if takesFiles d s then .pending else .failed .link else .none_

/-- R34: the copy a recopy OPEN gives a destination. -/
def recopyCopy (r : Route) (d : Dest) (old : CopyState) (s : State) : CopyState :=
  if r.dests.getLsbD d.val then
    match old with
    | .none_ => if takesFiles d s then .pending else .failed .link
    | .failed k => if takesFiles d s then .pending else .failed k
    | c => c
  else old

/-- R25: the open counter increases by one, in 64 bits (LOG 31). -/
def nextStamp (s : State) : Nat := (s.openCounter + 1) % 2 ^ 64

/-- R33: a fresh file record. -/
def freshRecord (c : CardIx) (q : OpenRequest) (r : Route) (s : State) : FileRec :=
  { card := c, number := q.number, name := q.name, declared := q.size, nextOffset := 0, sums := Sums.initial
    finalDigest := none, route := r, state := .streaming, recopy := false
    copies := Vector.ofFn fun d => freshCopy r d s
    channel := none, stamp := nextStamp s, assembly := none }

/-- R34: a SHORT record reused by a recopy. -/
def recopyRecord (old : FileRec) (q : OpenRequest) (r : Route) (s : State) : FileRec :=
  { old with
    name := q.name, declared := q.size, nextOffset := 0, sums := Sums.initial, finalDigest := none, route := r
    state := .streaming, recopy := true
    copies := Vector.ofFn fun d => recopyCopy r d old.copies[d] s
    channel := none, stamp := nextStamp s, assembly := none }

/-- R25, R33, R34: the record is written under the next generation, with the next open stamp. -/
def writeRecord (i : FileIx) (f : FileRec) (s : State) : State :=
  { s with files := vmod s.files i fun p => ⟨p.gen + 1, some f⟩, openCounter := nextStamp s }

/-- R33, R34: the OPEN message of the file is queued to each destination with a PENDING copy. -/
def queueOpens (i : FileIx) (f : FileRec) (s : State) : State :=
  (f.destsWith (· == .pending)).foldl
    (fun s d => enqueue d (.openMsg (tidOf i s) (labelAt f.card s) f.number f.name f.declared) s) s

/-- R33, R34, R143: what follows for a record just made or reused: the OPEN messages, the frame assembly, the channel,
the card's counts and verdict, and the report to the look engines. -/
def startFile (i : FileIx) (f : FileRec) (countIt : Bool) (s : State) : State :=
  let s := assignChannel i (startAssembly i (queueOpens i f (writeRecord i f s)))
  let s := modCard f.card (fun k => { k with
    opened := if countIt then satInc k.opened else k.opened, refused := none }) s
  reportOpen i (reeval f.card (checkStalls s))

/-- R25: the lowest free record index. -/
def freeFileIx (s : State) : Option FileIx := firstIx fun i : FileIx => s.files[i].file.isNone

/-- R31 rows 1 and 2: the OPEN is refused before routing. -/
def earlyRefusal (k : Card) (q : OpenRequest) (existing : Option FileRec) : Option FaultClass :=
  if k.mount = .ended ∧ q.recopy = false then some .lateOpen
  else match existing with
    | some f => if f.state ≠ .short ∨ q.recopy = false then some .duplicateOpen else none
    | none => none

/-- R31: the OFM decides an OPEN for a known card. -/
def decideOpen (c : CardIx) (k : Card) (q : OpenRequest) (s : State) : State :=
  let existing := fileByNumber c q.number s
  match earlyRefusal k q (existing.bind fun i => s.files[i].file) with
  | some cls => refuseOpen cls c q.number s
  | none =>
    match matchRoute (routeKey k.camera q.typeCode) s with
    | none => refuseOpen .unrouted c q.number s
    | some r =>
      match existing with
      | some i => match s.files[i].file with
        | none => s
        | some f => startFile i (recopyRecord f q r.latch s) false s
      | none => match freeFileIx s with
        | none => refuseOpen .fileTableFull c q.number s
        | some i => startFile i (freshRecord c q r.latch s) (!q.recopy) s

/-- R30: the OFM takes an OPEN. -/
def takeOpen (l : SrcLink) (g : Segment) (s : State) : State :=
  match cardByHandle (g.handle l) s with
  | none => loseOne .malformed s
  | some c =>
    if openBodyOk g.payload then
      match s.cards[c] with
      | none => s
      | some k => decideOpen c k (openRequest g) s
    else refuseOpen .sequence c (openRequest g).number s

/-! ### LAST (R38) -/

/-- R68: the final digest is stored. -/
def FileRec.finalise (f : FileRec) : FileRec :=
  { f with sums := f.sums.finalise, finalDigest := some f.sums.finalise.value }

/-- R38: a SIZE_MISMATCH record where a declared size differs from the bytes received, which may be 2^48 (LOG 42). -/
def checkSize (i : FileIx) (s : State) : State :=
  match s.files[i].file with
  | none => s
  | some f =>
    match f.declared with
    | some n =>
      if n ≠ f.nextOffset then
        logFault { FaultRec.ofFile .sizeMismatch .hold (labelAt f.card s) f.number with
          values := [n, f.nextOffset] } s
      else s
    | none => s

/-- R38: a CLOSE for each unsettled copy. -/
def queueCloses (i : FileIx) (s : State) : State :=
  match s.files[i].file with
  | none => s
  | some f => f.unsettledDests.foldl
      (fun s d => enqueue d (.close (tidOf i s) (f.finalDigest.getD 0) f.nextOffset) s) s

/-- R38, R115, R146: the accepted segment carries LAST. -/
def lastSegment (i : FileIx) (s : State) : State :=
  let s := modFile i FileRec.finalise (closeAtLast i s)
  let s := leaveStreaming i .settling (queueCloses i (checkSize i s))
  let s := endFollowLast (tidOf i s) 1 (endFollowLast (tidOf i s) 0 s)
  settleFile i (reevalFile i s)

/-! ### Data segments (R35, R36) -/

/-- R36: the destinations that receive a DATA entry. -/
def FileRec.receivers (f : FileRec) : List Dest := f.destsWith fun c => c == .pending || c == .sending

/-- R36, R56: a DATA entry for each PENDING or SENDING copy, each with its reference. -/
def queueData (i : FileIx) (slot : SlotIx) (f : FileRec) (s : State) : State :=
  f.receivers.foldl (fun s d => addRef slot (enqueue d (.data (tidOf i s) slot) s)) s

/-- R106, R110, R134: a PREVIEW segment of a PICTURE file is read by the PVA and offered to both look queues. -/
def previewSegment (l : SrcLink) (i : FileIx) (slot : SlotIx) (m : FormatEntry) (g : Segment) (s : State) : State :=
  let r := readPreview i l m g s
  offerLookTo l (tidOf i s) slot g r.2.1 r.2.2 1 (offerLookTo l (tidOf i s) slot g r.2.1 r.2.2 0 r.1)

/-- R106, R36: what the PVA reads of an accepted segment, by the parsing mode the file latched. -/
def readSegment (l : SrcLink) (i : FileIx) (slot : SlotIx) (f : FileRec) (g : Segment) (s : State) : State :=
  match f.assembly.bind Assembly.format with
  | none => s
  | some m =>
    if g.kind = 5 ∧ f.mode = .picture then previewSegment l i slot m g s
    else if g.kind = 6 ∧ f.mode ≠ .none_ then readMeta i l m g s
    else s

/-- R36: an accepted segment with a payload of at least one byte. The next expected offset can reach 2^48, one above what
48 bits hold (LOG 42). -/
def acceptBytes (l : SrcLink) (i : FileIx) (slot : SlotIx) (f : FileRec) (g : Segment) (s : State) : State :=
  let s := modFile i (fun f => { f with
    sums := f.sums.advance g.payload, nextOffset := f.nextOffset + g.payload.length }) s
  readSegment l i slot f g (queueData i slot f s)

/-- R36: a data segment of a STREAMING file, at the offset expected. -/
def acceptData (l : SrcLink) (i : FileIx) (slot : SlotIx) (f : FileRec) (g : Segment) (s : State) : State :=
  let s := if g.payload = [] then s else acceptBytes l i slot f g s
  if g.last then lastSegment i s else s

/-- R36: the offset check. -/
def offsetOk (f : FileRec) (g : Segment) : Bool :=
  decide (g.offset = f.nextOffset ∧ g.offset + g.payload.length ≤ 2 ^ 48)

/-- R35: the OFM takes a data segment. -/
def takeData (l : SrcLink) (g : Segment) (s : State) : State :=
  match cardByHandle (g.handle l) s with
  | none => loseOne .malformed s
  | some c =>
    if (s.cards[c].bind Card.refused) = some g.fileNumber then s
    else match fileByNumber c g.fileNumber s with
      | none => logCardFile .sequence c g.fileNumber [g.offset] s
      | some i => match s.files[i].file, headSlot l s with
        | some f, some slot =>
          if f.state = .streaming then
            checkStalls (if offsetOk f g then acceptData l i slot f g s else breakFile i g.offset s)
          else logCardFile .sequence c g.fileNumber [g.offset] s
        | _, _ => s

/-! ### The steps -/

/-- OPEN. -/
def execOpenFile (l : SrcLink) (s : State) : Host.Outcome State Fault Refusal :=
  live s fun s => .next (takeHead l (ofKind 3) (takeOpen l) s)

/-- ESSENCE. -/
def execEssence (l : SrcLink) (s : State) : Host.Outcome State Fault Refusal :=
  live s fun s => .next (takeHead l (ofKind 4) (takeData l) s)

/-- PREVIEW. -/
def execPreview (l : SrcLink) (s : State) : Host.Outcome State Fault Refusal :=
  live s fun s => .next (takeHead l (ofKind 5) (takeData l) s)

/-- META. -/
def execMetaRecord (l : SrcLink) (s : State) : Host.Outcome State Fault Refusal :=
  live s fun s => .next (takeHead l (ofKind 6) (takeData l) s)

end Sys2Proof.Machine
end

