-- ==== Sys2Proof/Machine/Items.lean ====
section
/-! DEFINITION. The items of the return direction of a source link (R214) and the bodies they carry: the fault record
image, the MANIFEST body and the CARD_RELEASED body (R217). -/

namespace Sys2Proof.Machine

open Sys2Proof

/-- R214: the item header. -/
def itemHeader (type result bodyLength countOrTag code : Nat) : Bytes :=
  le 1 type ++ le 1 result ++ le 2 bodyLength ++ le 2 countOrTag ++ le 2 code

/-- R216, R217: an optional label, 17 zero bytes where it is absent. -/
def optLabel : Option Bytes → Bytes
  | none => zeros 17
  | some label => labelField label

/-- R217: a probe's direction. -/
def FlipDirection.carriage : FlipDirection → Nat
  | .asserted => 0
  | .cleared => 1

/-- R217: the record's state. -/
def RecordState.carriage : RecordState → Nat
  | .opened => 0
  | .acked => 1

/-- R217: the probe part of an image: presence, channel, probe index, direction. -/
def probeField : Option ProbePart → Bytes
  | none => zeros 4
  | some q => [1] ++ le 1 q.channel.val ++ le 1 q.probe.val ++ le 1 q.direction.carriage

/-- R217: the 64 bytes of a fault record. -/
def FaultRec.image (r : FaultRec) : Bytes :=
  le 2 r.key ++ le 1 (posOf FaultClass.all r.cls) ++ le 1 (posOf Severity.all r.severity) ++ le 1 r.state.carriage
    ++ yesNo r.label.isSome ++ optLabel r.label
    ++ presentField 4 r.file
    ++ presentField 1 (r.dest.map Fin.val)
    ++ probeField r.probe
    ++ yesNo r.frames.isSome
    ++ presentField 1 (r.code.map FaultCode.carriage)
    ++ le 1 r.values.length ++ le 2 r.merges
    ++ optField 4 (r.frames.map FrameSpan.first) ++ optField 4 (r.frames.map FrameSpan.last)
    ++ optField 8 r.values[0]? ++ optField 8 r.values[1]?

/-- R211: a set of destinations in one byte. -/
def setField (set : BitVec 6) : Bytes := le 1 set.toNat

/-- A name field: the length byte and 64 name bytes. -/
def nameField (name : Option Bytes) : Bytes := le 1 (name.getD []).length ++ padTo 64 (name.getD [])

/-- R217: the 110 bytes of a manifest record. -/
def Manifest.body (m : Manifest) : Bytes :=
  labelField m.label ++ le 1 m.required ++ le 4 m.file ++ tidField m.tid ++ le 6 m.size ++ setField m.verified
    ++ yesNo m.recopy ++ yesNo m.waived ++ presentField 8 m.digest ++ yesNo m.name.isSome ++ nameField m.name

/-- R217: the 24 bytes of a CARD_RELEASED notice. -/
def Released.body (c : Released) : Bytes :=
  labelField c.label ++ yesNo c.pulled ++ le 2 c.opened ++ le 2 c.completed ++ le 2 c.waived

/-- R214: a notice-queue item on the wire. -/
def NoticeItem.wire : NoticeItem → Bytes
  | .fault r => itemHeader 2 0 64 0 0 ++ r.image
  | .manifest m => itemHeader 3 0 110 0 0 ++ m.body
  | .released c => itemHeader 4 0 24 0 0 ++ c.body

/-- R214: a reply on the wire. -/
def Reply.wire (r : Reply) : Bytes :=
  itemHeader 1 (posOf CmdResult.all r.result) r.body.length r.tag r.code ++ r.body

/-- R214: a credit message on the wire. -/
def creditWire (count : Nat) : Bytes := itemHeader 0 0 0 count 0

end Sys2Proof.Machine
end

