-- ==== Sys2Proof/Machine/Tables.lean ====
section
/-! DEFINITION. The six tables in their entry forms (R192): the must-be-zero fields and the enumerations of an entry,
and its reading and writing with the clamps of R191. -/

namespace Sys2Proof.Machine

open Sys2Proof

/-- R189: tests of the fields of a body, each with the offset of its field, in order of offset. -/
abbrev FieldTests := List (Nat × Bool)

/-- R189: the offset of the first field that failed its test. -/
def FieldTests.firstBad (ts : FieldTests) : Option Nat := (ts.find? fun t => !t.2).map Prod.fst

/-- Tests of a part of a body that starts at an offset. -/
def FieldTests.at (ts : FieldTests) (off : Nat) : FieldTests := ts.map fun t => (off + t.1, t.2)

/-! ### Fields -/

/-- R191: the value of an enumeration, by its position in its list. -/
def pick {α : Type} (all : List α) (d : α) (v : Nat) : α := all.getD v d

/-- R191: the byte at `off` is the position of a listed value. -/
def enumTest {α : Type} (all : List α) (b : Bytes) (off : Nat) : Nat × Bool :=
  (off, decide (fieldAt b off 1 < all.length))

/-- R191: the byte at `off` is a yes or a no, or a presence byte. -/
def yesNoTest (b : Bytes) (off : Nat) : Nat × Bool := (off, decide (fieldAt b off 1 < 2))

/-- R192: the table index at `off` is 0..7 or 255. -/
def indexTest (b : Bytes) (off : Nat) : Nat × Bool :=
  (off, decide (fieldAt b off 1 < 8 ∨ fieldAt b off 1 = 255))

/-- R189: a must-be-zero field. -/
def zeroTest (b : Bytes) (off n : Nat) : Nat × Bool := (off, allZero (bytesAt b off n))

/-- R191: "An absent field's value bytes must be zero." -/
def absentTest (b : Bytes) (off n : Nat) : Nat × Bool :=
  (off, fieldAt b off 1 != 0 || allZero (bytesAt b (off + 1) n))

/-- R192: a table index, or 255. -/
def indexOf (v : Nat) : Option (Fin 8) := if h : v < 8 then some ⟨v, h⟩ else none

/-- R192: the carriage of a table index that may be 255. -/
def indexField (v : Option (Fin 8)) : Bytes := le 1 (v.elim 255 Fin.val)

/-- R191: a quantity of 16 bits, clamped. -/
def clamped2 (b : Bytes) (off lo hi : Nat) : Nat := clampNat lo hi (fieldAt b off 2)

/-! ### ROUTE (R21) -/

/-- R21, R192: the must-be-zero bits of a ROUTE entry. -/
def routeZeros (b : Bytes) : FieldTests := [(7, decide (fieldAt b 7 1 < 64))]

/-- R21: the enumerations of a ROUTE entry. -/
def routeEnums (b : Bytes) : FieldTests := [yesNoTest b 0, indexTest b 10, indexTest b 11]

/-- R21: a ROUTE entry as it is stored. -/
def RouteEntry.read (b : Bytes) : RouteEntry :=
  { enabled := fieldAt b 0 1 == 1
    matchValue := BitVec.ofNat 24 (fieldAt b 1 3)
    matchMask := BitVec.ofNat 24 (fieldAt b 4 3)
    dests := BitVec.ofNat 6 (fieldAt b 7 1)
    required := clampNat 1 6 (fieldAt b 8 1)
    look := ⟨min 15 (fieldAt b 9 1), by omega⟩
    profile := indexOf (fieldAt b 10 1)
    format := indexOf (fieldAt b 11 1) }

/-- R194: a ROUTE entry in its entry form. -/
def RouteEntry.write (e : RouteEntry) : Bytes :=
  yesNo e.enabled ++ le 3 e.matchValue.toNat ++ le 3 e.matchMask.toNat ++ setField e.dests ++ le 1 e.required
    ++ le 1 e.look.val ++ indexField e.profile ++ indexField e.format

/-! ### FORMAT (R105) -/

/-- R105: the must-be-zero bytes of a FORMAT entry. -/
def formatZeros (b : Bytes) : FieldTests := [absentTest b 7 2, absentTest b 10 2, zeroTest b 15 1]

/-- R105: the enumerations of a FORMAT entry, presence bytes among them. -/
def formatEnums (b : Bytes) : FieldTests :=
  [yesNoTest b 0, enumTest Packing.all b 1, enumTest FrameRate.all b 6, yesNoTest b 7, yesNoTest b 10]

/-- R105: an offset of four bytes within the metadata record, clamped twice. -/
def metaOffset (b : Bytes) (off recordLength : Nat) : Option Nat :=
  if fieldAt b off 1 = 1 then some (min (recordLength - 4) (clamped2 b (off + 1) 0 1023)) else none

/-- R105: a FORMAT entry as it is stored. -/
def FormatEntry.read (b : Bytes) : FormatEntry :=
  let n := clamped2 b 13 8 1024
  { valid := fieldAt b 0 1 == 1
    packing := pick Packing.all .p8 (fieldAt b 1 1)
    width := clamped2 b 2 16 1024
    height := clamped2 b 4 16 1024
    rate := pick FrameRate.all .fps24 (fieldAt b 6 1)
    timecodeOffset := metaOffset b 7 n
    counterOffset := metaOffset b 10 n
    recordLength := n }

/-- R194: a FORMAT entry in its entry form. -/
def FormatEntry.write (e : FormatEntry) : Bytes :=
  yesNo e.valid ++ le 1 (posOf Packing.all e.packing) ++ le 2 e.width ++ le 2 e.height
    ++ le 1 (posOf FrameRate.all e.rate) ++ presentField 2 e.timecodeOffset ++ presentField 2 e.counterOffset
    ++ le 2 e.recordLength ++ zeros 1

/-! ### LOOK (R123) -/

/-- R123: the must-be-zero bytes of a LOOK entry. -/
def lookZeros (b : Bytes) : FieldTests := [zeroTest b 422 2]

/-- R123: the enumerations of a LOOK entry. -/
def lookEnums (b : Bytes) : FieldTests := [enumTest Rounding.all b 414, enumTest RangePolicy.all b 415]

/-- R123: a LOOK entry as it is stored; the matrix stands row by row (LOG 17). -/
def LookTableEntry.read (b : Bytes) : LookTableEntry :=
  { matrix := Vector.ofFn fun i => Vector.ofFn fun j => signed16 (fieldAt b (2 * (3 * i.val + j.val)) 2)
    offsets := Vector.ofFn fun i => clampInt (-4096) 4095 (signed16 (fieldAt b (18 + 2 * i.val) 2))
    curves := Vector.ofFn fun i => Vector.ofFn fun k => clamped2 b (24 + 130 * i.val + 2 * k.val) 0 1023
    rounding := pick Rounding.all .nearestEven (fieldAt b 414 1)
    policy := pick RangePolicy.all .saturate (fieldAt b 415 1)
    marker := Vector.ofFn fun i => clamped2 b (416 + 2 * i.val) 0 1023 }

/-- R194: a LOOK entry in its entry form. -/
def LookTableEntry.write (e : LookTableEntry) : Bytes :=
  (e.matrix.toList.flatMap fun row => row.toList.flatMap fun m => le 2 (unsigned16 m))
    ++ (e.offsets.toList.flatMap fun k => le 2 (unsigned16 k))
    ++ (e.curves.toList.flatMap fun c => c.toList.flatMap fun p => le 2 p)
    ++ le 1 (posOf Rounding.all e.rounding) ++ le 1 (posOf RangePolicy.all e.policy)
    ++ (e.marker.toList.flatMap fun m => le 2 m) ++ zeros 2

/-! ### PROFILE (R149) -/

/-- R149: the must-be-zero bytes of a PROFILE entry. -/
def profileZeros (b : Bytes) : FieldTests := [zeroTest b 68 4]

/-- R149: the enumerations of probe `p` of a PROFILE entry. -/
def probeEnums (b : Bytes) (p : Nat) : FieldTests :=
  [yesNoTest b (4 + 8 * p), enumTest Source.all b (5 + 8 * p), enumTest ReportMode.all b (9 + 8 * p),
    enumTest Severity.all b (11 + 8 * p)]

/-- R149: the enumerations of a PROFILE entry. -/
def profileEnums (b : Bytes) : FieldTests := (List.range 8).flatMap (probeEnums b)

/-- R149: a probe as it is stored. -/
def ProbeConfig.read (b : Bytes) (o : Nat) : ProbeConfig :=
  { enabled := fieldAt b o 1 == 1
    source := pick Source.all .clip (fieldAt b (o + 1) 1)
    dHi := fieldAt b (o + 2) 1
    dLo := fieldAt b (o + 3) 1
    persistence := clampNat 1 15 (fieldAt b (o + 4) 1)
    mode := pick ReportMode.all .assert (fieldAt b (o + 5) 1)
    window := fieldAt b (o + 6) 1
    severity := pick Severity.all .note (fieldAt b (o + 7) 1) }

/-- R149: a PROFILE entry as it is stored. -/
def ProfileEntry.read (b : Bytes) : ProfileEntry :=
  { clipCode := clamped2 b 0 0 4095, blackCode := clamped2 b 2 0 4095
    probes := Vector.ofFn fun p => ProbeConfig.read b (4 + 8 * p.val) }

/-- R194: a probe in its entry form. -/
def ProbeConfig.write (q : ProbeConfig) : Bytes :=
  yesNo q.enabled ++ le 1 (posOf Source.all q.source) ++ le 1 q.dHi ++ le 1 q.dLo ++ le 1 q.persistence
    ++ le 1 (posOf ReportMode.all q.mode) ++ le 1 q.window ++ le 1 (posOf Severity.all q.severity)

/-- R194: a PROFILE entry in its entry form. -/
def ProfileEntry.write (e : ProfileEntry) : Bytes :=
  le 2 e.clipCode ++ le 2 e.blackCode ++ e.probes.toList.flatMap ProbeConfig.write ++ zeros 4

/-! ### DEST_CONFIG (R101) -/

/-- R101, R192: the must-be-zero bytes of a DEST_CONFIG entry, left over behind its fields (LOG 43). -/
def destConfigZeros (b : Bytes) : FieldTests := [zeroTest b 13 3]

/-- R101: the enumeration of a DEST_CONFIG entry. -/
def destConfigEnums (b : Bytes) : FieldTests := [yesNoTest b 0]

/-- R101: a DEST_CONFIG entry as it is stored; the timeout and the limit have two bytes each (LOG 43). -/
def DestConfig.read (b : Bytes) : DestConfig :=
  { enabled := fieldAt b 0 1 == 1
    verifyTimeout := clamped2 b 1 1 3600
    retrainLimit := clamped2 b 3 10 1000
    label := Vector.ofFn fun k => BitVec.ofNat 8 (fieldAt b (5 + k.val) 1) }

/-- R194: a DEST_CONFIG entry in its entry form. -/
def DestConfig.write (e : DestConfig) : Bytes :=
  yesNo e.enabled ++ le 2 e.verifyTimeout ++ le 2 e.retrainLimit ++ e.label.toList ++ zeros 3

/-! ### PART_CONFIG (R195) -/

/-- R195: the must-be-zero bit and bytes of the PART_CONFIG entry. -/
def partConfigZeros (b : Bytes) : FieldTests := [(3, decide (fieldAt b 3 1 < 128)), zeroTest b 6 2]

/-- R195: the enumerations of the PART_CONFIG entry. -/
def partConfigEnums (b : Bytes) : FieldTests :=
  [(0, decide (fieldAt b 0 1 < 4)), yesNoTest b 1, yesNoTest b 2, yesNoTest b 4]

/-- R195: the PART_CONFIG entry as it is stored. -/
def PartConfig.read (b : Bytes) : PartConfig :=
  { station := ⟨fieldAt b 0 1 % 4, Nat.mod_lt _ (by decide)⟩
    notices := fieldAt b 1 1 == 1
    manifests := fieldAt b 2 1 == 1
    addressMask := BitVec.ofNat 7 (fieldAt b 3 1)
    broadcast := fieldAt b 4 1 == 1
    threshold := clampNat 0 15 (fieldAt b 5 1) }

/-- R194: the PART_CONFIG entry in its entry form. -/
def PartConfig.write (e : PartConfig) : Bytes :=
  le 1 e.station.val ++ yesNo e.notices ++ yesNo e.manifests ++ le 1 e.addressMask.toNat ++ yesNo e.broadcast
    ++ le 1 e.threshold ++ zeros 2

/-! ### The tables by name (R192) -/

/-- R192: the six tables, in the order of their positions. -/
inductive TableName where
  | route | format | look | profile | destConfig | partConfig
  deriving DecidableEq, Repr

/-- R192: the tables by their positions. -/
def TableName.all : List TableName := [.route, .format, .look, .profile, .destConfig, .partConfig]

/-- R192: the number of entries. -/
def TableName.entries : TableName → Nat
  | .route => 32 | .format => 8 | .look => 16 | .profile => 8 | .destConfig => 6 | .partConfig => 1

/-- R192: the entry length in bytes. -/
def TableName.entryLength : TableName → Nat
  | .route => 12 | .format => 16 | .look => 424 | .profile => 72 | .destConfig => 16 | .partConfig => 8

/-- R189 step 2, for one entry. -/
def TableName.zeroTests : TableName → Bytes → FieldTests
  | .route => routeZeros | .format => formatZeros | .look => lookZeros | .profile => profileZeros
  | .destConfig => destConfigZeros | .partConfig => partConfigZeros

/-- R189 step 3, for one entry. -/
def TableName.enumTests : TableName → Bytes → FieldTests
  | .route => routeEnums | .format => formatEnums | .look => lookEnums | .profile => profileEnums
  | .destConfig => destConfigEnums | .partConfig => partConfigEnums

/-- R193: one entry written, where its index lies within the table. -/
def writeEntry (t : TableName) (k : Nat) (b : Bytes) (s : State) : State :=
  match t with
  | .route => { s with routes := s.routes.setIfInBounds k (RouteEntry.read b) }
  | .format => { s with formats := s.formats.setIfInBounds k (FormatEntry.read b) }
  | .look => { s with looks := s.looks.setIfInBounds k (LookTableEntry.read b) }
  | .profile => { s with profiles := s.profiles.setIfInBounds k (ProfileEntry.read b) }
  | .destConfig => { s with destConfig := s.destConfig.setIfInBounds k (DestConfig.read b) }
  | .partConfig => if k = 0 then { s with part := PartConfig.read b } else s

/-- R194: the entries of a table in their entry forms, entry 0 first. -/
def tableImages (t : TableName) (s : State) : List Bytes :=
  match t with
  | .route => s.routes.toList.map RouteEntry.write
  | .format => s.formats.toList.map FormatEntry.write
  | .look => s.looks.toList.map LookTableEntry.write
  | .profile => s.profiles.toList.map ProfileEntry.write
  | .destConfig => s.destConfig.toList.map DestConfig.write
  | .partConfig => [s.part.write]

end Sys2Proof.Machine
end

