-- ==== Sys2Proof/Machine/Images.lean ====
section
/-! DEFINITION. The bodies of replies (R216): the images of the six READ STATE forms and the bodies of the other DONE
replies. -/

namespace Sys2Proof.Machine

open Sys2Proof

/-- An optional transfer id: zero where it is absent. -/
def optTid : Option Tid → Bytes
  | none => zeros 4
  | some t => tidField t

/-- R196: the IDENTIFY reply. -/
def identifyBody (s : State) : Bytes :=
  le 2 Config.vendorCode ++ le 2 Config.partCode ++ le 1 Config.revision ++ le 1 s.partAddress.toNat
    ++ le 1 4 ++ le 1 6 ++ le 1 2 ++ le 1 16 ++ le 2 1024 ++ le 2 Config.slotBytes ++ le 2 Config.quota ++ le 2 512
    ++ TableName.all.flatMap (fun t => le 1 t.entries)
    ++ le 1 8 ++ le 1 Config.logCap ++ le 1 Config.replyCap ++ le 1 Config.noticeCap

/-! ### READ STATE -/

/-- R216: the header of a READ STATE reply. -/
def stateHeader (form station images total unreported notices : Nat) : Bytes :=
  le 1 form ++ le 1 station ++ le 2 images ++ le 2 total ++ le 2 unreported ++ le 1 notices ++ zeros 3

/-- How many file records of a card are in a state. -/
def countFiles (s : State) (c : CardIx) (st : FileState) : Nat := (filesOf s c fun f => f.state == st).length

/-- R50, R216: the image of a card record. -/
def cardImage (c : CardIx) (k : Card) (s : State) : Bytes :=
  labelField k.label ++ yesNo k.handle.isSome ++ optField 1 (k.handle.map fun h => h.link.val)
    ++ optField 1 (k.handle.map fun h => h.slot.val) ++ le 2 k.camera.toNat ++ yesNo k.expected.isSome
    ++ le 1 (posOf MountState.all k.mount) ++ optField 2 k.expected ++ le 2 k.opened ++ le 2 k.completed
    ++ le 2 k.waived ++ le 1 (posOf Verdict.all k.verdict) ++ yesNo k.ended ++ yesNo k.pulled ++ yesNo k.lostMark
    ++ le 2 (countFiles s c .streaming) ++ le 2 (countFiles s c .settling) ++ le 2 (countFiles s c .short) ++ zeros 2

/-- R197: the CARDS form, in order of card position (LOG 11). -/
def cardsForm (s : State) : Bytes :=
  let cards := (List.finRange 16).filterMap fun c => (s.cards[c]).map fun k => cardImage c k s
  stateHeader 0 0 cards.length 0 0 0 ++ cards.flatten

/-- R50, R216: the image of a file record. -/
def fileImage (i : FileIx) (f : FileRec) (s : State) : Bytes :=
  le 4 f.number ++ tidField (tidOf i s) ++ le 1 (posOf FileState.all f.state) ++ yesNo f.recopy
    ++ yesNo f.declared.isSome ++ yesNo f.finalDigest.isSome ++ presentField 1 (f.channel.map Fin.val)
    ++ yesNo f.name.isSome ++ le 1 (f.name.getD []).length ++ optField 8 f.declared ++ le 8 f.nextOffset
    ++ optField 8 f.finalDigest ++ setField f.route.dests ++ le 1 f.route.required ++ le 1 f.route.look.val
    ++ indexField f.route.profile ++ indexField f.route.format ++ zeros 3
    ++ f.copies.toList.flatMap CopyState.carriage ++ padTo 64 (f.name.getD [])

/-- A file record put into its place in ascending order of file number. -/
def insertFile (x : FileIx × FileRec) : List (FileIx × FileRec) → List (FileIx × FileRec)
  | [] => [x]
  | y :: rest => if x.2.number < y.2.number then x :: y :: rest else y :: insertFile x rest

/-- R197: the card's file records in ascending order of file number. -/
def sortedFiles (c : CardIx) (s : State) : List (FileIx × FileRec) :=
  ((filesOf s c fun _ => true).filterMap fun i => (s.files[i].file).map fun f => (i, f)).foldr insertFile []

/-- R197: how many whole file images fit in a reply body of 16384 bytes behind the header. -/
def filesPerReply : Nat := (Config.slotBytes - 12) / 124

/-- R197: the FILES form of a card, from a start position on. -/
def filesForm (c : CardIx) (start : Nat) (s : State) : Bytes :=
  let all := sortedFiles c s
  let shown := (all.drop start).take filesPerReply
  stateHeader 1 0 shown.length all.length (all.length - start - shown.length) 0
    ++ shown.flatMap fun x => fileImage x.1 x.2 s

/-- R216: the kind of the message in transmission. -/
def QEntry.carriage : QEntry → Nat
  | .openMsg .. => 1
  | .data .. => 2
  | .close .. => 3
  | .abort .. => 4
  | .halt => 5

/-- R104: the number of queue entries of a kind; the entry in transmission is among them (LOG 20). -/
def DestPort.countKind (p : DestPort) (kind : Nat) : Nat := (p.queue.filter fun e => e.carriage == kind).length

/-- R216: the credit limit's kind and number. -/
def CreditLimit.carriage : CreditLimit → Bytes
  | .absent => [0, 0]
  | .number n => [1] ++ le 1 n
  | .unlimited => [2, 0]

/-- R216: the message in transmission, or none. -/
def DestPort.sendingKind (p : DestPort) : Nat := (p.sending.head?.map QEntry.carriage).getD 0

/-- R104, R216: the image of a destination. The aligned flag applies to QUARANTINED alone (R74), so its byte is zero in
every other state. -/
def destImage (d : Dest) (s : State) : Bytes :=
  let p := s.dest[d]
  le 1 (posOf DestState.all p.state) ++ yesNo p.partner ++ yesNo (p.state == .quarantined && p.aligned)
    ++ p.limit.carriage ++ le 1 p.inUse ++ yesNo p.stall ++ le 1 p.sendingKind ++ le 2 (p.countKind 2) ++ le 2 (p.countKind 1) ++ le 2 (p.countKind 3)
    ++ le 2 (p.countKind 4) ++ le 1 (p.countKind 5) ++ yesNo p.retrain.isSome ++ le 2 p.timers.length
    ++ le 1 p.failures ++ zeros 1 ++ le 2 p.openSet.length ++ s.destConfig[d].write

/-- R104: the DESTINATIONS form. -/
def destinationsForm (s : State) : Bytes :=
  stateHeader 2 0 6 0 0 0 ++ (List.finRange 6).flatMap fun d => destImage d s

/-- R20, R216: the image of a source link. -/
def linkImage (l : SrcLink) (s : State) : Bytes :=
  let p := s.src[l]
  le 1 (posOf SrcState.all p.state) ++ yesNo p.overrun ++ le 2 p.held ++ le 2 p.granted ++ le 2 p.withheld
    ++ le 2 p.unannounced ++ le 2 p.arrivals.length ++ yesNo (headIsHeld l s) ++ le 1 p.replies.length ++ zeros 2

/-- R20: the LINKS form. -/
def linksForm (s : State) : Bytes :=
  stateHeader 3 s.part.station.val 4 0 0 s.notices.length ++ (List.finRange 4).flatMap fun l => linkImage l s

/-- R216: the state of a probe in a channel image. -/
def probeImage (q : LatchedProbe) (st : ProbeState) : Bytes :=
  yesNo q.enabled ++ le 1 (posOf Source.all q.source) ++ yesNo st.asserted ++ le 1 st.run ++ le 4 q.tHi ++ le 4 q.tLo
    ++ yesNo st.window.isSome ++ zeros 1 ++ optField 2 (st.window.map WindowRec.key)
    ++ optField 4 (st.window.map WindowRec.first)

/-- R216: the channel state's number. -/
def ChannelState.carriage : ChannelState → Nat
  | .free => 0
  | .file _ => 1
  | .test _ => 2

/-- The owner of a channel in FILE. -/
def ChannelState.owner? : ChannelState → Option Owner
  | .file o => some o
  | _ => none

/-- The test run of a channel in TEST. -/
def ChannelState.run? : ChannelState → Option TestRun
  | .test r => some r
  | _ => none

/-- Three 12-bit codes of a flat colour, two bytes each. -/
def colourField (x : Pixel) : Bytes := le 2 x.r ++ le 2 x.g ++ le 2 x.b

/-- R174, R216: the image of an inspection channel. -/
def channelImage (k : ChannelRec) : Bytes :=
  let o := k.state.owner?
  let t := k.state.run?
  le 1 k.state.carriage ++ le 1 k.profile.val ++ yesNo k.frame.isSome ++ yesNo k.prevDigest.isSome
    ++ optLabel (o.map Owner.label) ++ zeros 3 ++ optField 4 (o.map Owner.file) ++ optTid (o.map Owner.tid)
    ++ le 2 k.width ++ le 2 k.height ++ le 4 (k.width * k.height) ++ le 4 k.evaluated
    ++ optField 4 (k.frame.map FrameProgress.frame) ++ optField 2 (k.frame.map FrameProgress.lines)
    ++ optField 1 (t.map TestRun.count) ++ optField 1 (t.map TestRun.next)
    ++ colourField ((t.map TestRun.colour).getD ⟨0, 0, 0⟩) ++ zeros 2
    ++ (List.finRange 8).flatMap fun p => probeImage k.probes[p] k.probeStates[p]

/-- R174: the CHANNELS form. -/
def channelsForm (s : State) : Bytes := stateHeader 4 0 8 0 0 0 ++ s.channels.toList.flatMap channelImage

/-- R216: the selection's kind. -/
def Selection.carriage : Selection → Nat
  | .off => 0
  | .follow _ => 1
  | .pin _ _ => 2

/-- R216: the link set of a FOLLOW. -/
def Selection.links : Selection → Nat
  | .follow links => links.toNat
  | _ => 0

/-- R216: the label and file number of a PIN. -/
def Selection.pinned : Selection → Option (Bytes × Nat)
  | .pin label file => some (label, file)
  | _ => none

/-- R216: the output frame's state. -/
def OutFrame.carriage : OutFrame → Nat
  | .none_ => 0
  | .opened _ _ => 1
  | .broken _ _ => 2

/-- R216: the frame number and the lines sent of an output frame. -/
def OutFrame.numbers : OutFrame → Nat × Nat
  | .none_ => (0, 0)
  | .opened n k => (n, k)
  | .broken n k => (n, k)

/-- R216: the three sticky flags in bits 0 to 2. -/
def EngineState.stickyByte (g : EngineState) : Nat :=
  boolCode g.flagInexact + 2 * boolCode g.flagOver + 4 * boolCode g.flagUnder

/-- R148, R216: the image of a look engine. -/
def engineImage (g : EngineState) : Bytes :=
  le 1 g.selection.carriage ++ le 1 g.selection.links ++ yesNo g.follow.isSome
    ++ yesNo (g.follow.any Follow.ended) ++ optLabel (g.selection.pinned.map Prod.fst) ++ zeros 3
    ++ optField 4 (g.selection.pinned.map Prod.snd) ++ optLabel (g.follow.map Follow.label)
    ++ optField 1 (g.follow.map fun f => f.look.val) ++ le 1 g.queue.length ++ yesNo g.proc.isSome
    ++ optField 4 (g.follow.map Follow.file) ++ optTid (g.follow.map Follow.tid) ++ yesNo g.pendingGap
    ++ le 1 g.out.carriage ++ presentField 1 (g.working.map fun w => w.index.val)
    ++ le 4 g.out.numbers.1 ++ le 2 g.out.numbers.2 ++ le 1 g.stickyByte ++ zeros 1

/-- R148: the ENGINES form. -/
def enginesForm (s : State) : Bytes := stateHeader 5 0 2 0 0 0 ++ s.engines.toList.flatMap engineImage

/-! ### The other DONE replies -/

/-- R186, R198, R216: the READ FAULTS reply. -/
def faultsBody (start count : Nat) (s : State) : Bytes :=
  let shown := (s.log.drop start).take count
  le 1 s.log.length ++ le 1 (s.log.filter fun r => r.state == .opened).length
    ++ le 1 (s.log.filter fun r => r.state == .opened && r.severity == .hold).length ++ le 1 shown.length
    ++ le 2 s.keyCounter ++ zeros 2 ++ shown.flatMap FaultRec.image

/-- R204, R216: a qualifier's kind and number. -/
def Qualifier.carriage : Qualifier → Bytes
  | .all => [0, 0]
  | .link l => [1] ++ le 1 l.val
  | .dest d => [2] ++ le 1 d.val

/-- R216: one event counter in a READ COUNTERS reply. -/
def EventCounter.image (c : EventCounter) : Bytes :=
  le 4 c.count ++ le 1 (posOf CountEvent.all c.event) ++ c.qualifier.carriage ++ zeros 1

/-- R207, R216: the READ COUNTERS reply. -/
def countersBody (s : State) : Bytes :=
  (s.counters.toList.flatMap fun p => p.even.image ++ p.odd.image)
    ++ s.counters.toList.flatMap (fun p => yesNo p.joined) ++ zeros 2 ++ s.loss.toList.flatMap (le 2)

/-- R200, R216: the RELEASE CARD reply. -/
def releaseBody (k : Card) : Bytes :=
  yesNo k.pulled ++ zeros 1 ++ le 2 k.opened ++ le 2 k.completed ++ le 2 k.waived

/-- R202, R216: the REVIEW SELECT reply. -/
def followBody (f : Option Follow) : Bytes :=
  yesNo f.isSome ++ zeros 3 ++ optLabel (f.map Follow.label) ++ zeros 3 ++ optField 4 (f.map Follow.file)
    ++ optTid (f.map Follow.tid)

/-- R203: the parameters of a TEST FRAME, as clamped. -/
structure TestParams where
  channel : Fin 8
  profile : Fin 8
  width : Nat
  height : Nat
  colour : Pixel
  count : Nat
  deriving DecidableEq, Repr

/-- R216: the parameters in the layout of the TEST FRAME body. -/
def TestParams.image (q : TestParams) : Bytes :=
  le 1 q.channel.val ++ le 1 q.profile.val ++ le 2 q.width ++ le 2 q.height ++ colourField q.colour ++ le 1 q.count
    ++ zeros 3

/-- R203, R216: the TEST FRAME reply, from the channel as it has latched. -/
def testBody (q : TestParams) (s : State) : Bytes :=
  q.image ++ le 4 (q.width * q.height)
    ++ s.channels[q.channel].probes.toList.flatMap fun p => le 4 p.tHi ++ le 4 p.tLo

end Sys2Proof.Machine
end

