-- ==== Sys2Proof/Machine/Operands.lean ====
section
/-! DEFINITION. The bodies of CONTROL commands (R215): their lengths, their must-be-zero fields, length and count fields
(step 2 of R189), their enumerations (step 3), and the values they carry, clamped (step 4). -/

namespace Sys2Proof.Machine

open Sys2Proof

/-- What a command answers: the result, the reply body, and the state after its effect. -/
structure Answer where
  result : CmdResult
  body : Bytes
  after : State
  deriving DecidableEq, Repr

/-- An answer with an empty body that changes nothing. -/
def Answer.refuse (r : CmdResult) (s : State) : Answer := ⟨r, [], s⟩

/-- R189: a DONE reply. -/
def Answer.done (body : Bytes) (s : State) : Answer := ⟨.done, body, s⟩

/-- R189: a refusal with the offset of the first field that failed. -/
def Answer.refuseAt (r : CmdResult) (off : Nat) (s : State) : Answer := ⟨r, le 2 off, s⟩

/-- What a command's body must be: its length, and the tests of steps 2 and 3 of R189. -/
structure BodyShape where
  lengthOk : Bool
  zeros : FieldTests
  enums : FieldTests
  deriving DecidableEq, Repr

/-- R189, steps 2 and 3. The offset in the refusal of a wrong body length is a free value (LOG 9). -/
def guardBody (shape : BodyShape) (s : State) (go : Answer) : Answer :=
  if shape.lengthOk then
    match shape.zeros.firstBad with
    | some off => .refuseAt .refusedField off s
    | none =>
      match shape.enums.firstBad with
      | some off => .refuseAt .refusedValue off s
      | none => go
  else
    ⟨.refusedField, le 2 (Config.freeOffset s.freeCtr).toNat, { s with freeCtr := s.freeCtr + 1 }⟩

/-- A body of a fixed length. -/
def fixedShape (n : Nat) (zeros enums : FieldTests) (b : Bytes) : BodyShape := ⟨b.length == n, zeros, enums⟩

/-- R215: an enumeration outside its list whose byte the body's length depends on: the body need only reach past that
byte, and step 3 refuses the command there. -/
def badShape (off : Nat) (b : Bytes) : BodyShape := ⟨decide (off < b.length), [], [(off, false)]⟩

/-- R197: a card label in a command body, at an offset. -/
def labelTest (b : Bytes) (off : Nat) : Nat × Bool := (off, labelFieldOk (bytesAt b off 17))

/-- The label in a command body, at an offset. -/
def labelArg (b : Bytes) (off : Nat) : Bytes := labelOf (bytesAt b off 17)

/-! ### WRITE TABLE and READ TABLE (R193, R194) -/

/-- R193: how many entries the body holds. -/
def entryCount (t : TableName) (b : Bytes) : Nat := (b.length - 4) / t.entryLength

/-- R193: the bytes of entry `k` of the body. -/
def entryBytes (t : TableName) (b : Bytes) (k : Nat) : Bytes := bytesAt b (4 + t.entryLength * k) t.entryLength

/-- The tests of one kind for every entry of a WRITE TABLE body. -/
def entryTests (t : TableName) (tests : Bytes → FieldTests) (b : Bytes) : FieldTests :=
  (List.range (entryCount t b)).flatMap fun k =>
    FieldTests.at (tests (entryBytes t b k)) (4 + t.entryLength * k)

/-- R189, R193: the start index lies within the table. -/
def startIndexTest (t : TableName) (b : Bytes) : Nat × Bool := (2, decide (fieldAt b 2 2 < t.entries))

/-- R193, R215: the WRITE TABLE body of a table. -/
def writeTableShape (t : TableName) (b : Bytes) : BodyShape :=
  { lengthOk := decide (4 + t.entryLength ≤ b.length ∧ (b.length - 4) % t.entryLength = 0)
    zeros := zeroTest b 1 1 :: entryTests t t.zeroTests b
    enums := startIndexTest t b :: entryTests t t.enumTests b }

/-- R192: the table a body names. -/
def tableArg (b : Bytes) : Option TableName := if b = [] then none else TableName.all[fieldAt b 0 1]?

/-- R194, R215: the READ TABLE body. -/
def readTableShape (b : Bytes) : BodyShape :=
  fixedShape 6 [zeroTest b 1 1]
    (match tableArg b with
     | some t => [startIndexTest t b]
     | none => [(0, false)]) b

/-! ### READ STATE and READ FAULTS (R197, R198) -/

/-- R197, R215: the READ STATE body. A form outside its list has no field that is must-be-zero for it (LOG 21); the
clear option is tested in every form (LOG 24). -/
def readStateShape (b : Bytes) : BodyShape :=
  let form := fieldAt b 0 1
  fixedShape 22
    ((if form = 1 then [labelTest b 2] else if form < 6 then [zeroTest b 2 17] else [])
      ++ [zeroTest b 19 1] ++ (if form ≠ 1 ∧ form < 6 then [zeroTest b 20 2] else []))
    [(0, decide (form < 6)), yesNoTest b 1] b

/-- R198, R215: the READ FAULTS body. -/
def readFaultsShape (b : Bytes) : BodyShape := fixedShape 4 [] [] b

/-! ### ACK FAULTS (R199) -/

/-- R199: the keys of a KEYS body. -/
def ackKeys (b : Bytes) : List Nat := (List.range (fieldAt b 1 1)).map fun k => fieldAt b (2 + 2 * k) 2

/-- R199, R215: the ACK FAULTS body in the KEYS form. A count outside 1..16 is refused at its own offset. -/
def ackKeysShape (b : Bytes) : BodyShape :=
  let n := fieldAt b 1 1
  { lengthOk := decide (2 ≤ b.length ∧ (n = 0 ∨ 16 < n ∨ b.length = 2 + 2 * n))
    zeros := [(1, decide (1 ≤ n ∧ n ≤ 16))]
    enums := [] }

/-- R199, R215: the ACK FAULTS body in the LABEL form. -/
def ackLabelShape (b : Bytes) : BodyShape := fixedShape 19 [zeroTest b 1 1, labelTest b 2] [] b

/-! ### Commands on cards, files and destinations (R199 to R201) -/

/-- R215: the body of WAIVE LOSS, RELEASE CARD and CLEAR CARD. -/
def labelShape (b : Bytes) : BodyShape := fixedShape 17 [labelTest b 0] [] b

/-- R215: the body of WAIVE FILE. -/
def waiveFileShape (b : Bytes) : BodyShape := fixedShape 24 [labelTest b 0, zeroTest b 17 3] [] b

/-- R215: the body of DEST QUARANTINE and DEST RESTORE. -/
def destShape (b : Bytes) : BodyShape := fixedShape 4 [zeroTest b 1 3] [(0, decide (fieldAt b 0 1 < 6))] b

/-- R201: the destination a body names. -/
def destArg (b : Bytes) : Dest := ⟨fieldAt b 0 1 % 6, Nat.mod_lt _ (by decide)⟩

/-! ### REVIEW SELECT (R202) -/

/-- R202: the link set is in form for the selection kind. -/
def linkSetTest (b : Bytes) : Nat × Bool :=
  (2, decide (fieldAt b 2 1 < (if fieldAt b 1 1 = 0 ∨ fieldAt b 1 1 = 2 then 1 else 16)))

/-- R202: the label and the file number are in form for the selection kind; a kind outside its list has none that are
must-be-zero for it (LOG 21). -/
def pinTests (b : Bytes) : FieldTests :=
  if fieldAt b 1 1 = 2 then [labelTest b 4, zeroTest b 21 3]
  else if fieldAt b 1 1 < 2 then [zeroTest b 4 17, zeroTest b 21 3, zeroTest b 24 4]
  else [zeroTest b 21 3]

/-- R202, R215: the REVIEW SELECT body. -/
def reviewShape (b : Bytes) : BodyShape :=
  fixedShape 28 ([linkSetTest b, zeroTest b 3 1] ++ pinTests b)
    [(0, decide (fieldAt b 0 1 < 2)), (1, decide (fieldAt b 1 1 < 3))] b

/-- R202: the engine of the named output. -/
def engineArg (b : Bytes) : Engine := ⟨fieldAt b 0 1 % 2, Nat.mod_lt _ (by decide)⟩

/-- R202: the selection a body carries. -/
def selectionArg (b : Bytes) : Selection :=
  if fieldAt b 1 1 = 0 then .off
  else if fieldAt b 1 1 = 1 then .follow (BitVec.ofNat 4 (fieldAt b 2 1))
  else .pin (labelArg b 4) (fieldAt b 24 4)

/-! ### Counters (R205, R207) -/

/-- R205: the qualifier kind suits the event: LINK the first three events and REVIEW_SKIPS, DEST the others. -/
def suits (event kind : Nat) : Bool :=
  match kind with
  | 0 => true
  | 1 => event == 0 || event == 1 || event == 3 || event == 4
  | 2 => event == 2 || event == 5 || event == 6 || event == 7
  | _ => false

/-- R205: the qualifier number is in its list. -/
def numberTest (b : Bytes) (o : Nat) : Nat × Bool :=
  (o + 2, decide (fieldAt b (o + 1) 1 = 0 ∨ fieldAt b (o + 2) 1 < (if fieldAt b (o + 1) 1 = 1 then 4 else 6)))

/-- R205: the step 2 tests of one counter's settings: a number that must be zero for ALL, and the must-be-zero byte
(LOG 22). -/
def counterZeros (b : Bytes) (o : Nat) : FieldTests :=
  [(o + 2, decide (fieldAt b (o + 1) 1 ≠ 0 ∨ fieldAt b (o + 2) 1 = 0)), zeroTest b (o + 3) 1]

/-- R205: the step 3 tests of one counter's settings. -/
def counterEnums (b : Bytes) (o : Nat) : FieldTests :=
  [enumTest CountEvent.all b o, (o + 1, suits (fieldAt b o 1) (fieldAt b (o + 1) 1)), numberTest b o]

/-- R205, R215: the SET COUNTER EVENTS body. -/
def setCountersShape (b : Bytes) : BodyShape :=
  fixedShape 20 (counterZeros b 0 ++ counterZeros b 4 ++ counterZeros b 8 ++ counterZeros b 12 ++ [zeroTest b 18 2])
    (counterEnums b 0 ++ counterEnums b 4 ++ counterEnums b 8 ++ counterEnums b 12
      ++ [yesNoTest b 16, yesNoTest b 17]) b

/-- R205: the qualifier at an offset. -/
def qualifierArg (b : Bytes) (o : Nat) : Qualifier :=
  if fieldAt b (o + 1) 1 = 1 then .link ⟨fieldAt b (o + 2) 1 % 4, Nat.mod_lt _ (by decide)⟩
  else if fieldAt b (o + 1) 1 = 2 then .dest ⟨fieldAt b (o + 2) 1 % 6, Nat.mod_lt _ (by decide)⟩
  else .all

/-- R205: a counter with new settings and count 0. -/
def counterArg (b : Bytes) (o : Nat) : EventCounter :=
  ⟨0, pick CountEvent.all .segIn (fieldAt b o 1), qualifierArg b o⟩

/-- R205: the settings that a body carries. -/
def pairsArg (b : Bytes) : Vector CounterPair 2 :=
  #v[⟨fieldAt b 16 1 == 1, counterArg b 0, counterArg b 4⟩, ⟨fieldAt b 17 1 == 1, counterArg b 8, counterArg b 12⟩]

/-- R207, R215: the READ COUNTERS body. -/
def readCountersShape (b : Bytes) : BodyShape := fixedShape 4 [zeroTest b 1 3] [yesNoTest b 0] b

/-! ### TEST FRAME, LINK RESET and commands without a body -/

/-- R203, R215: the TEST FRAME body; every field is a quantity. -/
def testShape (b : Bytes) : BodyShape := fixedShape 16 [zeroTest b 13 3] [] b

/-- R208, R215: the LINK RESET body. -/
def linkResetShape (b : Bytes) : BodyShape := fixedShape 4 [zeroTest b 1 3] [(0, decide (fieldAt b 0 1 < 10))] b

/-- R215: IDENTIFY and SOFT RESET have no body. -/
def emptyShape (b : Bytes) : BodyShape := fixedShape 0 [] [] b

end Sys2Proof.Machine
end

