-- ==== Sys2Proof/Machine/Management.lean ====
section
/-! DEFINITION. The Management Responder (chapter 10): the taking of a CONTROL segment (R17, R188 to R190) and its commands
but for the resets (Resets.lean). -/

namespace Sys2Proof.Machine

open Sys2Proof

/-! ### Taking a CONTROL segment -/

/-- R190: the reply is queued on the link that carried the command, and the command's processing ends. -/
def answerHead (l : SrcLink) (g : Segment) (a : Answer) : State :=
  endProcessing l (queueReply l ⟨g.tag, g.command, a.result, a.body⟩ a.after)

/-- R189 step 1, R214: the code names a command. -/
def isCommand (code : Nat) : Bool := decide (1 ≤ code ∧ code ≤ 0x12)

/-- R17, R188: the decision for the CONTROL segment at the head of the link. -/
def headDecision (l : SrcLink) (g : Segment) (s : State) : Bool := s.src[l].headAddressed.getD (addressed s g.target)

/-- R17, R189: a CONTROL segment addressed to this part, when it is passed to the MGR; `mine` says that it is the
command of this step. -/
def takeCommand (l : SrcLink) (mine : Segment → Bool) (f : Segment → State → State) (g : Segment) (s : State) : State :=
  if Config.replyCap ≤ s.src[l].replies.length then s
  else if isCommand g.command then if mine g then f g s else s
  else answerHead l g (.refuse .unknownCommand s)

/-- R15 to R17, R188, R189: the CONTROL segment at the head of the link is taken. A header that fails its checks, a
foreign segment and an unknown code are disposed of whichever command's step this is (LOG 1). -/
def takeControl (l : SrcLink) (mine : Segment → Bool) (f : Segment → State → State) (s : State) : State :=
  match headSegment l s with
  | none => s
  | some g =>
    if g.kind = 7 then
      if g.headerOk then
        if headDecision l g s then takeCommand l mine f g s else endProcessing l (loseOne .foreign s)
      else endProcessing l (refuseHeader l g s)
    else s

/-- The segment carries a command code. -/
def hasCode (k : Nat) (g : Segment) : Bool := g.command == k

/-- A command without more than an answer: its body is read, and its answer queued. -/
def runCommand (l : SrcLink) (mine : Segment → Bool) (cmd : Bytes → State → Answer) (s : State) :
    Host.Outcome State Fault Refusal :=
  live s fun s => .next (takeControl l mine (fun g s => answerHead l g (cmd g.payload s)) s)

/-! ### IDENTIFY, tables and state -/

/-- R196. -/
def cmdIdentify (b : Bytes) (s : State) : Answer := guardBody (emptyShape b) s (.done (identifyBody s) s)

/-- IDENTIFY. -/
def execIdentify (l : SrcLink) (s : State) : Host.Outcome State Fault Refusal := runCommand l (hasCode 1) cmdIdentify s

/-- R193: the entries of the body written from the start index on; those beyond the last index are discarded. -/
def writeEntries (t : TableName) (b : Bytes) (s : State) : State :=
  (List.range (entryCount t b)).foldl (fun s k =>
    if fieldAt b 2 2 + k < t.entries then writeEntry t (fieldAt b 2 2 + k) (entryBytes t b k) s else s) s

/-- R193: how many entries of the body are written. -/
def entriesWritten (t : TableName) (b : Bytes) : Nat := min (entryCount t b) (t.entries - fieldAt b 2 2)

/-- R193. -/
def cmdWriteTable (b : Bytes) (s : State) : Answer :=
  match tableArg b with
  | none => guardBody (badShape 0 b) s (.done [] s)
  | some t =>
    guardBody (writeTableShape t b) s
      ⟨if entriesWritten t b = entryCount t b then .done else .partialDone, le 2 (entriesWritten t b) ++ zeros 2,
        writeEntries t b s⟩

/-- WRITE_TABLE. -/
def execWriteTable (l : SrcLink) (s : State) : Host.Outcome State Fault Refusal :=
  runCommand l (hasCode 2) cmdWriteTable s

/-- R194: the entries a READ TABLE returns. -/
def entriesRead (t : TableName) (b : Bytes) (s : State) : List Bytes :=
  ((tableImages t s).drop (fieldAt b 2 2)).take (clampNat 1 t.entries (fieldAt b 4 2))

/-- R194, R216: the reply to a READ TABLE. -/
def readTableBody (t : TableName) (b : Bytes) (s : State) : Bytes :=
  bytesAt b 0 1 ++ zeros 1 ++ bytesAt b 2 2 ++ le 2 (entriesRead t b s).length ++ zeros 2 ++ (entriesRead t b s).flatten

/-- R194. -/
def cmdReadTable (b : Bytes) (s : State) : Answer :=
  guardBody (readTableShape b) s (.done ((tableArg b).elim [] fun t => readTableBody t b s) s)

/-- READ_TABLE. -/
def execReadTable (l : SrcLink) (s : State) : Host.Outcome State Fault Refusal :=
  runCommand l (hasCode 3) cmdReadTable s

/-- R131, R197: the sticky flags of an engine cleared. -/
def EngineState.clearSticky (g : EngineState) : EngineState :=
  { g with flagInexact := false, flagOver := false, flagUnder := false }

/-- R131, R148, R197: the ENGINES form; how far each engine has come is settled first (LOG 8). -/
def readEngines (clear : Bool) (s : State) : Answer :=
  let s := progressEngine 1 (progressEngine 0 s)
  .done (enginesForm s) (if clear then { s with engines := s.engines.map EngineState.clearSticky } else s)

/-- R197: the FILES form. -/
def readFiles (b : Bytes) (s : State) : Answer :=
  match cardByLabel (labelArg b 2) s with
  | none => .refuse .notFound s
  | some c => .done (filesForm c (clampNat 0 511 (fieldAt b 20 2)) s) s

/-- R197: the forms of READ STATE. -/
def readForm (b : Bytes) (s : State) : Answer :=
  match fieldAt b 0 1 with
  | 0 => .done (cardsForm s) s
  | 1 => readFiles b s
  | 2 => .done (destinationsForm s) s
  | 3 => .done (linksForm s) s
  | 4 => .done (channelsForm s) s
  | _ => readEngines (fieldAt b 1 1 == 1) s

/-- R197. -/
def cmdReadState (b : Bytes) (s : State) : Answer := guardBody (readStateShape b) s (readForm b s)

/-- READ_STATE. -/
def execReadState (l : SrcLink) (s : State) : Host.Outcome State Fault Refusal :=
  runCommand l (hasCode 4) cmdReadState s

/-! ### The Fault Log (R183 to R186, R198, R199) -/

/-- R198. -/
def cmdReadFaults (b : Bytes) (s : State) : Answer :=
  guardBody (readFaultsShape b) s
    (.done (faultsBody (clampNat 0 63 (fieldAt b 0 2)) (clampNat 1 64 (fieldAt b 2 2)) s) s)

/-- READ_FAULTS. -/
def execReadFaults (l : SrcLink) (s : State) : Host.Outcome State Fault Refusal :=
  runCommand l (hasCode 5) cmdReadFaults s

/-- R199: the reply of an ACK FAULTS that carries its two numbers. -/
def ackBody (acked missing : Nat) : Bytes := le 2 acked ++ le 2 missing

/-- R183, R199: the keys are acknowledged; a missing key counts at each of its places (LOG 35). -/
def ackByKeys (keys : List Nat) (s : State) : Answer :=
  let named : FaultRec → Bool := fun r => keys.contains r.key
  let missing := (keys.filter fun k => !keyHeld s.log k).length
  if s.log.any named then .done (ackBody (ackCount named s) missing) (ackRecords named s)
  else ⟨.notFound, ackBody 0 missing, s⟩

/-- R184, R199: the records of a label are acknowledged. -/
def ackByLabel (label : Bytes) (s : State) : Answer :=
  let named : FaultRec → Bool := fun r => r.label == some label
  if s.log.any named then .done (ackBody (ackCount named s) 0) (ackRecords named s)
  else .refuse .notFound s

/-- R199, R215: an ACK FAULTS body, by its form. -/
def cmdAckFaults (b : Bytes) (s : State) : Answer :=
  match fieldAt b 0 1 with
  | 0 => guardBody (ackKeysShape b) s (ackByKeys (ackKeys b) s)
  | 1 => guardBody (ackLabelShape b) s (ackByLabel (labelArg b 2) s)
  | _ => guardBody (badShape 0 b) s (.done [] s)

/-- ACK_FAULTS_KEYS: an ACK FAULTS whose form is not LABEL (LOG 36). -/
def execAckFaultsKeys (l : SrcLink) (s : State) : Host.Outcome State Fault Refusal :=
  runCommand l (fun g => hasCode 6 g && fieldAt g.payload 0 1 != 1) cmdAckFaults s

/-- ACK_FAULTS_LABEL: an ACK FAULTS whose form is not KEYS (LOG 36). -/
def execAckFaultsLabel (l : SrcLink) (s : State) : Host.Outcome State Fault Refusal :=
  runCommand l (fun g => hasCode 6 g && fieldAt g.payload 0 1 != 0) cmdAckFaults s

/-- A command that names a card record by its label. -/
def onCard (label : Bytes) (s : State) (f : CardIx → Card → Answer) : Answer :=
  match cardByLabel label s with
  | none => .refuse .notFound s
  | some c => match s.cards[c] with
    | none => .refuse .notFound s
    | some k => f c k

/-- R185: the lost-fault mark is cleared. -/
def waiveMark (c : CardIx) (s : State) : State := reeval c (modCard c (fun k => { k with lostMark := false }) s)

/-- R185, R199. -/
def cmdWaiveLoss (b : Bytes) (s : State) : Answer :=
  guardBody (labelShape b) s (onCard (labelArg b 0) s fun c _ => .done [] (waiveMark c s))

/-- WAIVE_LOSS. -/
def execWaiveLoss (l : SrcLink) (s : State) : Host.Outcome State Fault Refusal :=
  runCommand l (hasCode 7) cmdWaiveLoss s

/-! ### Cards and files (R46 to R48, R200) -/

/-- R46: the CARD_RELEASED notice of a card. -/
def releasedOf (k : Card) : Released := ⟨k.label, k.pulled, k.opened, k.completed, k.waived⟩

/-- R46: the card record is freed, with a notice where the card was mounted, whatever the notices setting (LOG 37). -/
def releaseEffect (c : CardIx) (k : Card) (s : State) : State :=
  let s := putCard c none s
  if k.mount = .detached then s else offerNotice (.released (releasedOf k)) s

/-- R46, R200. -/
def cmdReleaseCard (b : Bytes) (s : State) : Answer :=
  guardBody (labelShape b) s (onCard (labelArg b 0) s fun c k =>
    if k.verdict = .releasable then .done (releaseBody k) (releaseEffect c k s) else .refuse .refusedState s)

/-- RELEASE_CARD. -/
def execReleaseCard (l : SrcLink) (s : State) : Host.Outcome State Fault Refusal :=
  runCommand l (hasCode 8) cmdReleaseCard s

/-- R47: each destination whose copy is unsettled discards the file. -/
def discardCopies (i : FileIx) (s : State) : State :=
  match s.files[i].file with
  | none => s
  | some f => f.unsettledDests.foldl (fun s d => withdraw d (tidOf i s) s) s

/-- R47: a file record of a cleared card. -/
def clearFile (i : FileIx) (s : State) : State := freeFile i (releaseChannel i (discardCopies i s))

/-- R47: the card is cleared, its files in ascending order of record index (LOG 41); R146: the follow of a file of the card
ends as by an abort (LOG 23). -/
def clearEffect (c : CardIx) (k : Card) (s : State) : State :=
  let s := (filesOf s c fun _ => true).foldl (fun s i => clearFile i s) s
  let s := endFollowsAbort (fun f => f.label == k.label) s
  putCard c none (logFault (FaultRec.ofCard .cardCleared .note k.label) (checkStalls s))

/-- R47, R200. -/
def cmdClearCard (b : Bytes) (s : State) : Answer :=
  guardBody (labelShape b) s (onCard (labelArg b 0) s fun c k =>
    .done (le 2 (filesOf s c fun _ => true).length ++ zeros 2) (clearEffect c k s))

/-- CLEAR_CARD. -/
def execClearCard (l : SrcLink) (s : State) : Host.Outcome State Fault Refusal :=
  runCommand l (hasCode 9) cmdClearCard s

/-- R48: a SHORT file is waived. -/
def waiveEffect (i : FileIx) (f : FileRec) (s : State) : State :=
  let s := issueManifest (manifestOf i f true s) s
  let s := modCard f.card (fun k => { k with waived := satInc k.waived }) s
  reeval f.card (freeFile i s)

/-- R48: the file a WAIVE FILE names. -/
def waiveFile (i : FileIx) (s : State) : Answer :=
  match s.files[i].file with
  | none => .refuse .notFound s
  | some f =>
    if f.state = .short then .done (tidField (tidOf i s) ++ setField f.verifiedSet ++ zeros 3) (waiveEffect i f s)
    else .refuse .refusedState s

/-- R48, R200. -/
def cmdWaiveFile (b : Bytes) (s : State) : Answer :=
  guardBody (waiveFileShape b) s (onCard (labelArg b 0) s fun c _ =>
    match fileByNumber c (fieldAt b 20 4) s with
    | none => .refuse .notFound s
    | some i => waiveFile i s)

/-- WAIVE_FILE. -/
def execWaiveFile (l : SrcLink) (s : State) : Host.Outcome State Fault Refusal :=
  runCommand l (hasCode 10) cmdWaiveFile s

/-! ### Destinations and review outputs (R94, R95, R142, R201, R202) -/

/-- R201: the reply of a destination command. -/
def destBody (d : Dest) (copies : Nat) (s : State) : Bytes :=
  le 1 (posOf DestState.all s.dest[d].state) ++ zeros 1 ++ le 2 copies

/-- R94. -/
def quarantineCommand (d : Dest) (s : State) : Answer :=
  if s.dest[d].state = .quarantined then .refuse .refusedState s
  else
    let t := enterQuarantine .byCommand d s
    .done (destBody d (unsettledOn d s).length t) t

/-- R94, R201. -/
def cmdDestQuarantine (b : Bytes) (s : State) : Answer :=
  guardBody (destShape b) s (quarantineCommand (destArg b) s)

/-- DEST_QUARANTINE. -/
def execDestQuarantine (l : SrcLink) (s : State) : Host.Outcome State Fault Refusal :=
  runCommand l (hasCode 11) cmdDestQuarantine s

/-- R95. -/
def restoreCommand (d : Dest) (s : State) : Answer :=
  if s.dest[d].state = .quarantined then
    let t := modDest d DestPort.restore s
    .done (destBody d 0 t) t
  else .refuse .refusedState s

/-- R95, R201. -/
def cmdDestRestore (b : Bytes) (s : State) : Answer := guardBody (destShape b) s (restoreCommand (destArg b) s)

/-- DEST_RESTORE. -/
def execDestRestore (l : SrcLink) (s : State) : Host.Outcome State Fault Refusal :=
  runCommand l (hasCode 12) cmdDestRestore s

/-- R142, R202: the selection taken, and the follow that results reported. -/
def selectCommand (e : Engine) (sel : Selection) (s : State) : Answer :=
  let t := takeSelection e sel s
  .done (followBody t.engines[e].follow) t

/-- R142, R202. -/
def cmdReviewSelect (b : Bytes) (s : State) : Answer :=
  guardBody (reviewShape b) s (selectCommand (engineArg b) (selectionArg b) s)

/-- REVIEW_SELECT. -/
def execReviewSelect (l : SrcLink) (s : State) : Host.Outcome State Fault Refusal :=
  runCommand l (hasCode 13) cmdReviewSelect s

/-! ### Counters and test frames (R203, R205, R207) -/

/-- R205. -/
def cmdSetCounterEvents (b : Bytes) (s : State) : Answer :=
  guardBody (setCountersShape b) s (.done [] { s with counters := pairsArg b })

/-- SET_COUNTER_EVENTS. -/
def execSetCounterEvents (l : SrcLink) (s : State) : Host.Outcome State Fault Refusal :=
  runCommand l (hasCode 14) cmdSetCounterEvents s

/-- R207: a pair whose counts are set to 0. -/
def CounterPair.clear (p : CounterPair) : CounterPair :=
  { p with even := { p.even with count := 0 }, odd := { p.odd with count := 0 } }

/-- R207: the counters after they are read. -/
def clearCounters (clear : Bool) (s : State) : State :=
  { s with
    loss := LossCounters.initial
    counters := if clear then s.counters.map CounterPair.clear else s.counters }

/-- R207. -/
def cmdReadCounters (b : Bytes) (s : State) : Answer :=
  guardBody (readCountersShape b) s (.done (countersBody s) (clearCounters (fieldAt b 0 1 == 1) s))

/-- READ_COUNTERS. -/
def execReadCounters (l : SrcLink) (s : State) : Host.Outcome State Fault Refusal :=
  runCommand l (hasCode 15) cmdReadCounters s

/-- R168, R203: the parameters of a TEST FRAME, clamped. -/
def testParams (b : Bytes) : TestParams :=
  { channel := ⟨min 7 (fieldAt b 0 1), by omega⟩
    profile := ⟨min 7 (fieldAt b 1 1), by omega⟩
    width := clamped2 b 2 16 1024
    height := clamped2 b 4 16 1024
    colour := ⟨clamped2 b 6 0 4095, clamped2 b 8 0 4095, clamped2 b 10 0 4095⟩
    count := clampNat 1 16 (fieldAt b 12 1) }

/-- R168, R169. -/
def testCommand (q : TestParams) (s : State) : Answer :=
  if s.channels[q.channel].state = .free then
    let t := startTest q.channel q.profile q.width q.height ⟨q.colour, q.count, 0⟩ s
    .done (testBody q t) t
  else .refuse .refusedState s

/-- R168, R203. -/
def cmdTestFrame (b : Bytes) (s : State) : Answer := guardBody (testShape b) s (testCommand (testParams b) s)

/-- TEST_FRAME. -/
def execTestFrame (l : SrcLink) (s : State) : Host.Outcome State Fault Refusal :=
  runCommand l (hasCode 16) cmdTestFrame s

end Sys2Proof.Machine
end

