-- ==== Sys2Proof/Machine/SourceLink.lean ====
section
/-! DEFINITION. The Source Link Interfaces (chapter 1): link events, the link reset, the acceptance of segments and the
return direction. -/

namespace Sys2Proof.Machine

open Sys2Proof

/-! ### The link reset (R18, R45) -/

/-- R18, on the link's own record: the transmission ends unfinished, the replies are lost, every granted credit is
withheld, the overrun flag is cleared, and training begins where a partner is present. -/
def SrcPort.reset (p : SrcPort) : SrcPort :=
  { p with
    state := if p.state = .down then .down else .training
    granted := 0
    withheld := p.withheld + p.granted
    unannounced := 0
    replies := []
    tx := none
    overrun := false }

/-- R18, R10: the items that a link reset takes out of the notice queue: all of them on the station link, else the
one in transmission on this link. -/
def resetTakes (l : SrcLink) (s : State) (n : NoticeEntry) : Bool := s.part.station == l || n.sending == some l

/-- R10, R18: items leave the notice queue by a link reset, each counted as a dropped notice. -/
def dropNotices (l : SrcLink) (s : State) : State :=
  let gone := s.notices.filter (resetTakes l s)
  let s := { s with notices := s.notices.filter fun n => !resetTakes l s n }
  gone.foldl (fun s _ => loseOne .noticesDropped s) s

/-- R18, R208: the segments of the arrival queue that a link reset discards: all of them, or all but the LINK RESET
command at the head. -/
def discardedArrivals (keepHead : Bool) (arrivals : List SlotIx) : List SlotIx :=
  if keepHead then arrivals.drop 1 else arrivals

/-- R18: the segments of the arrival queue are discarded, and their slots freed. -/
def discardArrivals (l : SrcLink) (keepHead : Bool) (s : State) : State :=
  let gone := discardedArrivals keepHead s.src[l].arrivals
  let s := modSrc l (fun p => { p with
    arrivals := if keepHead then p.arrivals.take 1 else []
    headAddressed := if keepHead then p.headAddressed else none }) s
  gone.foldl (fun s i => clearMark i s) s

/-- R45: the card of the file is mounted on the link. -/
def onLink (l : SrcLink) (f : FileRec) (s : State) : Bool :=
  ((s.cards[f.card].bind Card.handle).map fun h => h.link == l).getD false

/-- R45: the STREAMING files of the cards mounted on the link. -/
def streamingOnLink (l : SrcLink) (s : State) : List FileIx :=
  allIx fun i : FileIx => (s.files[i].file.map fun f => f.state == .streaming && onLink l f s).getD false

/-- R18, R45: the link reset of a source link. The notice queue is emptied before the aborts of R45 issue their FILE_SHORT
notices, which stay queued (LOG 39). The review skips (R146) and credit stalls (R79) that the aborts cause are counted
(LOG 40). -/
def resetSource (l : SrcLink) (keepHead : Bool) (s : State) : State :=
  let s := discardArrivals l keepHead (dropNotices l (modSrc l SrcPort.reset s))
  checkStalls (abortStreaming (streamingOnLink l s) s)

/-! ### Link events (R1, R4) -/

/-- R4: the link enters UP and grants its withheld credits. -/
def SrcPort.enterUp (p : SrcPort) : SrcPort :=
  { p with state := .up, granted := p.granted + p.withheld, unannounced := p.unannounced + p.withheld, withheld := 0 }

/-- A link state set. -/
def setSrcState (l : SrcLink) (st : SrcState) (s : State) : State := modSrc l (fun p => { p with state := st }) s

/-- SOURCE_PARTNER_DETECTED (R1). -/
def execSourcePartnerDetected (l : SrcLink) (s : State) : Host.Outcome State Fault Refusal :=
  live s fun s => .next (if s.src[l].state = .down then setSrcState l .training s else s)

/-- SOURCE_ALIGNMENT_ACHIEVED (R1, R4). -/
def execSourceAlignmentAchieved (l : SrcLink) (s : State) : Host.Outcome State Fault Refusal :=
  live s fun s => .next (if s.src[l].state = .training then modSrc l SrcPort.enterUp s else s)

/-- SOURCE_LOSS_OF_ALIGNMENT (R1, R18); in TRAINING alignment starts again, and the state stays. -/
def execSourceLossOfAlignment (l : SrcLink) (s : State) : Host.Outcome State Fault Refusal :=
  live s fun s => .next (if s.src[l].state = .up then resetSource l false s else s)

/-- SOURCE_PARTNER_LOST (R1, R18). -/
def execSourcePartnerLost (l : SrcLink) (s : State) : Host.Outcome State Fault Refusal :=
  live s fun s => .next (match s.src[l].state with
    | .down => s
    | .training => setSrcState l .down s
    | .up => setSrcState l .down (resetSource l false s))

/-! ### Arrival (R6, R7, R52) -/

/-- R52: the lowest-numbered FREE slot. -/
def freeSlot (s : State) : Option SlotIx := firstIx fun i : SlotIx => s.slots[i].owner == none

/-- R6: the link's counts at an acceptance. -/
def SrcPort.accept (i : SlotIx) (p : SrcPort) : SrcPort :=
  { p with
    held := p.held + 1
    granted := p.granted - 1
    unannounced := min p.unannounced (p.granted - 1)
    arrivals := p.arrivals ++ [i]
    overrun := false }

/-- R6, R52: a segment accepted into a slot; BYTES_IN counts its payload length field (LOG 25). -/
def acceptSegment (l : SrcLink) (i : SlotIx) (g : Segment) (s : State) : State :=
  let first := s.src[l].arrivals == []
  let s := modSrc l (SrcPort.accept i) (modSlot i (fun _ => ⟨some l, true, 0, g⟩) s)
  let s := countEvent .bytesIn (.link l) g.len (countEvent .segIn (.link l) 1 s)
  if first then decideHead l s else s

/-- R7: an overrun. -/
def overrunAt (l : SrcLink) (s : State) : State :=
  let s := loseOne .malformed s
  if s.src[l].overrun then s
  else logFault { FaultRec.offered .overrun .warn with values := [l.val] }
    (modSrc l (fun p => { p with overrun := true }) s)

/-- SEGMENT_ARRIVAL (R2, R6, R7): bytes that are no whole segment are one cut off, which has no effect. -/
def execSegmentArrival (l : SrcLink) (wire : Bytes) (s : State) : Host.Outcome State Fault Refusal :=
  live s fun s =>
    match Segment.ofBytes wire with
    | none => .next s
    | some g =>
      if s.src[l].state = .up then
        if s.src[l].granted = 0 then .next (overrunAt l s)
        else match freeSlot s with
          | none => .fault .noFreeSlot
          | some i => .next (acceptSegment l i g s)
      else .next s

/-! ### The return direction (R8 to R11) -/

/-- R11: the oldest item of the notice queue that is not in transmission is marked as sent on the link. -/
def markSending (l : SrcLink) : List NoticeEntry → List NoticeEntry
  | [] => []
  | n :: rest => if n.sending = none then { n with sending := some l } :: rest else n :: markSending l rest

/-- A return transmission begins. -/
def beginReturn (l : SrcLink) (k : ReturnKind) (wire : Bytes) (s : State) : State :=
  modSrc l (fun p => { p with tx := some ⟨k, wire⟩ }) s

/-- R11: the notice the station link's arbiter would start. -/
def nextNotice (l : SrcLink) (s : State) : Option NoticeEntry :=
  if s.part.station = l then s.notices.find? fun n => n.sending == none else none

/-- R11: the arbiter starts a credit message, else the oldest reply, else on the station link the oldest notice. -/
def startReturn (l : SrcLink) (s : State) : State :=
  let p := s.src[l]
  if p.state = .up ∧ p.tx = none then
    if 0 < p.unannounced then
      beginReturn l (.credit p.unannounced) (creditWire p.unannounced)
        (modSrc l (fun p => { p with unannounced := 0 }) s)
    else match p.replies with
      | r :: _ => beginReturn l .reply r.wire s
      | [] => match nextNotice l s with
        | some n => beginReturn l .notice n.item.wire { s with notices := markSending l s.notices }
        | none => s
  else s

/-- R10: the item in transmission on the link leaves the notice queue. -/
def noticeSent (l : SrcLink) : List NoticeEntry → List NoticeEntry
  | [] => []
  | n :: rest => if n.sending = some l then rest else n :: noticeSent l rest

/-- R9, R10: what leaves its queue at the good end of a return transmission. -/
def returnSent (l : SrcLink) (k : ReturnKind) (s : State) : State :=
  match k with
  | .credit _ => s
  | .reply => modSrc l (fun p => { p with replies := p.replies.drop 1 }) s
  | .notice => { s with notices := noticeSent l s.notices }

/-- R9 to R11: the return transmission ends good. -/
def endReturn (l : SrcLink) (s : State) : State :=
  match s.src[l].tx with
  | none => s
  | some x => modSrc l (fun p => { p with tx := none }) (returnSent l x.kind s)

/-- RETURN_ITEM_START. -/
def execReturnItemStart (l : SrcLink) (s : State) : Host.Outcome State Fault Refusal :=
  live s fun s => .next (startReturn l s)

/-- RETURN_ITEM_END_GOOD. -/
def execReturnItemEndGood (l : SrcLink) (s : State) : Host.Outcome State Fault Refusal :=
  live s fun s => .next (endReturn l s)

end Sys2Proof.Machine
end

