-- ==== Sys2Proof/Machine/Resets.lean ====
section
/-! DEFINITION. The resets (R208 to R210): LINK RESET of a source link and of a destination, SOFT RESET, and the RESET_N
pin. -/

namespace Sys2Proof.Machine

open Sys2Proof

/-! ### LINK RESET (R208) -/

/-- R208: the link a LINK RESET names is one of S0 to S3. -/
def namesSource (g : Segment) : Bool := decide (fieldAt g.payload 0 1 < 4)

/-- R208: the link a LINK RESET names is one of D0 to D5. -/
def namesDest (g : Segment) : Bool := decide (4 ≤ fieldAt g.payload 0 1 ∧ fieldAt g.payload 0 1 < 10)

/-- R208: a LINK RESET that `l` carried; the command itself stays in its arrival queue. -/
def linkReset (l : SrcLink) (n : Nat) (s : State) : State :=
  if h : n < 4 then resetSource ⟨n, h⟩ (⟨n, h⟩ == l) s
  else resetDest ⟨(n - 4) % 6, Nat.mod_lt _ (by decide)⟩ s

/-- R208. -/
def cmdLinkReset (l : SrcLink) (b : Bytes) (s : State) : Answer :=
  guardBody (linkResetShape b) s (.done [] (linkReset l (fieldAt b 0 1) s))

/-- LINK_RESET_SOURCE: a LINK RESET that does not name a destination (LOG 36). -/
def execLinkResetSource (l : SrcLink) (s : State) : Host.Outcome State Fault Refusal :=
  runCommand l (fun g => hasCode 17 g && !namesDest g) (cmdLinkReset l) s

/-- LINK_RESET_DEST: a LINK RESET that does not name a source link (LOG 36). -/
def execLinkResetDest (l : SrcLink) (s : State) : Host.Outcome State Fault Refusal :=
  runCommand l (fun g => hasCode 17 g && !namesSource g) (cmdLinkReset l) s

/-! ### SOFT RESET (R209) -/

/-- R19: the segment in a slot is a CONTROL segment. -/
def isControl (s : State) (i : SlotIx) : Bool := s.slots[i].seg.kind == 7

/-- R19: each segment of the link's arrival queue that is not a CONTROL segment is discarded. -/
def dropArrivals (l : SrcLink) (s : State) : State :=
  let old := s.src[l].arrivals
  let gone := old.filter fun i => !isControl s i
  let kept := old.filter (isControl s)
  let s := modSrc l (fun p => { p with arrivals := kept }) s
  let s := if kept.head? = old.head? then s else decideHead l s
  gone.foldl (fun s i => clearMark i s) s

/-- R49, R103: the unsettled copies of a STREAMING file are withdrawn, and the verify timers of a SETTLING file
cancelled; no record is logged. -/
def softStopFile (i : FileIx) (s : State) : State :=
  match s.files[i].file with
  | none => s
  | some f =>
    match f.state with
    | .streaming => discardCopies i s
    | .settling => (List.finRange 6).foldl (fun s d => cancelTimer i d s) s
    | .short => s

/-- R103: an entry in transmission other than a HALT is not sent again. -/
def DestPort.noResendUnlessHalt (p : DestPort) : DestPort :=
  if p.queue.head? = some QEntry.halt then p else { p with tx := p.tx.map fun x => { x with noResend := true } }

/-- R103: the waiting entries other than a HALT are emptied. -/
def softEmpty (d : Dest) (s : State) : State :=
  modDest d DestPort.noResendUnlessHalt (purgeWaiting d (· == .halt) s)

/-- R103: an ABORT for each member of the open transfer set of an UP destination (LOG 30). -/
def softAborts (d : Dest) (s : State) : State :=
  modDest d (fun p =>
    if p.state = .up then { p with queue := p.queue ++ p.openSet.map .abort } else p) s

/-- R49, R173: every channel is released and every test run ends. -/
def freeChannels (s : State) : State := { s with channels := Vector.replicate 8 ChannelRec.initial }

/-- R49: every file record and every card record is freed; the generations stay. -/
def freeTables (s : State) : State :=
  { s with files := s.files.map fun p => { p with file := none }, cards := Vector.replicate 16 none }

/-- R209: the soft reset, in its order, as one event (LOG 29). R103: the stall flags and counters are kept, but for the
R79 evaluation at the end, which the queued ABORTs may meet (LOG 45). -/
def softReset (s : State) : State :=
  let s := (List.finRange 4).foldl (fun s l => dropArrivals l s) s
  let s := (List.finRange 512).foldl (fun s i => softStopFile i s) s
  let s := (List.finRange 6).foldl (fun s d => softEmpty d s) s
  let s := softResetEngine 1 (softResetEngine 0 s)
  let s := (List.finRange 6).foldl (fun s d => softAborts d s) s
  checkStalls (freeTables (freeChannels s))

/-- R209: the reply is queued first; the soft reset follows where the command was not refused. -/
def runSoftReset (l : SrcLink) (g : Segment) (s : State) : State :=
  let a := guardBody (emptyShape g.payload) s (.done [] s)
  if a.result = .done then softReset (answerHead l g a) else answerHead l g a

/-- SOFT_RESET. -/
def execSoftReset (l : SrcLink) (s : State) : Host.Outcome State Fault Refusal :=
  live s fun s => .next (takeControl l (hasCode 18) (runSoftReset l) s)

/-! ### RESET_N (R210) -/

/-- R210: RESET_N is released: everything takes its power-on value, and the address pins are sampled. The commands
that wait and the counter of the free values are the model's own. -/
def powerOn (adr : BitVec 7) (s : State) : State :=
  { State.reset with partAddress := adr, pending := s.pending, freeCtr := s.freeCtr }

/-- POWER_ON_RESET. -/
def execPowerOnReset (adr : BitVec 7) (s : State) : Host.Outcome State Fault Refusal := .next (powerOn adr s)

/-- RESET_N_HELD_LOW. -/
def execResetNHeldLow (s : State) : Host.Outcome State Fault Refusal := .next { s with resetLow := true }

end Sys2Proof.Machine
end

