-- ==== Sys2Proof/Machine/Dispatch.lean ====
section
/-! DEFINITION. The meaning of each command, by its constructor. -/

namespace Sys2Proof.Machine

open Sys2Proof

def exec (i : Instr) (s : State) : Host.Outcome State Fault Refusal :=
  match i with
  | .powerOnReset adr => Sys2Proof.Machine.execPowerOnReset adr s
  | .sourcePartnerDetected l => Sys2Proof.Machine.execSourcePartnerDetected l s
  | .sourceAlignmentAchieved l => Sys2Proof.Machine.execSourceAlignmentAchieved l s
  | .sourceLossOfAlignment l => Sys2Proof.Machine.execSourceLossOfAlignment l s
  | .sourcePartnerLost l => Sys2Proof.Machine.execSourcePartnerLost l s
  | .segmentArrival l wire => Sys2Proof.Machine.execSegmentArrival l wire s
  | .returnItemStart l => Sys2Proof.Machine.execReturnItemStart l s
  | .returnItemEndGood l => Sys2Proof.Machine.execReturnItemEndGood l s
  | .mount l => Sys2Proof.Machine.execMount l s
  | .unmount l => Sys2Proof.Machine.execUnmount l s
  | .cardEnd l => Sys2Proof.Machine.execCardEnd l s
  | .openFile l => Sys2Proof.Machine.execOpenFile l s
  | .essence l => Sys2Proof.Machine.execEssence l s
  | .preview l => Sys2Proof.Machine.execPreview l s
  | .metaRecord l => Sys2Proof.Machine.execMetaRecord l s
  | .entryStart e => Sys2Proof.Machine.execEntryStart e s
  | .entryCompletion e => Sys2Proof.Machine.execEntryCompletion e s
  | .destPartnerDetected d => Sys2Proof.Machine.execDestPartnerDetected d s
  | .announce d wire => Sys2Proof.Machine.execAnnounce d wire s
  | .destLossOfAlignment d => Sys2Proof.Machine.execDestLossOfAlignment d s
  | .destPartnerLost d => Sys2Proof.Machine.execDestPartnerLost d s
  | .retrainTimerExpiry d => Sys2Proof.Machine.execRetrainTimerExpiry d s
  | .destTransmissionStart d => Sys2Proof.Machine.execDestTransmissionStart d s
  | .destTransmissionEndGood d => Sys2Proof.Machine.execDestTransmissionEndGood d s
  | .credit d wire => Sys2Proof.Machine.execCredit d wire s
  | .verify d wire => Sys2Proof.Machine.execVerify d wire s
  | .writeError d wire => Sys2Proof.Machine.execWriteError d wire s
  | .unknownDestMessage d wire => Sys2Proof.Machine.execUnknownDestMessage d wire s
  | .verifyTimerExpiry d f => Sys2Proof.Machine.execVerifyTimerExpiry d f s
  | .identify l => Sys2Proof.Machine.execIdentify l s
  | .writeTable l => Sys2Proof.Machine.execWriteTable l s
  | .readTable l => Sys2Proof.Machine.execReadTable l s
  | .readState l => Sys2Proof.Machine.execReadState l s
  | .readFaults l => Sys2Proof.Machine.execReadFaults l s
  | .ackFaultsKeys l => Sys2Proof.Machine.execAckFaultsKeys l s
  | .ackFaultsLabel l => Sys2Proof.Machine.execAckFaultsLabel l s
  | .waiveLoss l => Sys2Proof.Machine.execWaiveLoss l s
  | .releaseCard l => Sys2Proof.Machine.execReleaseCard l s
  | .clearCard l => Sys2Proof.Machine.execClearCard l s
  | .waiveFile l => Sys2Proof.Machine.execWaiveFile l s
  | .destQuarantine l => Sys2Proof.Machine.execDestQuarantine l s
  | .destRestore l => Sys2Proof.Machine.execDestRestore l s
  | .reviewSelect l => Sys2Proof.Machine.execReviewSelect l s
  | .setCounterEvents l => Sys2Proof.Machine.execSetCounterEvents l s
  | .readCounters l => Sys2Proof.Machine.execReadCounters l s
  | .testFrame l => Sys2Proof.Machine.execTestFrame l s
  | .testFrameEvaluation c => Sys2Proof.Machine.execTestFrameEvaluation c s
  | .linkResetSource l => Sys2Proof.Machine.execLinkResetSource l s
  | .linkResetDest l => Sys2Proof.Machine.execLinkResetDest l s
  | .softReset l => Sys2Proof.Machine.execSoftReset l s
  | .unknownKindSegment l => Sys2Proof.Machine.execUnknownKindSegment l s
  | .resetNHeldLow => Sys2Proof.Machine.execResetNHeldLow s

end Sys2Proof.Machine
end

