-- ==== Sys2Proof/Safety.lean ====
section
/-! DEFINITION. What counts as a state the part can be in, in the terms the statements use: the laws of the device as
predicates of State. -/

namespace Sys2Proof.Machine

open Sys2Proof

/-- R3: "held plus granted plus withheld equals 256", and unannounced lies in 0..granted. -/
def SrcPort.creditsOk (p : SrcPort) : Prop := p.held + p.granted + p.withheld = 256 ∧ p.unannounced ≤ p.granted

/-- R3: how many slots a source link owns. -/
def ownedSlots (l : SrcLink) (s : State) : Nat := (allIx fun i : SlotIx => s.slots[i].owner == some l).length

/-- R3, R51: the credit accounts of every source link agree, and held is the number of slots charged to the link. -/
def CreditLaw (s : State) : Prop :=
  ∀ l : SrcLink, s.src[l].creditsOk ∧ s.src[l].held = ownedSlots l s

/-- R178: "the fault log holds at most 64 records in creation order, with distinct keys", each key in 0..65535, as is
the key counter (R177). -/
def LogLaw (s : State) : Prop :=
  s.log.length ≤ 64 ∧ (s.log.map FaultRec.key).Nodup ∧ (∀ r ∈ s.log, r.key < 65536) ∧ s.keyCounter < 65536

/-- R9, R10: at most 4 replies wait on each link, and at most 16 items in the notice queue. -/
def QueueLaw (s : State) : Prop := (∀ l : SrcLink, s.src[l].replies.length ≤ 4) ∧ s.notices.length ≤ 16

/-- R77: "a destination's credits in use never exceed its announced limit unless the limit is unlimited". -/
def DestPort.creditsOk (p : DestPort) : Prop :=
  match p.limit with
  | .absent => p.inUse = 0
  | .number n => p.inUse ≤ n
  | .unlimited => p.inUse = 0

/-- R77, R79, R93: every destination keeps within its limit, and its failure count within 0..15. -/
def DestLaw (s : State) : Prop := ∀ d : Dest, s.dest[d].creditsOk ∧ s.dest[d].failures ≤ 15

/-- R206: every loss counter lies in 0..65535. -/
def LossLaw (s : State) : Prop := ∀ n ∈ s.loss.toList, n ≤ 65535

/-- R24: "The OFM keeps each card record's verdict equal to the value this rule gives"; and R23: no two card records have
one label. -/
def VerdictLaw (s : State) : Prop :=
  (∀ (c : CardIx) (k : Card), s.cards[c] = some k → k.verdict = verdictOf s c k) ∧
    ∀ (c c' : CardIx) (k k' : Card), s.cards[c] = some k → s.cards[c'] = some k' → k.label = k'.label → c = c'

/-- R56: how many entries of one destination queue point at a slot. -/
def destRefs (d : Dest) (i : SlotIx) (s : State) : Nat :=
  (s.dest[d].queue.filter fun e => e.slot == some i).length

/-- R56: how many entries of one look queue point at a slot. -/
def lookRefs (e : Engine) (i : SlotIx) (s : State) : Nat := (s.engines[e].queue.filter fun x => x.slot == i).length

/-- R54, R55, R56: "the count of a slot equals the number of entries that point at it, in all eight queues together", at
most one in each queue; a slot is FREE, without an owner, exactly while its mark is clear and its count zero; and the
marked slots, which no entry points at yet, are those of the arrival queues, each in its owner's and there once. -/
def SlotLaw (s : State) : Prop :=
  (∀ i : SlotIx,
    s.slots[i].refs = ((List.finRange 6).map fun d => destRefs d i s).sum +
      ((List.finRange 2).map fun e => lookRefs e i s).sum ∧
    (∀ d : Dest, destRefs d i s ≤ 1) ∧ (∀ e : Engine, lookRefs e i s ≤ 1) ∧
    (s.slots[i].owner = none ↔ s.slots[i].mark = false ∧ s.slots[i].refs = 0) ∧
    (s.slots[i].mark = true → s.slots[i].refs = 0)) ∧
  ∀ l : SrcLink, s.src[l].arrivals.Nodup ∧
    ∀ i : SlotIx, i ∈ s.src[l].arrivals ↔ s.slots[i].mark = true ∧ s.slots[i].owner = some l

/-- R92: "a destination in DOWN or QUARANTINED holds no waiting DATA, OPEN, CLOSE or ABORT message, and no copy on it is
PENDING, SENDING or CLOSED"; what may still be in transmission there is a HALT, or an entry that will not be sent again.
The law holds in TRAINING too, which lies between those two. -/
def QuietLaw (s : State) : Prop :=
  ∀ d : Dest, s.dest[d].state = .down ∨ s.dest[d].state = .training ∨ s.dest[d].state = .quarantined →
    (∀ e ∈ s.dest[d].waiting, e = .halt) ∧
    (∀ (x : DestTx) (e : QEntry), s.dest[d].tx = some x → s.dest[d].queue.head? = some e →
      e = .halt ∨ x.noResend = true) ∧
    ∀ (j : FileIx) (f : FileRec), s.files[j].file = some f → f.copies[d].unsettled = false

/-- R151: "only STREAMING files hold" a channel, and "a channel in FILE serves the one file named by its owner, and that
file's record names the channel". -/
def ChannelLaw (s : State) : Prop :=
  (∀ (j : FileIx) (f : FileRec) (c : Channel), s.files[j].file = some f → f.channel = some c →
    f.state = .streaming ∧ ∃ o, s.channels[c].state = .file o ∧ o.tid = ⟨j, s.files[j].gen⟩ ∧ o.file = f.number) ∧
  ∀ (c : Channel) (o : Owner), s.channels[c].state = .file o →
    ∃ f, s.files[o.tid.index] = ⟨o.tid.gen, some f⟩ ∧ f.channel = some c

/-- R123: the quantities of a look entry lie in their ranges. -/
def LookTableEntry.inRange (k : LookTableEntry) : Prop :=
  (∀ i j : Fin 3, -32768 ≤ k.matrix[i][j] ∧ k.matrix[i][j] ≤ 32767) ∧
    (∀ i : Fin 3, -4096 ≤ k.offsets[i] ∧ k.offsets[i] ≤ 4095) ∧
    (∀ i : Fin 3, ∀ n : Fin 65, k.curves[i][n] ≤ 1023) ∧ ∀ i : Fin 3, k.marker[i] ≤ 1023

/-- R21: the quantities of a ROUTE entry lie in their ranges. -/
def RouteEntry.inRange (e : RouteEntry) : Prop := 1 ≤ e.required ∧ e.required ≤ 6

/-- R105: the quantities of a FORMAT entry lie in their ranges, the two offsets within the metadata record. -/
def FormatEntry.inRange (e : FormatEntry) : Prop :=
  16 ≤ e.width ∧ e.width ≤ 1024 ∧ 16 ≤ e.height ∧ e.height ≤ 1024 ∧ 8 ≤ e.recordLength ∧ e.recordLength ≤ 1024 ∧
    (∀ o, e.timecodeOffset = some o → o ≤ e.recordLength - 4) ∧ ∀ o, e.counterOffset = some o → o ≤ e.recordLength - 4

/-- R149: the quantities of a PROFILE entry lie in their ranges. -/
def ProfileEntry.inRange (e : ProfileEntry) : Prop :=
  e.clipCode ≤ 4095 ∧ e.blackCode ≤ 4095 ∧ ∀ p : Fin 8,
    e.probes[p].dHi ≤ 255 ∧ e.probes[p].dLo ≤ 255 ∧ 1 ≤ e.probes[p].persistence ∧ e.probes[p].persistence ≤ 15 ∧
      e.probes[p].window ≤ 255

/-- R101: the quantities of a DEST_CONFIG entry lie in their ranges. -/
def DestConfig.inRange (e : DestConfig) : Prop :=
  1 ≤ e.verifyTimeout ∧ e.verifyTimeout ≤ 3600 ∧ 10 ≤ e.retrainLimit ∧ e.retrainLimit ≤ 1000

/-- R195: the quantities of the PART_CONFIG entry lie in their ranges. -/
def PartConfig.inRange (e : PartConfig) : Prop := e.threshold ≤ 15

/-! ### What the statements say of a command's circumstances -/

/-- R206: one occurrence counted, saturating at 65535. -/
def oneMore (n : Nat) : Nat := if n < 65535 then n + 1 else n

/-- R23: the label names the card record `k` at position `c`, and no other. -/
abbrev NamesCard (label : Bytes) (c : CardIx) (k : Card) (s : State) : Prop :=
  s.cards[c] = some k ∧ k.label = label ∧ ∀ c' : CardIx, (s.cards[c'].map Card.label) = some label → c' = c

/-- R12, R55: the segment `g` stands at the head of the link, in slot `i`, pending and without references, and the part
is not held in reset. -/
abbrev AtHead (l : SrcLink) (i : SlotIx) (g : Segment) (s : State) : Prop :=
  s.resetLow = false ∧ s.src[l].arrivals.head? = some i ∧ s.slots[i] = ⟨some l, true, 0, g⟩

/-- R17, R188: that segment is a CONTROL segment which passes its header checks and is addressed to this part, and the
reply queue has room. -/
abbrev Serves (l : SrcLink) (i : SlotIx) (g : Segment) (s : State) : Prop :=
  AtHead l i g s ∧ g.kind = 7 ∧ g.headerOk = true ∧ s.src[l].headAddressed = some true ∧ s.src[l].replies.length < 4

/-- R188: the target address names this part: it agrees with the part address wherever the address mask holds a 1, or it
is 0 and broadcast accept is on. -/
abbrev ForThisPart (target : BitVec 7) (s : State) : Prop :=
  (∀ b : Fin 7, s.part.addressMask.getLsbD b.val = true → target.getLsbD b.val = s.partAddress.getLsbD b.val) ∨
    (target = 0 ∧ s.part.broadcast = true)

/-- R188: the address decision for the segment in slot `head`, which has just reached the head of its arrival queue: a
CONTROL segment that passes its header checks has one, and no other segment has. -/
def decisionFor (head : Option SlotIx) (s : State) : Option Bool :=
  match head with
  | none => none
  | some i =>
    if s.slots[i].seg.kind = 7 ∧ s.slots[i].seg.headerOk = true then some (decide (ForThisPart s.slots[i].seg.target s))
    else none

/-- R12, R188: the head of the link has left the arrival queue, and the address decision for the next one is made. -/
abbrev TookHead (l : SrcLink) (s t : State) : Prop :=
  t.src[l].arrivals = s.src[l].arrivals.tail ∧ t.src[l].headAddressed = decisionFor t.src[l].arrivals.head? t

/-- R30: the OPEN at the head of the link, in slot `i`, passes its header checks and comes from the card `k` at position
`c`. -/
abbrev OpensOn (l : SrcLink) (i : SlotIx) (g : Segment) (c : CardIx) (k : Card) (s : State) : Prop :=
  AtHead l i g s ∧ g.kind = 3 ∧ g.headerOk = true ∧ s.cards[c] = some k ∧ k.handle = some ⟨l, g.cardSlot⟩ ∧
    ∀ c' : CardIx, (s.cards[c'].bind Card.handle) = some ⟨l, g.cardSlot⟩ → c' = c

/-- R213: the file number in an OPEN segment's body. -/
abbrev openNumber (g : Segment) : Nat := fieldAt g.payload 0 4

/-- R22: the key of an OPEN, the camera number and then the type code. -/
abbrev openKey (g : Segment) (k : Card) : BitVec 24 := k.camera ++ BitVec.ofNat 8 (fieldAt g.payload 4 1)

/-- R22: entry `n` is the lowest-numbered one that matches the key. -/
abbrev Routes (n : Fin 32) (key : BitVec 24) (s : State) : Prop :=
  s.routes[n].takes key = true ∧ ∀ m : Fin 32, m < n → s.routes[m].takes key = false

/-- R31 rows 1 and 2: no row before the routing refuses the OPEN. -/
abbrev OpenAllowed (g : Segment) (c : CardIx) (k : Card) (s : State) : Prop :=
  ¬ (k.mount = .ended ∧ g.recopy = false) ∧
    ∀ (j : FileIx) (f : FileRec), s.files[j].file = some f → f.card = c → f.number = openNumber g →
      f.state = .short ∧ g.recopy = true

/-- R35, R36: the data segment at the head of the link, in slot `i`, passes its header checks and is of the STREAMING
file `f` at index `j` of the card `k`. -/
abbrev DataOf (l : SrcLink) (i : SlotIx) (g : Segment) (c : CardIx) (k : Card) (j : FileIx) (f : FileRec) (s : State) :
    Prop :=
  AtHead l i g s ∧ g.isData = true ∧ g.headerOk = true ∧ s.cards[c] = some k ∧ k.handle = some ⟨l, g.cardSlot⟩ ∧
    (∀ c' : CardIx, (s.cards[c'].bind Card.handle) = some ⟨l, g.cardSlot⟩ → c' = c) ∧
    k.refused ≠ some g.fileNumber ∧ s.files[j].file = some f ∧ f.card = c ∧ f.number = g.fileNumber ∧
    (∀ j' : FileIx, (s.files[j'].file.map fun f' => (f'.card, f'.number)) = some (c, g.fileNumber) → j' = j) ∧
    f.state = .streaming

/-- R36: the segment stands at the offset expected. -/
abbrev InPlace (f : FileRec) (g : Segment) : Prop := g.offset = f.nextOffset ∧ g.offset + g.payload.length ≤ 2 ^ 48

/-- R82, R86: the record of a destination whose transmission in progress has ended nullified: the entry is sent again,
unless it is not to be. -/
def DestPort.cut (p : DestPort) : DestPort :=
  { p with tx := none, queue := if p.tx.any DestTx.noResend then p.queue.drop 1 else p.queue }

/-- R57: a slot one of whose references has gone: FREE where its mark is clear and its count has reached zero. -/
def Slot.lessOne (x : Slot) : Slot :=
  if x.mark = false ∧ x.refs ≤ 1 then Slot.free else { x with refs := x.refs - 1 }

/-- R57, R61: a reference to slot `i`, which `m` owns, has gone; no other slot and no other link has changed. -/
abbrev LostRef (i : SlotIx) (m : SrcLink) (s t : State) : Prop :=
  t.slots = vmod s.slots i Slot.lessOne ∧
    t.src = if s.slots[i].mark = false ∧ s.slots[i].refs ≤ 1 then vmod s.src m SrcPort.creditBack else s.src

/-- R81, R85: what waits in the queue after a copy of a transfer id is withdrawn: the file's entries are gone and every
other entry keeps its place; where no OPEN waited, an ABORT follows at the tail, in place of a waiting ABORT for an
earlier generation, unless the same ABORT waits already. -/
def afterWithdrawal (tid : Tid) (waiting : List QEntry) : List QEntry :=
  let kept := waiting.filter fun e => !e.belongs tid
  if waiting.any (QEntry.isOpen tid) || kept.contains (.abort tid) then kept
  else (kept.filter fun e => !e.isStaleAbort tid) ++ [.abort tid]

/-- R81, R85, R86: a copy has been withdrawn: its entries have left the queue as `afterWithdrawal` says, one in
transmission stays at the head and is not sent again, and its timers have gone. Nothing else of the destination has
changed but for its failure count and its stall flag. -/
abbrev Withdrawn (d : Dest) (tid : Tid) (s t : State) : Prop :=
  t.dest[d] = { s.dest[d] with
    queue := s.dest[d].sending ++ afterWithdrawal tid s.dest[d].waiting
    tx := s.dest[d].tx.map fun x =>
      if (s.dest[d].queue.head?.any (QEntry.belongs tid)) = true then { x with noResend := true } else x
    timers := s.dest[d].timers.filter fun v => v.file != tid.index
    failures := t.dest[d].failures, stall := t.dest[d].stall }

/-- R81, R85, R86: the copies of several transfer ids have been withdrawn from a destination, one after another. Nothing
else of it has changed but for its stall flag. -/
def WithdrawnAll (d : Dest) (tids : List Tid) (s t : State) : Prop :=
  t.dest[d] = { s.dest[d] with
    queue := s.dest[d].sending ++ tids.foldl (fun waiting tid => afterWithdrawal tid waiting) s.dest[d].waiting
    tx := s.dest[d].tx.map fun x =>
      if (s.dest[d].queue.head?.any fun e => tids.any fun tid => e.belongs tid) = true then { x with noResend := true }
      else x
    timers := s.dest[d].timers.filter fun v => tids.all fun tid => v.file != tid.index
    stall := t.dest[d].stall }

/-- R29, R47: the transfer ids of those records in `js` whose copies on `d` are unsettled. -/
def unsettledTids (d : Dest) (js : List FileIx) (s : State) : List Tid :=
  (js.filter fun j => s.files[j].file.any fun f => f.copies[d].unsettled).map fun j => ⟨j, s.files[j].gen⟩

/-- R154: the channels that files of `js` held are released, and the others are as before. -/
abbrev ChannelsFreed (js : List FileIx) (s t : State) : Prop :=
  ∀ ch : Channel, t.channels[ch] =
    if (js.any fun j => (s.files[j].file.bind FileRec.channel) == some ch) = true then ChannelRec.initial
    else s.channels[ch]

/-- R29, R37: a STREAMING file after it stopped short of its LAST: its unsettled copies have failed for the reason, it is
SHORT, and its offset, its sums, its route result and its settled copies are kept. -/
def FileRec.stopped (r : FailReason) (f : FileRec) : FileRec :=
  { f with
    state := .short, channel := none, assembly := none
    copies := f.copies.map fun x => if x.unsettled = true then .failed r else x }

/-! ### The look engines when the follow changes or ends -/

/-- R140: what an output sends when the frame still open ends with the broken mark. -/
def brokenEnd : OutFrame → List ReviewItem
  | .none_ => []
  | .opened n k => [.frameEnd n k true]
  | .broken n k => [.frameEnd n k true]

/-- R145: an engine after a change of follow: the entries that wait are gone, the pending gap is clear, and the output
frame ends at once, or at the completion of the entry in processing. -/
def EngineState.changed (g : EngineState) (new : Option Follow) : EngineState :=
  if g.proc = none then
    { g with follow := new, pendingGap := false, queue := [], out := .none_, sent := g.sent ++ brokenEnd g.out }
  else { g with follow := new, pendingGap := false, queue := g.queue.take 1, closeAfter := true }

/-- R146: an engine after the file `f` it follows ended by an abort, a break or CLEAR CARD: the entries that wait are
gone, and the follow ends at once, or at the completion of the entry in processing. -/
def EngineState.stopped (g : EngineState) (f : Follow) : EngineState :=
  if g.proc = none then { g with follow := none, queue := [], out := .none_, sent := g.sent ++ brokenEnd g.out }
  else { g with follow := some { f with ended := true }, queue := g.queue.take 1 }

/-- R145, R204: the REVIEW_SKIPS event of a discarded entry, against the link that carried its segment. -/
def skipEvent (s : State) (p : CounterPair) (x : LookItem) : CounterPair :=
  match s.slots[x.slot].owner with
  | some m => p.take .reviewSkips (.link m) 1
  | none => p

/-- R145 step 1: the entries that `gone` gives for each engine were discarded: each is a review skip of its engine, and,
where no CREDIT_STALL was counted besides, the event counters took a REVIEW_SKIPS event for each. -/
def Skipped (gone : Engine → List LookItem) (s t : State) : Prop :=
  t.loss.skipsV0 = oneMore^[(gone 0).length] s.loss.skipsV0 ∧ t.loss.skipsV1 = oneMore^[(gone 1).length] s.loss.skipsV1 ∧
    (SlotLaw s → (∀ d : Dest, t.dest[d].stall = s.dest[d].stall) →
      t.counters = s.counters.map fun p => (gone 0 ++ gone 1).foldl (skipEvent s) p)

/-- R146: the follows that pass a test have ended by an abort, a break or CLEAR CARD, on both engines. -/
def FollowsStopped (p : Follow → Bool) (s t : State) : Prop :=
  (∀ e : Engine, t.engines[e] = match s.engines[e].follow with
    | some f => if p f = true then s.engines[e].stopped f else s.engines[e]
    | none => s.engines[e]) ∧
  Skipped (fun e => if s.engines[e].follow.any p = true then s.engines[e].waiting else []) s t

/-- R143, R144: an OPEN of a card mounted on link `l`, with a label and a file number, is one of the link set, or of the
pinned label and file number. -/
def Selection.admits (l : SrcLink) (label : Bytes) (number : Nat) : Selection → Bool
  | .off => false
  | .follow links => links.getLsbD l.val
  | .pin pinned n => pinned == label && n == number

/-- R143, R144: what an engine with a selection latches at an OPEN that qualifies for it, from the format the file
latched: an OPEN of PICTURE mode, on a link of the set, or of the pinned label and file number. -/
def followOpened (sel : Selection) (l : SrcLink) (tid : Tid) (label : Bytes) (number : Nat) (look : Fin 16) :
    Option FormatEntry → Option Follow
  | none => none
  | some m =>
    if m.valid = true ∧ m.packing ≠ .none_ ∧ sel.admits l label number = true then
      some ⟨tid, label, number, m.width, m.height, m.packing, look, false⟩
    else none

/-- R143, R144, R145: a taken OPEN has been reported to both engines: one for which it qualifies has changed its follow
to the new file, and the other has not changed. -/
def FollowsOpened (l : SrcLink) (tid : Tid) (label : Bytes) (number : Nat) (r : RouteEntry) (s t : State) : Prop :=
  ∀ x : Engine → Option Follow,
    (∀ e, x e = followOpened s.engines[e].selection l tid label number r.look (r.format.map fun m => s.formats[m])) →
    (∀ e : Engine, t.engines[e] = if x e = none then s.engines[e] else s.engines[e].changed (x e)) ∧
      Skipped (fun e => if x e = none then [] else s.engines[e].waiting) s t

/-- R33, R34: what every taken OPEN starts for the record `f` of index `j`, under the route entry `r`. The route result of
`r` is latched; the OPEN message, with the new transfer id, is queued to each destination with a PENDING copy; R106: the
frame assembly starts afresh with the format it latches. R152, R153: where the route names a profile and a format, the
lowest-numbered FREE channel latches the file, the profile and the picture size, and without a FREE channel UNINSPECTED is
logged, severity NOTE. -/
def OpenStarted (g : Segment) (k : Card) (j : FileIx) (r : RouteEntry) (f : FileRec) (s t : State) : Prop :=
  f.route.dests = r.dests ∧ f.route.required = min r.required (setSize r.dests) ∧ f.route.look = r.look ∧
  f.route.profile = r.profile ∧ f.route.format = r.format ∧
  f.assembly = some ⟨r.format.map fun m => s.formats[m], .idle, none, 0, none, [], none, none⟩ ∧
  (∀ d : Dest, t.dest[d] = { s.dest[d] with
    stall := t.dest[d].stall
    queue := s.dest[d].queue ++
      if f.copies[d] = .pending then
        [.openMsg ⟨j, s.files[j].gen + 1⟩ k.label (openNumber g) (openName g.payload) (openSize g.payload)]
      else [] }) ∧
  (r.profile = none ∨ r.format = none → f.channel = none ∧ t.channels = s.channels ∧ t.log = s.log) ∧
  (∀ p m, r.profile = some p → r.format = some m → ∀ ch : Channel,
    s.channels[ch].state = .free → (∀ ch' : Channel, ch' < ch → s.channels[ch'].state ≠ .free) →
    f.channel = some ch ∧ t.log = s.log ∧
      t.channels = vmod s.channels ch fun _ => { ChannelRec.initial with
        state := .file ⟨⟨j, s.files[j].gen + 1⟩, k.label, openNumber g⟩, profile := p
        clipCode := s.profiles[p].clipCode, blackCode := s.profiles[p].blackCode
        width := s.formats[m].width, height := s.formats[m].height
        probes := s.profiles[p].probes.map fun q => q.latch (s.formats[m].width * s.formats[m].height) }) ∧
  (∀ p m, r.profile = some p → r.format = some m → (∀ ch : Channel, s.channels[ch].state ≠ .free) → s.log.length < 64 →
    f.channel = none ∧ t.channels = s.channels ∧ ∃ q, t.log = s.log ++ [q] ∧ q.cls = .uninspected ∧ q.severity = .note ∧
      q.label = some k.label ∧ q.file = some (openNumber g))

/-- R142: a file that a selection can choose: STREAMING, of PICTURE mode, of a card mounted on a link of the set, or of
the pinned label and file number. -/
def Selectable (sel : Selection) (j : FileIx) (f : FileRec) (m : FormatEntry) (k : Card) (s : State) : Prop :=
  s.files[j].file = some f ∧ f.state = .streaming ∧ f.assembly.bind Assembly.format = some m ∧ m.valid = true ∧
    m.packing ≠ .none_ ∧ s.cards[f.card] = some k ∧ match sel with
      | .off => False
      | .follow links => ∃ h, k.handle = some h ∧ links.getLsbD h.link.val = true
      | .pin label n => k.label = label ∧ f.number = n

/-- R142, R145: what is followed under a selection: the file with the highest open stamp among those it can choose, or
none. -/
def Chosen (sel : Selection) (new : Option Follow) (s : State) : Prop :=
  (new = none ∧ ∀ j f m k, ¬ Selectable sel j f m k s) ∨
    ∃ j f m k, Selectable sel j f m k s ∧
      (∀ j' f' m' k', Selectable sel j' f' m' k' s → j' = j ∨ f'.stamp < f.stamp) ∧
      new = some ⟨⟨j, s.files[j].gen⟩, k.label, f.number, m.width, m.height, m.packing, f.route.look, false⟩

/-! ### Aborts, breaks and failures -/

/-- R29: the STREAMING files `js` were aborted, one after another: their records, their copies on every destination, the
channels they held and the follows of them. No other file, channel or follow has changed. -/
def Aborted (js : List FileIx) (s t : State) : Prop :=
  (∀ j : FileIx, t.files[j] = { s.files[j] with
    file := if j ∈ js then s.files[j].file.map (FileRec.stopped .aborted) else s.files[j].file }) ∧
  (∀ d : Dest, WithdrawnAll d (unsettledTids d js s) s t) ∧ ChannelsFreed js s t ∧
  FollowsStopped (fun h => js.any fun j => h.tid == ⟨j, s.files[j].gen⟩) s t

/-- R29: the FILE_SHORT records of the aborts of `js`, in their order. -/
def ShortRecords (js : List FileIx) (s : State) (rs : List FaultRec) : Prop :=
  rs.length = js.length ∧ ∀ (n : Nat) (j : FileIx) (r : FaultRec) (f : FileRec), js[n]? = some j → rs[n]? = some r →
    s.files[j].file = some f → r.cls = .fileShort ∧ r.severity = .hold ∧ r.code = some .shortAborted ∧
      r.file = some f.number ∧ r.label = s.cards[f.card].map Card.label

/-- R24: every card record keeps all but its verdict, which is the one R24 gives where it was so before. -/
def Reevaluated (s t : State) : Prop :=
  ∀ c : CardIx, (s.cards[c] = none → t.cards[c] = none) ∧
    ∀ k, s.cards[c] = some k → ∃ v, t.cards[c] = some { k with verdict := v } ∧ (VerdictLaw s → v = verdictOf t c k)

/-- R45: the STREAMING files of the cards mounted on a link, in ascending order of record index. -/
def streamsOn (l : SrcLink) (s : State) : List FileIx :=
  allIx fun j : FileIx => s.files[j].file.any fun f =>
    f.state == .streaming && (s.cards[f.card].bind Card.handle).any fun h => h.link == l

/-- R18, R45: what a link reset of a source link does away from the link's own record: the STREAMING files of its cards
are aborted, each with a FILE_SHORT record, and the cards keep all but their verdicts; the notice queue of the station
link is emptied, one of another link loses the item in transmission there, and each item lost counts as a dropped notice.
-/
def LinkAborts (l : SrcLink) (s t : State) : Prop :=
  Aborted (streamsOn l s) s t ∧
  (s.log.length + (streamsOn l s).length ≤ 64 →
    Reevaluated s t ∧ ∃ rs, t.log = s.log ++ rs ∧ ShortRecords (streamsOn l s) s rs) ∧
  ∀ kept : List NoticeEntry,
    kept = (if s.part.station = l then [] else s.notices.filter fun n => n.sending != some l) →
    (∃ more, t.notices = kept ++ more ∧ ∀ n ∈ more, ∃ r, n.item = .fault r ∧ r.cls = .fileShort) ∧
      (kept.length + (streamsOn l s).length ≤ 16 →
        t.loss.noticesDropped = oneMore^[s.notices.length - kept.length] s.loss.noticesDropped)

/-- R180, R182: what follows once the record `r` is stored. Where notices are on, the notice queue takes a FAULT notice
of it, or drops and counts it; and the verdict of the card that a HOLD record names is evaluated again. -/
def Announced (r : FaultRec) (s t : State) : Prop :=
  (s.part.notices = true → s.notices.length < 16 → t.notices = s.notices ++ [⟨.fault r, none⟩] ∧ t.loss = s.loss) ∧
  (s.part.notices = true → 16 ≤ s.notices.length → t.notices = s.notices ∧
    t.loss = { s.loss with noticesDropped := oneMore s.loss.noticesDropped }) ∧
  (s.part.notices = false → t.notices = s.notices ∧ t.loss = s.loss) ∧
  (∀ (label : Bytes) (c : CardIx) (k : Card), r.severity = .hold → r.label = some label → NamesCard label c k s →
    t.cards = vmod s.cards c fun _ => some { k with verdict := verdictOf t c k }) ∧
  (r.severity ≠ .hold ∨ (∀ label, r.label = some label → ∀ c : CardIx, (s.cards[c].map Card.label) ≠ some label) →
    t.cards = s.cards)

/-- R93: one more failure would not reach the threshold. -/
abbrev BelowThreshold (d : Dest) (s : State) : Prop :=
  s.part.threshold = 0 ∨ min 15 (s.dest[d].failures + 1) < s.part.threshold

/-- R39: the file is SETTLING and has no unsettled copy left. -/
abbrev FileRec.AllSettled (f : FileRec) : Prop := f.state = .settling ∧ ∀ d : Dest, f.copies[d].unsettled = false

/-- R39: what a file record is once the Offload Manager has looked whether its file settles: it is freed with enough
VERIFIED copies, and SHORT without. -/
def FileRec.afterSettling (f : FileRec) : Option FileRec :=
  if f.AllSettled then if f.route.required ≤ f.verifiedCount then none else some { f with state := .short } else some f

/-- R39, R176: the FILE_SHORT record of a file of the card `k` that settled SHORT, with both counts. -/
abbrev SettledShort (f : FileRec) (k : Card) (r : FaultRec) : Prop :=
  r.cls = .fileShort ∧ r.severity = .hold ∧ r.code = some .shortSettled ∧ r.label = some k.label ∧
    r.file = some f.number ∧ r.values = [f.verifiedCount, f.route.required]

/-- R39, R40, R176: the file `f` at index `j` settles, if no copy of it is unsettled any more. With enough VERIFIED copies
its manifest is offered, the card's files completed count increments, the record is freed and the verdict is R24's.
Without, the record goes SHORT and a FILE_SHORT record with the two counts is logged, with its notice and its verdict. -/
def Settles (j : FileIx) (f : FileRec) (s t : State) : Prop :=
  (¬ f.AllSettled → t = s) ∧
  (f.AllSettled →
    t = { s with
      cards := t.cards, files := t.files, log := t.log, keyCounter := t.keyCounter, notices := t.notices
      loss := t.loss } ∧
    (t.files = vmod s.files j fun p => { p with file := f.afterSettling }) ∧
    (f.route.required ≤ f.verifiedCount → t.log = s.log ∧ t.keyCounter = s.keyCounter ∧
      (∀ k k', s.cards[f.card] = some k →
        k' = { k with completed := if k.completed < 65535 then k.completed + 1 else k.completed } →
        t.cards = vmod s.cards f.card fun _ => some { k' with verdict := verdictOf t f.card k' }) ∧
      (∀ k, s.cards[f.card] = some k → s.part.manifests = true → s.notices.length < 16 →
        t.loss = s.loss ∧ ∃ a, t.notices = s.notices ++ [⟨.manifest a, none⟩] ∧ a.label = k.label ∧
          a.required = f.route.required ∧ a.file = f.number ∧ a.tid = ⟨j, s.files[j].gen⟩ ∧ a.size = f.nextOffset ∧
          a.recopy = f.recopy ∧ a.waived = false ∧ a.digest = f.finalDigest ∧ a.name = f.name ∧
          ∀ d : Dest, a.verified.getLsbD d.val = true ↔ f.copies[d] = .verified) ∧
      (s.part.manifests = true → 16 ≤ s.notices.length → t.notices = s.notices ∧
        t.loss = { s.loss with noticesDropped := oneMore s.loss.noticesDropped }) ∧
      (s.part.manifests = false → t.notices = s.notices ∧ t.loss = s.loss)) ∧
    (f.verifiedCount < f.route.required → s.log.length < 64 → ∀ k, s.cards[f.card] = some k →
      ∃ r, t.log = s.log ++ [r] ∧ SettledShort f k r ∧ Announced r s t))

/-- R28: the COPY_FAILED record of a copy of the file `f` on the destination `d`. -/
abbrev CopyFailed (f : FileRec) (d : Dest) (reason : FailReason) (values : List Nat) (r : FaultRec) : Prop :=
  r.cls = .copyFailed ∧ r.severity = .warn ∧ r.file = some f.number ∧ r.dest = some d ∧
    r.code = some (.copyFailed reason) ∧ r.values = values

/-- R89, R91: every unsettled copy on the destination has failed for the reason, and its file has settled where it was the
last one (R39): each with its COPY_FAILED record, perhaps a FILE_SHORT record of its file behind it, and then the record
of the destination itself. -/
def FailedAll (d : Dest) (reason : FailReason) (cls : FaultClass) (code : Option FaultCode) (s t : State) : Prop :=
  (∀ (j : FileIx) (f : FileRec), s.files[j].file = some f →
    (f.copies[d].unsettled = false → t.files[j] = s.files[j]) ∧
    (f.copies[d].unsettled = true → t.files[j] = ⟨s.files[j].gen,
      ({ f with copies := vmod f.copies d fun _ => .failed reason } : FileRec).afterSettling⟩)) ∧
  (s.log.length + 2 * (unsettledOn d s).length < 64 → ∃ rs r, t.log = s.log ++ rs ++ [r] ∧
    (∀ q ∈ rs, (q.cls = .copyFailed ∧ q.severity = .warn ∧ q.dest = some d ∧ q.code = some (.copyFailed reason)) ∨
      (q.cls = .fileShort ∧ q.severity = .hold ∧ q.code = some .shortSettled)) ∧
    (rs.filter fun q => q.cls == .copyFailed).length = (unsettledOn d s).length ∧
    r.cls = cls ∧ r.severity = .warn ∧ r.dest = some d ∧ r.code = code ∧ r.label = none)

/-- R91: the destination has entered QUARANTINED: its timers are cancelled and its stall flag is clear; by the state it
left, what becomes of its queue, of a HALT, of the aligned flag and of the limit; and every unsettled copy has failed. -/
def Quarantines (d : Dest) (code : FaultCode) (s t : State) : Prop :=
  t = { s with
    src := t.src, slots := t.slots, cards := t.cards, files := t.files, dest := t.dest, log := t.log
    keyCounter := t.keyCounter, notices := t.notices, loss := t.loss } ∧
  (∀ d' : Dest, d' ≠ d → t.dest[d'] = s.dest[d']) ∧
  (∀ p : DestPort, p = { s.dest[d] with state := .quarantined, timers := [], stall := false, retrain := none } →
    (s.dest[d].state = .up → t.dest[d] = { p with
      aligned := true, queue := (if p.tx = none then [] else p.queue.take 1) ++ [.halt]
      tx := p.tx.map fun x => { x with noResend := true } }) ∧
    (s.dest[d].state = .retraining → t.dest[d] = { p with
      aligned := false, limit := .absent, inUse := 0, queue := if p.openSet = [] then [] else [.halt] }) ∧
    (s.dest[d].state = .training ∨ s.dest[d].state = .down → t.dest[d] = { p with
      aligned := false, queue := if p.openSet = [] ∨ .halt ∈ p.queue then p.queue else p.queue ++ [.halt] })) ∧
  FailedAll d .quarantined .destQuarantined (some code) s t

/-- R93: after a counted failure, told by the state `before` it, the destination enters QUARANTINED where the threshold is
reached. -/
def QuarantinesAtThreshold (d : Dest) (before s t : State) : Prop :=
  (BelowThreshold d before ∨ before.dest[d].state = .quarantined → t = s) ∧
    (¬ BelowThreshold d before → before.dest[d].state ≠ .quarantined → Quarantines d .byThreshold s t)

/-- R79: the stall flag is set and one CREDIT_STALL counted where the link is UP, nothing is in transmission, the head of
the queue needs a credit and all of them are in use, with the flag clear before. -/
def StallChecked (d : Dest) (s t : State) : Prop :=
  ∀ p : DestPort, p = s.dest[d] →
    ((p.state = .up ∧ p.tx = none ∧ p.limit = .number p.inUse ∧ p.stall = false ∧ ∃ e rest, p.queue = e :: rest ∧
        e ≠ .halt) →
      t = { s with
        dest := vmod s.dest d fun _ => { p with stall := true }
        counters := s.counters.map fun x => x.take .creditStall (.dest d) 1 }) ∧
    (¬ (p.state = .up ∧ p.tx = none ∧ p.limit = .number p.inUse ∧ p.stall = false ∧ ∃ e rest, p.queue = e :: rest ∧
        e ≠ .halt) → t = s)

/-- R37: the file `f` at index `j` of the card `k` breaks at a segment of offset `received`: every unsettled copy fails
with SEQUENCE and is withdrawn, the file goes SHORT, its channel is released, a follow of it ends, and a SEQUENCE record
holds the two offsets. -/
def Breaks (l : SrcLink) (k : Card) (j : FileIx) (f : FileRec) (received : Nat) (s t : State) : Prop :=
  t = { s with
    src := t.src, slots := t.slots, cards := t.cards, files := t.files, dest := t.dest, log := t.log
    keyCounter := t.keyCounter, notices := t.notices, loss := t.loss, counters := t.counters, engines := t.engines
    channels := t.channels } ∧
  TookHead l s t ∧
  t.files = (vmod s.files j fun p => { p with file := some (f.stopped .sequence) }) ∧
  (∀ d : Dest, WithdrawnAll d (unsettledTids d [j] s) s t) ∧ ChannelsFreed [j] s t ∧
  FollowsStopped (fun h => h.tid == ⟨j, s.files[j].gen⟩) s t ∧
  (s.log.length < 58 → ∃ rs r, t.log = s.log ++ rs ++ [r] ∧ (∀ q ∈ rs, q.cls = .copyFailed ∧ q.severity = .warn ∧
      q.code = some (.copyFailed .sequence) ∧ q.file = some f.number) ∧
    rs.map FaultRec.dest = f.unsettledDests.map some ∧ r.cls = .sequence ∧ r.severity = .hold ∧ r.label = some k.label ∧
    r.file = some f.number ∧ r.values = [f.nextOffset, received])

/-! ### Pictures and probes (chapters 6 and 8) -/

/-- R111, R133: the placement of a PREVIEW segment in the frame assembly state `a`. -/
def placementOf (a : Assembly) (m : FormatEntry) (g : Segment) : Placement :=
  if a.greater g.frame = true then if g.firstLine = 0 ∧ shapeOk m g = true then .begin else .misfit
  else if a.state = .building ∧ a.lastFrame = some g.frame ∧ g.firstLine = a.nextLine ∧ shapeOk m g = true then .continue_
  else .misfit

/-- R119: the previous timecode after an evaluation with the metadata `r`, if any. -/
def timecodeAfter (a : Assembly) (r : Option MetaRec) : Option Timecode :=
  match r.map MetaRec.timecode with
  | some (.valid t) => some t
  | _ => a.prevTimecode

/-- R119: the previous counter after an evaluation with the metadata `r`, if any. -/
def counterAfter (a : Assembly) (r : Option MetaRec) : Option Nat := (r.bind MetaRec.counter).or a.prevCounter

/-- R166: the record `x` of the log takes a report of probe `p` of channel `c`: it stands in the probe's window record,
is OPEN, of the class `cls`, made by this probe, and the frame is inside the dead window. -/
def takesReport (c : Channel) (p : Fin 8) (cls : FaultClass) (frame window : Nat) (st : ProbeState) (x : FaultRec) : Bool :=
  match st.window, x.probe with
  | some w, some q => decide (x.key = w.key ∧ w.first ≤ frame ∧ frame - w.first < window ∧ x.state = .opened ∧
      x.cls = cls ∧ q.channel = c ∧ q.probe = p)
  | _, _ => false

/-- R167, R171: the record a report of probe `p` of a channel in FILE or TEST makes, without its key. -/
def reportOf (c : Channel) (p : Fin 8) (dir : FlipDirection) (frame value : Nat) (severity : Severity) :
    ChannelState → Option FaultRec
  | .free => none
  | .file o => some
    { key := 0, cls := .probe, severity := severity, label := some o.label, file := some o.file, dest := none
      probe := some ⟨c, p, dir⟩, frames := some ⟨frame, frame⟩, merges := 1, code := none, values := [value]
      state := .opened }
  | .test _ => some
    { key := 0, cls := .test, severity := .note, label := none, file := none, dest := none, probe := some ⟨c, p, dir⟩
      frames := some ⟨frame, frame⟩, merges := 1, code := none, values := [value], state := .opened }

/-- R156: a frame in progress after a parsed segment's pixels, under a channel's clip and black codes. -/
def FrameProgress.gathered (clipCode blackCode lines : Nat) (pixels : List Pixel) (p : FrameProgress) : FrameProgress :=
  { p with
    lines := p.lines + lines
    clip := p.clip + pixels.countP fun x => decide (clipCode ≤ max x.r (max x.g x.b))
    black := p.black + pixels.countP fun x => decide (max x.r (max x.g x.b) ≤ blackCode)
    lumaSum := p.lumaSum + (pixels.map fun x => 1225 * x.r + 2404 * x.g + 467 * x.b).sum
    range := p.range + pixels.countP fun x =>
      (List.finRange 3).any fun c => decide (p.look.stage1 c x < 0 ∨ 4095 < p.look.stage1 c x) }

/-- R161 to R164: one evaluation of a channel's eight probes, with what each source measures: a probe that is disabled,
or whose source is unavailable, stays as it is; every other one takes its measurement. -/
def ProbesTook (c : Channel) (measure : Source → Option Nat) (s t : State) : Prop :=
  ∀ (p : Fin 8) (q : LatchedProbe), q = s.channels[c].probes[p] →
    (q.enabled = false ∨ measure q.source = none → t.channels[c].probeStates[p] = s.channels[c].probeStates[p]) ∧
    ∀ n, q.enabled = true → measure q.source = some n →
      t.channels[c].probeStates[p].asserted = (q.next s.channels[c].probeStates[p] n).1.asserted ∧
      t.channels[c].probeStates[p].run = (q.next s.channels[c].probeStates[p] n).1.run

/-- R163 to R165: what a probe that measures `value` reports: the direction of its flip, where it flips and its report
mode reports that direction, with the value. -/
def LatchedProbe.reported (q : LatchedProbe) (st : ProbeState) (value : Option Nat) : Option (FlipDirection × Nat) :=
  value.bind fun v =>
    let dir : FlipDirection := if (q.next st v).1.asserted = true then .asserted else .cleared
    if q.enabled = true ∧ (q.next st v).2 = true ∧
        (q.mode = .both ∨ (q.mode = .assert ∧ dir = .asserted) ∨ (q.mode = .clear ∧ dir = .cleared)) then
      some (dir, v)
    else none

/-- R161, R165 to R167, R171, R180, R181: the reports of one evaluation of a channel in FILE or TEST, while the log has
places for them. A report merges into the record that takes it; the others make new records at the end of the log, in
ascending order of probe index, each with its notice. -/
def ProbesReported (c : Channel) (measure : Source → Option Nat) (frame : Nat) (s t : State) : Prop :=
  ∀ (u : ChannelRec) (report : Fin 8 → Option (FlipDirection × Nat)) (takes : Fin 8 → FaultRec → Bool),
    u = s.channels[c] → u.state ≠ .free → s.log.length + 8 ≤ 64 →
    (∀ p, report p = u.probes[p].reported u.probeStates[p] (measure u.probes[p].source)) →
    (∀ p x, takes p x = ((report p).isSome && takesReport c p (match u.state with
      | .test _ => .test
      | _ => .probe) frame u.probes[p].window u.probeStates[p] x)) →
    ∃ rs, t.log = (s.log.map fun x =>
        if ∃ p, takes p x = true then
          { x with merges := oneMore x.merges, frames := x.frames.map fun y => { y with last := frame } }
        else x) ++ rs ∧
      (rs.map fun r => { r with key := 0 }) = ((List.finRange 8).filterMap fun p =>
        if s.log.any (takes p) = true then none
        else (report p).bind fun y => reportOf c p y.1 frame y.2 u.probes[p].severity u.state) ∧
      (s.part.notices = true → s.notices.length + 8 ≤ 16 →
        t.notices = s.notices ++ rs.map fun r => ⟨.fault r, none⟩) ∧
      (s.part.notices = false → t.notices = s.notices)

/-- R153: the threshold a setting point gives, by the source and the pixel count P. -/
def thresholdOf (pixels point : Nat) : Source → Nat
  | .clip | .black | .range => (point + 1) * pixels / 256
  | .luma => (point + 1) * 16
  | .frozen | .tcBreak | .countGap | .tcInvalid => point

/-- R189: the body of a command passes steps 2 and 3. -/
abbrev BodyShape.passes (b : BodyShape) : Prop :=
  b.lengthOk = true ∧ b.zeros.firstBad = none ∧ b.enums.firstBad = none

/-- R12: the link's record after the processing of its head has ended, with a reply queue and an address decision for
the next head. -/
def SrcPort.processed (p : SrcPort) (replies : List Reply) (next : Option Bool) : SrcPort :=
  { p.creditBack with arrivals := p.arrivals.tail, replies := replies, headAddressed := next }

/-- R12, R54, R55, R188: the processing of the head of the link, in slot `i`, has ended, its slot is FREE and its credit
has come back, and the address decision for the next head is made; no other link and no other slot has changed. -/
def Processed (l : SrcLink) (i : SlotIx) (replies : List Reply) (s t : State) : Prop :=
  (t.src = vmod s.src l fun p => p.processed replies (decisionFor s.src[l].arrivals.tail.head? t)) ∧
    t.slots = vmod s.slots i fun _ => Slot.free

/-- R190: the command `g` was answered with a result and a body, by one reply at the tail of the link's reply queue. -/
def Replied (l : SrcLink) (i : SlotIx) (g : Segment) (r : CmdResult) (body : Bytes) (s t : State) : Prop :=
  Processed l i (s.src[l].replies ++ [⟨g.tag, g.command, r, body⟩]) s t

/-- R190: the same, where the command's effect may also have freed other slots and returned their credits. -/
def RepliedToo (l : SrcLink) (g : Segment) (r : CmdResult) (body : Bytes) (s t : State) : Prop :=
  t.src[l].replies = s.src[l].replies ++ [⟨g.tag, g.command, r, body⟩] ∧ TookHead l s t

/-- R23: the card record `k` at position `c` holds the handle, and no other does. -/
abbrev HoldsHandle (h : Handle) (c : CardIx) (k : Card) (s : State) : Prop :=
  s.cards[c] = some k ∧ k.handle = some h ∧ ∀ c' : CardIx, (s.cards[c'].bind Card.handle) = some h → c' = c

/-- R25: the file record `f` at index `j` is the card's record of its file number, and no other is. -/
abbrev NamesFile (c : CardIx) (number : Nat) (j : FileIx) (f : FileRec) (s : State) : Prop :=
  s.files[j].file = some f ∧ f.card = c ∧ f.number = number ∧
    ∀ j' : FileIx, (s.files[j'].file.map fun f' => (f'.card, f'.number)) = some (c, number) → j' = j

/-- R193: an entry's bytes as READ TABLE shows them once they are written: every quantity clamped. -/
def TableName.clamp : TableName → Bytes → Bytes
  | .route, b => (RouteEntry.read b).write
  | .format, b => (FormatEntry.read b).write
  | .look, b => (LookTableEntry.read b).write
  | .profile, b => (ProfileEntry.read b).write
  | .destConfig, b => (DestConfig.read b).write
  | .partConfig, b => (PartConfig.read b).write

/-- R197, R216: the body of a READ STATE reply: the header of 12 bytes, then the images that it counts. -/
def stateReply (form station total unreported notices : Nat) (images : List Bytes) : Bytes :=
  le 1 form ++ le 1 station ++ le 2 images.length ++ le 2 total ++ le 2 unreported ++ le 1 notices ++ [0, 0, 0] ++
    images.flatten

/-- R191: a yes or a no, or a presence byte. -/
def flagByte (p : Prop) [Decidable p] : Byte := if p then 1 else 0

/-- R216: "mount state: 0 ACTIVE, 1 ENDED, 2 DETACHED". -/
def mountByte : MountState → Byte
  | .active => 0
  | .ended => 1
  | .detached => 2

/-- R216: "verdict: 0 PENDING, 1 HELD, 2 RELEASABLE". -/
def verdictByte : Verdict → Byte
  | .pending => 0
  | .held => 1
  | .releasable => 2

/-- R216: "state: 0 STREAMING, 1 SETTLING, 2 SHORT". -/
def fileStateByte : FileState → Byte
  | .streaming => 0
  | .settling => 1
  | .short => 2

/-- R216, R27, R217: the two bytes of a copy state. -/
def copyBytes : CopyState → Bytes
  | .none_ => [0, 0]
  | .pending => [1, 0]
  | .sending => [2, 0]
  | .closed => [3, 0]
  | .verified => [4, 0]
  | .failed .mismatch => [5, 0]
  | .failed .writeError => [5, 1]
  | .failed .timeout => [5, 2]
  | .failed .link => [5, 3]
  | .failed .quarantined => [5, 4]
  | .failed .aborted => [5, 5]
  | .failed .sequence => [5, 6]

/-- R74: the destination link states in their order. -/
def destStateByte : DestState → Byte
  | .down => 0
  | .training => 1
  | .up => 2
  | .retraining => 3
  | .quarantined => 4

/-- R216: "credit limit kind: 0 absent, 1 a number, 2 unlimited", and the limit. -/
def limitBytes : CreditLimit → Bytes
  | .absent => [0, 0]
  | .number n => [1] ++ le 1 n
  | .unlimited => [2, 0]

/-- R216: "1 OPEN, 2 DATA, 3 CLOSE, 4 ABORT, 5 HALT". -/
def kindNumber : QEntry → Nat
  | .openMsg .. => 1
  | .data .. => 2
  | .close .. => 3
  | .abort .. => 4
  | .halt => 5

/-- R216: "link state: 0 DOWN, 1 TRAINING, 2 UP". -/
def srcStateByte : SrcState → Byte
  | .down => 0
  | .training => 1
  | .up => 2

/-- R216: "channel state: 0 FREE, 1 FILE, 2 TEST". -/
def channelStateByte : ChannelState → Byte
  | .free => 0
  | .file _ => 1
  | .test _ => 2

/-- R149: the sources in their order. -/
def sourceByte : Source → Byte
  | .clip => 0
  | .black => 1
  | .luma => 2
  | .range => 3
  | .frozen => 4
  | .tcBreak => 5
  | .countGap => 6
  | .tcInvalid => 7

/-- R216: the selection's kind and its link set. -/
def selectionBytes : Selection → Bytes
  | .off => [0, 0]
  | .follow links => [1] ++ le 1 links.toNat
  | .pin _ _ => [2, 0]

/-- R216: a card label, in its length byte and 16 bytes. -/
def labelBytesOf (label : Bytes) : Bytes := le 1 label.length ++ padTo 16 label

/-- R216: a transfer id, in 4 bytes. -/
def tidBytesOf (t : Tid) : Bytes := le 2 t.index.val ++ le 1 t.gen.toNat ++ [0]

/-- R216: the pinned card label, three zero bytes and the pinned file number. -/
def pinBytes : Selection → Bytes
  | .pin label file => labelBytesOf label ++ [0, 0, 0] ++ le 4 file
  | .off | .follow _ => List.replicate 24 0

/-- R216: "output frame: 0 NONE, 1 OPEN, 2 OPEN_BROKEN". -/
def outByte : OutFrame → Byte
  | .none_ => 0
  | .opened _ _ => 1
  | .broken _ _ => 2

/-- R216: the output frame's number and its lines sent. -/
def outBytes : OutFrame → Bytes
  | .none_ => [0, 0, 0, 0, 0, 0]
  | .opened n k => le 4 n ++ le 2 k
  | .broken n k => le 4 n ++ le 2 k

/-- R216: "sticky flags ...: bit 0 INEXACT, bit 1 OVER, bit 2 UNDER, bits 3 to 7 zero". -/
def stickyByteOf (g : EngineState) : Byte :=
  (if g.flagInexact = true then 1 else 0) + (if g.flagOver = true then 2 else 0) + if g.flagUnder = true then 4 else 0

/-- R214: "0 DONE, 1 PARTIAL, 2 REFUSED_FIELD, 3 REFUSED_VALUE, 4 REFUSED_STATE, 5 NOT_FOUND and 6 UNKNOWN_COMMAND". -/
def resultByte : CmdResult → Byte
  | .done => 0
  | .partialDone => 1
  | .refusedField => 2
  | .refusedValue => 3
  | .refusedState => 4
  | .notFound => 5
  | .unknownCommand => 6

/-- R217: the classes by their positions in the table of R176. -/
def classByte : FaultClass → Byte
  | .probe => 0
  | .test => 1
  | .copyFailed => 2
  | .fileShort => 3
  | .sequence => 4
  | .sizeMismatch => 5
  | .duplicateOpen => 6
  | .unrouted => 7
  | .lateOpen => 8
  | .fileTableFull => 9
  | .countMismatch => 10
  | .cardPulled => 11
  | .partialFrame => 12
  | .metaParse => 13
  | .uninspected => 14
  | .cardCleared => 15
  | .overrun => 16
  | .destDown => 17
  | .destQuarantined => 18
  | .duplicateLabel => 19
  | .handleBusy => 20
  | .cardTableFull => 21

/-- R217: "severity: 0 NOTE, 1 WARN, 2 HOLD". -/
def severityByte : Severity → Byte
  | .note => 0
  | .warn => 1
  | .hold => 2

/-- R217: the code of a record, in its class. -/
def codeByte : FaultCode → Byte
  | .copyFailed .mismatch => 0
  | .copyFailed .writeError => 1
  | .copyFailed .timeout => 2
  | .copyFailed .link => 3
  | .copyFailed .quarantined => 4
  | .copyFailed .aborted => 5
  | .copyFailed .sequence => 6
  | .shortAborted => 0
  | .shortSettled => 1
  | .partialFrame .shape => 0
  | .partialFrame .line => 1
  | .partialFrame .order => 2
  | .partialFrame .incomplete => 3
  | .byCommand => 0
  | .byThreshold => 1

/-- R217: the 64 bytes of a fault record. -/
def faultBytes (r : FaultRec) : Bytes :=
  le 2 r.key ++ [classByte r.cls, severityByte r.severity, if r.state = .opened then 0 else 1, flagByte (r.label ≠ none)] ++
    r.label.elim (List.replicate 17 0) labelBytesOf ++ [flagByte (r.file ≠ none)] ++ le 4 (r.file.getD 0) ++
    [flagByte (r.dest ≠ none)] ++ le 1 (r.dest.elim 0 Fin.val) ++
    r.probe.elim [0, 0, 0, 0] (fun q =>
      [1] ++ le 1 q.channel.val ++ le 1 q.probe.val ++ [if q.direction = .asserted then 0 else 1]) ++
    [flagByte (r.frames ≠ none), flagByte (r.code ≠ none), r.code.elim 0 codeByte] ++ le 1 r.values.length ++ le 2 r.merges ++
    le 4 (r.frames.elim 0 FrameSpan.first) ++ le 4 (r.frames.elim 0 FrameSpan.last) ++ le 8 (r.values.getD 0 0) ++
    le 8 (r.values.getD 1 0)

/-- R217: the 110 bytes of a manifest record. -/
def manifestBytes (m : Manifest) : Bytes :=
  labelBytesOf m.label ++ le 1 m.required ++ le 4 m.file ++ tidBytesOf m.tid ++ le 6 m.size ++ le 1 m.verified.toNat ++
    [flagByte (m.recopy = true), flagByte (m.waived = true), flagByte (m.digest ≠ none)] ++ le 8 (m.digest.getD 0) ++
    [flagByte (m.name ≠ none)] ++ le 1 (m.name.getD []).length ++ padTo 64 (m.name.getD [])

/-- R217: the 24 bytes of a CARD_RELEASED notice. -/
def releasedBytes (c : Released) : Bytes :=
  labelBytesOf c.label ++ [flagByte (c.pulled = true)] ++ le 2 c.opened ++ le 2 c.completed ++ le 2 c.waived

/-- R214, R217: an item of the notice queue on its link: the header of 8 bytes and the body. -/
def noticeBytes : NoticeItem → Bytes
  | .fault r => [2, 0, 64, 0, 0, 0, 0, 0] ++ faultBytes r
  | .manifest m => [3, 0, 110, 0, 0, 0, 0, 0] ++ manifestBytes m
  | .released c => [4, 0, 24, 0, 0, 0, 0, 0] ++ releasedBytes c

/-- R214: a reply on its link. -/
def replyBytes (r : Reply) : Bytes :=
  [1, resultByte r.result] ++ le 2 r.body.length ++ le 2 r.tag ++ le 2 r.code ++ r.body

/-- R204: the events in the order of its table. -/
def eventByte : CountEvent → Byte
  | .segIn => 0
  | .bytesIn => 1
  | .segOut => 2
  | .framesInspected => 3
  | .reviewSkips => 4
  | .verifyOk => 5
  | .verifyFail => 6
  | .creditStall => 7

/-- R216: one counter of a READ COUNTERS reply, with its event and its qualifier. -/
def counterBytes (c : EventCounter) : Bytes :=
  le 4 c.count ++ [eventByte c.event] ++ (match c.qualifier with
    | .all => [0, 0]
    | .link l => [1] ++ le 1 l.val
    | .dest d => [2] ++ le 1 d.val) ++ [0]

/-- R205, R215: the settings that the bytes of a SET COUNTER EVENTS body from offset `o` on give a counter: the event at
`o`; at `o + 1` the qualifier kind, 0 for ALL, 1 for LINK and 2 for DEST, and at `o + 2` the qualifier number. -/
def SetFrom (b : Bytes) (o : Nat) (c : EventCounter) : Prop :=
  c.count = 0 ∧ (eventByte c.event).toNat = fieldAt b o 1 ∧ (c.qualifier = .all ↔ fieldAt b (o + 1) 1 = 0) ∧
  (∀ l : SrcLink, c.qualifier = .link l ↔ fieldAt b (o + 1) 1 = 1 ∧ fieldAt b (o + 2) 1 = l.val) ∧
  ∀ d : Dest, c.qualifier = .dest d ↔ fieldAt b (o + 1) 1 = 2 ∧ fieldAt b (o + 2) 1 = d.val

/-- R204: the qualifier that names what an event is counted against. -/
def Against.named : Against → Qualifier
  | .link l => .link l
  | .dest d => .dest d

/-- R204: a counter counts an event when its event setting is that event, and its qualifier is ALL or names what the
event is counted against. -/
abbrev Counts (c : EventCounter) (ev : CountEvent) (ag : Against) : Prop :=
  c.event = ev ∧ (c.qualifier = .all ∨ c.qualifier = ag.named)

/-- R202, R216: the body of the REVIEW SELECT reply, for the follow that results. -/
def followBytes (f : Option Follow) : Bytes :=
  [flagByte (f ≠ none), 0, 0, 0] ++ f.elim (List.replicate 17 0) (fun h => labelBytesOf h.label) ++ [0, 0, 0] ++
    le 4 (f.elim 0 Follow.file) ++ f.elim [0, 0, 0, 0] fun h => tidBytesOf h.tid

/-- R216: the length of an image of a READ STATE form. -/
def imageLength (form : Nat) : Nat := [44, 124, 40, 16, 220, 68].getD form 0

/-- R13, R36: the step that takes a data segment of a kind. -/
def dataStep (l : SrcLink) (kind : Byte) : Instr :=
  if kind = 4 then .essence l else if kind = 5 then .preview l else .metaRecord l

/-- R13: the step that takes a card event or an OPEN, by its kind. -/
def cardStep (l : SrcLink) (kind : Byte) : Instr :=
  if kind = 0 then .mount l else if kind = 1 then .unmount l else if kind = 2 then .cardEnd l else .openFile l

/-- The steps of the commands that a link can carry (R189). -/
def commandSteps (l : SrcLink) : List Instr :=
  [.identify l, .writeTable l, .readTable l, .readState l, .readFaults l, .ackFaultsKeys l, .ackFaultsLabel l, .waiveLoss l,
    .releaseCard l, .clearCard l, .waiveFile l, .destQuarantine l, .destRestore l, .reviewSelect l, .setCounterEvents l,
    .readCounters l, .testFrame l, .linkResetSource l, .linkResetDest l, .softReset l]

/-- R15, R16: the head of the link, in slot `i`, is discarded and counted as "overrun plus malformed"; nothing else
happens. -/
def Malformed (l : SrcLink) (i : SlotIx) (s t : State) : Prop :=
  t = { s with src := t.src, slots := t.slots, loss := { s.loss with malformed := oneMore s.loss.malformed } } ∧
    Processed l i s.src[l].replies s t

/-- R189: the step that takes a command, by its code and, for the two forms of ACK FAULTS and the two kinds of link a
LINK RESET can name, by its body. The LINK RESET of a source link is left out: it can empty the reply queue (R208). -/
def controlStep (l : SrcLink) (g : Segment) : Option Instr :=
  match g.command with
  | 1 => some (.identify l)
  | 2 => some (.writeTable l)
  | 3 => some (.readTable l)
  | 4 => some (.readState l)
  | 5 => some (.readFaults l)
  | 6 => some (if fieldAt g.payload 0 1 = 1 then .ackFaultsLabel l else .ackFaultsKeys l)
  | 7 => some (.waiveLoss l)
  | 8 => some (.releaseCard l)
  | 9 => some (.clearCard l)
  | 10 => some (.waiveFile l)
  | 11 => some (.destQuarantine l)
  | 12 => some (.destRestore l)
  | 13 => some (.reviewSelect l)
  | 14 => some (.setCounterEvents l)
  | 15 => some (.readCounters l)
  | 16 => some (.testFrame l)
  | 17 => if fieldAt g.payload 0 1 < 4 then none else some (.linkResetDest l)
  | 18 => some (.softReset l)
  | _ => none

/-- R189: the same, with the LINK RESET of a source link too. -/
def commandStep (l : SrcLink) (g : Segment) : Option Instr :=
  if g.command = 17 ∧ fieldAt g.payload 0 1 < 4 then some (.linkResetSource l) else controlStep l g

/-- R189, R215: what steps 2 and 3 test of a command's body, by its code; where the body's length depends on an
enumeration outside its list, what R215 says of that. -/
def commandShape (g : Segment) : BodyShape :=
  match g.command with
  | 2 => (tableArg g.payload).elim (badShape 0 g.payload) fun tb => writeTableShape tb g.payload
  | 3 => readTableShape g.payload
  | 4 => readStateShape g.payload
  | 5 => readFaultsShape g.payload
  | 6 => if fieldAt g.payload 0 1 = 0 then ackKeysShape g.payload
    else if fieldAt g.payload 0 1 = 1 then ackLabelShape g.payload else badShape 0 g.payload
  | 7 | 8 | 9 => labelShape g.payload
  | 10 => waiveFileShape g.payload
  | 11 | 12 => destShape g.payload
  | 13 => reviewShape g.payload
  | 14 => setCountersShape g.payload
  | 15 => readCountersShape g.payload
  | 16 => testShape g.payload
  | 17 => linkResetShape g.payload
  | _ => emptyShape g.payload

/-- R215: the body length of a command whose body has one length. -/
def bodyLength : Nat → Option Nat
  | 1 | 18 => some 0
  | 3 => some 6
  | 4 => some 22
  | 5 | 11 | 12 | 15 | 17 => some 4
  | 7 | 8 | 9 => some 17
  | 10 => some 24
  | 13 => some 28
  | 14 => some 20
  | 16 => some 16
  | _ => none

/-- R203, R216: the body of the TEST FRAME reply: the parameters as clamped, P, and the thresholds of the eight probes
that the channel latched from the profile. -/
def testBytes (q : TestParams) (e : ProfileEntry) : Bytes :=
  le 1 q.channel.val ++ le 1 q.profile.val ++ le 2 q.width ++ le 2 q.height ++ le 2 q.colour.r ++ le 2 q.colour.g ++
    le 2 q.colour.b ++ le 1 q.count ++ [0, 0, 0] ++ le 4 (q.width * q.height) ++
    (List.finRange 8).flatMap fun p : Fin 8 =>
      le 4 (thresholdOf (q.width * q.height) e.probes[p].dHi e.probes[p].source) ++
        le 4 (min (thresholdOf (q.width * q.height) e.probes[p].dLo e.probes[p].source)
          (thresholdOf (q.width * q.height) e.probes[p].dHi e.probes[p].source))

end Sys2Proof.Machine
end

