-- ==== Sys2Proof/Certificates/Slice0/Obligations.lean ====
section
/-! DEFINITION. The statements for the provers. Each docstring names the rules of spec/ it rests on. -/

open Sys2Proof Sys2Proof.Machine

/-! ### The machine as a whole -/

/-- 95_what_each_step_holds: the step takes the command at the front of the queue and runs it whole. That the part idles
with no command waiting is the model's choice (LOG 1). -/
def Obligations.StepTakesFront : Prop :=
  (∀ (c : Instr) (s : State), step { s with pending := c :: s.pending } = exec c s) ∧
    ∀ s : State, s.pending = [] → step s = .next s

/-- R210: the release of RESET_N puts everything at its power-on value (R1, R3, R7, R9, R10, R21, R23, R25, R51, R74,
R101, R105, R123, R132, R149, R151, R177, R195, R204, R206) and samples the address pins. While RESET_N is held low no
step but its release changes anything (the model's choice: LOG 18), and driving it low changes nothing else. -/
def Obligations.PowerOnValues : Prop :=
  (∀ s : State, exec .resetNHeldLow s = .next { s with resetLow := true }) ∧
  (∀ (c : Instr) (s : State), s.resetLow = true → (∀ adr, c ≠ .powerOnReset adr) → exec c s = .next s) ∧
  ∀ (adr : BitVec 7) (s : State), ∃ t, exec (.powerOnReset adr) s = .next t ∧
    t.partAddress = adr ∧ t.resetLow = false ∧ t.notices = [] ∧ t.log = [] ∧ t.keyCounter = 0 ∧ t.openCounter = 0 ∧
    (∀ l : SrcLink, t.src[l] = ⟨.down, 0, 0, 256, 0, [], none, [], none, false⟩) ∧
    (∀ i : SlotIx, t.slots[i].owner = none ∧ t.slots[i].mark = false ∧ t.slots[i].refs = 0) ∧
    (∀ c : CardIx, t.cards[c] = none) ∧ (∀ i : FileIx, t.files[i] = ⟨0, none⟩) ∧
    (∀ d : Dest, t.dest[d] = ⟨.down, false, false, .absent, 0, false, [], none, none, [], 0, []⟩ ∧
      t.destConfig[d] = ⟨true, 120, 100, Vector.replicate 8 0x20⟩) ∧
    (∀ e : Engine, t.engines[e].selection = .off ∧ t.engines[e].follow = none ∧ t.engines[e].queue = [] ∧
      t.engines[e].proc = none ∧ t.engines[e].pendingGap = false ∧ t.engines[e].out = .none_ ∧
      t.engines[e].working = none ∧ t.engines[e].flagInexact = false ∧ t.engines[e].flagOver = false ∧
      t.engines[e].flagUnder = false) ∧
    (∀ c : Channel, t.channels[c].state = .free ∧ t.channels[c].frame = none ∧ t.channels[c].prevDigest = none ∧
      t.channels[c].evaluated = 0 ∧ ∀ p : Fin 8, t.channels[c].probeStates[p] = ⟨false, 0, none⟩) ∧
    (∀ k : Fin 32, t.routes[k] = ⟨false, 0, 0, 0, 1, 0, none, none⟩) ∧
    (∀ k : Fin 8, t.formats[k] = ⟨false, .p8, 16, 16, .fps24, none, none, 8⟩) ∧
    (∀ k : Fin 16, (∀ i j : Fin 3, t.looks[k].matrix[i][j] = if i = j then 4096 else 0) ∧
      (∀ i : Fin 3, t.looks[k].offsets[i] = 0 ∧ ∀ n : Fin 65, t.looks[k].curves[i][n] = min 1023 (16 * n.val)) ∧
      t.looks[k].rounding = .nearestEven ∧ t.looks[k].policy = .saturate ∧ t.looks[k].marker = #v[1023, 0, 1023]) ∧
    (∀ k : Fin 8, t.profiles[k].clipCode = 4095 ∧ t.profiles[k].blackCode = 0 ∧
      ∀ p : Fin 8, t.profiles[k].probes[p] = ⟨false, .clip, 255, 255, 1, .assert, 0, .note⟩) ∧
    t.part = ⟨0, true, true, 0x7F, false, 3⟩ ∧
    (∀ p : Fin 2, t.counters[p] = ⟨false, ⟨0, .segIn, .all⟩, ⟨0, .segIn, .all⟩⟩) ∧ t.loss = ⟨0, 0, 0, 0, 0, 0, 0, 0⟩ ∧
    t.pending = s.pending

/-- R3, R54: held plus granted plus withheld stays 256 on every source link, unannounced stays within granted, and held
stays the number of slots the link owns, over every step. R77, R93: the credits in use of a destination never exceed its
announced limit, and its failure count stays within 0..15, over every step. -/
def Obligations.CreditLawsKept : Prop :=
  (∀ s t : State, CreditLaw s → step s = .next t → CreditLaw t) ∧
    ∀ s t : State, DestLaw s → step s = .next t → DestLaw t

/-- Over every step: the log keeps at most 64 records with distinct keys (R177, R178); at most 4 replies wait on each
link and at most 16 items in the notice queue (R9, R10); and every loss counter stays within 0..65535 (R206). -/
def Obligations.RecordLawsKept : Prop :=
  (∀ s t : State, LogLaw s → step s = .next t → LogLaw t) ∧
    (∀ s t : State, QueueLaw s → step s = .next t → QueueLaw t) ∧
    ∀ s t : State, LossLaw s → step s = .next t → LossLaw t

/-- R24: over every step each card record's verdict stays the one the rule gives for the state, and labels stay distinct
(R23). -/
def Obligations.VerdictLawKept : Prop := ∀ s t : State, VerdictLaw s → step s = .next t → VerdictLaw t

/-- R54, R55, R56: over every step the count of each slot stays the number of queue entries that point at it, and the
slots in use stay those that are marked or counted. -/
def Obligations.SlotLawKept : Prop := ∀ s t : State, SlotLaw s → step s = .next t → SlotLaw t

/-- R92: over every step a destination that is DOWN, TRAINING or QUARANTINED holds no waiting message but a HALT, and no
copy on it is unsettled. R151: over every step the channels in FILE and the STREAMING files name each other. -/
def Obligations.QuietAndChannelLawsKept : Prop :=
  (∀ s t : State, QuietLaw s → step s = .next t → QuietLaw t) ∧
    ∀ s t : State, ChannelLaw s → step s = .next t → ChannelLaw t

/-- The laws that the steps keep hold right after reset. -/
def Obligations.LawsAtReset : Prop :=
  CreditLaw State.reset ∧ LogLaw State.reset ∧ DestLaw State.reset ∧ QueueLaw State.reset ∧ LossLaw State.reset ∧
    VerdictLaw State.reset ∧ SlotLaw State.reset ∧ QuietLaw State.reset ∧ ChannelLaw State.reset

/-! ### Source links (chapter 1) -/

/-- R4: a link that enters UP grants all its withheld credits and adds as many to unannounced; held does not change.
R8, R11: the next credit message reports the grant. -/
def Obligations.EnteringUpGrants : Prop :=
  ∀ (l : SrcLink) (s : State), s.resetLow = false → s.src[l].state = .training →
    ∃ t, exec (.sourceAlignmentAchieved l) s = .next t ∧
      t = { s with src := vmod s.src l fun p => { p with
        state := .up, granted := p.granted + p.withheld, unannounced := p.unannounced + p.withheld, withheld := 0 } } ∧
      (s.src[l].tx = none → 0 < s.src[l].withheld →
        ∃ u, exec (.returnItemStart l) t = .next u ∧
          u.src[l].tx.map ReturnTx.kind = some (.credit (s.src[l].unannounced + s.src[l].withheld)))

/-- R1: every row of the source link's table. A partner detected takes a DOWN link to TRAINING; in TRAINING a lost
partner takes the link DOWN and a loss of alignment changes nothing; in DOWN neither event has an effect; a partner
detected has none in TRAINING and UP, nor alignment achieved in DOWN and UP. The events that leave UP pass through a link
reset (R18): what stands on the link afterwards, what is kept, and that the files of the cards mounted on the link are
aborted (R29, R45) and the notice queue of the station link emptied. That a reset of the station link takes out of the
notice queue also an item in transmission on a former station link (LOG 15), and that the notices of the FILE_SHORT
records of the aborts stay queued (LOG 39), is the model's choice, as are the order of the aborts (LOG 12) and that their
review skips are counted (LOG 40), and that a released channel is as after power-on (LOG 44). -/
def Obligations.SourceLinkEvents : Prop :=
  ∀ (l : SrcLink) (s : State), s.resetLow = false →
    (s.src[l].state = .down → exec (.sourcePartnerDetected l) s =
      .next { s with src := vmod s.src l fun p => { p with state := .training } }) ∧
    (s.src[l].state = .training → exec (.sourcePartnerLost l) s =
      .next { s with src := vmod s.src l fun p => { p with state := .down } }) ∧
    (s.src[l].state = .down → exec (.sourcePartnerLost l) s = .next s) ∧
    (s.src[l].state ≠ .up → exec (.sourceLossOfAlignment l) s = .next s) ∧
    (s.src[l].state ≠ .down → exec (.sourcePartnerDetected l) s = .next s) ∧
    (s.src[l].state ≠ .training → exec (.sourceAlignmentAchieved l) s = .next s) ∧
    (s.src[l].state = .up →
      ∀ (c : Instr) (st : SrcState),
        (c = .sourceLossOfAlignment l ∧ st = .training) ∨ (c = .sourcePartnerLost l ∧ st = .down) →
        ∃ t, exec c s = .next t ∧
          t.src[l].state = st ∧ t.src[l].granted = 0 ∧ t.src[l].unannounced = 0 ∧ t.src[l].arrivals = [] ∧
          t.src[l].replies = [] ∧ t.src[l].tx = none ∧ t.src[l].overrun = false ∧
          (s.part.station = l → t.notices.all fun n => match n.item with
            | .fault r => r.cls == .fileShort
            | _ => false) ∧
          (∀ m : SrcLink, m ≠ l → t.src[m].state = s.src[m].state ∧ t.src[m].replies = s.src[m].replies ∧
            t.src[m].tx = s.src[m].tx ∧ t.src[m].arrivals = s.src[m].arrivals) ∧
          LinkAborts l s t ∧
          (∀ i : FileIx, ∀ f, t.files[i].file = some f → f.state = .streaming → onLink l f t = false) ∧
          t.routes = s.routes ∧ t.formats = s.formats ∧ t.looks = s.looks ∧ t.profiles = s.profiles ∧
          t.destConfig = s.destConfig ∧ t.part = s.part ∧ t.openCounter = s.openCounter ∧ t.partAddress = s.partAddress)

/-- R6, R52: a segment that arrives against a granted credit takes the lowest FREE slot and joins the arrival queue; it
is one SEG_IN event and BYTES_IN events to its payload length (R204); where the length field is above 16384, that the
field is what BYTES_IN counts is the model's choice (LOG 25). R7: one that arrives with no granted credit is discarded
and counted; the first of a run logs one OVERRUN record, severity WARN, naming no card, with the link as its value
(R176). R1, R2: on a link that is not UP, or cut off, a segment has no effect. R188: where the segment is the only one
that waits, it reaches the head, and the address decision is made against the address mask and broadcast accept as they
stand. -/
def Obligations.SegmentArrives : Prop :=
  ∀ (l : SrcLink) (wire : Bytes) (s : State), s.resetLow = false →
    (s.src[l].state ≠ .up ∨ Segment.ofBytes wire = none → exec (.segmentArrival l wire) s = .next s) ∧
    ∀ g : Segment, s.src[l].state = .up → Segment.ofBytes wire = some g →
      (∀ i : SlotIx, 0 < s.src[l].granted → s.slots[i].owner = none → (∀ j : SlotIx, j < i → s.slots[j].owner ≠ none) →
        ∃ t, exec (.segmentArrival l wire) s = .next t ∧
          t = { s with src := t.src, slots := t.slots, counters := t.counters } ∧
          t.slots = vmod s.slots i (fun _ => ⟨some l, true, 0, g⟩) ∧
          (t.src = vmod s.src l fun p => { p with
            held := p.held + 1, granted := p.granted - 1, unannounced := min p.unannounced (p.granted - 1)
            arrivals := p.arrivals ++ [i], overrun := false
            headAddressed := if p.arrivals = [] then decisionFor (some i) t else p.headAddressed }) ∧
          t.counters = s.counters.map fun p => (p.take .segIn (.link l) 1).take .bytesIn (.link l) g.len) ∧
      (s.src[l].granted = 0 →
        ∃ t, exec (.segmentArrival l wire) s = .next t ∧ t.loss.malformed = oneMore s.loss.malformed ∧
          t.src = (vmod s.src l fun p => { p with overrun := true }) ∧ t.slots = s.slots ∧
          (s.src[l].overrun = true → t.log = s.log) ∧
          (s.src[l].overrun = false → s.log.length < 64 → ∃ r, t.log = s.log ++ [r] ∧ r.cls = .overrun ∧
            r.severity = .warn ∧ r.label = none ∧ r.values = [l.val] ∧ r.state = .opened))

/-- R15, R16: a segment of an unknown kind, and one of a card event, an OPEN or a CONTROL whose header fails its checks,
is discarded and counted as malformed, without a fault record. A data segment whose header fails: with no card under its
handle, or no file under its number, the same; of the card's refused file, nothing is counted; of a SETTLING or SHORT
file, a SEQUENCE record, severity HOLD, is logged; a STREAMING file breaks (R37). The value that stands for an offset of
more than 48 bits is the model's choice (LOG 19). R17: a CONTROL segment addressed to this part waits while 4 replies are
queued. R35: a data segment with a good header whose handle no card holds is discarded and counted; one of the card's
refused file, not counted; of a file that the card has no record of, or whose record is SETTLING or SHORT, a SEQUENCE
record, severity HOLD, is logged with its offset, and no file record changes. R30, R43: an OPEN and a CARD_END for a
handle that no card holds are discarded and counted. R188: a foreign CONTROL segment is discarded and counted. R189: an
unknown command code is answered UNKNOWN_COMMAND. That any command's step disposes of these last is the model's choice
(LOG 1), and so are, where a STREAMING file breaks, that a released channel is as after power-on (LOG 44) and that the
record may hold an expected offset of 2^48 (LOG 42). -/
def Obligations.Refusals : Prop :=
  ∀ (l : SrcLink) (i : SlotIx) (g : Segment) (s : State), AtHead l i g s →
    (8 ≤ g.kind.toNat → ∃ t, exec (.unknownKindSegment l) s = .next t ∧ Malformed l i s t) ∧
    (g.kind.toNat < 4 → g.headerOk = false → ∃ t, exec (cardStep l g.kind) s = .next t ∧ Malformed l i s t) ∧
    (g.isData = true → g.headerOk = false →
      ((∀ c' : CardIx, (s.cards[c'].bind Card.handle) ≠ some ⟨l, g.cardSlot⟩) →
        ∃ t, exec (dataStep l g.kind) s = .next t ∧ Malformed l i s t) ∧
      ∀ (c : CardIx) (k : Card), HoldsHandle ⟨l, g.cardSlot⟩ c k s →
        (k.refused = some g.fileNumber → ∃ t, exec (dataStep l g.kind) s = .next t ∧
          t = { s with src := t.src, slots := t.slots } ∧ Processed l i s.src[l].replies s t) ∧
        (k.refused ≠ some g.fileNumber →
          (∀ (j : FileIx) (f : FileRec), s.files[j].file = some f → f.card = c → f.number ≠ g.fileNumber) →
          ∃ t, exec (dataStep l g.kind) s = .next t ∧ Malformed l i s t) ∧
        ∀ (j : FileIx) (f : FileRec), k.refused ≠ some g.fileNumber → NamesFile c g.fileNumber j f s →
          (f.state ≠ .streaming → ∃ t, exec (dataStep l g.kind) s = .next t ∧
            t = { s with
              src := t.src, slots := t.slots, cards := t.cards, log := t.log, keyCounter := t.keyCounter
              notices := t.notices, loss := t.loss } ∧
            Processed l i s.src[l].replies s t ∧
            (s.log.length < 64 → ∃ r, t.log = s.log ++ [r] ∧ r.cls = .sequence ∧ r.severity = .hold ∧
              r.label = some k.label ∧ r.file = some f.number ∧ r.values = [g.offset % 2 ^ 48])) ∧
          (f.state = .streaming → ∃ t, exec (dataStep l g.kind) s = .next t ∧
            Breaks l k j f (g.offset % 2 ^ 48) s t)) ∧
    (g.isData = true → g.headerOk = true →
      ((∀ c' : CardIx, (s.cards[c'].bind Card.handle) ≠ some ⟨l, g.cardSlot⟩) →
        ∃ t, exec (dataStep l g.kind) s = .next t ∧ Malformed l i s t) ∧
      ∀ (c : CardIx) (k : Card), HoldsHandle ⟨l, g.cardSlot⟩ c k s →
        (k.refused = some g.fileNumber → ∃ t, exec (dataStep l g.kind) s = .next t ∧
          t = { s with src := t.src, slots := t.slots } ∧ Processed l i s.src[l].replies s t) ∧
        (k.refused ≠ some g.fileNumber →
          (∀ (j : FileIx) (f : FileRec), s.files[j].file = some f → f.card = c → f.number ≠ g.fileNumber) ∨
            (∃ (j : FileIx) (f : FileRec), NamesFile c g.fileNumber j f s ∧ f.state ≠ .streaming) →
          ∃ t, exec (dataStep l g.kind) s = .next t ∧
            t = { s with
              src := t.src, slots := t.slots, cards := t.cards, log := t.log, keyCounter := t.keyCounter
              notices := t.notices, loss := t.loss } ∧
            Processed l i s.src[l].replies s t ∧
            (s.log.length < 64 → Reevaluated s t ∧ ∃ r, t.log = s.log ++ [r] ∧ r.cls = .sequence ∧ r.severity = .hold ∧
              r.label = some k.label ∧ r.file = some g.fileNumber ∧ r.values = [g.offset]))) ∧
    (g.kind = 2 ∨ g.kind = 3 → g.headerOk = true →
      (∀ c' : CardIx, (s.cards[c'].bind Card.handle) ≠ some ⟨l, g.cardSlot⟩) →
      ∃ t, exec (cardStep l g.kind) s = .next t ∧ Malformed l i s t) ∧
    (g.kind = 7 → ∀ c ∈ commandSteps l,
      (g.headerOk = false → ∃ t, exec c s = .next t ∧ Malformed l i s t) ∧
      (g.headerOk = true → s.src[l].headAddressed = some false → ∃ t, exec c s = .next t ∧
        t = { s with src := t.src, slots := t.slots, loss := { s.loss with foreign := oneMore s.loss.foreign } } ∧
        Processed l i s.src[l].replies s t) ∧
      (g.headerOk = true → s.src[l].headAddressed = some true → 4 ≤ s.src[l].replies.length → exec c s = .next s) ∧
      (g.headerOk = true → s.src[l].headAddressed = some true → s.src[l].replies.length < 4 →
        g.command = 0 ∨ 18 < g.command → ∃ t, exec c s = .next t ∧ t = { s with src := t.src, slots := t.slots } ∧
          Replied l i g .unknownCommand [] s t))

/-- R11: the arbiter's choice: a credit message, else the oldest reply, else on the station link the oldest notice not
yet in transmission; each with the bytes that R214 and R217 lay out. R9, R10: at the good end of a return transmission a
reply leaves the reply queue and a notice the notice queue. -/
def Obligations.ReturnItems : Prop :=
  (∀ (l : SrcLink) (s : State), s.resetLow = false → s.src[l].state = .up → s.src[l].tx = none →
    (0 < s.src[l].unannounced → exec (.returnItemStart l) s =
      .next { s with src := vmod s.src l fun p => { p with
        unannounced := 0
        tx := some ⟨.credit p.unannounced, [0, 0, 0, 0] ++ le 2 p.unannounced ++ [0, 0]⟩ } }) ∧
    (s.src[l].unannounced = 0 → ∀ r rest, s.src[l].replies = r :: rest → exec (.returnItemStart l) s =
      .next { s with src := vmod s.src l fun p => { p with tx := some ⟨.reply, replyBytes r⟩ } }) ∧
    (s.src[l].unannounced = 0 → s.src[l].replies = [] → s.part.station = l → ∀ before n rest,
      s.notices = before ++ n :: rest → (∀ m ∈ before, m.sending ≠ none) → n.sending = none →
      exec (.returnItemStart l) s =
        .next { s with
          src := vmod s.src l fun p => { p with tx := some ⟨.notice, noticeBytes n.item⟩ }
          notices := before ++ { n with sending := some l } :: rest }) ∧
    (s.src[l].unannounced = 0 → s.src[l].replies = [] → s.part.station ≠ l → exec (.returnItemStart l) s = .next s)) ∧
    ∀ (l : SrcLink) (s : State) (x : ReturnTx), s.resetLow = false → s.src[l].tx = some x →
      ∃ t, exec (.returnItemEndGood l) s = .next t ∧ t = { s with src := t.src, notices := t.notices } ∧
        (t.src = vmod s.src l fun p => { p with
          tx := none, replies := if x.kind = .reply then p.replies.tail else p.replies }) ∧
        (x.kind ≠ .notice → t.notices = s.notices) ∧
        (x.kind = .notice → ∀ before n rest, s.notices = before ++ n :: rest → (∀ m ∈ before, m.sending ≠ some l) →
          n.sending = some l → t.notices = before ++ rest)

/-! ### Cards (chapter 2) -/

/-- R41 row 6, R213: a MOUNT of a new card makes a card record at the lowest free position. R41 rows 2 to 4, R42: a MOUNT
whose label is mounted is refused as DUPLICATE_LABEL; one whose handle is held, as HANDLE_BUSY; row 5: with 16 card
records one of a new label on a free handle, as CARD_TABLE_FULL; each record, where the log has room, names no card and
holds the handle (R176). A DETACHED card with the label takes the new handle and keeps every other field. R213: a MOUNT
whose body fails its checks is discarded and counted as malformed. -/
def Obligations.MountTaken : Prop :=
  ∀ (l : SrcLink) (i : SlotIx) (g : Segment) (s : State), AtHead l i g s → g.kind = 0 → g.headerOk = true →
    (mountBodyOk g.payload = false → ∃ t, exec (.mount l) s = .next t ∧ Malformed l i s t) ∧
    (mountBodyOk g.payload = true → ∀ c : CardIx,
      (∀ c' : CardIx, (s.cards[c'].map Card.label) ≠ some (bytesAt g.payload 1 (fieldAt g.payload 0 1)) ∧
        (s.cards[c'].bind Card.handle) ≠ some ⟨l, g.cardSlot⟩) →
      s.cards[c] = none → (∀ c' : CardIx, c' < c → s.cards[c'] ≠ none) →
      ∃ t, exec (.mount l) s = .next t ∧ t = { s with src := t.src, slots := t.slots, cards := t.cards } ∧
        Processed l i s.src[l].replies s t ∧
        t.cards = vmod s.cards c fun _ => some
          { label := bytesAt g.payload 1 (fieldAt g.payload 0 1), handle := some ⟨l, g.cardSlot⟩
            camera := BitVec.ofNat 16 (fieldAt g.payload 18 2)
            expected := if fieldAt g.payload 20 1 = 1 then some (fieldAt g.payload 22 2) else none
            opened := 0, completed := 0, waived := 0, mount := .active, verdict := .pending
            ended := false, pulled := false, lostMark := false, refused := none }) ∧
    (mountBodyOk g.payload = true → (∀ c' : CardIx,
        (s.cards[c'].map Card.label) ≠ some (bytesAt g.payload 1 (fieldAt g.payload 0 1))) → ∀ cls : FaultClass,
      (cls = .handleBusy ∧ ∃ c' : CardIx, (s.cards[c'].bind Card.handle) = some ⟨l, g.cardSlot⟩) ∨
        (cls = .cardTableFull ∧ ∀ c' : CardIx, s.cards[c'] ≠ none ∧ (s.cards[c'].bind Card.handle) ≠ some ⟨l, g.cardSlot⟩) →
      ∃ t, exec (.mount l) s = .next t ∧ Processed l i s.src[l].replies s t ∧
        t = { s with
          src := t.src, slots := t.slots, cards := t.cards, log := t.log, keyCounter := t.keyCounter
          notices := t.notices, loss := t.loss } ∧ t.cards = s.cards ∧
        (s.log.length < 64 → ∃ r, t.log = s.log ++ [r] ∧ r.cls = cls ∧ r.severity = .warn ∧ r.label = none ∧
          r.values = [l.val, g.cardSlot.val])) ∧
    (mountBodyOk g.payload = true → ∀ (c : CardIx) (k : Card),
      NamesCard (bytesAt g.payload 1 (fieldAt g.payload 0 1)) c k s →
      ∃ t, exec (.mount l) s = .next t ∧ Processed l i s.src[l].replies s t ∧
        (k.mount ≠ .detached → t.cards = s.cards ∧
          (s.log.length < 64 → ∃ r, t.log = s.log ++ [r] ∧ r.cls = .duplicateLabel ∧ r.severity = .warn ∧
            r.label = none ∧ r.values = [l.val, g.cardSlot.val])) ∧
        (k.mount = .detached → (∃ c' : CardIx, (s.cards[c'].bind Card.handle) = some ⟨l, g.cardSlot⟩) →
          t.cards = s.cards ∧
          (s.log.length < 64 → ∃ r, t.log = s.log ++ [r] ∧ r.cls = .handleBusy ∧ r.severity = .warn ∧ r.label = none ∧
            r.values = [l.val, g.cardSlot.val])) ∧
        (k.mount = .detached → (∀ c' : CardIx, (s.cards[c'].bind Card.handle) ≠ some ⟨l, g.cardSlot⟩) →
          t = { s with src := t.src, slots := t.slots, cards := t.cards } ∧
          t.cards = vmod s.cards c fun _ =>
            some { k with handle := some ⟨l, g.cardSlot⟩, mount := if k.ended then .ended else .active }))

/-- R43: a CARD_END of an ACTIVE card whose expected file count, if any, agrees sets its ended flag; a differing count
logs COUNT_MISMATCH, severity HOLD, with both counts; an ENDED card ignores it. The verdict is the one R24 gives. -/
def Obligations.CardEndEnds : Prop :=
  ∀ (l : SrcLink) (i : SlotIx) (g : Segment) (c : CardIx) (k : Card) (s : State), AtHead l i g s → g.kind = 2 →
    g.headerOk = true → HoldsHandle ⟨l, g.cardSlot⟩ c k s →
    ∃ t, exec (.cardEnd l) s = .next t ∧ Processed l i s.src[l].replies s t ∧
      (k.mount = .active → (∀ n, k.expected = some n → n = k.opened) →
        t = { s with src := t.src, slots := t.slots, cards := t.cards } ∧
        t.cards = vmod s.cards c fun _ =>
          some { k with ended := true, mount := .ended, verdict := verdictOf t c { k with ended := true } }) ∧
      (k.mount = .active → ∀ n, k.expected = some n → n ≠ k.opened → s.log.length < 64 →
        (∃ r, t.log = s.log ++ [r] ∧ r.cls = .countMismatch ∧ r.severity = .hold ∧ r.label = some k.label ∧
          r.values = [n, k.opened]) ∧
        t.cards[c] = some { k with ended := true, mount := .ended, verdict := verdictOf t c { k with ended := true } }) ∧
      (k.mount ≠ .active → t = { s with src := t.src, slots := t.slots })

/-- R44, R29: an UNMOUNT aborts the STREAMING files of the card, `js`, in ascending order of file record index: their
unsettled copies fail with ABORTED and are withdrawn (R85), with an ABORT where the OPEN was sent (R81), their channels
are released, each goes SHORT with its offset, its sums and its route result kept, the follows of them end (R146), and
each logs a FILE_SHORT record, severity HOLD. Where there was one, or CARD_END has not come, the pulled flag is set and
CARD_PULLED logged after them, severity HOLD. The card is DETACHED with the verdict R24 gives, and no other card changes.
A handle that no card holds is discarded without a count. That a released channel is as after power-on is the model's
choice (LOG 44). -/
def Obligations.UnmountDetaches : Prop :=
  ∀ (l : SrcLink) (i : SlotIx) (g : Segment) (s : State), AtHead l i g s → g.kind = 1 → g.headerOk = true →
    ((∀ c' : CardIx, (s.cards[c'].bind Card.handle) ≠ some ⟨l, g.cardSlot⟩) →
      ∃ t, exec (.unmount l) s = .next t ∧ t = { s with src := t.src, slots := t.slots } ∧
        Processed l i s.src[l].replies s t) ∧
    ∀ (c : CardIx) (k : Card) (js : List FileIx), HoldsHandle ⟨l, g.cardSlot⟩ c k s →
      js = (allIx fun j : FileIx => s.files[j].file.any fun f => f.card == c && f.state == .streaming) →
      ∃ t, exec (.unmount l) s = .next t ∧
        t = { s with
          src := t.src, slots := t.slots, cards := t.cards, files := t.files, dest := t.dest, log := t.log
          keyCounter := t.keyCounter, notices := t.notices, loss := t.loss, counters := t.counters
          engines := t.engines, channels := t.channels } ∧
        TookHead l s t ∧ Aborted js s t ∧ (VerdictLaw s → ∀ c' : CardIx, c' ≠ c → t.cards[c'] = s.cards[c']) ∧
        (s.log.length + js.length < 64 →
          (∀ k' : Card, k' = { k with
              handle := none, refused := none, mount := .detached
              pulled := k.pulled || !k.ended || decide (js ≠ []) } →
            t.cards[c] = some { k' with verdict := verdictOf t c k' }) ∧
          (js ≠ [] ∨ k.ended = false → ∃ rs r, t.log = s.log ++ rs ++ [r] ∧ ShortRecords js s rs ∧ r.cls = .cardPulled ∧
            r.severity = .hold ∧ r.label = some k.label)) ∧
        (js = [] → Processed l i s.src[l].replies s t ∧
          (k.ended = true → (∀ d : Dest, ¬ (s.dest[d].stalled = true ∧ s.dest[d].stall = false)) →
            t = { s with src := t.src, slots := t.slots, cards := t.cards } ∧
              ∀ c' : CardIx, c' ≠ c → t.cards[c'] = s.cards[c']))

/-- R24: RELEASABLE is the four conditions together; HELD is an ended card with nothing moving that fails one of them;
PENDING is every other case. -/
def Obligations.VerdictRule : Prop :=
  ∀ (s : State) (c : CardIx) (k : Card),
    (verdictOf s c k = .releasable ↔
      k.ended = true ∧ (∀ (i : FileIx) (f : FileRec), s.files[i].file = some f → f.card ≠ c) ∧
        (∀ r ∈ s.log, ¬ (r.state = .opened ∧ r.severity = .hold ∧ r.label = some k.label)) ∧ k.lostMark = false) ∧
    (verdictOf s c k = .held ↔
      verdictOf s c k ≠ .releasable ∧ k.ended = true ∧
        ∀ (i : FileIx) (f : FileRec), s.files[i].file = some f → f.card = c → f.state = .short) ∧
    (verdictOf s c k = .pending ↔ verdictOf s c k ≠ .releasable ∧ verdictOf s c k ≠ .held)

/-! ### Files (chapter 2) -/

/-- R33, R25, R22, R27: a fresh OPEN makes a record at the lowest free index `j`, under the next generation and the next
open stamp, with the route result of the lowest matching entry `n`; each copy state follows R27, and the OPEN message is
queued to each destination with a PENDING copy. R106: the frame assembly latches the format. The card's verdict is the
one R24 gives. R152, R153: where the route names a profile and a format the lowest-numbered FREE channel latches the
file, the profile and the picture size; without a FREE channel UNINSPECTED is logged, severity NOTE. That the open
counter wraps modulo 2^64 is the model's choice (LOG 31). R143, R144: a look engine whose selection the OPEN qualifies
for changes its follow to the new file (R145): the entries that wait are discarded and counted. -/
def Obligations.OpenFresh : Prop :=
  ∀ (l : SrcLink) (i : SlotIx) (g : Segment) (c : CardIx) (k : Card) (j : FileIx) (n : Fin 32) (s : State),
    OpensOn l i g c k s → openBodyOk g.payload = true → OpenAllowed g c k s →
    (∀ (j' : FileIx) (f : FileRec), s.files[j'].file = some f → f.card = c → f.number ≠ openNumber g) →
    Routes n (openKey g k) s → s.files[j].file = none → (∀ j' : FileIx, j' < j → s.files[j'].file ≠ none) →
    ∃ t f, exec (.openFile l) s = .next t ∧
      t = { s with
        src := t.src, slots := t.slots, cards := t.cards, files := t.files, log := t.log, keyCounter := t.keyCounter
        notices := t.notices, loss := t.loss, counters := t.counters, dest := t.dest, engines := t.engines
        channels := t.channels, openCounter := (s.openCounter + 1) % 2 ^ 64 } ∧
      TookHead l s t ∧ t.slots[i] = Slot.free ∧
      FollowsOpened l ⟨j, s.files[j].gen + 1⟩ k.label (openNumber g) s.routes[n] s t ∧
      t.files[j] = ⟨s.files[j].gen + 1, some f⟩ ∧ (∀ j' : FileIx, j' ≠ j → t.files[j'] = s.files[j']) ∧
      f.card = c ∧ f.number = openNumber g ∧ f.name = openName g.payload ∧ f.declared = openSize g.payload ∧
      f.nextOffset = 0 ∧ f.sums = ⟨1, 0, []⟩ ∧ f.finalDigest = none ∧ f.state = .streaming ∧ f.recopy = false ∧
      f.stamp = (s.openCounter + 1) % 2 ^ 64 ∧
      OpenStarted g k j s.routes[n] f s t ∧
      (∀ d : Dest, f.copies[d] =
        if s.routes[n].dests.getLsbD d.val = true then
          if s.dest[d].state = .up ∧ s.destConfig[d].enabled = true then .pending else .failed .link
        else .none_) ∧
      (s.log.length < 64 → ∀ k' : Card, k' = { k with
          opened := if g.recopy = true then k.opened else if k.opened < 65535 then k.opened + 1 else k.opened
          refused := none } →
        t.cards = vmod s.cards c fun _ => some { k' with verdict := verdictOf t c k' })

/-- R34: a recopy OPEN of a SHORT file reuses its record under the next generation: VERIFIED copies stand, and the copies
that are NONE or FAILED are set anew on the route's destinations. The route is latched anew, and the OPEN message, the
frame assembly and the inspection channel start afresh as for a fresh OPEN (R22, R106, R152, R153). The files opened count
does not change, and the card's verdict is the one R24 gives. A look engine whose selection the OPEN qualifies for takes
up the new sending (R143 to R145). That the open counter wraps modulo 2^64 is the model's choice (LOG 31). -/
def Obligations.OpenRecopy : Prop :=
  ∀ (l : SrcLink) (i : SlotIx) (g : Segment) (c : CardIx) (k : Card) (j : FileIx) (old : FileRec) (n : Fin 32)
    (s : State), OpensOn l i g c k s → openBodyOk g.payload = true → g.recopy = true →
    NamesFile c (openNumber g) j old s → old.state = .short → Routes n (openKey g k) s →
    ∃ t f, exec (.openFile l) s = .next t ∧
      t = { s with
        src := t.src, slots := t.slots, cards := t.cards, files := t.files, log := t.log, keyCounter := t.keyCounter
        notices := t.notices, loss := t.loss, counters := t.counters, dest := t.dest, engines := t.engines
        channels := t.channels, openCounter := (s.openCounter + 1) % 2 ^ 64 } ∧
      TookHead l s t ∧ t.slots[i] = Slot.free ∧ t.files[j] = ⟨s.files[j].gen + 1, some f⟩ ∧
      FollowsOpened l ⟨j, s.files[j].gen + 1⟩ k.label (openNumber g) s.routes[n] s t ∧
      (∀ j' : FileIx, j' ≠ j → t.files[j'] = s.files[j']) ∧
      f = { old with
        name := openName g.payload, declared := openSize g.payload, nextOffset := 0, sums := ⟨1, 0, []⟩
        finalDigest := none, state := .streaming, recopy := true, stamp := (s.openCounter + 1) % 2 ^ 64
        route := f.route, copies := f.copies, channel := f.channel, assembly := f.assembly } ∧
      OpenStarted g k j s.routes[n] f s t ∧
      (∀ d : Dest, s.routes[n].dests.getLsbD d.val = false → f.copies[d] = old.copies[d]) ∧
      (∀ d : Dest, s.routes[n].dests.getLsbD d.val = true →
        (old.copies[d] = .verified → f.copies[d] = .verified) ∧
        (s.dest[d].state = .up ∧ s.destConfig[d].enabled = true →
          old.copies[d] = .none_ ∨ (∃ r, old.copies[d] = .failed r) → f.copies[d] = .pending) ∧
        (¬ (s.dest[d].state = .up ∧ s.destConfig[d].enabled = true) →
          (old.copies[d] = .none_ → f.copies[d] = .failed .link) ∧
            ∀ r, old.copies[d] = .failed r → f.copies[d] = .failed r)) ∧
      (s.log.length < 64 → ∀ k' : Card, k' = { k with refused := none } →
        t.cards = vmod s.cards c fun _ => some { k' with verdict := verdictOf t c k' })

/-- R31, R32: an OPEN that a row of R31 refuses, or whose body fails its checks (R30), changes no file record and no
queue: it logs a HOLD record of the row's class and sets the card's refused file number. -/
def Obligations.OpenRefused : Prop :=
  ∀ (l : SrcLink) (i : SlotIx) (g : Segment) (c : CardIx) (k : Card) (cls : FaultClass) (s : State),
    OpensOn l i g c k s →
    (cls = .sequence ∧ openBodyOk g.payload = false) ∨
    (openBodyOk g.payload = true ∧
      ((cls = .lateOpen ∧ k.mount = .ended ∧ g.recopy = false) ∨
      (cls = .duplicateOpen ∧ ¬ (k.mount = .ended ∧ g.recopy = false) ∧
        ∃ j f, NamesFile c (openNumber g) j f s ∧ (f.state ≠ .short ∨ g.recopy = false)) ∨
      (cls = .unrouted ∧ OpenAllowed g c k s ∧ ∀ n : Fin 32, s.routes[n].takes (openKey g k) = false) ∨
      (cls = .fileTableFull ∧ OpenAllowed g c k s ∧ (∃ n : Fin 32, s.routes[n].takes (openKey g k) = true) ∧
        (∀ j : FileIx, s.files[j].file ≠ none) ∧
        ∀ (j : FileIx) (f : FileRec), s.files[j].file = some f → f.card = c → f.number ≠ openNumber g))) →
    ∃ t, exec (.openFile l) s = .next t ∧
      t = { s with
        src := t.src, slots := t.slots, cards := t.cards, log := t.log, keyCounter := t.keyCounter
        notices := t.notices, loss := t.loss } ∧
      Processed l i s.src[l].replies s t ∧ (t.cards[c].bind Card.refused) = some (openNumber g) ∧
      (s.log.length < 64 → ∃ r, t.log = s.log ++ [r] ∧ r.cls = cls ∧ r.severity = .hold ∧ r.label = some k.label ∧
        r.file = some (openNumber g) ∧ r.state = .opened)

/-- R36, R56, R66: an accepted data segment with bytes advances the digest and the next expected offset, and one DATA
entry joins the queue of each destination whose copy is PENDING or SENDING. An ESSENCE changes nothing else, and its slot
then counts one reference for each of them, or is FREE without one. -/
def Obligations.DataSegmentAccepted : Prop :=
  ∀ (l : SrcLink) (i : SlotIx) (g : Segment) (c : CardIx) (k : Card) (j : FileIx) (f : FileRec) (s : State),
    DataOf l i g c k j f s → InPlace f g → g.payload ≠ [] → g.last = false →
    ∃ t f', exec (dataStep l g.kind) s = .next t ∧
      t = { s with
        src := t.src, slots := t.slots, cards := t.cards, files := t.files, log := t.log, keyCounter := t.keyCounter
        notices := t.notices, loss := t.loss, counters := t.counters, dest := t.dest, engines := t.engines
        channels := t.channels } ∧
      t.files[j] = ⟨s.files[j].gen, some f'⟩ ∧ (∀ j' : FileIx, j' ≠ j → t.files[j'] = s.files[j']) ∧
      f' = { f with
        sums := f.sums.advance g.payload, nextOffset := f.nextOffset + g.payload.length, assembly := f'.assembly } ∧
      (∀ d : Dest, t.dest[d] = { s.dest[d] with
        stall := t.dest[d].stall
        queue := s.dest[d].queue ++
          if f.copies[d] = .pending ∨ f.copies[d] = .sending then [.data ⟨j, s.files[j].gen⟩ i] else [] }) ∧
      t.src[l].arrivals = s.src[l].arrivals.tail ∧ t.src[l].replies = s.src[l].replies ∧
      (g.kind = 4 →
        t = { s with src := t.src, slots := t.slots, files := t.files, counters := t.counters, dest := t.dest } ∧
        f'.assembly = f.assembly ∧
        t.slots = vmod s.slots i fun _ =>
          if f.receivers = [] then Slot.free else ⟨some l, false, f.receivers.length, g⟩)

/-- R38, R39, R68, R115: the accepted segment that carries LAST, of any of the three kinds, finalises the digest and
takes the file to SETTLING, with a CLOSE behind the last DATA of each unsettled copy; a size that differs from the
declared one logs SIZE_MISMATCH, behind whatever the reading of the segment logged. With no unsettled copy the file
settles at once, freed with enough VERIFIED copies and SHORT, with its FILE_SHORT record, without. That the SIZE_MISMATCH record comes behind the
PARTIAL_FRAME of an unfinished frame is the model's choice (LOG 13), and that a size of 2^48 is carried as it is, too
(LOG 42), and what a released channel keeps of its latched values (LOG 44). R146: an engine that follows the file keeps
its queue, and takes the ended flag; with nothing queued and nothing in processing the follow ends, with a frame still
open. -/
def Obligations.LastSegmentSettles : Prop :=
  ∀ (l : SrcLink) (i : SlotIx) (g : Segment) (c : CardIx) (k : Card) (j : FileIx) (f : FileRec) (s : State),
    DataOf l i g c k j f s → InPlace f g → g.last = true →
    ∀ (size digest : Nat), size = f.nextOffset + g.payload.length →
    digest = (if g.payload = [] then f.sums else f.sums.advance g.payload).finalise.value →
    ∃ t, exec (dataStep l g.kind) s = .next t ∧ t.files[j].gen = s.files[j].gen ∧
      (∀ j' : FileIx, j' ≠ j → t.files[j'] = s.files[j']) ∧
      (∀ d : Dest, t.dest[d].queue = s.dest[d].queue ++
        (if g.payload ≠ [] ∧ (f.copies[d] = .pending ∨ f.copies[d] = .sending) then [.data ⟨j, s.files[j].gen⟩ i]
          else []) ++
        if f.copies[d].unsettled = true then [.close ⟨j, s.files[j].gen⟩ digest size] else []) ∧
      ((∃ d : Dest, f.copies[d].unsettled = true) →
        (∃ f', t.files[j].file = some f' ∧ f'.state = .settling ∧ f'.finalDigest = some digest ∧
          f'.nextOffset = size ∧ f'.copies = f.copies ∧ f'.channel = none ∧ f'.assembly = none) ∧
        (∀ n, f.declared = some n → n ≠ size → s.log.length < 50 → ∃ rs r, t.log = rs ++ [r] ∧ r.cls = .sizeMismatch ∧
          r.severity = .hold ∧ r.label = some k.label ∧ r.file = some f.number ∧ r.values = [n, size] ∧
          ((f.assembly = none ∨ f.assembly.map Assembly.state = some .idle) → g.kind = 4 ∨ g.payload = [] →
            rs = s.log)) ∧
        ((∀ n, f.declared = some n → n = size) → f.assembly = none ∨ f.assembly.map Assembly.state = some .idle →
          g.kind = 4 ∨ g.payload = [] → t.log = s.log)) ∧
      ((∀ d : Dest, f.copies[d].unsettled = false) →
        (f.route.required ≤ f.verifiedCount → t.files[j].file = none) ∧
        (f.verifiedCount < f.route.required → t.files[j].file.map FileRec.state = some .short ∧
          (s.log.length < 50 → ∃ rs r, t.log = rs ++ [r] ∧ SettledShort f k r))) ∧
      (∀ ch : Channel, f.channel = some ch → t.channels[ch] = ChannelRec.initial) ∧
      ∀ e : Engine,
        ((∀ h, s.engines[e].follow = some h → h.tid ≠ ⟨j, s.files[j].gen⟩) → t.engines[e] = s.engines[e]) ∧
        ∀ h, s.engines[e].follow = some h → h.tid = ⟨j, s.files[j].gen⟩ → ∃ more,
          (g.kind ≠ 5 → more = [] ∧ t.engines[e].pendingGap = s.engines[e].pendingGap) ∧
          (s.engines[e].queue ++ more = [] ∧ s.engines[e].proc = none → t.engines[e] = { s.engines[e] with
            queue := [], pendingGap := t.engines[e].pendingGap, follow := none, out := .none_
            sent := s.engines[e].sent ++ brokenEnd s.engines[e].out }) ∧
          (s.engines[e].queue ++ more ≠ [] ∨ s.engines[e].proc ≠ none → t.engines[e] = { s.engines[e] with
            queue := s.engines[e].queue ++ more, pendingGap := t.engines[e].pendingGap
            follow := some { h with ended := true } })

/-- R37: a data segment that does not stand at the offset expected breaks the file: every unsettled copy fails with
SEQUENCE and is withdrawn (R85), with an ABORT where its OPEN was sent (R81) and the entries of other files in their
places, the file goes SHORT, a follow of it ends, with its waiting entries discarded and counted (R146), and a SEQUENCE
record, severity HOLD, holds the two offsets. That a released channel is as after power-on (LOG 44), and that the record
may hold an expected offset of 2^48 (LOG 42), are the model's choice. -/
def Obligations.SequenceBreaks : Prop :=
  ∀ (l : SrcLink) (i : SlotIx) (g : Segment) (c : CardIx) (k : Card) (j : FileIx) (f : FileRec) (s : State),
    DataOf l i g c k j f s → ¬ InPlace f g →
    ∃ t, exec (dataStep l g.kind) s = .next t ∧ Breaks l k j f g.offset s t

/-! ### Preview frames and metadata (chapter 6) -/

/-- R110, R111, R112, R113, R119: where a PREVIEW segment of a PICTURE file stands in its frame: the frame assembly state
after it, for every row of R111; a frame that its segment completes, as its first or as its last one, has its digest
taken by the file's channel (R158) and its metadata from the store; a frame that a greater frame number closes is logged
as PARTIAL_FRAME with its first cause, or INCOMPLETE. That a BROKEN frame keeps its digest state and its next line,
unused, is the model's choice (LOG 38), and that a frame which begins broken removes the lower records of the store, too
(LOG 28). -/
def Obligations.PreviewPlaced : Prop :=
  ∀ (l : SrcLink) (i : SlotIx) (g : Segment) (c : CardIx) (k : Card) (j : FileIx) (f : FileRec) (a : Assembly)
    (m : FormatEntry) (s : State),
    DataOf l i g c k j f s → g.kind = 5 → InPlace f g → g.payload ≠ [] → g.last = false → f.assembly = some a →
    a.format = some m → m.valid = true → m.packing ≠ .none_ →
    ∀ r : Option MetaRec, r = a.store.find? (fun x => x.frame == g.frame) →
    ∃ t b, exec (.preview l) s = .next t ∧ t.files[j].file.bind FileRec.assembly = some b ∧ b.format = some m ∧
      (a.greater g.frame = true → g.firstLine = 0 → shapeOk m g = true → g.lineCount < m.height →
        b.state = .building ∧ b.lastFrame = some g.frame ∧ b.nextLine = g.lineCount ∧
        b.digest = some (Sums.initial.advance g.payload) ∧
        (a.state = .idle → b.store = a.store.filter fun r => decide (g.frame ≤ r.frame))) ∧
      (a.greater g.frame = true → g.firstLine = 0 → shapeOk m g = true → g.lineCount = m.height →
        b.state = .idle ∧ b.lastFrame = some g.frame ∧ b.digest = none ∧
        (a.state = .idle → b.prevTimecode = timecodeAfter a r ∧ b.prevCounter = counterAfter a r ∧
          b.store = a.store.filter fun r => decide (g.frame < r.frame)) ∧
        ∀ ch : Channel, f.channel = some ch → t.channels[ch].frame = none ∧
          t.channels[ch].prevDigest = some (Sums.initial.advance g.payload).finalise.value ∧
          t.channels[ch].evaluated = (s.channels[ch].evaluated + 1) % 2 ^ 32) ∧
      (a.greater g.frame = true → g.firstLine ≠ 0 ∨ shapeOk m g = false →
        b.state = .broken (if shapeOk m g = true then .line else .shape) ∧ b.lastFrame = some g.frame) ∧
      (a.state = .building → a.lastFrame = some g.frame → g.firstLine = a.nextLine → shapeOk m g = true →
        g.firstLine + g.lineCount < m.height →
        b = { a with
          nextLine := g.firstLine + g.lineCount, digest := a.digest.map fun d => d.advance g.payload }) ∧
      (a.state = .building → a.lastFrame = some g.frame → g.firstLine = a.nextLine → shapeOk m g = true →
        g.firstLine + g.lineCount = m.height →
        b = { a with
          state := .idle, nextLine := m.height, digest := none
          store := a.store.filter fun r => r.frame != g.frame
          prevTimecode := timecodeAfter a r, prevCounter := counterAfter a r } ∧
        ∀ ch : Channel, f.channel = some ch → t.channels[ch].frame = none ∧
          (∀ d, a.digest = some d →
            t.channels[ch].prevDigest = some (d.advance g.payload).finalise.value) ∧
          t.channels[ch].evaluated = (s.channels[ch].evaluated + 1) % 2 ^ 32) ∧
      (a.state = .building → a.lastFrame = some g.frame → g.firstLine ≠ a.nextLine ∨ shapeOk m g = false →
        b = { a with state := .broken (if shapeOk m g = true then .line else .shape) }) ∧
      (∀ n, a.state = .building → a.lastFrame = some n → g.frame < n → b = { a with state := .broken .order }) ∧
      (∀ x, a.state = .broken x → a.greater g.frame = false → b = a) ∧
      (a.state = .idle → a.greater g.frame = false → b = a ∧
        (s.log.length < 64 → ∃ r, t.log = s.log ++ [r] ∧ r.cls = .partialFrame ∧ r.severity = .warn ∧
          r.label = some k.label ∧ r.file = some f.number ∧ r.frames = some ⟨g.frame, g.frame⟩ ∧
          r.code = some (.partialFrame .order))) ∧
      (∀ n cause, a.lastFrame = some n → n < g.frame →
        (a.state = .building ∧ cause = .incomplete) ∨ a.state = .broken cause →
        (∀ ch : Channel, f.channel = some ch → g.firstLine ≠ 0 ∨ shapeOk m g = false → t.channels[ch].frame = none) ∧
        (f.channel = none ∨ ¬ (g.firstLine = 0 ∧ shapeOk m g = true ∧ g.lineCount = m.height) → s.log.length < 64 →
          ∃ r, t.log = s.log ++ [r] ∧ r.cls = .partialFrame ∧ r.severity = .warn ∧ r.label = some k.label ∧
            r.file = some f.number ∧ r.frames = some ⟨n, n⟩ ∧ r.code = some (.partialFrame cause)))

/-- R155, R156, R158, R159: the picture measurements of a channel. The segment that begins a frame starts a frame in
progress with empty accumulators and the file's look; each parsed segment adds what its pixels count. The one that
completes the frame is the evaluation: CLIP, BLACK and RANGE are the counts, LUMA the sum divided by 4096 P, FROZEN
compares the frame's digest with the previous one, and the metadata of the frame measure as R119 says; each probe takes
its measurement (R161 to R164) and makes its report (R165 to R167), the frames evaluated count increments, the digest
becomes the previous one, and one FRAMES_INSPECTED event is counted. -/
def Obligations.PictureMeasured : Prop :=
  ∀ (l : SrcLink) (i : SlotIx) (g : Segment) (c : CardIx) (k : Card) (j : FileIx) (f : FileRec) (a : Assembly)
    (m : FormatEntry) (ch : Channel) (u : ChannelRec) (before after : FrameProgress) (sums : Sums) (digest : Nat) (s : State),
    DataOf l i g c k j f s → g.kind = 5 → InPlace f g → g.payload ≠ [] → g.last = false → f.assembly = some a →
    a.format = some m → m.valid = true → m.packing ≠ .none_ → f.channel = some ch → u = s.channels[ch] →
    shapeOk m g = true →
    (a.greater g.frame = true ∧ g.firstLine = 0 ∧ (a.state = .idle ∨ a.lastFrame ≠ none) ∧
      before = ⟨g.frame, s.looks[f.route.look], 0, 0, 0, 0, 0⟩ ∧ sums = Sums.initial) ∨
    (a.state = .building ∧ a.lastFrame = some g.frame ∧ g.firstLine = a.nextLine ∧ u.frame = some before ∧
      a.digest = some sums) →
    after = before.gathered u.clipCode u.blackCode g.lineCount (pixelsOf m.packing g.payload) →
    digest = (sums.advance g.payload).finalise.value →
    ∃ t, exec (.preview l) s = .next t ∧ (∀ ch' : Channel, ch' ≠ ch → t.channels[ch'] = s.channels[ch']) ∧
      (g.firstLine + g.lineCount < m.height → t.channels[ch] = { u with frame := some after }) ∧
      (g.firstLine + g.lineCount = m.height →
        t.channels[ch] = { u with
          frame := none, prevDigest := some digest, evaluated := (u.evaluated + 1) % 2 ^ 32
          probeStates := t.channels[ch].probeStates } ∧
        (∀ (r : Option MetaRec) (measure : Source → Option Nat), r = a.store.find? (fun x => x.frame == g.frame) →
          measure = (fun source => match source with
            | .clip => some after.clip
            | .black => some after.black
            | .luma => some (after.lumaSum / (4096 * (u.width * u.height)))
            | .range => some after.range
            | .frozen => some (if u.prevDigest = some digest then 1 else 0)
            | .tcInvalid => r.bind fun x => x.timecode.measureInvalid
            | .tcBreak => r.bind fun x => x.timecode.measureBreak a.prevTimecode m.rate
            | .countGap => r.bind fun x => x.counter.map fun n => countGap n a.prevCounter) →
          ProbesTook ch measure s t ∧
            (a.state = .idle ∨ a.lastFrame = some g.frame → ProbesReported ch measure g.frame s t)) ∧
        ((∀ (e : Engine) (h : Follow), s.engines[e].follow = some h → h.tid ≠ ⟨j, s.files[j].gen⟩) →
          (∀ d : Dest, t.dest[d].stall = s.dest[d].stall) →
          t.counters = s.counters.map fun p => p.take .framesInspected (.link l) 1))

/-- R133, R134: a PREVIEW segment of a PICTURE file is offered to each engine that follows the file. A queue of fewer
than 8 entries takes it, with its placement (R111), its complete mark and the pending gap, which is then clear, and its
slot counts the entry (R56). A full queue skips it: a review skip and a REVIEW_SKIPS event are counted, and the pending
gap is set. An engine that does not follow the file does not change. -/
def Obligations.PreviewOffered : Prop :=
  ∀ (l : SrcLink) (i : SlotIx) (g : Segment) (c : CardIx) (k : Card) (j : FileIx) (f : FileRec) (a : Assembly)
    (m : FormatEntry) (s : State),
    DataOf l i g c k j f s → g.kind = 5 → InPlace f g → g.payload ≠ [] → g.last = false → f.assembly = some a →
    a.format = some m → m.valid = true → m.packing ≠ .none_ →
    ∀ follows full : Engine → Bool,
    (∀ e, follows e = true ↔ ∃ h, s.engines[e].follow = some h ∧ h.tid = ⟨j, s.files[j].gen⟩) →
    (∀ e, full e = true ↔ 8 ≤ s.engines[e].queue.length) →
    ∃ t, exec (.preview l) s = .next t ∧
      (∀ e : Engine, t.engines[e] =
        if follows e = true then
          if full e = true then { s.engines[e] with pendingGap := true }
          else { s.engines[e] with
            pendingGap := false
            queue := s.engines[e].queue ++ [⟨i, g.frame, g.firstLine, g.lineCount, placementOf a m g,
              placementOf a m g != .misfit && g.firstLine + g.lineCount == m.height, s.engines[e].pendingGap⟩] }
        else s.engines[e]) ∧
      (∀ n, n = f.receivers.length + ((List.finRange 2).filter fun e => follows e && !full e).length →
        t.slots = vmod s.slots i fun _ => if n = 0 then Slot.free else ⟨some l, false, n, g⟩) ∧
      t.loss.skipsV0 = (if (follows 0 && full 0) = true then oneMore s.loss.skipsV0 else s.loss.skipsV0) ∧
      t.loss.skipsV1 = (if (follows 1 && full 1) = true then oneMore s.loss.skipsV1 else s.loss.skipsV1) ∧
      (f.channel = none → (∀ d : Dest, t.dest[d].stall = s.dest[d].stall) → ∀ count : Engine → CounterPair → CounterPair,
        count = (fun e p => if (follows e && full e) = true then p.take .reviewSkips (.link l) 1 else p) →
        t.counters = s.counters.map fun p => count 1 (count 0 p))

/-- R116, R118, R120: a META segment of a PICTURE or META_ONLY file. A payload of another length than the record length
logs META_PARSE, severity WARN, and takes the frame's record out of a PICTURE file's store. A decoded record of a PICTURE
file joins the store, which holds the highest four frame numbers in ascending order, unless it comes too late for its
frame. One of a META_ONLY file is an evaluation at once, with the measurements of R119: the previous values are updated,
one FRAMES_INSPECTED event is counted for a channel, and each probe of it that reads an available measurement is
evaluated. Where the file's parsing mode is NONE nothing of this happens (R106). The engines never see a META segment. -/
def Obligations.MetaTaken : Prop :=
  ∀ (l : SrcLink) (i : SlotIx) (g : Segment) (c : CardIx) (k : Card) (j : FileIx) (f : FileRec) (a : Assembly)
    (s : State),
    DataOf l i g c k j f s → g.kind = 6 → InPlace f g → g.payload ≠ [] → g.last = false → f.assembly = some a →
    ∃ t b, exec (.metaRecord l) s = .next t ∧ t.files[j].file.bind FileRec.assembly = some b ∧ t.engines = s.engines ∧
      (a.format = none ∨ (a.format.map FormatEntry.valid) = some false →
        b = a ∧ t.log = s.log ∧ t.channels = s.channels) ∧
      ∀ m : FormatEntry, a.format = some m → m.valid = true →
        (g.payload.length ≠ m.recordLength → t.channels = s.channels ∧
          b = (if m.packing = .none_ then a else { a with store := a.store.filter fun x => x.frame != g.frame }) ∧
          (s.log.length < 64 → ∃ r, t.log = s.log ++ [r] ∧ r.cls = .metaParse ∧ r.severity = .warn ∧
            r.label = some k.label ∧ r.file = some f.number ∧ r.frames = some ⟨g.frame, g.frame⟩)) ∧
        (g.payload.length = m.recordLength → ∀ r : MetaRec,
          r = ⟨g.frame, m.timecodeOffset.elim .absent fun o => decodeTimecode m.rate ((g.payload.drop o).take 4),
            m.counterOffset.map fun o => leNat ((g.payload.drop o).take 4)⟩ →
          (m.packing ≠ .none_ → t.log = s.log ∧ t.channels = s.channels ∧
            ((∃ n, a.lastFrame = some n ∧ (g.frame < n ∨ g.frame = n ∧ a.state = .idle)) → b = a) ∧
            ((∀ n, a.lastFrame = some n → n < g.frame ∨ g.frame = n ∧ a.state ≠ .idle) →
              a.store.Pairwise (fun x y => x.frame < y.frame) → ∀ full : List MetaRec,
              full = (a.store.filter fun x => decide (x.frame < g.frame)) ++
                r :: a.store.filter (fun x => decide (g.frame < x.frame)) →
              b = { a with store := if 4 < full.length then full.tail else full })) ∧
          (m.packing = .none_ →
            b = { a with prevTimecode := timecodeAfter a (some r), prevCounter := counterAfter a (some r) } ∧
            (f.channel = none → t.log = s.log ∧ t.channels = s.channels) ∧
            ∀ ch : Channel, f.channel = some ch →
              (∀ ch' : Channel, ch' ≠ ch → t.channels[ch'] = s.channels[ch']) ∧
              t.channels[ch].evaluated = (s.channels[ch].evaluated + 1) % 2 ^ 32 ∧
              t.channels[ch].prevDigest = s.channels[ch].prevDigest ∧
              ((∀ d : Dest, t.dest[d].stall = s.dest[d].stall) →
                t.counters = s.counters.map fun p => p.take .framesInspected (.link l) 1) ∧
              ∀ (p : Fin 8) (q : LatchedProbe) (v : Option Nat), q = s.channels[ch].probes[p] →
                v = (match q.source with
                  | .tcInvalid => r.timecode.measureInvalid
                  | .tcBreak => r.timecode.measureBreak a.prevTimecode m.rate
                  | .countGap => r.counter.map fun n => countGap n a.prevCounter
                  | _ => none) →
                (q.enabled = false ∨ v = none → t.channels[ch].probeStates[p] = s.channels[ch].probeStates[p]) ∧
                ∀ n, q.enabled = true → v = some n →
                  t.channels[ch].probeStates[p].asserted = (q.next s.channels[ch].probeStates[p] n).1.asserted ∧
                  t.channels[ch].probeStates[p].run = (q.next s.channels[ch].probeStates[p] n).1.run))

/-! ### Look engines (chapter 7) -/

/-- R135, R136, R137, R138: at the start of a BEGIN entry the engine latches the working look and opens an output frame,
an open one ending with the broken mark first (R140); the frame-start marker names the output (R141). A CONTINUE entry of
the open output frame is graded in it, which goes BROKEN where the gap flag stands, and stays BROKEN. Every other entry
is passed over: without an output frame nothing else happens; an output frame of another frame number ends with the
broken mark; and a MISFIT of the open output frame's number makes it BROKEN. A passed-over entry leaves the queue at
once, and the follow ends where it has the ended flag and the queue is then empty (R146). With nothing to start, nothing
changes: the model's choice (LOG 1), as is that an engine without a follow starts nothing (LOG 33). -/
def Obligations.EntryStartsFrame : Prop :=
  ∀ (e : Engine) (s : State), s.resetLow = false →
    (s.engines[e].proc ≠ none ∨ s.engines[e].queue = [] ∨ s.engines[e].follow = none →
      exec (.entryStart e) s = .next s) ∧
    ∀ item rest f, s.engines[e].proc = none → s.engines[e].queue = item :: rest → s.engines[e].follow = some f →
      (item.placement = .begin →
        exec (.entryStart e) s = .next { s with engines := vmod s.engines e fun g => { g with
          working := some ⟨f.look, s.looks[f.look]⟩
          proc := some ⟨f.width, f.packing, 0⟩
          out := .opened item.frame 0
          sent := g.sent ++ (match g.out with
            | .none_ => []
            | .opened n k => [.frameEnd n k true]
            | .broken n k => [.frameEnd n k true]) ++
            [.frameStart e f.label f.file f.tid item.frame f.width f.height f.look] } }) ∧
      (∀ k, item.placement = .continue_ → s.engines[e].out = .opened item.frame k →
        exec (.entryStart e) s = .next { s with engines := vmod s.engines e fun g => { g with
          proc := some ⟨f.width, f.packing, 0⟩
          out := if item.gap = true then .broken item.frame k else .opened item.frame k } }) ∧
      (∀ k, item.placement = .continue_ → s.engines[e].out = .broken item.frame k →
        exec (.entryStart e) s = .next { s with engines := vmod s.engines e fun g => { g with
          proc := some ⟨f.width, f.packing, 0⟩ } }) ∧
      ∀ (m : SrcLink) (closes : Bool), s.slots[item.slot].owner = some m →
        (closes = true ↔ f.ended = true ∧ rest = []) → item.placement ≠ .begin →
        (s.engines[e].out = .none_ →
          ∃ t, exec (.entryStart e) s = .next t ∧ t = { s with src := t.src, slots := t.slots, engines := t.engines } ∧
            LostRef item.slot m s t ∧
            t.engines = vmod s.engines e fun g => { g with queue := rest, follow := if closes = true then none else some f }) ∧
        (∀ n k, s.engines[e].out = .opened n k ∨ s.engines[e].out = .broken n k → n ≠ item.frame →
          ∃ t, exec (.entryStart e) s = .next t ∧ t = { s with src := t.src, slots := t.slots, engines := t.engines } ∧
            LostRef item.slot m s t ∧
            t.engines = vmod s.engines e fun g => { g with
              queue := rest, follow := if closes = true then none else some f, out := .none_
              sent := g.sent ++ [.frameEnd n k true] }) ∧
        ∀ k, item.placement = .misfit →
          s.engines[e].out = .opened item.frame k ∨ s.engines[e].out = .broken item.frame k →
          ∃ t, exec (.entryStart e) s = .next t ∧ t = { s with src := t.src, slots := t.slots, engines := t.engines } ∧
            LostRef item.slot m s t ∧
            t.engines = vmod s.engines e fun g => { g with
              queue := rest, follow := if closes = true then none else some f
              out := if closes = true then .none_ else .broken item.frame k
              sent := g.sent ++ if closes = true then [.frameEnd item.frame k true] else [] }

/-- R136, R139, R140, R141, R131: the completion of an entry of the output frame hands over its graded lines in order,
the sticky flags gather what its pixels showed, the entry leaves the queue and its slot loses a reference. A
complete-marked entry ends the output frame, clean while it is OPEN and with the broken mark while it is OPEN_BROKEN;
else it ends with the broken mark where a change of follow waits for the completion (R145) or where the follow ends here
(R146), and stays as it is otherwise. -/
def Obligations.EntryCompletes : Prop :=
  ∀ (e : Engine) (item : LookItem) (rest : List LookItem) (p : Processing) (w : WorkingLook) (follow : Option Follow)
    (n k : Nat) (broken changed : Bool) (m : SrcLink) (pixels : List Pixel) (closes : Bool) (s : State),
    s.resetLow = false →
    s.engines[e].queue = item :: rest → s.engines[e].proc = some p → p.graded = 0 → 0 < p.width →
    s.engines[e].working = some w → s.engines[e].follow = follow →
    s.engines[e].out = (if broken = true then .broken n k else .opened n k) →
    s.engines[e].closeAfter = changed → s.slots[item.slot].owner = some m →
    (closes = true ↔ (∃ f, follow = some f ∧ f.ended = true) ∧ rest = []) →
    pixels = (pixelsOf p.packing s.slots[item.slot].seg.payload).take (item.lineCount * p.width) →
    ∃ t, exec (.entryCompletion e) s = .next t ∧
      t = { s with src := t.src, slots := t.slots, engines := t.engines } ∧ LostRef item.slot m s t ∧
      t.engines = vmod s.engines e fun g => { g with
        queue := rest, proc := none, closeAfter := false
        flagInexact := g.flagInexact || pixels.any fun x => (w.look.grade x).2.inexact
        flagOver := g.flagOver || pixels.any fun x => (w.look.grade x).2.tooHigh
        flagUnder := g.flagUnder || pixels.any fun x => (w.look.grade x).2.tooLow
        follow := if closes = true then none else follow
        out :=
          if item.complete = true ∨ changed = true ∨ closes = true then .none_
          else if broken = true then .broken n (k + item.lineCount) else .opened n (k + item.lineCount)
        sent := g.sent ++ ((List.range item.lineCount).map fun a =>
            .line (item.firstLine + a)
              ((((pixelsOf p.packing s.slots[item.slot].seg.payload).map fun x => (w.look.grade x).1).drop
                (a * p.width)).take p.width)) ++
          if item.complete = true then [.frameEnd n (k + item.lineCount) broken]
          else if changed = true ∨ closes = true then [.frameEnd n (k + item.lineCount) true] else [] }

/-- R142, R145, R202: a REVIEW SELECT stores the selection and chooses the file to follow under it: among the STREAMING
files of PICTURE mode that it can choose, the one with the highest open stamp, or none. A choice of the file already
followed leaves the follow as it is; another choice, or none, changes it: each entry that waits is discarded and counted
as a review skip, the pending gap flag is cleared, and an open output frame ends broken, at once or at the completion of
the entry in processing. The reply reports the follow. -/
def Obligations.ReviewSelected : Prop :=
  ∀ (l : SrcLink) (i : SlotIx) (g : Segment) (e : Engine) (sel : Selection) (new : Option Follow) (s : State),
    Serves l i g s → g.command = 13 → (reviewShape g.payload).passes → fieldAt g.payload 0 1 = e.val →
    (fieldAt g.payload 1 1 = 0 ∧ sel = .off) ∨
      (fieldAt g.payload 1 1 = 1 ∧ sel = .follow (BitVec.ofNat 4 (fieldAt g.payload 2 1))) ∨
      (fieldAt g.payload 1 1 = 2 ∧ sel = .pin (bytesAt g.payload 5 (fieldAt g.payload 4 1)) (fieldAt g.payload 24 4)) →
    Chosen sel new s →
    ∃ t, exec (.reviewSelect l) s = .next t ∧
      t = { s with src := t.src, slots := t.slots, engines := t.engines, loss := t.loss, counters := t.counters } ∧
      RepliedToo l g .done (followBytes t.engines[e].follow) s t ∧
      (∀ e' : Engine, e' ≠ e → t.engines[e'] = s.engines[e']) ∧
      (new.map Follow.tid = s.engines[e].follow.map Follow.tid →
        t.engines[e] = { s.engines[e] with selection := sel } ∧ t.loss = s.loss ∧ t.counters = s.counters) ∧
      (new.map Follow.tid ≠ s.engines[e].follow.map Follow.tid →
        t.engines[e] = { s.engines[e] with selection := sel }.changed new ∧
        Skipped (fun e' => if e' = e then s.engines[e].waiting else []) s t)

/-! ### Destinations (chapter 5) -/

/-- R75, R87, R92: a partner detected is recorded and a DOWN link trains; a loss of alignment takes an UP link to
RETRAINING with its retrain timer at the configured limit and its transmission ended nullified, and a QUARANTINED link
out of alignment; a partner lost does the same, and takes a TRAINING link DOWN. Elsewhere a loss changes nothing. R76,
R88: the credit announcement of a partner records its limit, sets the credits in use to zero and brings a TRAINING or
RETRAINING link UP; on a QUARANTINED link that is not aligned it is the alignment (by the link state alone: LOG 27). One
that is not in form is discarded (R218). That the aligned flag changes in QUARANTINED alone (LOG 16), and that a HALT once
marked as not sent again leaves the queue (LOG 46), are the model's choice. -/
def Obligations.DestLinkEvents : Prop :=
  (∀ (d : Dest) (s : State), s.resetLow = false →
    exec (.destPartnerDetected d) s = .next { s with dest := vmod s.dest d fun p => { p with
      partner := true, state := if p.state = .down then .training else p.state } } ∧
    (s.dest[d].state = .down ∨ s.dest[d].state = .training ∨ s.dest[d].state = .retraining →
      exec (.destLossOfAlignment d) s = .next s ∧
      exec (.destPartnerLost d) s = .next { s with dest := vmod s.dest d fun p => { p with
        partner := false, state := if p.state = .training then .down else p.state } }) ∧
    ∀ (c : Instr) (partner : Bool), (c = .destLossOfAlignment d ∧ partner = s.dest[d].partner) ∨
        (c = .destPartnerLost d ∧ partner = false) →
      (s.dest[d].state = .up → ∃ t, exec c s = .next t ∧
        t = { s with src := t.src, slots := t.slots, dest := t.dest } ∧
        (s.dest[d].tx.any DestTx.noResend = false → t.src = s.src ∧ t.slots = s.slots) ∧
        t.dest = vmod s.dest d fun p => { p.cut with
          state := .retraining, retrain := some s.destConfig[d].retrainLimit, partner := partner }) ∧
      (s.dest[d].state = .quarantined → ∃ t, exec c s = .next t ∧
        t = { s with src := t.src, slots := t.slots, dest := t.dest } ∧
        (s.dest[d].tx.any DestTx.noResend = false → t.src = s.src ∧ t.slots = s.slots) ∧
        t.dest = vmod s.dest d fun p => { p.cut with
          aligned := false, limit := .absent, inUse := 0, partner := partner })) ∧
  ∀ (d : Dest) (wire : Bytes) (m : InMessage) (s : State), s.resetLow = false → InMessage.ofBytes wire = some m →
    m.type = 3 →
    (m.numberOk = true → s.dest[d].state = .training ∨ s.dest[d].state = .retraining →
      exec (.announce d wire) s = .next { s with dest := vmod s.dest d fun p => { p with
        state := .up, limit := if m.number = 0 then .unlimited else .number m.number, inUse := 0, stall := false
        retrain := if p.state = .retraining then none else p.retrain } }) ∧
    (m.numberOk = true → s.dest[d].state = .quarantined → s.dest[d].aligned = false →
      exec (.announce d wire) s = .next { s with dest := vmod s.dest d fun p => { p with
        aligned := true, limit := if m.number = 0 then .unlimited else .number m.number, inUse := 0
        stall := false } }) ∧
    (m.numberOk = false → exec (.announce d wire) s = .next s)

/-- R89, R75: the expiry of the retrain timer empties the queue, forgets limit, timers and the open transfer set, fails
every unsettled copy on the destination with LINK, each with a COPY_FAILED record, and logs DEST_DOWN, severity WARN; the
link goes DOWN, and trains where a partner is present. No other destination changes, and no other copy. That the aligned
flag stays as it is is the model's choice (LOG 16). -/
def Obligations.RetrainExpiryGoesDown : Prop :=
  ∀ (d : Dest) (s : State), s.resetLow = false → s.dest[d].retrain ≠ none →
    ∃ t, exec (.retrainTimerExpiry d) s = .next t ∧
      t.dest = (vmod s.dest d fun p => { p with
        state := if p.partner = true then .training else .down
        limit := .absent, inUse := 0, stall := false, queue := [], tx := none, retrain := none, timers := []
        openSet := [] }) ∧
      FailedAll d .link .destDown none s t

/-- R77, R79, R82, R92, R218: the head entry of an UP destination starts where a credit is free, or none is needed: it
takes the credit, and the message is the one R218 lays out. With every credit in use the stall flag is set and one
CREDIT_STALL event counted. A QUARANTINED destination that is aligned starts a HALT and nothing else. In the other
states, with an empty queue and during a transmission nothing starts: that a start then has no effect is the model's
choice (LOG 1). -/
def Obligations.TransmissionStarts : Prop :=
  ∀ (d : Dest) (s : State), s.resetLow = false →
    (s.dest[d].queue = [] ∨ s.dest[d].tx ≠ none ∨ s.dest[d].state = .down ∨ s.dest[d].state = .training ∨
        s.dest[d].state = .retraining → exec (.destTransmissionStart d) s = .next s) ∧
    ∀ (e : QEntry) (rest : List QEntry), s.dest[d].tx = none → s.dest[d].queue = e :: rest →
    (s.dest[d].state = .up → (e = .halt ∨ s.dest[d].limit = .unlimited →
      exec (.destTransmissionStart d) s = .next { s with dest := vmod s.dest d fun p => { p with
        tx := some ⟨false, e.message s⟩, stall := false } }) ∧
    (∀ n, e ≠ .halt → s.dest[d].limit = .number n → s.dest[d].inUse < n →
      exec (.destTransmissionStart d) s = .next { s with dest := vmod s.dest d fun p => { p with
        inUse := p.inUse + 1, tx := some ⟨false, e.message s⟩, stall := false } }) ∧
    (e ≠ .halt → s.dest[d].limit = .number s.dest[d].inUse → s.dest[d].stall = false →
      exec (.destTransmissionStart d) s = .next { s with
        dest := vmod s.dest d fun p => { p with stall := true }
        counters := s.counters.map fun p => p.take .creditStall (.dest d) 1 }) ∧
    (e ≠ .halt → s.dest[d].limit = .number s.dest[d].inUse → s.dest[d].stall = true →
      exec (.destTransmissionStart d) s = .next s)) ∧
    (s.dest[d].state = .quarantined → (e = .halt → s.dest[d].aligned = true →
      exec (.destTransmissionStart d) s = .next { s with dest := vmod s.dest d fun p => { p with
        tx := some ⟨false, [4, 0, 0, 0, 0, 0, 0, 0]⟩, stall := false } }) ∧
      (e ≠ .halt ∨ s.dest[d].aligned = false → exec (.destTransmissionStart d) s = .next s)) ∧
    (∀ tid label file name size, e = .openMsg tid label file name size → e.message s = [0, 0, 96, 0] ++
      (le 2 tid.index.val ++ le 1 tid.gen.toNat ++ [0]) ++ (le 1 label.length ++ padTo 16 label) ++
      [if size = none then 0 else 1] ++ le 4 file ++ le 8 (size.getD 0) ++ [if name = none then 0 else 1] ++
      le 1 (name.getD []).length ++ padTo 64 (name.getD [])) ∧
    (∀ tid i, e = .data tid i → e.message s = [1, 0] ++ le 2 (8 + s.slots[i].seg.payload.length) ++
      (le 2 tid.index.val ++ le 1 tid.gen.toNat ++ [0]) ++ le 8 s.slots[i].seg.offset ++ s.slots[i].seg.payload) ∧
    (∀ tid digest size, e = .close tid digest size → e.message s = [2, 0, 16, 0] ++
      (le 2 tid.index.val ++ le 1 tid.gen.toNat ++ [0]) ++ le 8 digest ++ le 8 size) ∧
    (∀ tid, e = .abort tid → e.message s = [3, 0, 0, 0] ++ (le 2 tid.index.val ++ le 1 tid.gen.toNat ++ [0])) ∧
    (e = .halt → e.message s = [4, 0, 0, 0, 0, 0, 0, 0])

/-- R83, R84, R96: at the good end of a transmission its entry leaves the queue. An OPEN joins the open transfer set, and
its PENDING copy is SENDING; a DATA counts one SEG_OUT and releases its slot; a CLOSE takes its SENDING copy to CLOSED
and starts the verify timer; an ABORT leaves the set, and a HALT empties it. -/
def Obligations.TransmissionEnds : Prop :=
  ∀ (d : Dest) (e : QEntry) (rest : List QEntry) (x : DestTx) (s : State), s.resetLow = false →
    s.dest[d].tx = some x → s.dest[d].queue = e :: rest →
    ∃ t, exec (.destTransmissionEndGood d) s = .next t ∧
      t = { s with src := t.src, slots := t.slots, files := t.files, counters := t.counters, dest := t.dest } ∧
      t.dest = (vmod s.dest d fun p => { p with
        tx := none, queue := rest, stall := t.dest[d].stall, timers := t.dest[d].timers
        openSet := t.dest[d].openSet }) ∧
      (∀ tid label number name size, e = .openMsg tid label number name size →
        t.dest[d].openSet = insertTid tid s.dest[d].openSet ∧ t.dest[d].timers = s.dest[d].timers ∧
        (∀ f, s.files[tid.index] = ⟨tid.gen, some f⟩ → f.copies[d] = .pending →
          t.files = vmod s.files tid.index fun p =>
            { p with file := some { f with copies := vmod f.copies d fun _ => .sending } }) ∧
        ((∀ f, s.files[tid.index] = ⟨tid.gen, some f⟩ → f.copies[d] ≠ .pending) → t.files = s.files)) ∧
      (∀ tid i, e = .data tid i → t.files = s.files ∧ t.dest[d].openSet = s.dest[d].openSet ∧
        t.dest[d].timers = s.dest[d].timers ∧ (∀ m, s.slots[i].owner = some m → LostRef i m s t) ∧
        (t.dest[d].stall = s.dest[d].stall → t.counters = s.counters.map fun p => p.take .segOut (.dest d) 1)) ∧
      (∀ tid digest size, e = .close tid digest size → t.dest[d].openSet = s.dest[d].openSet ∧
        (∀ f, s.files[tid.index] = ⟨tid.gen, some f⟩ → f.copies[d] = .sending →
          t.dest[d].timers = s.dest[d].timers ++ [⟨tid.index, s.destConfig[d].verifyTimeout⟩] ∧
          t.files = vmod s.files tid.index fun p =>
            { p with file := some { f with copies := vmod f.copies d fun _ => .closed } }) ∧
        ((∀ f, s.files[tid.index] = ⟨tid.gen, some f⟩ → f.copies[d] ≠ .sending) →
          t.files = s.files ∧ t.dest[d].timers = s.dest[d].timers)) ∧
      (∀ tid, e = .abort tid → t.files = s.files ∧ t.dest[d].timers = s.dest[d].timers ∧
        t.dest[d].openSet = s.dest[d].openSet.filter fun u => u.index != tid.index) ∧
      (e = .halt → t.files = s.files ∧ t.dest[d].timers = s.dest[d].timers ∧ t.dest[d].openSet = [])

/-- R98, R39, R40: a VERIFY that names a CLOSED copy and carries the final digest proves it: the copy is VERIFIED, its
timer cancelled, the failure count zero, and one VERIFY_OK counted. When it was the last unsettled copy of a SETTLING
file, the file settles. With enough VERIFIED copies it is freed behind its manifest, the card's files completed count
increments and its verdict is R24's; with too few it goes SHORT, and a FILE_SHORT record, severity HOLD, holds both counts
(R176). That a size of 2^48 shows as 0 in the manifest's bytes is the model's choice (LOG 42). -/
def Obligations.VerifyProves : Prop :=
  ∀ (d : Dest) (wire : Bytes) (m : InMessage) (j : FileIx) (f f' : FileRec) (s : State), s.resetLow = false →
    InMessage.ofBytes wire = some m → m.type = 1 → m.verifyOk = true → s.dest[d].carries = true → m.index = j.val →
    s.files[j] = ⟨m.gen, some f⟩ → f.copies[d] = .closed → f.finalDigest = some (leNat m.body) →
    f' = { f with copies := vmod f.copies d fun _ => .verified } →
    ∃ t u, exec (.verify d wire) s = .next t ∧
      u = { s with
        dest := vmod s.dest d fun p => { p with
          timers := p.timers.filter fun v => v.file != j
          failures := 0, openSet := p.openSet.filter fun u => u != ⟨j, m.gen⟩ }
        files := vmod s.files j fun p => { p with file := some f' }
        counters := s.counters.map fun p => p.take .verifyOk (.dest d) 1 } ∧
      Settles j f' u t

/-- R98, R99, R93, R28: a VERIFY with another digest fails a CLOSED copy with MISMATCH, and the expiry of its verify
timer with TIMEOUT: its timer is cancelled, a COPY_FAILED record logged, severity WARN, with its notice, the failure
counted and one VERIFY_FAIL event with it. When it was the last unsettled copy of a SETTLING file, the file settles: SHORT,
with its FILE_SHORT record, or, where the other copies are enough, freed behind its manifest (R39, R40, R176). A failure
that reaches the threshold then quarantines the destination (R91). That the file settles before the quarantine (LOG 14),
that a size of 2^48 shows as 0 in the manifest's bytes (LOG 42), and that a HALT in transmission at the quarantine is not
sent again (LOG 46), are the model's choice. -/
def Obligations.VerifyFails : Prop :=
  ∀ (d : Dest) (wire : Bytes) (m : InMessage) (j : FileIx) (f f' : FileRec) (c : Instr) (r : FailReason) (s : State),
    s.resetLow = false → s.files[j].file = some f → f.copies[d] = .closed →
    (c = .verify d wire ∧ r = .mismatch ∧ InMessage.ofBytes wire = some m ∧ m.type = 1 ∧ m.verifyOk = true ∧
      s.dest[d].carries = true ∧ m.index = j.val ∧ s.files[j].gen = m.gen ∧ f.finalDigest ≠ some (leNat m.body)) ∨
    (c = .verifyTimerExpiry d j ∧ r = .timeout ∧ ∃ v ∈ s.dest[d].timers, v.file = j) →
    f' = { f with copies := vmod f.copies d fun _ => .failed r } →
    ∃ t u v, exec c s = .next t ∧
      u = { s with
        cards := u.cards, log := u.log, keyCounter := u.keyCounter, notices := u.notices, loss := u.loss
        files := vmod s.files j fun p => { p with file := some f' }
        dest := vmod s.dest d fun p => { p with
          timers := p.timers.filter fun v => v.file != j, failures := min 15 (p.failures + 1) }
        counters := s.counters.map fun p => p.take .verifyFail (.dest d) 1 } ∧
      (s.log.length < 64 → ∃ q, u.log = s.log ++ [q] ∧ CopyFailed f d r [] q ∧ Announced q s u) ∧
      Settles j f' u v ∧ QuarantinesAtThreshold d s v t

/-- R78: a CREDIT returns as many credits as it says, where that many are in use under a number limit; any other CREDIT
on a link that carries messages is counted as stray. R97, R98, R100, R218: a VERIFY for a copy that failed with TIMEOUT
is counted as late. Counted as stray are a VERIFY or WRITE_ERROR that is not in form or names no file record, a VERIFY
for a copy neither CLOSED nor timed out, and a WRITE_ERROR for a settled copy. A message of an unknown type, and any
message on a link that carries none, changes nothing. -/
def Obligations.InboundMessagesCounted : Prop :=
  ∀ (d : Dest) (wire : Bytes) (m : InMessage) (s stray late : State), s.resetLow = false →
    InMessage.ofBytes wire = some m → stray = { s with loss := { s.loss with stray := oneMore s.loss.stray } } →
    late = { s with loss := { s.loss with lateVerifies := oneMore s.loss.lateVerifies } } →
    exec (.unknownDestMessage d wire) s = .next s ∧
    (s.dest[d].carries = false → exec (.verify d wire) s = .next s ∧ exec (.writeError d wire) s = .next s ∧
      exec (.credit d wire) s = .next s) ∧
    (s.dest[d].carries = true → m.type = 0 →
      (m.numberOk = true → (∃ n, s.dest[d].limit = .number n) → 1 ≤ m.number → m.number ≤ s.dest[d].inUse →
        exec (.credit d wire) s =
          .next { s with dest := vmod s.dest d fun p => { p with inUse := p.inUse - m.number } }) ∧
      (m.numberOk = false ∨ s.dest[d].limit = .absent ∨ s.dest[d].limit = .unlimited ∨ m.number = 0 ∨
          s.dest[d].inUse < m.number → exec (.credit d wire) s = .next stray)) ∧
    (s.dest[d].carries = true → m.type = 1 → m.verifyOk = false → exec (.verify d wire) s = .next stray) ∧
    (s.dest[d].carries = true → m.type = 2 → m.errorOk = false → exec (.writeError d wire) s = .next stray) ∧
    (s.dest[d].carries = true → ∀ (j : FileIx) (f : FileRec), m.index = j.val → s.files[j] = ⟨m.gen, some f⟩ →
      (m.type = 1 → m.verifyOk = true → f.copies[d] = .failed .timeout → exec (.verify d wire) s = .next late) ∧
      (m.type = 1 → m.verifyOk = true → f.copies[d] ≠ .closed → f.copies[d] ≠ .failed .timeout →
        exec (.verify d wire) s = .next stray) ∧
      (m.type = 2 → m.errorOk = true → f.copies[d].unsettled = false → exec (.writeError d wire) s = .next stray)) ∧
    (s.dest[d].carries = true →
      (∀ j : FileIx, m.index = j.val → s.files[j].gen ≠ m.gen ∨ s.files[j].file = none) →
      (m.type = 1 → exec (.verify d wire) s = .next stray) ∧ (m.type = 2 → exec (.writeError d wire) s = .next stray))

/-- R100, R93, R85, R81: a WRITE_ERROR for an unsettled copy fails it with the partner's code, counts the failure and one
VERIFY_FAIL event, and withdraws the copy: its entries leave the queue and those of other files keep their places, and an
ABORT is queued where no OPEN of it waited. When it was the last unsettled copy of a SETTLING file, the file settles (R39,
R40, R176); a failure that reaches the threshold then quarantines the destination (R91); and R79 is evaluated. That the
file settles before the quarantine (LOG 14), that the withdrawal comes before it and R79 after it (LOG 47), that a size of
2^48 shows as 0 in the manifest's bytes (LOG 42), and that a HALT in transmission at the quarantine is not sent again (LOG
46), are the model's choice. -/
def Obligations.WriteErrorFails : Prop :=
  ∀ (d : Dest) (wire : Bytes) (m : InMessage) (j : FileIx) (f f' : FileRec) (s : State), s.resetLow = false →
    InMessage.ofBytes wire = some m → m.type = 2 → m.errorOk = true → s.dest[d].carries = true → m.index = j.val →
    s.files[j] = ⟨m.gen, some f⟩ → f.copies[d].unsettled = true →
    f' = { f with copies := vmod f.copies d fun _ => .failed .writeError } →
    ∃ t u v w, exec (.writeError d wire) s = .next t ∧
      u = { s with
        src := u.src, slots := u.slots, dest := u.dest, cards := u.cards, log := u.log, keyCounter := u.keyCounter
        notices := u.notices, loss := u.loss
        files := vmod s.files j fun p => { p with file := some f' }
        counters := s.counters.map fun p => p.take .verifyFail (.dest d) 1 } ∧
      (∀ d' : Dest, d' ≠ d → u.dest[d'] = s.dest[d']) ∧ Withdrawn d ⟨j, m.gen⟩ s u ∧
      u.dest[d].failures = min 15 (s.dest[d].failures + 1) ∧ u.dest[d].stall = s.dest[d].stall ∧
      (s.log.length < 64 → ∃ q, u.log = s.log ++ [q] ∧
        CopyFailed f d .writeError [leNat (bytesAt m.body 0 2)] q ∧ Announced q s u) ∧
      Settles j f' u v ∧ QuarantinesAtThreshold d s v w ∧ StallChecked d w t

/-! ### Management (chapter 10) -/

/-- R189, R190: a command addressed to this part with room in the reply queue is answered by exactly one reply, which
carries its tag and its code; a refused command, and one that finds nothing, has no effect (LOG 9: the model's counter of
free values may advance). -/
def Obligations.OneReplyPerCommand : Prop :=
  ∀ (l : SrcLink) (i : SlotIx) (g : Segment) (c : Instr) (s : State), Serves l i g s → controlStep l g = some c →
    ∃ t r body, exec c s = .next t ∧
      t.src[l].replies = s.src[l].replies ++ [⟨g.tag, g.command, r, body⟩] ∧ r ≠ .unknownCommand ∧
      (∀ x ∈ t.src[l].arrivals, x ∈ s.src[l].arrivals.tail) ∧
      (r ≠ .done → r ≠ .partialDone → t = { s with src := t.src, slots := t.slots, freeCtr := t.freeCtr } ∧
        Replied l i g r body s t)

/-- R189, R214, R215: what a command that fails a step is answered, and that it changes nothing. Step 2: a body of
another length (the offset is then a free value: LOG 9), or a field that must be zero, or a length or count field out of
bounds, is answered REFUSED_FIELD; step 3: an enumeration or a start index outside its list is answered REFUSED_VALUE;
each with the offset of the first field that failed in two bytes (which bytes are one field is the model's choice: LOG
10). Step 5 (R185, R200): a label that names no card record, and a file number that names no record of the card, are
answered NOT_FOUND, with no body. What the tests are is stated for the body lengths, for the labels, for the destinations
and links, for the tables, and for the one-byte lists; a refusal of ACK FAULTS by its form, and of LINK RESET by its
link, is the step's of either row (LOG 36). That the clear option of READ STATE is tested in every form (LOG 24), and that
an unknown table or form is refused before any other field is tested (LOG 21), are the model's choice. -/
def Obligations.CommandsRefused : Prop :=
  (∀ (l : SrcLink) (i : SlotIx) (g : Segment) (c : Instr) (s : State), Serves l i g s → commandStep l g = some c →
    ((commandShape g).lengthOk = false → ∃ t off, off < 65536 ∧ exec c s = .next t ∧
      t = { s with src := t.src, slots := t.slots, freeCtr := s.freeCtr + 1 } ∧
      Replied l i g .refusedField (le 2 off) s t) ∧
    (∀ off, (commandShape g).lengthOk = true → (commandShape g).zeros.firstBad = some off →
      ∃ t, exec c s = .next t ∧ t = { s with src := t.src, slots := t.slots } ∧
        Replied l i g .refusedField (le 2 off) s t) ∧
    (∀ off, (commandShape g).lengthOk = true → (commandShape g).zeros.firstBad = none →
      (commandShape g).enums.firstBad = some off →
      ∃ t, exec c s = .next t ∧ t = { s with src := t.src, slots := t.slots } ∧
        Replied l i g .refusedValue (le 2 off) s t) ∧
    ((commandShape g).passes → g.command = 7 ∨ g.command = 8 ∨ g.command = 9 ∨ g.command = 10 →
      ∀ label, label = bytesAt g.payload 1 (fieldAt g.payload 0 1) →
      (∀ k : CardIx, (s.cards[k].map Card.label) ≠ some label) ∨
        (g.command = 10 ∧ ∃ c k, NamesCard label c k s ∧
          ∀ (j : FileIx) (f : FileRec), s.files[j].file = some f → f.card = c → f.number ≠ fieldAt g.payload 20 4) →
      ∃ t, exec c s = .next t ∧ t = { s with src := t.src, slots := t.slots } ∧ Replied l i g .notFound [] s t)) ∧
  ∀ (g : Segment) (b : BodyShape) (first second : Nat), b = commandShape g → first = fieldAt g.payload 0 1 →
    second = fieldAt g.payload 1 1 →
    (∀ n, bodyLength g.command = some n → (b.lengthOk = true ↔ g.payload.length = n)) ∧
    (g.command = 7 ∨ g.command = 8 ∨ g.command = 9 ∨ g.command = 10 → first = 0 ∨ 16 < first →
      b.zeros.firstBad = some 0) ∧
    (g.command = 10 → 1 ≤ first → first ≤ 16 → bytesAt g.payload (1 + first) (16 - first) = List.replicate (16 - first) 0 →
      fieldAt g.payload 17 3 ≠ 0 → b.zeros.firstBad = some 17) ∧
    (∀ n, (g.command = 11 ∨ g.command = 12) ∧ n = 6 ∨ g.command = 17 ∧ n = 10 →
      (fieldAt g.payload 1 3 ≠ 0 → b.zeros.firstBad = some 1) ∧
      (fieldAt g.payload 1 3 = 0 → b.zeros.firstBad = none) ∧
      b.enums.firstBad = if n ≤ first then some 0 else none) ∧
    (g.command = 3 → g.payload ≠ [] → (second ≠ 0 → b.zeros.firstBad = some 1) ∧ (second = 0 → b.zeros.firstBad = none) ∧
      (6 ≤ first → b.enums.firstBad = some 0) ∧
      ∀ tb, tableArg g.payload = some tb →
        b.enums.firstBad = if tb.entries ≤ fieldAt g.payload 2 2 then some 2 else none) ∧
    (g.command = 2 → g.payload ≠ [] → (6 ≤ first → b.lengthOk = true ∧ b.zeros.firstBad = none ∧ b.enums.firstBad = some 0) ∧
      ∀ tb, tableArg g.payload = some tb →
        (b.lengthOk = true ↔ ∃ n, 1 ≤ n ∧ g.payload.length = 4 + n * tb.entryLength) ∧
        (second ≠ 0 → b.zeros.firstBad = some 1) ∧
        (tb.entries ≤ fieldAt g.payload 2 2 → b.enums.firstBad = some 2)) ∧
    (g.command = 4 → b.enums.firstBad = if 6 ≤ first then some 0 else if 2 ≤ second then some 1 else none) ∧
    (g.command = 6 → first = 0 → 2 ≤ g.payload.length →
      (second = 0 ∨ 16 < second → b.lengthOk = true ∧ b.zeros.firstBad = some 1) ∧
      (1 ≤ second → second ≤ 16 → (b.lengthOk = true ↔ g.payload.length = 2 + 2 * second) ∧ b.zeros.firstBad = none)) ∧
    (g.command = 6 → 2 ≤ first → b.zeros.firstBad = none ∧ b.enums.firstBad = some 0) ∧
    (g.command = 13 → b.enums.firstBad = if 2 ≤ first then some 0 else if 3 ≤ second then some 1 else none) ∧
    (g.command = 14 → 8 ≤ first → b.enums.firstBad = some 0) ∧
    (g.command = 15 → (b.zeros.firstBad = if fieldAt g.payload 1 3 = 0 then none else some 1) ∧
      b.enums.firstBad = if 2 ≤ first then some 0 else none) ∧
    (g.command = 16 → (b.zeros.firstBad = if fieldAt g.payload 13 3 = 0 then none else some 13) ∧ b.enums.firstBad = none) ∧
    (g.command = 5 → b.zeros.firstBad = none ∧ b.enums.firstBad = none)

/-- R196, R216: the IDENTIFY reply; nothing else changes. -/
def Obligations.IdentifyReply : Prop :=
  ∀ (l : SrcLink) (i : SlotIx) (g : Segment) (s : State), Serves l i g s → g.command = 1 → g.payload = [] →
    ∃ t, exec (.identify l) s = .next t ∧ t = { s with src := t.src, slots := t.slots } ∧
      Replied l i g .done [0x3D, 0x0C, 0xD6, 0x00, 3, BitVec.setWidth 8 s.partAddress, 4, 6, 2, 16, 0x00, 0x04, 0x00,
        0x40, 0x00, 0x01, 0x00, 0x02, 32, 8, 16, 8, 6, 1, 8, 64, 4, 16] s t

/-- R193, R194: a WRITE TABLE stores the entries of its body from the start index on, each quantity clamped, and those
beyond the last index are discarded: PARTIAL then, with the number written. No other entry and no other table changes. A
READ TABLE answers with the entries from the start index on, and changes nothing. What an entry stores of its bytes is in
TableEntriesRoundTrip; the carriage of the signed quantities of LOOK (LOG 17) and the byte widths of DEST_CONFIG (LOG 43)
are the model's choice. -/
def Obligations.TablesWrittenAndRead : Prop :=
  ∀ (l : SrcLink) (i : SlotIx) (g : Segment) (tb : TableName) (s : State), Serves l i g s →
    tableArg g.payload = some tb →
    (g.command = 2 → (writeTableShape tb g.payload).passes →
      ∀ start given n : Nat, start = fieldAt g.payload 2 2 → given = (g.payload.length - 4) / tb.entryLength →
      n = min given (tb.entries - start) →
      ∃ t, exec (.writeTable l) s = .next t ∧
        t = { s with
          src := t.src, slots := t.slots, routes := t.routes, formats := t.formats, looks := t.looks
          profiles := t.profiles, destConfig := t.destConfig, part := t.part } ∧
        Replied l i g (if n = given then .done else .partialDone) (le 2 n ++ [0, 0]) s t ∧
        (∀ k : Nat, k < n → (tableImages tb t)[start + k]? =
          some (tb.clamp (bytesAt g.payload (4 + tb.entryLength * k) tb.entryLength))) ∧
        (∀ k : Nat, k < start ∨ start + n ≤ k → (tableImages tb t)[k]? = (tableImages tb s)[k]?) ∧
        (tb ≠ .route → t.routes = s.routes) ∧ (tb ≠ .format → t.formats = s.formats) ∧
        (tb ≠ .look → t.looks = s.looks) ∧ (tb ≠ .profile → t.profiles = s.profiles) ∧
        (tb ≠ .destConfig → t.destConfig = s.destConfig) ∧ (tb ≠ .partConfig → t.part = s.part)) ∧
    (g.command = 3 → (readTableShape g.payload).passes →
      ∀ entries : List Bytes, entries = ((tableImages tb s).drop (fieldAt g.payload 2 2)).take
        (max 1 (min (fieldAt g.payload 4 2) tb.entries)) →
      ∃ t, exec (.readTable l) s = .next t ∧ t = { s with src := t.src, slots := t.slots } ∧
        Replied l i g .done (bytesAt g.payload 0 1 ++ [0] ++ bytesAt g.payload 2 2 ++ le 2 entries.length ++ [0, 0] ++
          entries.flatten) s t)

/-- R197, R216, R50, R104, R20, R174, R148: the replies of READ STATE, and the layout of every image. A READ STATE of the
forms CARDS to CHANNELS changes nothing, and its reply is the header, with the count, and one image for each card record,
in order of position (the model's choice: LOG 11), for each file record of the card from the start position on, in
ascending order of file number and to 132 of them, for each destination, for each link, or for each channel. A FILES of
an unknown label is answered NOT_FOUND. The ENGINES form leaves everything but the engines; how far each has come with
the entry in processing is settled first (the model's choice: LOG 8), and a yes of the clear byte clears the sticky flags
once they are reported (R131). A DESTINATIONS image shows the aligned flag in QUARANTINED alone, where it applies (R74,
R216). That its counts count the entry in transmission is the model's choice, too (LOG 20). -/
def Obligations.ReadStateReports : Prop :=
  (∀ (l : SrcLink) (i : SlotIx) (g : Segment) (form start : Nat) (label : Bytes) (s : State), Serves l i g s →
    g.command = 4 → (readStateShape g.payload).passes → form = fieldAt g.payload 0 1 →
    start = min 511 (fieldAt g.payload 20 2) → label = bytesAt g.payload 3 (fieldAt g.payload 2 1) →
    (∀ images : List Bytes,
      (form = 0 ∧ images = (List.finRange 16).filterMap fun c => (s.cards[c]).map fun k => cardImage c k s) ∨
      (form = 2 ∧ images = (List.finRange 6).map fun d => destImage d s) ∨
      (form = 3 ∧ images = (List.finRange 4).map fun n => linkImage n s) ∨
      (form = 4 ∧ images = (List.finRange 8).map fun ch : Channel => channelImage s.channels[ch]) →
      (∀ x ∈ images, x.length = imageLength form) ∧
      ∃ t, exec (.readState l) s = .next t ∧ t = { s with src := t.src, slots := t.slots } ∧
        Replied l i g .done (stateReply form (if form = 3 then s.part.station.val else 0) 0 0
          (if form = 3 then s.notices.length else 0) images) s t) ∧
    (form = 1 → ∀ (c : CardIx) (k : Card) (files shown : List (FileIx × FileRec)), NamesCard label c k s →
      files.Pairwise (fun x y => x.2.number < y.2.number) →
      (∀ (j : FileIx) (f : FileRec), (j, f) ∈ files ↔ s.files[j].file = some f ∧ f.card = c) →
      shown = (files.drop start).take 132 →
      (∀ x ∈ shown, (fileImage x.1 x.2 s).length = imageLength 1) ∧
      ∃ t, exec (.readState l) s = .next t ∧ t = { s with src := t.src, slots := t.slots } ∧
        Replied l i g .done (stateReply 1 0 files.length (files.length - start - shown.length) 0
          (shown.map fun x => fileImage x.1 x.2 s)) s t) ∧
    (form = 1 → (∀ c : CardIx, (s.cards[c].map Card.label) ≠ some label) →
      ∃ t, exec (.readState l) s = .next t ∧ t = { s with src := t.src, slots := t.slots } ∧
        Replied l i g .notFound [] s t) ∧
    (form = 5 → ∃ (t : State) (x : Engine → EngineState), exec (.readState l) s = .next t ∧
      t = { s with src := t.src, slots := t.slots, engines := t.engines, freeCtr := t.freeCtr } ∧
      Replied l i g .done (stateReply 5 0 0 0 0 [engineImage (x 0), engineImage (x 1)]) s t ∧
      ∀ e : Engine, (engineImage (x e)).length = imageLength 5 ∧
        x e = { s.engines[e] with
          proc := (x e).proc, out := (x e).out, sent := (x e).sent, flagInexact := (x e).flagInexact
          flagOver := (x e).flagOver, flagUnder := (x e).flagUnder } ∧
        (x e).proc.isSome = s.engines[e].proc.isSome ∧ (s.engines[e].proc = none → x e = s.engines[e]) ∧
        (s.engines[e].flagInexact = true → (x e).flagInexact = true) ∧
        (s.engines[e].flagOver = true → (x e).flagOver = true) ∧
        (s.engines[e].flagUnder = true → (x e).flagUnder = true) ∧
        t.engines[e] = if fieldAt g.payload 1 1 = 1 then
          { x e with flagInexact := false, flagOver := false, flagUnder := false } else x e)) ∧
  (∀ (c : CardIx) (k : Card) (s : State) (count : FileState → Nat),
    (∀ st, count st = (allIx fun i : FileIx => s.files[i].file.any fun f => f.card == c && f.state == st).length) →
    cardImage c k s = labelBytesOf k.label ++ [flagByte (k.handle ≠ none)] ++
      le 1 (k.handle.elim 0 fun h => h.link.val) ++ le 1 (k.handle.elim 0 fun h => h.slot.val) ++ le 2 k.camera.toNat ++
      [flagByte (k.expected ≠ none), mountByte k.mount] ++ le 2 (k.expected.getD 0) ++ le 2 k.opened ++
      le 2 k.completed ++ le 2 k.waived ++
      [verdictByte k.verdict, flagByte (k.ended = true), flagByte (k.pulled = true), flagByte (k.lostMark = true)] ++
      le 2 (count .streaming) ++ le 2 (count .settling) ++ le 2 (count .short) ++ [0, 0]) ∧
  (∀ (i : FileIx) (f : FileRec) (s : State),
    fileImage i f s = le 4 f.number ++ tidBytesOf ⟨i, s.files[i].gen⟩ ++
      [fileStateByte f.state, flagByte (f.recopy = true), flagByte (f.declared ≠ none), flagByte (f.finalDigest ≠ none),
        flagByte (f.channel ≠ none)] ++
      le 1 (f.channel.elim 0 Fin.val) ++ [flagByte (f.name ≠ none)] ++ le 1 (f.name.getD []).length ++
      le 8 (f.declared.getD 0) ++ le 8 f.nextOffset ++ le 8 (f.finalDigest.getD 0) ++ le 1 f.route.dests.toNat ++
      le 1 f.route.required ++ le 1 f.route.look.val ++ le 1 (f.route.profile.elim 255 Fin.val) ++
      le 1 (f.route.format.elim 255 Fin.val) ++ [0, 0, 0] ++
      ((List.finRange 6).flatMap fun d : Dest => copyBytes f.copies[d]) ++ padTo 64 (f.name.getD [])) ∧
  (∀ (d : Dest) (p : DestPort) (s : State), p = s.dest[d] →
    destImage d s = [destStateByte p.state, flagByte (p.partner = true),
        flagByte (p.state = .quarantined ∧ p.aligned = true)] ++
      limitBytes p.limit ++ le 1 p.inUse ++ [flagByte (p.stall = true)] ++
      le 1 (if p.tx = none then 0 else p.queue.head?.elim 0 kindNumber) ++
      le 2 (p.queue.countP fun e => kindNumber e == 2) ++ le 2 (p.queue.countP fun e => kindNumber e == 1) ++
      le 2 (p.queue.countP fun e => kindNumber e == 3) ++ le 2 (p.queue.countP fun e => kindNumber e == 4) ++
      le 1 (p.queue.countP fun e => kindNumber e == 5) ++ [flagByte (p.retrain ≠ none)] ++ le 2 p.timers.length ++
      le 1 p.failures ++ [0] ++ le 2 p.openSet.length ++ s.destConfig[d].write) ∧
  (∀ (l : SrcLink) (p : SrcPort) (s : State), p = s.src[l] →
    linkImage l s = [srcStateByte p.state, flagByte (p.overrun = true)] ++ le 2 p.held ++ le 2 p.granted ++
      le 2 p.withheld ++ le 2 p.unannounced ++ le 2 p.arrivals.length ++
      [flagByte (p.headAddressed = some true ∧ 4 ≤ p.replies.length)] ++ le 1 p.replies.length ++ [0, 0]) ∧
  (∀ (k : ChannelRec) (owner : Option Owner) (run : Option TestRun),
    (k.state = .free ∧ owner = none ∧ run = none) ∨ (∃ o, k.state = .file o ∧ owner = some o ∧ run = none) ∨
      (∃ r, k.state = .test r ∧ owner = none ∧ run = some r) →
    channelImage k = [channelStateByte k.state] ++ le 1 k.profile.val ++
      [flagByte (k.frame ≠ none), flagByte (k.prevDigest ≠ none)] ++
      owner.elim (List.replicate 17 0) (fun o => labelBytesOf o.label) ++ [0, 0, 0] ++ le 4 (owner.elim 0 Owner.file) ++
      owner.elim [0, 0, 0, 0] (fun o => tidBytesOf o.tid) ++ le 2 k.width ++ le 2 k.height ++
      le 4 (k.width * k.height) ++ le 4 k.evaluated ++ le 4 (k.frame.elim 0 FrameProgress.frame) ++
      le 2 (k.frame.elim 0 FrameProgress.lines) ++ le 1 (run.elim 0 TestRun.count) ++ le 1 (run.elim 0 TestRun.next) ++
      le 2 (run.elim 0 fun r => r.colour.r) ++ le 2 (run.elim 0 fun r => r.colour.g) ++
      le 2 (run.elim 0 fun r => r.colour.b) ++ [0, 0] ++
      (List.finRange 8).flatMap fun p : Fin 8 =>
        [flagByte (k.probes[p].enabled = true), sourceByte k.probes[p].source,
          flagByte (k.probeStates[p].asserted = true)] ++
        le 1 k.probeStates[p].run ++ le 4 k.probes[p].tHi ++ le 4 k.probes[p].tLo ++
        [flagByte (k.probeStates[p].window ≠ none), 0] ++ le 2 (k.probeStates[p].window.elim 0 WindowRec.key) ++
        le 4 (k.probeStates[p].window.elim 0 WindowRec.first)) ∧
  ∀ g : EngineState,
    engineImage g = selectionBytes g.selection ++
      [flagByte (g.follow ≠ none), flagByte (g.follow.any Follow.ended = true)] ++ pinBytes g.selection ++
      g.follow.elim (List.replicate 17 0) (fun f => labelBytesOf f.label) ++ le 1 (g.follow.elim 0 fun f => f.look.val) ++
      le 1 g.queue.length ++ [flagByte (g.proc ≠ none)] ++ le 4 (g.follow.elim 0 Follow.file) ++
      g.follow.elim [0, 0, 0, 0] (fun f => tidBytesOf f.tid) ++
      [flagByte (g.pendingGap = true), outByte g.out, flagByte (g.working ≠ none)] ++
      le 1 (g.working.elim 0 fun w => w.index.val) ++ outBytes g.out ++ [stickyByteOf g, 0]

/-- R186, R198, R216, R217: the READ FAULTS reply reports the counts of the log, the key counter and the 64 bytes of each
record from the start position on; nothing changes. R183, R184, R199: an ACK FAULTS takes every OPEN record it names, by
key or by label, to ACKED, and reports how many, with the number of keys that name no record; where no record is named it
is answered NOT_FOUND. Every card record then keeps all but its verdict, which is the one R24 gives. That a key named
more than once counts as missing at each of its places is the model's choice (LOG 35). -/
def Obligations.FaultsReadAndAcknowledged : Prop :=
  (∀ (l : SrcLink) (i : SlotIx) (g : Segment) (s : State), Serves l i g s → g.command = 5 → g.payload.length = 4 →
    ∀ shown : List FaultRec, shown = (s.log.drop (min 63 (leNat (g.payload.take 2)))).take
      (max 1 (min 64 (leNat (g.payload.drop 2)))) →
    ∃ t, exec (.readFaults l) s = .next t ∧ t = { s with src := t.src, slots := t.slots } ∧
      Replied l i g .done (le 1 s.log.length ++ le 1 (s.log.countP fun r => r.state == .opened) ++
        le 1 (s.log.countP fun r => r.state == .opened && r.severity == .hold) ++ le 1 shown.length ++
        le 2 s.keyCounter ++ [0, 0] ++ shown.flatMap faultBytes) s t) ∧
  ∀ (l : SrcLink) (i : SlotIx) (g : Segment) (s : State), Serves l i g s → g.command = 6 →
    (fieldAt g.payload 0 1 = 0 → (ackKeysShape g.payload).passes → ∀ keys : List Nat,
      keys = (List.range (fieldAt g.payload 1 1)).map (fun k => fieldAt g.payload (2 + 2 * k) 2) →
      ∃ t, exec (.ackFaultsKeys l) s = .next t ∧
        t = { s with src := t.src, slots := t.slots, log := t.log, cards := t.cards } ∧
        Replied l i g (if s.log.any (fun r => keys.contains r.key) then .done else .notFound)
          (le 2 (s.log.countP fun r => keys.contains r.key && r.state == .opened) ++
            le 2 (keys.countP fun k => !s.log.any fun r => r.key == k)) s t ∧
        t.log = (s.log.map fun r => if keys.contains r.key = true then { r with state := .acked } else r) ∧
        Reevaluated s t) ∧
    (fieldAt g.payload 0 1 = 1 → (ackLabelShape g.payload).passes → ∀ label : Bytes,
      label = bytesAt g.payload 3 (fieldAt g.payload 2 1) →
      ∃ t, exec (.ackFaultsLabel l) s = .next t ∧
        t = { s with src := t.src, slots := t.slots, log := t.log, cards := t.cards } ∧ Reevaluated s t ∧
        ((∀ r ∈ s.log, r.label ≠ some label) → t.log = s.log ∧ t.cards = s.cards ∧ Replied l i g .notFound [] s t) ∧
        ((∃ r ∈ s.log, r.label = some label) →
          t.log = (s.log.map fun r => if r.label = some label then { r with state := .acked } else r) ∧
          Replied l i g .done
            (le 2 (s.log.countP fun r => r.label == some label && r.state == .opened) ++ [0, 0]) s t))

/-- R185, R46, R48, R40, R200: a WAIVE LOSS clears the card's lost-fault mark; a RELEASE CARD frees a RELEASABLE card, a
mounted one with a CARD_RELEASED notice, and is answered REFUSED_STATE for any other; a WAIVE FILE frees a SHORT file
with a manifest record that carries the waived mark, increments the card's files waived count, and reports the transfer
id and the verified set, and is answered REFUSED_STATE for a file in another state. The verdict of the card is then the
one R24 gives. That CARD_RELEASED is offered whatever the notices setting is the model's choice (LOG 37). -/
def Obligations.WaivedAndReleased : Prop :=
  ∀ (l : SrcLink) (i : SlotIx) (g : Segment) (c : CardIx) (k : Card) (s : State), Serves l i g s →
    NamesCard (bytesAt g.payload 1 (fieldAt g.payload 0 1)) c k s →
    (g.command = 7 → (labelShape g.payload).passes →
      ∃ t, exec (.waiveLoss l) s = .next t ∧ t = { s with src := t.src, slots := t.slots, cards := t.cards } ∧
        Replied l i g .done [] s t ∧
        t.cards = vmod s.cards c fun _ =>
          some { k with lostMark := false, verdict := verdictOf s c { k with lostMark := false } }) ∧
    (g.command = 8 → (labelShape g.payload).passes → k.verdict = .releasable →
      ∃ t, exec (.releaseCard l) s = .next t ∧
        t = { s with src := t.src, slots := t.slots, cards := t.cards, notices := t.notices, loss := t.loss } ∧
        Replied l i g .done ([if k.pulled = true then 1 else 0, 0] ++ le 2 k.opened ++ le 2 k.completed ++
          le 2 k.waived) s t ∧
        t.cards = (vmod s.cards c fun _ => none) ∧ (k.mount = .detached → t.notices = s.notices ∧ t.loss = s.loss) ∧
        (k.mount ≠ .detached → s.notices.length < 16 → t.loss = s.loss ∧ t.notices = s.notices ++
          [⟨.released ⟨k.label, k.pulled, k.opened, k.completed, k.waived⟩, none⟩]) ∧
        (k.mount ≠ .detached → 16 ≤ s.notices.length → t.notices = s.notices ∧
          t.loss = { s.loss with noticesDropped := oneMore s.loss.noticesDropped })) ∧
    (g.command = 8 → (labelShape g.payload).passes → k.verdict ≠ .releasable →
      ∃ t, exec (.releaseCard l) s = .next t ∧ t = { s with src := t.src, slots := t.slots } ∧
        Replied l i g .refusedState [] s t) ∧
    (g.command = 10 → (waiveFileShape g.payload).passes → ∀ (j : FileIx) (f : FileRec),
      NamesFile c (fieldAt g.payload 20 4) j f s →
      (f.state ≠ .short →
        ∃ t, exec (.waiveFile l) s = .next t ∧ t = { s with src := t.src, slots := t.slots } ∧
          Replied l i g .refusedState [] s t) ∧
      (f.state = .short →
        ∃ t, exec (.waiveFile l) s = .next t ∧
          t = { s with
            src := t.src, slots := t.slots, cards := t.cards, files := t.files, notices := t.notices, loss := t.loss } ∧
          Replied l i g .done ((le 2 j.val ++ le 1 s.files[j].gen.toNat ++ [0]) ++ le 1 f.verifiedSet.toNat ++ [0, 0, 0])
            s t ∧
          t.files = (vmod s.files j fun p => { p with file := none }) ∧
          (∀ k' : Card, k' = { k with waived := if k.waived < 65535 then k.waived + 1 else k.waived } →
            t.cards = vmod s.cards c fun _ => some { k' with verdict := verdictOf t c k' }) ∧
          (s.part.manifests = false → t.notices = s.notices) ∧
          (s.part.manifests = true → s.notices.length < 16 → ∃ a, t.notices = s.notices ++ [⟨.manifest a, none⟩] ∧
            a.label = k.label ∧ a.file = f.number ∧ a.tid = ⟨j, s.files[j].gen⟩ ∧ a.waived = true ∧
            a.verified = f.verifiedSet ∧ a.digest = f.finalDigest)))

/-- R47, R85, R81, R200: a CLEAR CARD frees every file record of the card, `js`, and the card record, logs CARD_CLEARED,
severity NOTE, and reports how many files it discarded; each file's unsettled copies are withdrawn, with an ABORT where
the OPEN was sent, its channel is released, and a follow of it ends, with its waiting entries discarded and counted
(R146). No other card, file, channel or engine changes. The order of those ABORTs, by file record index (LOG 41), that a
follow is known by its label (LOG 23), and what a released channel keeps of its latched values (LOG 44) are the model's
choice. -/
def Obligations.CardCleared : Prop :=
  ∀ (l : SrcLink) (i : SlotIx) (g : Segment) (c : CardIx) (k : Card) (js : List FileIx) (s : State), Serves l i g s →
    g.command = 9 → (labelShape g.payload).passes →
    NamesCard (bytesAt g.payload 1 (fieldAt g.payload 0 1)) c k s →
    js = (allIx fun j : FileIx => s.files[j].file.any fun f => f.card == c) →
    ∃ t, exec (.clearCard l) s = .next t ∧
      t = { s with
        src := t.src, slots := t.slots, cards := t.cards, files := t.files, dest := t.dest, log := t.log
        keyCounter := t.keyCounter, notices := t.notices, loss := t.loss, counters := t.counters
        engines := t.engines, channels := t.channels } ∧
      RepliedToo l g .done (le 2 js.length ++ [0, 0]) s t ∧
      t.cards = (vmod s.cards c fun _ => none) ∧
      (∀ j : FileIx, t.files[j] = if j ∈ js then ⟨s.files[j].gen, none⟩ else s.files[j]) ∧
      (∀ d : Dest, WithdrawnAll d (unsettledTids d js s) s t) ∧ ChannelsFreed js s t ∧
      FollowsStopped (fun h => h.label == k.label) s t ∧
      (s.log.length < 64 → ∃ r, t.log = s.log ++ [r] ∧ r.cls = .cardCleared ∧ r.severity = .note ∧
        r.label = some k.label)

/-- R91, R94, R201: a DEST QUARANTINE takes a destination to QUARANTINED: timers cancelled, stall flag clear, every
unsettled copy failed with QUARANTINED, and the queue purged: from UP but for the entry in transmission, with one HALT
behind it and the limit kept; from RETRAINING whole, with the limit forgotten; from TRAINING and DOWN not at all; and
from these three a HALT joins where the open transfer set is not empty and none waits. It reports the state and how many
copies failed. R95: a DEST RESTORE sets the failure count to zero, and the link is UP where it is aligned, else TRAINING
where a partner is present, else DOWN. Each is answered REFUSED_STATE in the other state. That a DEST RESTORE keeps the
aligned flag (LOG 16), and that a HALT in transmission at the entry from UP is not sent again (LOG 46), are the model's
choice. -/
def Obligations.DestQuarantinedAndRestored : Prop :=
  (∀ (l : SrcLink) (i : SlotIx) (g : Segment) (d : Dest) (s : State), Serves l i g s → g.command = 11 →
    (destShape g.payload).passes → fieldAt g.payload 0 1 = d.val →
    (s.dest[d].state = .quarantined →
      ∃ t, exec (.destQuarantine l) s = .next t ∧ t = { s with src := t.src, slots := t.slots } ∧
        Replied l i g .refusedState [] s t) ∧
    (s.dest[d].state ≠ .quarantined →
      ∃ t, exec (.destQuarantine l) s = .next t ∧
        RepliedToo l g .done ([4, 0] ++ le 2 (unsettledOn d s).length) s t ∧ Quarantines d .byCommand s t)) ∧
    ∀ (l : SrcLink) (i : SlotIx) (g : Segment) (d : Dest) (s : State), Serves l i g s → g.command = 12 →
      (destShape g.payload).passes → fieldAt g.payload 0 1 = d.val →
      (s.dest[d].state ≠ .quarantined →
        ∃ t, exec (.destRestore l) s = .next t ∧ t = { s with src := t.src, slots := t.slots } ∧
          Replied l i g .refusedState [] s t) ∧
      (s.dest[d].state = .quarantined → ∀ st : DestState,
        st = (if s.dest[d].aligned = true then .up else if s.dest[d].partner = true then .training else .down) →
        ∃ t, exec (.destRestore l) s = .next t ∧ t = { s with src := t.src, slots := t.slots, dest := t.dest } ∧
          t.dest = (vmod s.dest d fun p => { p with state := st, failures := 0 }) ∧
          Replied l i g .done ([if st = .up then 2 else if st = .training then 1 else 0, 0, 0, 0]) s t)

/-- R204: how a pair of event counters takes an event: unjoined, each counter that counts it increases by the amount
modulo 2^32; joined, the even counter counts, and the odd one counts the wraps of it. R205, R206, R207, R216: a SET
COUNTER EVENTS stores the event, qualifier and joining of the four counters, each as its bytes give it, and sets their
counts to zero; a READ COUNTERS reports all twelve counters in 52 bytes, clears the eight loss counters, and the four
event counters where its clear byte is yes. -/
def Obligations.CountersSetAndRead : Prop :=
  (∀ (p : CounterPair) (ev : CountEvent) (ag : Against) (n : Nat),
    (p.joined = false → p.take ev ag n = { p with
      even := if Counts p.even ev ag then { p.even with count := (p.even.count + n) % 2 ^ 32 } else p.even
      odd := if Counts p.odd ev ag then { p.odd with count := (p.odd.count + n) % 2 ^ 32 } else p.odd }) ∧
    (p.joined = true → ¬ Counts p.even ev ag → p.take ev ag n = p) ∧
    (p.joined = true → Counts p.even ev ag → n < 65536 → p.even.count < 2 ^ 32 → p.odd.count < 2 ^ 32 →
      p.take ev ag n = { p with
        even := { p.even with count := (p.even.count + n) % 2 ^ 32 }
        odd := { p.odd with count :=
          if 2 ^ 32 ≤ p.even.count + n then (p.odd.count + 1) % 2 ^ 32 else p.odd.count } })) ∧
  ∀ (l : SrcLink) (i : SlotIx) (g : Segment) (s : State), Serves l i g s →
    (g.command = 14 → (setCountersShape g.payload).passes →
      ∃ t, exec (.setCounterEvents l) s = .next t ∧
        t = { s with src := t.src, slots := t.slots, counters := t.counters } ∧ Replied l i g .done [] s t ∧
        (∀ p : Fin 2, t.counters[p].joined = (fieldAt g.payload (16 + p.val) 1 == 1) ∧
          SetFrom g.payload (8 * p.val) t.counters[p].even ∧ SetFrom g.payload (8 * p.val + 4) t.counters[p].odd)) ∧
    (g.command = 15 → (readCountersShape g.payload).passes →
      ∃ t, exec (.readCounters l) s = .next t ∧
        t = { s with src := t.src, slots := t.slots, counters := t.counters, loss := ⟨0, 0, 0, 0, 0, 0, 0, 0⟩ } ∧
        (∀ body : Bytes, body = ((List.finRange 2).flatMap fun p : Fin 2 =>
            counterBytes s.counters[p].even ++ counterBytes s.counters[p].odd) ++
            [flagByte (s.counters[0].joined = true), flagByte (s.counters[1].joined = true), 0, 0] ++
            le 2 s.loss.skipsV0 ++ le 2 s.loss.skipsV1 ++ le 2 s.loss.noticesDropped ++ le 2 s.loss.faultsLost ++
            le 2 s.loss.lateVerifies ++ le 2 s.loss.stray ++ le 2 s.loss.foreign ++ le 2 s.loss.malformed →
          body.length = 52 ∧ Replied l i g .done body s t) ∧
        (fieldAt g.payload 0 1 = 0 → t.counters = s.counters) ∧
        (fieldAt g.payload 0 1 = 1 → ∀ p : Fin 2, t.counters[p] = { s.counters[p] with
          even := { s.counters[p].even with count := 0 }, odd := { s.counters[p].odd with count := 0 } }))

/-- R168, R169, R170, R172, R203: a TEST FRAME on a FREE channel starts a test run of the clamped parameters; on another
it is answered REFUSED_STATE. Each synthetic frame, the last one too, measures as one flat pixel does under look 0; each
probe takes its measurement (R161 to R164), and its reports make TEST records, severity NOTE, or merge into them (R165 to
R167, R171). The evaluation of the last one leaves the channel FREE, an earlier one at the next frame, with one more frame
evaluated; that outside TEST an evaluation has no effect is the model's choice (LOG 1), and what the channel then keeps of
its picture size and codes (LOG 44). -/
def Obligations.TestRuns : Prop :=
  (∀ (l : SrcLink) (i : SlotIx) (g : Segment) (q : TestParams) (s : State), Serves l i g s → g.command = 16 →
    (testShape g.payload).passes → q = testParams g.payload →
    q.channel.val = min 7 (fieldAt g.payload 0 1) ∧ q.profile.val = min 7 (fieldAt g.payload 1 1) ∧
    q.width = max 16 (min 1024 (fieldAt g.payload 2 2)) ∧ q.height = max 16 (min 1024 (fieldAt g.payload 4 2)) ∧
    q.colour.r = min 4095 (fieldAt g.payload 6 2) ∧ q.colour.g = min 4095 (fieldAt g.payload 8 2) ∧
    q.colour.b = min 4095 (fieldAt g.payload 10 2) ∧ q.count = max 1 (min 16 (fieldAt g.payload 12 1)) ∧
    (s.channels[q.channel].state ≠ .free →
      ∃ t, exec (.testFrame l) s = .next t ∧ t = { s with src := t.src, slots := t.slots } ∧
        Replied l i g .refusedState [] s t) ∧
    (s.channels[q.channel].state = .free →
      ∃ t, exec (.testFrame l) s = .next t ∧
        t = { s with src := t.src, slots := t.slots, channels := t.channels } ∧
        Replied l i g .done (testBytes q s.profiles[q.profile]) s t ∧
        t.channels = vmod s.channels q.channel fun _ => { ChannelRec.initial with
          state := .test ⟨q.colour, q.count, 0⟩, profile := q.profile
          clipCode := s.profiles[q.profile].clipCode, blackCode := s.profiles[q.profile].blackCode
          width := q.width, height := q.height
          probes := s.profiles[q.profile].probes.map fun x => x.latch (q.width * q.height) })) ∧
  ∀ (c : Channel) (s : State), s.resetLow = false →
    (∀ run, s.channels[c].state = .test run →
      ∃ t, exec (.testFrameEvaluation c) s = .next t ∧
        t = { s with
          channels := t.channels, cards := t.cards, log := t.log, keyCounter := t.keyCounter, notices := t.notices
          loss := t.loss } ∧
        (∀ c' : Channel, c' ≠ c → t.channels[c'] = s.channels[c']) ∧
        ∀ (u : ChannelRec) (x : Pixel) (pixels : Nat) (measure : Source → Option Nat), u = s.channels[c] → x = run.colour →
          pixels = u.width * u.height →
          measure = (fun source => match source with
            | .clip => some (if u.clipCode ≤ max x.r (max x.g x.b) then pixels else 0)
            | .black => some (if max x.r (max x.g x.b) ≤ u.blackCode then pixels else 0)
            | .luma => some ((1225 * x.r + 2404 * x.g + 467 * x.b) / 4096)
            | .range => some (if ∃ n : Fin 3, s.looks[0].stage1 n x < 0 ∨ 4095 < s.looks[0].stage1 n x then pixels else 0)
            | .frozen => some (if run.next = 0 then 0 else 1)
            | .tcBreak | .countGap | .tcInvalid => none) →
          ProbesReported c measure run.next s t ∧
          (run.count ≤ run.next + 1 → t.channels[c] = ChannelRec.initial) ∧
          (run.next + 1 < run.count → ProbesTook c measure s t ∧
            t.channels[c] = { u with
              state := .test { run with next := run.next + 1 }
              evaluated := (u.evaluated + 1) % 2 ^ 32, probeStates := t.channels[c].probeStates })) ∧
    ((∀ run, s.channels[c].state ≠ .test run) → exec (.testFrameEvaluation c) s = .next s)

/-- R18, R90, R208: a LINK RESET of a source link empties it and takes it to TRAINING (a DOWN link stays DOWN), with no
granted credit, aborts the STREAMING files of its cards (R45), and empties the notice queue of the station link; the
reply of the command comes after it. One of a destination takes an UP or RETRAINING link through the DOWN procedure
(R89), with every unsettled copy failed with LINK and DEST_DOWN logged, and to TRAINING where a partner is present, and a
QUARANTINED one out of alignment. The order of the aborts (LOG 12), what of the notice queue is emptied (LOG 15, LOG 39),
what the aborts count (LOG 40), that a released channel is as after power-on (LOG 44), that a HALT once marked as not sent
again leaves the queue (LOG 46), and that no link reset of an UP or RETRAINING link changes the aligned flag (LOG 16) are
the model's choice. -/
def Obligations.LinksReset : Prop :=
  ∀ (l : SrcLink) (i : SlotIx) (g : Segment) (s : State), Serves l i g s → g.command = 17 →
    (linkResetShape g.payload).passes →
    (∀ n : SrcLink, fieldAt g.payload 0 1 = n.val →
      ∃ t, exec (.linkResetSource l) s = .next t ∧
        t.src[n].state = (if s.src[n].state = .down then .down else .training) ∧ t.src[n].granted = 0 ∧
        t.src[n].unannounced = 0 ∧ t.src[n].arrivals = [] ∧ t.src[n].tx = none ∧ t.src[n].overrun = false ∧
        LinkAborts n s t ∧
        t.src[l].replies = (if n = l then [] else s.src[l].replies) ++ [⟨g.tag, 17, .done, []⟩] ∧
        (n ≠ l → t.src[n].replies = [] ∧ t.src[l].arrivals = s.src[l].arrivals.tail ∧
          t.src[l].state = s.src[l].state)) ∧
    (∀ d : Dest, fieldAt g.payload 0 1 = 4 + d.val →
      ∃ t, exec (.linkResetDest l) s = .next t ∧ RepliedToo l g .done [] s t ∧
        (∀ d' : Dest, d' ≠ d → t.dest[d'] = s.dest[d']) ∧
        (s.dest[d].state = .up ∨ s.dest[d].state = .retraining →
          t.dest[d] = { s.dest[d] with
            state := if s.dest[d].partner = true then .training else .down
            limit := .absent, inUse := 0, stall := false, queue := [], tx := none, retrain := none, timers := []
            openSet := [] } ∧ FailedAll d .link .destDown none s t) ∧
        (s.dest[d].state ≠ .up → s.dest[d].state ≠ .retraining → t.files = s.files ∧ t.log = s.log) ∧
        (s.dest[d].state = .training ∨ s.dest[d].state = .down →
          t.dest[d] = { s.dest[d] with state := if s.dest[d].partner = true then .training else .down }) ∧
        (s.dest[d].state = .quarantined →
          t.dest[d] = { s.dest[d].cut with aligned := false, limit := .absent, inUse := 0 }))

/-- R209, R19, R49, R103, R147, R173: a SOFT RESET frees every card, every file and every channel, discards every queued
segment that is not a CONTROL segment, empties the look engines but keeps their selections, and leaves each UP
destination the ABORTs of its open transfer set; it keeps the tables, the fault log, the loss counters, the key and open
counters and every generation. Its reply is queued first. What a freed channel keeps of its latched values is the model's
choice (LOG 44), and that a queued ABORT without a credit sets the stall flag and counts a CREDIT_STALL (LOG 45). R188:
the segment that reaches a head by it has its address decision made, and one that stays at a head keeps its own. -/
def Obligations.SoftResetFrees : Prop :=
  ∀ (l : SrcLink) (i : SlotIx) (g : Segment) (s : State), Serves l i g s → g.command = 18 → g.payload = [] →
    ∃ t, exec (.softReset l) s = .next t ∧
      t = { s with
        src := t.src, slots := t.slots, cards := t.cards, files := t.files, channels := t.channels
        engines := t.engines, dest := t.dest, counters := t.counters, freeCtr := t.freeCtr } ∧
      t.src[l].replies = s.src[l].replies ++ [⟨g.tag, 18, .done, []⟩] ∧
      (∀ m : SrcLink, t.src[m].state = s.src[m].state ∧
        ∀ x ∈ t.src[m].arrivals, x ∈ s.src[m].arrivals ∧ s.slots[x].seg.kind = 7) ∧
      (∀ (m : SrcLink) (x : SlotIx), x ∈ s.src[m].arrivals → x ≠ i → s.slots[x].seg.kind = 7 → x ∈ t.src[m].arrivals) ∧
      (∀ m : SrcLink, t.src[m].headAddressed =
        if t.src[m].arrivals.head? = s.src[m].arrivals.head? then s.src[m].headAddressed
        else decisionFor t.src[m].arrivals.head? s) ∧
      (∀ c : CardIx, t.cards[c] = none) ∧ (∀ j : FileIx, t.files[j] = ⟨s.files[j].gen, none⟩) ∧
      (∀ ch : Channel, t.channels[ch] = ChannelRec.initial) ∧
      (∀ e : Engine, t.engines[e].selection = s.engines[e].selection ∧ t.engines[e].queue = [] ∧
        t.engines[e].proc = none ∧ t.engines[e].follow = none ∧ t.engines[e].out = .none_ ∧
        t.engines[e].pendingGap = false ∧ t.engines[e].working = none) ∧
      (∀ d : Dest, t.dest[d].state = s.dest[d].state ∧ t.dest[d].openSet = s.dest[d].openSet ∧
        (s.dest[d].state = .up → s.dest[d].tx = none → QEntry.halt ∉ s.dest[d].queue →
          t.dest[d].queue = s.dest[d].openSet.map .abort))

/-! ### The Fault Log and the probes (chapters 8 and 9) -/

/-- R177, R178, R179, R180, R182: a created record is stored at the end of the log under a key that no present record
holds, the first free one from the key counter on, which then stands one above it; a FAULT notice of it is offered where
notices are on, and the verdict of the card that a HOLD record names is evaluated again. A full log drops its oldest
ACKED record first; with no ACKED record the new one is lost and counted, without a notice, and the card that holds its
label is marked. -/
def Obligations.FaultRecordStored : Prop :=
  ∀ (r : FaultRec) (s t : State), LogLaw s → t = logFault r s →
    t = { s with
      log := t.log, keyCounter := t.keyCounter, notices := t.notices, loss := t.loss, cards := t.cards } ∧
    (s.log.length < 64 → ∃ k, k < 65536 ∧ t.log = s.log ++ [{ r with key := k }] ∧
      Announced { r with key := k } s t ∧
      (∀ x ∈ s.log, x.key ≠ k) ∧ t.keyCounter = (k + 1) % 65536 ∧
      ((∀ x ∈ s.log, x.key ≠ s.keyCounter) → k = s.keyCounter) ∧
      ∀ m : Nat, m < 65536 → (m + 65536 - s.keyCounter) % 65536 < (k + 65536 - s.keyCounter) % 65536 →
        ∃ x ∈ s.log, x.key = m) ∧
    (s.log.length = 64 → ∀ before old after, s.log = before ++ old :: after → old.state = .acked →
      (∀ x ∈ before, x.state = .opened) → ∃ k, t.log = before ++ after ++ [{ r with key := k }] ∧
        Announced { r with key := k } s t ∧ ∀ x ∈ before ++ after, x.key ≠ k) ∧
    (s.log.length = 64 → (∀ x ∈ s.log, x.state = .opened) →
      t.log = s.log ∧ t.keyCounter = s.keyCounter ∧ t.notices = s.notices ∧
      t.loss = { s.loss with faultsLost := oneMore s.loss.faultsLost } ∧
      (∀ (label : Bytes) (c : CardIx) (k k' : Card), r.label = some label → NamesCard label c k s →
        k' = { k with lostMark := true } → t.cards = vmod s.cards c fun _ => some { k' with verdict := verdictOf t c k' }) ∧
      ((∀ label, r.label = some label → ∀ c : CardIx, (s.cards[c].map Card.label) ≠ some label) → t.cards = s.cards))

/-- R161 to R167, R171, R181: one probe at one evaluation. A disabled probe, and one whose source is unavailable, stays
as it is. One that does not flip, or whose flip its report mode does not report, changes its output and its run alone. A
report inside the dead window merges into the record it stands in: its merge count increments and its last frame becomes
the evaluation's. Any other makes a new record of class PROBE, or TEST in a test run, to which the window record is set;
where the full log has no ACKED record the new record is lost and the window record becomes absent. -/
def Obligations.ProbeReported : Prop :=
  ∀ (c : Channel) (p : Fin 8) (m : Measures) (frame : Nat) (q : LatchedProbe) (st : ProbeState) (s t : State),
    q = s.channels[c].probes[p] → st = s.channels[c].probeStates[p] → t = evalProbe c m frame p s →
    ∀ becomes : ProbeState → Vector ChannelRec 8,
    (∀ x, becomes x = vmod s.channels c fun k => { k with probeStates := vmod k.probeStates p fun _ => x }) →
    (q.enabled = false ∨ m.get q.source = none → t = s) ∧
    ∀ (v : Nat) (st' : ProbeState), q.enabled = true → m.get q.source = some v →
      (q.next st v = (st', false) → t = { s with channels := becomes st' }) ∧
      ∀ dir : FlipDirection, q.next st v = (st', true) → dir = (if st'.asserted = true then .asserted else .cleared) →
        ((q.mode = .assert ∧ dir = .cleared) ∨ (q.mode = .clear ∧ dir = .asserted) →
          t = { s with channels := becomes st' }) ∧
        ∀ r : FaultRec, reportOf c p dir frame v q.severity s.channels[c].state = some r →
          q.mode = .both ∨ (q.mode = .assert ∧ dir = .asserted) ∨ (q.mode = .clear ∧ dir = .cleared) →
          (∀ before x after, s.log = before ++ x :: after → (∀ y ∈ before ++ after, y.key ≠ x.key) →
            takesReport c p r.cls frame q.window st x = true →
            t = { s with
              channels := becomes st'
              log := before ++ { x with
                merges := oneMore x.merges, frames := x.frames.map fun y => { y with last := frame } } :: after }) ∧
          ((∀ x ∈ s.log, takesReport c p r.cls frame q.window st x = false) →
            (s.log.length < 64 → ∃ k, t.log = s.log ++ [{ r with key := k }] ∧ Announced { r with key := k } s t ∧
              t.channels = becomes { st' with window := some ⟨k, frame⟩ }) ∧
            (64 ≤ s.log.length → (∀ x ∈ s.log, x.state = .opened) → t.log = s.log ∧ t.notices = s.notices ∧
              t.loss = { s.loss with faultsLost := oneMore s.loss.faultsLost } ∧
              t.channels = becomes { st' with window := none }))

/-- R153: what a channel latches of a probe: its setting points as thresholds by its source, T_lo at most T_hi, and its
other fields as they are. R163, R164: a probe flips exactly when its raw condition has differed from its state for as
many evaluations running as its persistence: below that the run grows by one, and an evaluation whose raw condition
agrees sets it to zero. -/
def Obligations.ThresholdsAndPersistence : Prop :=
  (∀ (e : ProbeConfig) (pixels high : Nat), high = thresholdOf pixels e.dHi e.source →
    e.latch pixels = ⟨e.enabled, e.source, high, min (thresholdOf pixels e.dLo e.source) high, e.persistence, e.mode, e.window,
      e.severity⟩) ∧
  ∀ (q : LatchedProbe) (st : ProbeState) (vs : List Nat), 1 ≤ q.persistence →
    (∀ v ∈ vs, if st.asserted = true then v < q.tLo else q.tHi < v) → st.run = 0 →
    (vs.length < q.persistence →
      vs.foldl (fun x v => (q.next x v).1) st = { st with run := vs.length }) ∧
    (vs.length = q.persistence →
      vs.foldl (fun x v => (q.next x v).1) st = { st with asserted := !st.asserted, run := 0 }) ∧
    ∀ v n, (if st.asserted = true then q.tLo ≤ v else v ≤ q.tHi) →
      q.next { st with run := n } v = ({ st with run := 0 }, false)

/-! ### Layouts (chapters 10 and 11) -/

/-- R212: the bytes of a segment on its link read back as the segment, with every field at every value its bytes can
hold. That a segment of an unknown kind has no extension, and all its bytes after the header as its payload, is the
model's choice (LOG 26). -/
def Obligations.SegmentRoundTrip : Prop := ∀ g : Segment, g.fits = true → Segment.ofBytes g.toBytes = some g

/-- R191, R21, R101, R105, R123, R149, R195: what an entry of each of the six tables stores of its bytes: every quantity
is stored as it is within its range, and as the nearest end of the range outside it, the metadata offsets of a format
entry clamped a second time by the record length. So every entry read lies in range, and one that lies in range is read
back from its entry form unchanged. That the signed quantities of a LOOK entry are in two's complement, with the matrix
row by row, is the model's choice (LOG 17), as are the byte widths of a DEST_CONFIG entry (LOG 43). -/
def Obligations.TableEntriesRoundTrip : Prop :=
  (∀ e : RouteEntry, e.inRange → RouteEntry.read e.write = e) ∧
    (∀ e : FormatEntry, e.inRange → FormatEntry.read e.write = e) ∧
    (∀ e : LookTableEntry, e.inRange → LookTableEntry.read e.write = e) ∧
    (∀ e : ProfileEntry, e.inRange → ProfileEntry.read e.write = e) ∧
    (∀ e : DestConfig, e.inRange → DestConfig.read e.write = e) ∧
    (∀ e : PartConfig, e.inRange → PartConfig.read e.write = e) ∧
    ∀ b : Bytes,
      ((RouteEntry.read b).inRange ∧ (RouteEntry.read b).required = max 1 (min 6 (fieldAt b 8 1)) ∧
        (RouteEntry.read b).look.val = min 15 (fieldAt b 9 1)) ∧
      (∀ n, n = max 8 (min 1024 (fieldAt b 13 2)) → (FormatEntry.read b).inRange ∧
        (FormatEntry.read b).width = max 16 (min 1024 (fieldAt b 2 2)) ∧
        (FormatEntry.read b).height = max 16 (min 1024 (fieldAt b 4 2)) ∧ (FormatEntry.read b).recordLength = n ∧
        (FormatEntry.read b).timecodeOffset =
          (if fieldAt b 7 1 = 1 then some (min (n - 4) (min 1023 (fieldAt b 8 2))) else none) ∧
        (FormatEntry.read b).counterOffset =
          if fieldAt b 10 1 = 1 then some (min (n - 4) (min 1023 (fieldAt b 11 2))) else none) ∧
      ((LookTableEntry.read b).inRange ∧
        (∀ (i j : Fin 3) (v : Int), -32768 ≤ v → v ≤ 32767 →
          (fieldAt b (6 * i.val + 2 * j.val) 2 : Int) = v % 65536 → (LookTableEntry.read b).matrix[i][j] = v) ∧
        (∀ (i : Fin 3) (v : Int), -32768 ≤ v → v ≤ 32767 → (fieldAt b (18 + 2 * i.val) 2 : Int) = v % 65536 →
          (LookTableEntry.read b).offsets[i] = max (-4096) (min 4095 v)) ∧
        (∀ (i : Fin 3) (n : Fin 65), (LookTableEntry.read b).curves[i][n] =
          min 1023 (fieldAt b (24 + 130 * i.val + 2 * n.val) 2)) ∧
        ∀ i : Fin 3, (LookTableEntry.read b).marker[i] = min 1023 (fieldAt b (416 + 2 * i.val) 2)) ∧
      ((ProfileEntry.read b).inRange ∧ (ProfileEntry.read b).clipCode = min 4095 (fieldAt b 0 2) ∧
        (ProfileEntry.read b).blackCode = min 4095 (fieldAt b 2 2) ∧
        ∀ p : Fin 8, (ProfileEntry.read b).probes[p].dHi = fieldAt b (6 + 8 * p.val) 1 ∧
          (ProfileEntry.read b).probes[p].dLo = fieldAt b (7 + 8 * p.val) 1 ∧
          (ProfileEntry.read b).probes[p].persistence = max 1 (min 15 (fieldAt b (8 + 8 * p.val) 1)) ∧
          (ProfileEntry.read b).probes[p].window = fieldAt b (10 + 8 * p.val) 1) ∧
      ((DestConfig.read b).inRange ∧ (DestConfig.read b).verifyTimeout = max 1 (min 3600 (fieldAt b 1 2)) ∧
        (DestConfig.read b).retrainLimit = max 10 (min 1000 (fieldAt b 3 2))) ∧
      (PartConfig.read b).inRange ∧ (PartConfig.read b).threshold = min 15 (fieldAt b 5 1)

/-! ### Arithmetic (chapters 4, 6 and 7) -/

/-- R64, R66, R68: the word step of the digest, and that nothing else enters it. Four bytes are the word w: A becomes A +
w modulo 4294967291, and then B becomes B + A with the new A. A run shorter than a word is carried; how a file's bytes
are cut into payloads makes no difference; and at the end the carried bytes are completed with zero bytes. Both sums stay
below the modulus. -/
def Obligations.DigestIgnoresCuts : Prop :=
  ∀ (x : Sums) (a b : Bytes), x.carried.length < 4 →
    (∀ (w0 w1 w2 w3 : Byte) (sum : Nat), x.carried = [] →
      sum = (x.a + (w0.toNat + 256 * w1.toNat + 65536 * w2.toNat + 16777216 * w3.toNat)) % 4294967291 →
      x.advance [w0, w1, w2, w3] = ⟨sum, (x.b + sum) % 4294967291, []⟩) ∧
    ((x.carried ++ a).length < 4 → x.advance a = { x with carried := x.carried ++ a }) ∧
    (x.advance a).advance b = x.advance (a ++ b) ∧ (x.advance a).carried.length < 4 ∧
    (x.carried = [] → x.finalise = x) ∧
    (x.carried ≠ [] → x.finalise = x.advance (List.replicate (4 - x.carried.length) 0)) ∧
    x.value = x.b * 4294967296 + x.a ∧
    (x.a < 4294967291 → x.b < 4294967291 → (x.advance a).a < 4294967291 ∧ (x.advance a).b < 4294967291)

/-- R126: the rounding table, on the decomposition acc = n·d + r with r in 0..n-1, for n = 4096 (stage 1) and for n = 64
(stage 2, R129). -/
def Obligations.RoundingTable : Prop :=
  (∀ (k : LookTableEntry) (c : Fin 3) (x : Pixel), k.stage1 c x = roundDiv k.rounding 4096 (k.acc c x)) ∧
    (∀ (mode : Rounding) (c : Vector Nat 65) (x : Nat),
      (stage2 mode c x : Int) = max 0 (roundDiv mode 64 (curveSum c x))) ∧
    ∀ n a d r : Int, n = 4096 ∨ n = 64 → a = n * d + r → 0 ≤ r → r < n →
      roundDiv .down n a = d ∧
      roundDiv .up n a = (if r = 0 then d else d + 1) ∧
      roundDiv .towardZero n a = (if r = 0 ∨ 0 ≤ a then d else d + 1) ∧
      roundDiv .nearestEven n a =
        if 2 * r < n then d else if n < 2 * r then d + 1 else if d % 2 = 0 then d else d + 1

/-- R107, R108: the pixels of a payload, as 12-bit codes. R124, R125, R127, R128, R129, R130: the accumulation of a look
in range stays within the stated bound; a pixel it grades has output values of at most 1023. Under MARK a range pixel
becomes the marker; any other pixel has on each of its three channels the stage-2 value of what stage 1 gives, saturated,
through the channel's curve, and that value lies between the two curve points it interpolates, equals them where they are
equal, and is then exact. -/
def Obligations.GradedPixels : Prop :=
  (∀ (r g b : Byte) (rest : Bytes), pixelsOf .p8 (r :: g :: b :: rest) =
    ⟨r.toNat * 16 + r.toNat / 16, g.toNat * 16 + g.toNat / 16, b.toNat * 16 + b.toNat / 16⟩ :: pixelsOf .p8 rest) ∧
  (∀ (r g b spare : Nat) (rest : Bytes), r < 1024 → g < 1024 → b < 1024 → spare < 4 →
    pixelsOf .p10w (le 4 (r + 1024 * g + 1048576 * b + 1073741824 * spare) ++ rest) =
      ⟨r * 4 + r / 256, g * 4 + g / 256, b * 4 + b / 256⟩ :: pixelsOf .p10w rest) ∧
  (∀ (r g b x y z : Nat) (rest : Bytes), r < 4096 → g < 4096 → b < 4096 → x < 16 → y < 16 → z < 16 →
    pixelsOf .p12h (le 2 (r + 4096 * x) ++ le 2 (g + 4096 * y) ++ le 2 (b + 4096 * z) ++ rest) =
      ⟨r, g, b⟩ :: pixelsOf .p12h rest) ∧
  ∀ (k : LookTableEntry) (x : Pixel), k.inRange → x.r ≤ 4095 → x.g ≤ 4095 → x.b ≤ 4095 →
    (∀ c : Fin 3, k.acc c x = k.matrix[c][0] * (x.r : Int) + k.matrix[c][1] * (x.g : Int) + k.matrix[c][2] * (x.b : Int) +
      k.offsets[c] * 4096 ∧ |k.acc c x| ≤ 419332096) ∧
    (k.isRangePixel x = true ↔ ∃ c : Fin 3, k.stage1 c x < 0 ∨ 4095 < k.stage1 c x) ∧
    (k.grade x).1.r ≤ 1023 ∧ (k.grade x).1.g ≤ 1023 ∧ (k.grade x).1.b ≤ 1023 ∧
    (k.policy = .mark → k.isRangePixel x = true → (k.grade x).1 = ⟨k.marker[0], k.marker[1], k.marker[2]⟩) ∧
    (k.policy = .saturate ∨ k.isRangePixel x = false → ∀ (q y : Fin 3 → Nat),
      (∀ c, q c = (max 0 (min 4095 (k.stage1 c x))).toNat) →
      (∀ c, y c = stage2 k.rounding k.curves[c] (q c)) → (k.grade x).1 = ⟨y 0, y 1, y 2⟩) ∧
    ∀ (c : Fin 3) (n low high : Nat), n ≤ 4095 → low = k.curves[c].toList.getD (n / 64) 0 →
      high = k.curves[c].toList.getD (n / 64 + 1) 0 →
      min low high ≤ stage2 k.rounding k.curves[c] n ∧ stage2 k.rounding k.curves[c] n ≤ max low high ∧
      (low = high → (cond2 k.curves[c] n).inexact = false)

/-- R121, R117, R119: the successor of a valid timecode is valid and the next one in the count of the day's frames; every
valid timecode is the one that some four bytes hold; and a record whose timecode is the successor of the previous one
shows no break, any other one a break. -/
def Obligations.TimecodeSuccession : Prop :=
  ∀ (rate : FrameRate) (t : Timecode), t.frames < rate.fps → t.seconds < 60 → t.minutes < 60 → t.hours < 24 →
    (let u := t.successor rate; u.frames < rate.fps ∧ u.seconds < 60 ∧ u.minutes < 60 ∧ u.hours < 24 ∧
      ((u.hours * 60 + u.minutes) * 60 + u.seconds) * rate.fps + u.frames =
        ((((t.hours * 60 + t.minutes) * 60 + t.seconds) * rate.fps + t.frames) + 1) % (86400 * rate.fps)) ∧
    (∃ b : Bytes, b.length = 4 ∧ decodeTimecode rate b = .valid t) ∧
    ∀ u : Timecode, (TimecodeField.valid u).measureBreak (some t) rate =
      some (if u = t.successor rate then 0 else 1)
end

