-- ==== Sys2Proof/Laws/State.lean ====
section
/-! SUPPORT. The elementary updates of State: what each field is after each update, and reading a changed vector. -/

namespace Sys2Proof.Machine

open Sys2Proof

/-! ### Reading a changed vector -/

/-- A changed place reads as the change gives. -/
theorem vmod_self {α : Type} {n : Nat} (v : Vector α n) (i : Fin n) (f : α → α) : (vmod v i f)[i] = f v[i] := by
  simp [vmod]

/-- The same, with the place as a number. -/
@[simp] theorem vmod_self_val {α : Type} {n : Nat} (v : Vector α n) (i : Fin n) (f : α → α) :
    (vmod v i f)[i.val] = f v[i.val] := vmod_self v i f

/-- Every other place reads as before. -/
theorem vmod_other {α : Type} {n : Nat} (v : Vector α n) (i j : Fin n) (f : α → α) (h : j ≠ i) :
    (vmod v i f)[j] = v[j] := by
  have : i.val ≠ j.val := fun e => h (Fin.ext e.symm)
  simp [vmod, this]

/-- A changed vector, read at any place. -/
theorem vmod_get {α : Type} {n : Nat} (v : Vector α n) (i j : Fin n) (f : α → α) :
    (vmod v i f)[j] = if j = i then f v[i] else v[j] := by
  by_cases h : j = i
  · rw [h, if_pos rfl, vmod_self]
  · rw [if_neg h, vmod_other v i j f h]

/-- Two vectors that read the same at every place are the same. -/
theorem vector_ext {α : Type} {n : Nat} {v w : Vector α n} (h : ∀ i : Fin n, v[i] = w[i]) : v = w :=
  Vector.ext fun k hk => h ⟨k, hk⟩

/-- Two changes of one place are one change. -/
theorem vmod_vmod {α : Type} {n : Nat} (v : Vector α n) (i : Fin n) (f g : α → α) :
    vmod (vmod v i f) i g = vmod v i fun x => g (f x) := by
  apply vector_ext; intro j; simp only [vmod_get]; split <;> simp_all

/-- A change to what stands there already is none. -/
theorem vmod_same {α : Type} {n : Nat} (v : Vector α n) (i : Fin n) (f : α → α) (h : f v[i] = v[i]) : vmod v i f = v := by
  apply vector_ext; intro j; simp only [vmod_get]; split <;> simp_all

/-- The lowest number that satisfies a test satisfies it. -/
theorem firstIx_sound {n : Nat} {p : Fin n → Bool} {i : Fin n} (h : firstIx p = some i) : p i = true :=
  List.find?_some h

/-- Where no number satisfies a test there is no lowest one. -/
theorem firstIx_none {n : Nat} {p : Fin n → Bool} : firstIx p = none ↔ ∀ i, p i = false := by
  simp [firstIx]

/-- The number with no lower one that satisfies the test is the lowest. -/
theorem firstIx_lowest {n : Nat} {p : Fin n → Bool} {i : Fin n} (hi : p i = true) (hlow : ∀ j, j < i → p j = false) :
    firstIx p = some i := by
  rw [firstIx, List.find?_eq_some_iff_getElem]
  refine ⟨hi, i.val, by simp, by simp, ?_⟩
  intro j hj
  simpa using hlow ⟨j, by omega⟩ (Fin.lt_def.mpr (by simpa using hj))

/-- A test that one number alone satisfies finds it. -/
theorem firstIx_unique {n : Nat} {p : Fin n → Bool} {i : Fin n} (hi : p i = true) (h : ∀ j, p j = true → j = i) :
    firstIx p = some i :=
  firstIx_lowest hi fun j hj => by
    cases hp : p j with
    | false => rfl
    | true => exact absurd (h j hp) (ne_of_lt hj)

/-- The numbers a test passes. -/
theorem mem_allIx {n : Nat} {p : Fin n → Bool} {i : Fin n} : i ∈ allIx p ↔ p i = true := by
  simp [allIx]

/-! ### Each field after each update -/

@[simp] theorem modSrc_src (l : SrcLink) (f : SrcPort → SrcPort) (s : State) :
    (modSrc l f s).src = vmod s.src l f := rfl
@[simp] theorem modSrc_notices (l : SrcLink) (f : SrcPort → SrcPort) (s : State) :
    (modSrc l f s).notices = s.notices := rfl
@[simp] theorem modSrc_slots (l : SrcLink) (f : SrcPort → SrcPort) (s : State) :
    (modSrc l f s).slots = s.slots := rfl
@[simp] theorem modSrc_routes (l : SrcLink) (f : SrcPort → SrcPort) (s : State) :
    (modSrc l f s).routes = s.routes := rfl
@[simp] theorem modSrc_formats (l : SrcLink) (f : SrcPort → SrcPort) (s : State) :
    (modSrc l f s).formats = s.formats := rfl
@[simp] theorem modSrc_looks (l : SrcLink) (f : SrcPort → SrcPort) (s : State) :
    (modSrc l f s).looks = s.looks := rfl
@[simp] theorem modSrc_profiles (l : SrcLink) (f : SrcPort → SrcPort) (s : State) :
    (modSrc l f s).profiles = s.profiles := rfl
@[simp] theorem modSrc_destConfig (l : SrcLink) (f : SrcPort → SrcPort) (s : State) :
    (modSrc l f s).destConfig = s.destConfig := rfl
@[simp] theorem modSrc_part (l : SrcLink) (f : SrcPort → SrcPort) (s : State) :
    (modSrc l f s).part = s.part := rfl
@[simp] theorem modSrc_cards (l : SrcLink) (f : SrcPort → SrcPort) (s : State) :
    (modSrc l f s).cards = s.cards := rfl
@[simp] theorem modSrc_files (l : SrcLink) (f : SrcPort → SrcPort) (s : State) :
    (modSrc l f s).files = s.files := rfl
@[simp] theorem modSrc_openCounter (l : SrcLink) (f : SrcPort → SrcPort) (s : State) :
    (modSrc l f s).openCounter = s.openCounter := rfl
@[simp] theorem modSrc_dest (l : SrcLink) (f : SrcPort → SrcPort) (s : State) :
    (modSrc l f s).dest = s.dest := rfl
@[simp] theorem modSrc_engines (l : SrcLink) (f : SrcPort → SrcPort) (s : State) :
    (modSrc l f s).engines = s.engines := rfl
@[simp] theorem modSrc_channels (l : SrcLink) (f : SrcPort → SrcPort) (s : State) :
    (modSrc l f s).channels = s.channels := rfl
@[simp] theorem modSrc_log (l : SrcLink) (f : SrcPort → SrcPort) (s : State) :
    (modSrc l f s).log = s.log := rfl
@[simp] theorem modSrc_keyCounter (l : SrcLink) (f : SrcPort → SrcPort) (s : State) :
    (modSrc l f s).keyCounter = s.keyCounter := rfl
@[simp] theorem modSrc_partAddress (l : SrcLink) (f : SrcPort → SrcPort) (s : State) :
    (modSrc l f s).partAddress = s.partAddress := rfl
@[simp] theorem modSrc_counters (l : SrcLink) (f : SrcPort → SrcPort) (s : State) :
    (modSrc l f s).counters = s.counters := rfl
@[simp] theorem modSrc_loss (l : SrcLink) (f : SrcPort → SrcPort) (s : State) :
    (modSrc l f s).loss = s.loss := rfl
@[simp] theorem modSrc_resetLow (l : SrcLink) (f : SrcPort → SrcPort) (s : State) :
    (modSrc l f s).resetLow = s.resetLow := rfl
@[simp] theorem modSrc_freeCtr (l : SrcLink) (f : SrcPort → SrcPort) (s : State) :
    (modSrc l f s).freeCtr = s.freeCtr := rfl
@[simp] theorem modSrc_pending (l : SrcLink) (f : SrcPort → SrcPort) (s : State) :
    (modSrc l f s).pending = s.pending := rfl

@[simp] theorem modSlot_src (i : SlotIx) (f : Slot → Slot) (s : State) :
    (modSlot i f s).src = s.src := rfl
@[simp] theorem modSlot_notices (i : SlotIx) (f : Slot → Slot) (s : State) :
    (modSlot i f s).notices = s.notices := rfl
@[simp] theorem modSlot_slots (i : SlotIx) (f : Slot → Slot) (s : State) :
    (modSlot i f s).slots = vmod s.slots i f := rfl
@[simp] theorem modSlot_routes (i : SlotIx) (f : Slot → Slot) (s : State) :
    (modSlot i f s).routes = s.routes := rfl
@[simp] theorem modSlot_formats (i : SlotIx) (f : Slot → Slot) (s : State) :
    (modSlot i f s).formats = s.formats := rfl
@[simp] theorem modSlot_looks (i : SlotIx) (f : Slot → Slot) (s : State) :
    (modSlot i f s).looks = s.looks := rfl
@[simp] theorem modSlot_profiles (i : SlotIx) (f : Slot → Slot) (s : State) :
    (modSlot i f s).profiles = s.profiles := rfl
@[simp] theorem modSlot_destConfig (i : SlotIx) (f : Slot → Slot) (s : State) :
    (modSlot i f s).destConfig = s.destConfig := rfl
@[simp] theorem modSlot_part (i : SlotIx) (f : Slot → Slot) (s : State) :
    (modSlot i f s).part = s.part := rfl
@[simp] theorem modSlot_cards (i : SlotIx) (f : Slot → Slot) (s : State) :
    (modSlot i f s).cards = s.cards := rfl
@[simp] theorem modSlot_files (i : SlotIx) (f : Slot → Slot) (s : State) :
    (modSlot i f s).files = s.files := rfl
@[simp] theorem modSlot_openCounter (i : SlotIx) (f : Slot → Slot) (s : State) :
    (modSlot i f s).openCounter = s.openCounter := rfl
@[simp] theorem modSlot_dest (i : SlotIx) (f : Slot → Slot) (s : State) :
    (modSlot i f s).dest = s.dest := rfl
@[simp] theorem modSlot_engines (i : SlotIx) (f : Slot → Slot) (s : State) :
    (modSlot i f s).engines = s.engines := rfl
@[simp] theorem modSlot_channels (i : SlotIx) (f : Slot → Slot) (s : State) :
    (modSlot i f s).channels = s.channels := rfl
@[simp] theorem modSlot_log (i : SlotIx) (f : Slot → Slot) (s : State) :
    (modSlot i f s).log = s.log := rfl
@[simp] theorem modSlot_keyCounter (i : SlotIx) (f : Slot → Slot) (s : State) :
    (modSlot i f s).keyCounter = s.keyCounter := rfl
@[simp] theorem modSlot_partAddress (i : SlotIx) (f : Slot → Slot) (s : State) :
    (modSlot i f s).partAddress = s.partAddress := rfl
@[simp] theorem modSlot_counters (i : SlotIx) (f : Slot → Slot) (s : State) :
    (modSlot i f s).counters = s.counters := rfl
@[simp] theorem modSlot_loss (i : SlotIx) (f : Slot → Slot) (s : State) :
    (modSlot i f s).loss = s.loss := rfl
@[simp] theorem modSlot_resetLow (i : SlotIx) (f : Slot → Slot) (s : State) :
    (modSlot i f s).resetLow = s.resetLow := rfl
@[simp] theorem modSlot_freeCtr (i : SlotIx) (f : Slot → Slot) (s : State) :
    (modSlot i f s).freeCtr = s.freeCtr := rfl
@[simp] theorem modSlot_pending (i : SlotIx) (f : Slot → Slot) (s : State) :
    (modSlot i f s).pending = s.pending := rfl

@[simp] theorem modDest_src (d : Dest) (f : DestPort → DestPort) (s : State) :
    (modDest d f s).src = s.src := rfl
@[simp] theorem modDest_notices (d : Dest) (f : DestPort → DestPort) (s : State) :
    (modDest d f s).notices = s.notices := rfl
@[simp] theorem modDest_slots (d : Dest) (f : DestPort → DestPort) (s : State) :
    (modDest d f s).slots = s.slots := rfl
@[simp] theorem modDest_routes (d : Dest) (f : DestPort → DestPort) (s : State) :
    (modDest d f s).routes = s.routes := rfl
@[simp] theorem modDest_formats (d : Dest) (f : DestPort → DestPort) (s : State) :
    (modDest d f s).formats = s.formats := rfl
@[simp] theorem modDest_looks (d : Dest) (f : DestPort → DestPort) (s : State) :
    (modDest d f s).looks = s.looks := rfl
@[simp] theorem modDest_profiles (d : Dest) (f : DestPort → DestPort) (s : State) :
    (modDest d f s).profiles = s.profiles := rfl
@[simp] theorem modDest_destConfig (d : Dest) (f : DestPort → DestPort) (s : State) :
    (modDest d f s).destConfig = s.destConfig := rfl
@[simp] theorem modDest_part (d : Dest) (f : DestPort → DestPort) (s : State) :
    (modDest d f s).part = s.part := rfl
@[simp] theorem modDest_cards (d : Dest) (f : DestPort → DestPort) (s : State) :
    (modDest d f s).cards = s.cards := rfl
@[simp] theorem modDest_files (d : Dest) (f : DestPort → DestPort) (s : State) :
    (modDest d f s).files = s.files := rfl
@[simp] theorem modDest_openCounter (d : Dest) (f : DestPort → DestPort) (s : State) :
    (modDest d f s).openCounter = s.openCounter := rfl
@[simp] theorem modDest_dest (d : Dest) (f : DestPort → DestPort) (s : State) :
    (modDest d f s).dest = vmod s.dest d f := rfl
@[simp] theorem modDest_engines (d : Dest) (f : DestPort → DestPort) (s : State) :
    (modDest d f s).engines = s.engines := rfl
@[simp] theorem modDest_channels (d : Dest) (f : DestPort → DestPort) (s : State) :
    (modDest d f s).channels = s.channels := rfl
@[simp] theorem modDest_log (d : Dest) (f : DestPort → DestPort) (s : State) :
    (modDest d f s).log = s.log := rfl
@[simp] theorem modDest_keyCounter (d : Dest) (f : DestPort → DestPort) (s : State) :
    (modDest d f s).keyCounter = s.keyCounter := rfl
@[simp] theorem modDest_partAddress (d : Dest) (f : DestPort → DestPort) (s : State) :
    (modDest d f s).partAddress = s.partAddress := rfl
@[simp] theorem modDest_counters (d : Dest) (f : DestPort → DestPort) (s : State) :
    (modDest d f s).counters = s.counters := rfl
@[simp] theorem modDest_loss (d : Dest) (f : DestPort → DestPort) (s : State) :
    (modDest d f s).loss = s.loss := rfl
@[simp] theorem modDest_resetLow (d : Dest) (f : DestPort → DestPort) (s : State) :
    (modDest d f s).resetLow = s.resetLow := rfl
@[simp] theorem modDest_freeCtr (d : Dest) (f : DestPort → DestPort) (s : State) :
    (modDest d f s).freeCtr = s.freeCtr := rfl
@[simp] theorem modDest_pending (d : Dest) (f : DestPort → DestPort) (s : State) :
    (modDest d f s).pending = s.pending := rfl

@[simp] theorem modEngine_src (e : Engine) (f : EngineState → EngineState) (s : State) :
    (modEngine e f s).src = s.src := rfl
@[simp] theorem modEngine_notices (e : Engine) (f : EngineState → EngineState) (s : State) :
    (modEngine e f s).notices = s.notices := rfl
@[simp] theorem modEngine_slots (e : Engine) (f : EngineState → EngineState) (s : State) :
    (modEngine e f s).slots = s.slots := rfl
@[simp] theorem modEngine_routes (e : Engine) (f : EngineState → EngineState) (s : State) :
    (modEngine e f s).routes = s.routes := rfl
@[simp] theorem modEngine_formats (e : Engine) (f : EngineState → EngineState) (s : State) :
    (modEngine e f s).formats = s.formats := rfl
@[simp] theorem modEngine_looks (e : Engine) (f : EngineState → EngineState) (s : State) :
    (modEngine e f s).looks = s.looks := rfl
@[simp] theorem modEngine_profiles (e : Engine) (f : EngineState → EngineState) (s : State) :
    (modEngine e f s).profiles = s.profiles := rfl
@[simp] theorem modEngine_destConfig (e : Engine) (f : EngineState → EngineState) (s : State) :
    (modEngine e f s).destConfig = s.destConfig := rfl
@[simp] theorem modEngine_part (e : Engine) (f : EngineState → EngineState) (s : State) :
    (modEngine e f s).part = s.part := rfl
@[simp] theorem modEngine_cards (e : Engine) (f : EngineState → EngineState) (s : State) :
    (modEngine e f s).cards = s.cards := rfl
@[simp] theorem modEngine_files (e : Engine) (f : EngineState → EngineState) (s : State) :
    (modEngine e f s).files = s.files := rfl
@[simp] theorem modEngine_openCounter (e : Engine) (f : EngineState → EngineState) (s : State) :
    (modEngine e f s).openCounter = s.openCounter := rfl
@[simp] theorem modEngine_dest (e : Engine) (f : EngineState → EngineState) (s : State) :
    (modEngine e f s).dest = s.dest := rfl
@[simp] theorem modEngine_engines (e : Engine) (f : EngineState → EngineState) (s : State) :
    (modEngine e f s).engines = vmod s.engines e f := rfl
@[simp] theorem modEngine_channels (e : Engine) (f : EngineState → EngineState) (s : State) :
    (modEngine e f s).channels = s.channels := rfl
@[simp] theorem modEngine_log (e : Engine) (f : EngineState → EngineState) (s : State) :
    (modEngine e f s).log = s.log := rfl
@[simp] theorem modEngine_keyCounter (e : Engine) (f : EngineState → EngineState) (s : State) :
    (modEngine e f s).keyCounter = s.keyCounter := rfl
@[simp] theorem modEngine_partAddress (e : Engine) (f : EngineState → EngineState) (s : State) :
    (modEngine e f s).partAddress = s.partAddress := rfl
@[simp] theorem modEngine_counters (e : Engine) (f : EngineState → EngineState) (s : State) :
    (modEngine e f s).counters = s.counters := rfl
@[simp] theorem modEngine_loss (e : Engine) (f : EngineState → EngineState) (s : State) :
    (modEngine e f s).loss = s.loss := rfl
@[simp] theorem modEngine_resetLow (e : Engine) (f : EngineState → EngineState) (s : State) :
    (modEngine e f s).resetLow = s.resetLow := rfl
@[simp] theorem modEngine_freeCtr (e : Engine) (f : EngineState → EngineState) (s : State) :
    (modEngine e f s).freeCtr = s.freeCtr := rfl
@[simp] theorem modEngine_pending (e : Engine) (f : EngineState → EngineState) (s : State) :
    (modEngine e f s).pending = s.pending := rfl

@[simp] theorem modChannel_src (c : Channel) (f : ChannelRec → ChannelRec) (s : State) :
    (modChannel c f s).src = s.src := rfl
@[simp] theorem modChannel_notices (c : Channel) (f : ChannelRec → ChannelRec) (s : State) :
    (modChannel c f s).notices = s.notices := rfl
@[simp] theorem modChannel_slots (c : Channel) (f : ChannelRec → ChannelRec) (s : State) :
    (modChannel c f s).slots = s.slots := rfl
@[simp] theorem modChannel_routes (c : Channel) (f : ChannelRec → ChannelRec) (s : State) :
    (modChannel c f s).routes = s.routes := rfl
@[simp] theorem modChannel_formats (c : Channel) (f : ChannelRec → ChannelRec) (s : State) :
    (modChannel c f s).formats = s.formats := rfl
@[simp] theorem modChannel_looks (c : Channel) (f : ChannelRec → ChannelRec) (s : State) :
    (modChannel c f s).looks = s.looks := rfl
@[simp] theorem modChannel_profiles (c : Channel) (f : ChannelRec → ChannelRec) (s : State) :
    (modChannel c f s).profiles = s.profiles := rfl
@[simp] theorem modChannel_destConfig (c : Channel) (f : ChannelRec → ChannelRec) (s : State) :
    (modChannel c f s).destConfig = s.destConfig := rfl
@[simp] theorem modChannel_part (c : Channel) (f : ChannelRec → ChannelRec) (s : State) :
    (modChannel c f s).part = s.part := rfl
@[simp] theorem modChannel_cards (c : Channel) (f : ChannelRec → ChannelRec) (s : State) :
    (modChannel c f s).cards = s.cards := rfl
@[simp] theorem modChannel_files (c : Channel) (f : ChannelRec → ChannelRec) (s : State) :
    (modChannel c f s).files = s.files := rfl
@[simp] theorem modChannel_openCounter (c : Channel) (f : ChannelRec → ChannelRec) (s : State) :
    (modChannel c f s).openCounter = s.openCounter := rfl
@[simp] theorem modChannel_dest (c : Channel) (f : ChannelRec → ChannelRec) (s : State) :
    (modChannel c f s).dest = s.dest := rfl
@[simp] theorem modChannel_engines (c : Channel) (f : ChannelRec → ChannelRec) (s : State) :
    (modChannel c f s).engines = s.engines := rfl
@[simp] theorem modChannel_channels (c : Channel) (f : ChannelRec → ChannelRec) (s : State) :
    (modChannel c f s).channels = vmod s.channels c f := rfl
@[simp] theorem modChannel_log (c : Channel) (f : ChannelRec → ChannelRec) (s : State) :
    (modChannel c f s).log = s.log := rfl
@[simp] theorem modChannel_keyCounter (c : Channel) (f : ChannelRec → ChannelRec) (s : State) :
    (modChannel c f s).keyCounter = s.keyCounter := rfl
@[simp] theorem modChannel_partAddress (c : Channel) (f : ChannelRec → ChannelRec) (s : State) :
    (modChannel c f s).partAddress = s.partAddress := rfl
@[simp] theorem modChannel_counters (c : Channel) (f : ChannelRec → ChannelRec) (s : State) :
    (modChannel c f s).counters = s.counters := rfl
@[simp] theorem modChannel_loss (c : Channel) (f : ChannelRec → ChannelRec) (s : State) :
    (modChannel c f s).loss = s.loss := rfl
@[simp] theorem modChannel_resetLow (c : Channel) (f : ChannelRec → ChannelRec) (s : State) :
    (modChannel c f s).resetLow = s.resetLow := rfl
@[simp] theorem modChannel_freeCtr (c : Channel) (f : ChannelRec → ChannelRec) (s : State) :
    (modChannel c f s).freeCtr = s.freeCtr := rfl
@[simp] theorem modChannel_pending (c : Channel) (f : ChannelRec → ChannelRec) (s : State) :
    (modChannel c f s).pending = s.pending := rfl

@[simp] theorem modCard_src (c : CardIx) (f : Card → Card) (s : State) :
    (modCard c f s).src = s.src := rfl
@[simp] theorem modCard_notices (c : CardIx) (f : Card → Card) (s : State) :
    (modCard c f s).notices = s.notices := rfl
@[simp] theorem modCard_slots (c : CardIx) (f : Card → Card) (s : State) :
    (modCard c f s).slots = s.slots := rfl
@[simp] theorem modCard_routes (c : CardIx) (f : Card → Card) (s : State) :
    (modCard c f s).routes = s.routes := rfl
@[simp] theorem modCard_formats (c : CardIx) (f : Card → Card) (s : State) :
    (modCard c f s).formats = s.formats := rfl
@[simp] theorem modCard_looks (c : CardIx) (f : Card → Card) (s : State) :
    (modCard c f s).looks = s.looks := rfl
@[simp] theorem modCard_profiles (c : CardIx) (f : Card → Card) (s : State) :
    (modCard c f s).profiles = s.profiles := rfl
@[simp] theorem modCard_destConfig (c : CardIx) (f : Card → Card) (s : State) :
    (modCard c f s).destConfig = s.destConfig := rfl
@[simp] theorem modCard_part (c : CardIx) (f : Card → Card) (s : State) :
    (modCard c f s).part = s.part := rfl
@[simp] theorem modCard_cards (c : CardIx) (f : Card → Card) (s : State) :
    (modCard c f s).cards = vmod s.cards c (Option.map f) := rfl
@[simp] theorem modCard_files (c : CardIx) (f : Card → Card) (s : State) :
    (modCard c f s).files = s.files := rfl
@[simp] theorem modCard_openCounter (c : CardIx) (f : Card → Card) (s : State) :
    (modCard c f s).openCounter = s.openCounter := rfl
@[simp] theorem modCard_dest (c : CardIx) (f : Card → Card) (s : State) :
    (modCard c f s).dest = s.dest := rfl
@[simp] theorem modCard_engines (c : CardIx) (f : Card → Card) (s : State) :
    (modCard c f s).engines = s.engines := rfl
@[simp] theorem modCard_channels (c : CardIx) (f : Card → Card) (s : State) :
    (modCard c f s).channels = s.channels := rfl
@[simp] theorem modCard_log (c : CardIx) (f : Card → Card) (s : State) :
    (modCard c f s).log = s.log := rfl
@[simp] theorem modCard_keyCounter (c : CardIx) (f : Card → Card) (s : State) :
    (modCard c f s).keyCounter = s.keyCounter := rfl
@[simp] theorem modCard_partAddress (c : CardIx) (f : Card → Card) (s : State) :
    (modCard c f s).partAddress = s.partAddress := rfl
@[simp] theorem modCard_counters (c : CardIx) (f : Card → Card) (s : State) :
    (modCard c f s).counters = s.counters := rfl
@[simp] theorem modCard_loss (c : CardIx) (f : Card → Card) (s : State) :
    (modCard c f s).loss = s.loss := rfl
@[simp] theorem modCard_resetLow (c : CardIx) (f : Card → Card) (s : State) :
    (modCard c f s).resetLow = s.resetLow := rfl
@[simp] theorem modCard_freeCtr (c : CardIx) (f : Card → Card) (s : State) :
    (modCard c f s).freeCtr = s.freeCtr := rfl
@[simp] theorem modCard_pending (c : CardIx) (f : Card → Card) (s : State) :
    (modCard c f s).pending = s.pending := rfl

@[simp] theorem putCard_src (c : CardIx) (f : Option Card) (s : State) :
    (putCard c f s).src = s.src := rfl
@[simp] theorem putCard_notices (c : CardIx) (f : Option Card) (s : State) :
    (putCard c f s).notices = s.notices := rfl
@[simp] theorem putCard_slots (c : CardIx) (f : Option Card) (s : State) :
    (putCard c f s).slots = s.slots := rfl
@[simp] theorem putCard_routes (c : CardIx) (f : Option Card) (s : State) :
    (putCard c f s).routes = s.routes := rfl
@[simp] theorem putCard_formats (c : CardIx) (f : Option Card) (s : State) :
    (putCard c f s).formats = s.formats := rfl
@[simp] theorem putCard_looks (c : CardIx) (f : Option Card) (s : State) :
    (putCard c f s).looks = s.looks := rfl
@[simp] theorem putCard_profiles (c : CardIx) (f : Option Card) (s : State) :
    (putCard c f s).profiles = s.profiles := rfl
@[simp] theorem putCard_destConfig (c : CardIx) (f : Option Card) (s : State) :
    (putCard c f s).destConfig = s.destConfig := rfl
@[simp] theorem putCard_part (c : CardIx) (f : Option Card) (s : State) :
    (putCard c f s).part = s.part := rfl
@[simp] theorem putCard_cards (c : CardIx) (f : Option Card) (s : State) :
    (putCard c f s).cards = vmod s.cards c fun _ => f := rfl
@[simp] theorem putCard_files (c : CardIx) (f : Option Card) (s : State) :
    (putCard c f s).files = s.files := rfl
@[simp] theorem putCard_openCounter (c : CardIx) (f : Option Card) (s : State) :
    (putCard c f s).openCounter = s.openCounter := rfl
@[simp] theorem putCard_dest (c : CardIx) (f : Option Card) (s : State) :
    (putCard c f s).dest = s.dest := rfl
@[simp] theorem putCard_engines (c : CardIx) (f : Option Card) (s : State) :
    (putCard c f s).engines = s.engines := rfl
@[simp] theorem putCard_channels (c : CardIx) (f : Option Card) (s : State) :
    (putCard c f s).channels = s.channels := rfl
@[simp] theorem putCard_log (c : CardIx) (f : Option Card) (s : State) :
    (putCard c f s).log = s.log := rfl
@[simp] theorem putCard_keyCounter (c : CardIx) (f : Option Card) (s : State) :
    (putCard c f s).keyCounter = s.keyCounter := rfl
@[simp] theorem putCard_partAddress (c : CardIx) (f : Option Card) (s : State) :
    (putCard c f s).partAddress = s.partAddress := rfl
@[simp] theorem putCard_counters (c : CardIx) (f : Option Card) (s : State) :
    (putCard c f s).counters = s.counters := rfl
@[simp] theorem putCard_loss (c : CardIx) (f : Option Card) (s : State) :
    (putCard c f s).loss = s.loss := rfl
@[simp] theorem putCard_resetLow (c : CardIx) (f : Option Card) (s : State) :
    (putCard c f s).resetLow = s.resetLow := rfl
@[simp] theorem putCard_freeCtr (c : CardIx) (f : Option Card) (s : State) :
    (putCard c f s).freeCtr = s.freeCtr := rfl
@[simp] theorem putCard_pending (c : CardIx) (f : Option Card) (s : State) :
    (putCard c f s).pending = s.pending := rfl

@[simp] theorem modFile_src (i : FileIx) (f : FileRec → FileRec) (s : State) :
    (modFile i f s).src = s.src := rfl
@[simp] theorem modFile_notices (i : FileIx) (f : FileRec → FileRec) (s : State) :
    (modFile i f s).notices = s.notices := rfl
@[simp] theorem modFile_slots (i : FileIx) (f : FileRec → FileRec) (s : State) :
    (modFile i f s).slots = s.slots := rfl
@[simp] theorem modFile_routes (i : FileIx) (f : FileRec → FileRec) (s : State) :
    (modFile i f s).routes = s.routes := rfl
@[simp] theorem modFile_formats (i : FileIx) (f : FileRec → FileRec) (s : State) :
    (modFile i f s).formats = s.formats := rfl
@[simp] theorem modFile_looks (i : FileIx) (f : FileRec → FileRec) (s : State) :
    (modFile i f s).looks = s.looks := rfl
@[simp] theorem modFile_profiles (i : FileIx) (f : FileRec → FileRec) (s : State) :
    (modFile i f s).profiles = s.profiles := rfl
@[simp] theorem modFile_destConfig (i : FileIx) (f : FileRec → FileRec) (s : State) :
    (modFile i f s).destConfig = s.destConfig := rfl
@[simp] theorem modFile_part (i : FileIx) (f : FileRec → FileRec) (s : State) :
    (modFile i f s).part = s.part := rfl
@[simp] theorem modFile_cards (i : FileIx) (f : FileRec → FileRec) (s : State) :
    (modFile i f s).cards = s.cards := rfl
@[simp] theorem modFile_files (i : FileIx) (f : FileRec → FileRec) (s : State) :
    (modFile i f s).files = vmod s.files i fun p => { p with file := p.file.map f } := rfl
@[simp] theorem modFile_openCounter (i : FileIx) (f : FileRec → FileRec) (s : State) :
    (modFile i f s).openCounter = s.openCounter := rfl
@[simp] theorem modFile_dest (i : FileIx) (f : FileRec → FileRec) (s : State) :
    (modFile i f s).dest = s.dest := rfl
@[simp] theorem modFile_engines (i : FileIx) (f : FileRec → FileRec) (s : State) :
    (modFile i f s).engines = s.engines := rfl
@[simp] theorem modFile_channels (i : FileIx) (f : FileRec → FileRec) (s : State) :
    (modFile i f s).channels = s.channels := rfl
@[simp] theorem modFile_log (i : FileIx) (f : FileRec → FileRec) (s : State) :
    (modFile i f s).log = s.log := rfl
@[simp] theorem modFile_keyCounter (i : FileIx) (f : FileRec → FileRec) (s : State) :
    (modFile i f s).keyCounter = s.keyCounter := rfl
@[simp] theorem modFile_partAddress (i : FileIx) (f : FileRec → FileRec) (s : State) :
    (modFile i f s).partAddress = s.partAddress := rfl
@[simp] theorem modFile_counters (i : FileIx) (f : FileRec → FileRec) (s : State) :
    (modFile i f s).counters = s.counters := rfl
@[simp] theorem modFile_loss (i : FileIx) (f : FileRec → FileRec) (s : State) :
    (modFile i f s).loss = s.loss := rfl
@[simp] theorem modFile_resetLow (i : FileIx) (f : FileRec → FileRec) (s : State) :
    (modFile i f s).resetLow = s.resetLow := rfl
@[simp] theorem modFile_freeCtr (i : FileIx) (f : FileRec → FileRec) (s : State) :
    (modFile i f s).freeCtr = s.freeCtr := rfl
@[simp] theorem modFile_pending (i : FileIx) (f : FileRec → FileRec) (s : State) :
    (modFile i f s).pending = s.pending := rfl

@[simp] theorem freeFile_src (i : FileIx) (s : State) :
    (freeFile i s).src = s.src := rfl
@[simp] theorem freeFile_notices (i : FileIx) (s : State) :
    (freeFile i s).notices = s.notices := rfl
@[simp] theorem freeFile_slots (i : FileIx) (s : State) :
    (freeFile i s).slots = s.slots := rfl
@[simp] theorem freeFile_routes (i : FileIx) (s : State) :
    (freeFile i s).routes = s.routes := rfl
@[simp] theorem freeFile_formats (i : FileIx) (s : State) :
    (freeFile i s).formats = s.formats := rfl
@[simp] theorem freeFile_looks (i : FileIx) (s : State) :
    (freeFile i s).looks = s.looks := rfl
@[simp] theorem freeFile_profiles (i : FileIx) (s : State) :
    (freeFile i s).profiles = s.profiles := rfl
@[simp] theorem freeFile_destConfig (i : FileIx) (s : State) :
    (freeFile i s).destConfig = s.destConfig := rfl
@[simp] theorem freeFile_part (i : FileIx) (s : State) :
    (freeFile i s).part = s.part := rfl
@[simp] theorem freeFile_cards (i : FileIx) (s : State) :
    (freeFile i s).cards = s.cards := rfl
@[simp] theorem freeFile_files (i : FileIx) (s : State) :
    (freeFile i s).files = vmod s.files i fun p => { p with file := none } := rfl
@[simp] theorem freeFile_openCounter (i : FileIx) (s : State) :
    (freeFile i s).openCounter = s.openCounter := rfl
@[simp] theorem freeFile_dest (i : FileIx) (s : State) :
    (freeFile i s).dest = s.dest := rfl
@[simp] theorem freeFile_engines (i : FileIx) (s : State) :
    (freeFile i s).engines = s.engines := rfl
@[simp] theorem freeFile_channels (i : FileIx) (s : State) :
    (freeFile i s).channels = s.channels := rfl
@[simp] theorem freeFile_log (i : FileIx) (s : State) :
    (freeFile i s).log = s.log := rfl
@[simp] theorem freeFile_keyCounter (i : FileIx) (s : State) :
    (freeFile i s).keyCounter = s.keyCounter := rfl
@[simp] theorem freeFile_partAddress (i : FileIx) (s : State) :
    (freeFile i s).partAddress = s.partAddress := rfl
@[simp] theorem freeFile_counters (i : FileIx) (s : State) :
    (freeFile i s).counters = s.counters := rfl
@[simp] theorem freeFile_loss (i : FileIx) (s : State) :
    (freeFile i s).loss = s.loss := rfl
@[simp] theorem freeFile_resetLow (i : FileIx) (s : State) :
    (freeFile i s).resetLow = s.resetLow := rfl
@[simp] theorem freeFile_freeCtr (i : FileIx) (s : State) :
    (freeFile i s).freeCtr = s.freeCtr := rfl
@[simp] theorem freeFile_pending (i : FileIx) (s : State) :
    (freeFile i s).pending = s.pending := rfl

@[simp] theorem loseOne_src (k : Loss) (s : State) :
    (loseOne k s).src = s.src := rfl
@[simp] theorem loseOne_notices (k : Loss) (s : State) :
    (loseOne k s).notices = s.notices := rfl
@[simp] theorem loseOne_slots (k : Loss) (s : State) :
    (loseOne k s).slots = s.slots := rfl
@[simp] theorem loseOne_routes (k : Loss) (s : State) :
    (loseOne k s).routes = s.routes := rfl
@[simp] theorem loseOne_formats (k : Loss) (s : State) :
    (loseOne k s).formats = s.formats := rfl
@[simp] theorem loseOne_looks (k : Loss) (s : State) :
    (loseOne k s).looks = s.looks := rfl
@[simp] theorem loseOne_profiles (k : Loss) (s : State) :
    (loseOne k s).profiles = s.profiles := rfl
@[simp] theorem loseOne_destConfig (k : Loss) (s : State) :
    (loseOne k s).destConfig = s.destConfig := rfl
@[simp] theorem loseOne_part (k : Loss) (s : State) :
    (loseOne k s).part = s.part := rfl
@[simp] theorem loseOne_cards (k : Loss) (s : State) :
    (loseOne k s).cards = s.cards := rfl
@[simp] theorem loseOne_files (k : Loss) (s : State) :
    (loseOne k s).files = s.files := rfl
@[simp] theorem loseOne_openCounter (k : Loss) (s : State) :
    (loseOne k s).openCounter = s.openCounter := rfl
@[simp] theorem loseOne_dest (k : Loss) (s : State) :
    (loseOne k s).dest = s.dest := rfl
@[simp] theorem loseOne_engines (k : Loss) (s : State) :
    (loseOne k s).engines = s.engines := rfl
@[simp] theorem loseOne_channels (k : Loss) (s : State) :
    (loseOne k s).channels = s.channels := rfl
@[simp] theorem loseOne_log (k : Loss) (s : State) :
    (loseOne k s).log = s.log := rfl
@[simp] theorem loseOne_keyCounter (k : Loss) (s : State) :
    (loseOne k s).keyCounter = s.keyCounter := rfl
@[simp] theorem loseOne_partAddress (k : Loss) (s : State) :
    (loseOne k s).partAddress = s.partAddress := rfl
@[simp] theorem loseOne_counters (k : Loss) (s : State) :
    (loseOne k s).counters = s.counters := rfl
@[simp] theorem loseOne_loss (k : Loss) (s : State) :
    (loseOne k s).loss = s.loss.inc k := rfl
@[simp] theorem loseOne_resetLow (k : Loss) (s : State) :
    (loseOne k s).resetLow = s.resetLow := rfl
@[simp] theorem loseOne_freeCtr (k : Loss) (s : State) :
    (loseOne k s).freeCtr = s.freeCtr := rfl
@[simp] theorem loseOne_pending (k : Loss) (s : State) :
    (loseOne k s).pending = s.pending := rfl

@[simp] theorem countEvent_src (ev : CountEvent) (ag : Against) (n : Nat) (s : State) :
    (countEvent ev ag n s).src = s.src := rfl
@[simp] theorem countEvent_notices (ev : CountEvent) (ag : Against) (n : Nat) (s : State) :
    (countEvent ev ag n s).notices = s.notices := rfl
@[simp] theorem countEvent_slots (ev : CountEvent) (ag : Against) (n : Nat) (s : State) :
    (countEvent ev ag n s).slots = s.slots := rfl
@[simp] theorem countEvent_routes (ev : CountEvent) (ag : Against) (n : Nat) (s : State) :
    (countEvent ev ag n s).routes = s.routes := rfl
@[simp] theorem countEvent_formats (ev : CountEvent) (ag : Against) (n : Nat) (s : State) :
    (countEvent ev ag n s).formats = s.formats := rfl
@[simp] theorem countEvent_looks (ev : CountEvent) (ag : Against) (n : Nat) (s : State) :
    (countEvent ev ag n s).looks = s.looks := rfl
@[simp] theorem countEvent_profiles (ev : CountEvent) (ag : Against) (n : Nat) (s : State) :
    (countEvent ev ag n s).profiles = s.profiles := rfl
@[simp] theorem countEvent_destConfig (ev : CountEvent) (ag : Against) (n : Nat) (s : State) :
    (countEvent ev ag n s).destConfig = s.destConfig := rfl
@[simp] theorem countEvent_part (ev : CountEvent) (ag : Against) (n : Nat) (s : State) :
    (countEvent ev ag n s).part = s.part := rfl
@[simp] theorem countEvent_cards (ev : CountEvent) (ag : Against) (n : Nat) (s : State) :
    (countEvent ev ag n s).cards = s.cards := rfl
@[simp] theorem countEvent_files (ev : CountEvent) (ag : Against) (n : Nat) (s : State) :
    (countEvent ev ag n s).files = s.files := rfl
@[simp] theorem countEvent_openCounter (ev : CountEvent) (ag : Against) (n : Nat) (s : State) :
    (countEvent ev ag n s).openCounter = s.openCounter := rfl
@[simp] theorem countEvent_dest (ev : CountEvent) (ag : Against) (n : Nat) (s : State) :
    (countEvent ev ag n s).dest = s.dest := rfl
@[simp] theorem countEvent_engines (ev : CountEvent) (ag : Against) (n : Nat) (s : State) :
    (countEvent ev ag n s).engines = s.engines := rfl
@[simp] theorem countEvent_channels (ev : CountEvent) (ag : Against) (n : Nat) (s : State) :
    (countEvent ev ag n s).channels = s.channels := rfl
@[simp] theorem countEvent_log (ev : CountEvent) (ag : Against) (n : Nat) (s : State) :
    (countEvent ev ag n s).log = s.log := rfl
@[simp] theorem countEvent_keyCounter (ev : CountEvent) (ag : Against) (n : Nat) (s : State) :
    (countEvent ev ag n s).keyCounter = s.keyCounter := rfl
@[simp] theorem countEvent_partAddress (ev : CountEvent) (ag : Against) (n : Nat) (s : State) :
    (countEvent ev ag n s).partAddress = s.partAddress := rfl
@[simp] theorem countEvent_counters (ev : CountEvent) (ag : Against) (n : Nat) (s : State) :
    (countEvent ev ag n s).counters = s.counters.map fun p => p.take ev ag n := rfl
@[simp] theorem countEvent_loss (ev : CountEvent) (ag : Against) (n : Nat) (s : State) :
    (countEvent ev ag n s).loss = s.loss := rfl
@[simp] theorem countEvent_resetLow (ev : CountEvent) (ag : Against) (n : Nat) (s : State) :
    (countEvent ev ag n s).resetLow = s.resetLow := rfl
@[simp] theorem countEvent_freeCtr (ev : CountEvent) (ag : Against) (n : Nat) (s : State) :
    (countEvent ev ag n s).freeCtr = s.freeCtr := rfl
@[simp] theorem countEvent_pending (ev : CountEvent) (ag : Against) (n : Nat) (s : State) :
    (countEvent ev ag n s).pending = s.pending := rfl

end Sys2Proof.Machine
end

