-- ==== Sys2Proof/Laws/Ops.lean ====
section
/-! SUPPORT. What each shared operation can change: one frame lemma for each, by the fields it may touch, and the few
facts about credits, slots and the Fault Log that the statements use. -/

namespace Sys2Proof.Machine

open Sys2Proof

/-! ### Frames -/

/-- Only the links' records and the slots differ. -/
def SlotsOnly (s t : State) : Prop := t = { s with src := t.src, slots := t.slots }

/-- Only what a fault record's creation reaches differs. -/
def LogOnly (s t : State) : Prop :=
  t = { s with cards := t.cards, log := t.log, keyCounter := t.keyCounter, notices := t.notices, loss := t.loss }

/-- Only the source links, the slots and the destinations differ. -/
def DestOnly (s t : State) : Prop := t = { s with src := t.src, slots := t.slots, dest := t.dest }

/-- Only the destinations and the event counters differ. -/
def StallOnly (s t : State) : Prop := t = { s with dest := t.dest, counters := t.counters }

/-- Only the file table and what a fault record's creation reaches differ. -/
def FilesOnly (s t : State) : Prop :=
  t = { s with
    files := t.files, cards := t.cards, log := t.log, keyCounter := t.keyCounter, notices := t.notices, loss := t.loss }

/-- Only the look engines, and what a discarded look-queue entry reaches, differ. -/
def EnginesOnly (s t : State) : Prop :=
  t = { s with src := t.src, slots := t.slots, engines := t.engines, loss := t.loss, counters := t.counters }

/-- Only the inspection channels and what a fault record's creation reaches differ. -/
def ChannelsOnly (s t : State) : Prop :=
  t = { s with
    channels := t.channels, cards := t.cards, log := t.log, keyCounter := t.keyCounter, notices := t.notices
    loss := t.loss }

theorem SlotsOnly.refl (s : State) : SlotsOnly s s := rfl
theorem LogOnly.refl (s : State) : LogOnly s s := rfl
theorem DestOnly.refl (s : State) : DestOnly s s := rfl
theorem StallOnly.refl (s : State) : StallOnly s s := rfl
theorem FilesOnly.refl (s : State) : FilesOnly s s := rfl
theorem EnginesOnly.refl (s : State) : EnginesOnly s s := rfl
theorem ChannelsOnly.refl (s : State) : ChannelsOnly s s := rfl

theorem SlotsOnly.trans {s t u : State} (h : SlotsOnly s t) (k : SlotsOnly t u) : SlotsOnly s u := by
  cases s; cases t; cases u; simp_all [SlotsOnly]
theorem LogOnly.trans {s t u : State} (h : LogOnly s t) (k : LogOnly t u) : LogOnly s u := by
  cases s; cases t; cases u; simp_all [LogOnly]
theorem DestOnly.trans {s t u : State} (h : DestOnly s t) (k : DestOnly t u) : DestOnly s u := by
  cases s; cases t; cases u; simp_all [DestOnly]
theorem StallOnly.trans {s t u : State} (h : StallOnly s t) (k : StallOnly t u) : StallOnly s u := by
  cases s; cases t; cases u; simp_all [StallOnly]
theorem FilesOnly.trans {s t u : State} (h : FilesOnly s t) (k : FilesOnly t u) : FilesOnly s u := by
  cases s; cases t; cases u; simp_all [FilesOnly]
theorem EnginesOnly.trans {s t u : State} (h : EnginesOnly s t) (k : EnginesOnly t u) : EnginesOnly s u := by
  cases s; cases t; cases u; simp_all [EnginesOnly]
theorem ChannelsOnly.trans {s t u : State} (h : ChannelsOnly s t) (k : ChannelsOnly t u) : ChannelsOnly s u := by
  cases s; cases t; cases u; simp_all [ChannelsOnly]

theorem SlotsOnly.toDest {s t : State} (h : SlotsOnly s t) : DestOnly s t := by
  cases s; cases t; simp_all [SlotsOnly, DestOnly]
theorem SlotsOnly.toEngines {s t : State} (h : SlotsOnly s t) : EnginesOnly s t := by
  cases s; cases t; simp_all [SlotsOnly, EnginesOnly]
theorem LogOnly.toFiles {s t : State} (h : LogOnly s t) : FilesOnly s t := by
  cases s; cases t; simp_all [LogOnly, FilesOnly]
theorem LogOnly.toChannels {s t : State} (h : LogOnly s t) : ChannelsOnly s t := by
  cases s; cases t; simp_all [LogOnly, ChannelsOnly]

/-- A frame that each step of a fold keeps, the fold keeps. -/
theorem foldl_keeps {α : Type} (R : State → State → Prop) (refl : ∀ s, R s s)
    (trans : ∀ s t u, R s t → R t u → R s u) (f : State → α → State) (h : ∀ s a, R s (f s a)) (as : List α) :
    ∀ s, R s (as.foldl f s) := by
  induction as with
  | nil => exact refl
  | cons a rest ih => exact fun s => trans _ _ _ (h s a) (ih (f s a))

/-! ### Slots and credits (chapters 1 and 3) -/

theorem settleSlot_frame (i : SlotIx) (s : State) : SlotsOnly s (settleSlot i s) := by
  unfold settleSlot; split
  · rfl
  · split <;> rfl

theorem dropRef_frame (i : SlotIx) (s : State) : SlotsOnly s (dropRef i s) :=
  SlotsOnly.trans (t := modSlot i (fun t => { t with refs := t.refs - 1 }) s) rfl (settleSlot_frame i _)

theorem clearMark_frame (i : SlotIx) (s : State) : SlotsOnly s (clearMark i s) :=
  SlotsOnly.trans (t := modSlot i (fun t => { t with mark := false }) s) rfl (settleSlot_frame i _)

theorem addRef_frame (i : SlotIx) (s : State) : SlotsOnly s (addRef i s) := rfl

theorem decideHead_frame (l : SrcLink) (s : State) : SlotsOnly s (decideHead l s) := rfl

theorem queueReply_frame (l : SrcLink) (r : Reply) (s : State) : SlotsOnly s (queueReply l r s) := rfl

theorem endProcessing_frame (l : SrcLink) (s : State) : SlotsOnly s (endProcessing l s) := by
  unfold endProcessing; split
  · rfl
  · next i rest _ =>
    exact SlotsOnly.trans (t := modSrc l (fun p => { p with arrivals := rest }) s) rfl
      ((clearMark_frame i _).trans (decideHead_frame l _))

theorem releaseEntries_frame (es : List QEntry) (s : State) : SlotsOnly s (releaseEntries es s) :=
  foldl_keeps SlotsOnly SlotsOnly.refl (fun _ _ _ => SlotsOnly.trans) _ (fun s i => dropRef_frame i s) _ s

/-- R5: a returned credit moves one slot of held to granted or to withheld, and keeps their sum. -/
theorem creditBack_sum (p : SrcPort) (h : 1 ≤ p.held) :
    p.creditBack.held + p.creditBack.granted + p.creditBack.withheld = p.held + p.granted + p.withheld := by
  unfold SrcPort.creditBack; split <;> simp <;> omega

/-- R57: what the loss of one reference leaves of an owned slot and of its owner's record. -/
theorem dropRef_spec (i : SlotIx) (m : SrcLink) (s : State) (h : s.slots[i].owner = some m) :
    LostRef i m s (dropRef i s) := by
  have hz : (s.slots[i].refs - 1 = 0) ↔ s.slots[i].refs ≤ 1 := by omega
  unfold dropRef settleSlot
  simp only [modSlot_slots, vmod_self, h, hz]
  by_cases hc : s.slots[i].mark = false ∧ s.slots[i].refs ≤ 1
  · simp only [hc, and_self, if_true]
    refine ⟨?_, by rw [if_pos hc]; rfl⟩
    simp only [modSrc_slots, modSlot_slots, vmod_vmod]
    apply vector_ext; intro j; simp only [vmod_get, Slot.lessOne, if_pos hc]
  · rw [if_neg hc]
    refine ⟨?_, by rw [if_neg hc]; rfl⟩
    apply vector_ext; intro j; simp only [modSlot_slots, vmod_get, Slot.lessOne, if_neg hc]

/-- The end of processing takes nothing from the reply queue it finds. -/
theorem processed_replies (p : SrcPort) (old rs : List Reply) (next : Option Bool) :
    SrcPort.processed { p with replies := old } rs next = p.processed rs next := by
  unfold SrcPort.processed SrcPort.creditBack
  by_cases h : p.state = .up <;> simp [h]

/-- A credit that comes back leaves the arrival queue as it is. -/
theorem creditBack_arrivals (p : SrcPort) : p.creditBack.arrivals = p.arrivals := by
  unfold SrcPort.creditBack; split <;> rfl

/-- R5, R12: the head has left the arrival queue and its credit has come back. -/
theorem processed_eq (p : SrcPort) (i : SlotIx) (rest : List SlotIx) (next : Option Bool) (h : p.arrivals = i :: rest) :
    { SrcPort.creditBack { p with arrivals := rest } with headAddressed := next } = p.processed p.replies next := by
  unfold SrcPort.processed SrcPort.creditBack
  rw [h]
  by_cases hu : p.state = .up <;> simp [hu]

/-- R188: the model's address test is the agreement under the mask, or the broadcast address. -/
theorem addressed_eq (s : State) (target : BitVec 7) : addressed s target = decide (ForThisPart target s) := by
  unfold addressed
  rw [Bool.eq_iff_iff, decide_eq_true_iff, Bool.or_eq_true, Bool.and_eq_true, beq_iff_eq, beq_iff_eq]
  refine or_congr ⟨fun h b hb => ?_, fun h => ?_⟩ Iff.rfl
  · have := congrArg (fun x : BitVec 7 => x.getLsbD b.val) h
    simp only [BitVec.getLsbD_and, BitVec.getLsbD_xor, hb, Bool.and_true] at this
    simpa using this
  · apply BitVec.eq_of_getLsbD_eq
    intro b hb
    simp only [BitVec.getLsbD_and, BitVec.getLsbD_xor]
    by_cases hm : s.part.addressMask.getLsbD b = true
    · have := h ⟨b, hb⟩ hm
      simp only [] at this
      simp [this]
    · simp [hm]

/-- R188: the decision made for the segment at the head of a link. -/
theorem decideHead_spec (l : SrcLink) (s : State) :
    decideHead l s = modSrc l (fun p => { p with headAddressed := decisionFor p.arrivals.head? s }) s := by
  unfold decideHead
  congr 1
  funext p
  unfold decisionFor
  cases p.arrivals.head? with
  | none => rfl
  | some i => simp only [addressed_eq]

/-- R188: the decision depends on the slots, the part configuration and the part address alone. -/
theorem decisionFor_congr (head : Option SlotIx) (s t : State) (h : t.slots = s.slots) (hp : t.part = s.part)
    (ha : t.partAddress = s.partAddress) : decisionFor head t = decisionFor head s := by
  unfold decisionFor ForThisPart
  rw [h, hp, ha]

/-- R12, R54: the end of the processing of the head of a link, in a slot without references. -/
theorem endProcessing_spec (l : SrcLink) (i : SlotIx) (g : Segment) (s : State)
    (h : s.src[l].arrivals.head? = some i) (hs : s.slots[i] = ⟨some l, true, 0, g⟩) :
    Processed l i s.src[l].replies s (endProcessing l s) := by
  obtain ⟨rest, hr⟩ : ∃ rest, s.src[l].arrivals = i :: rest := by
    cases ha : s.src[l].arrivals with
    | nil => rw [ha] at h; cases h
    | cons a r => rw [ha] at h; simp at h; exact ⟨r, by rw [h]⟩
  have e : endProcessing l s =
      decideHead l (modSrc l SrcPort.creditBack (modSlot i (fun _ => Slot.free)
        (modSlot i (fun t => { t with mark := false }) (modSrc l (fun p => { p with arrivals := rest }) s)))) := by
    unfold endProcessing
    rw [hr]
    simp only [clearMark, settleSlot, modSlot_slots, modSrc_slots, vmod_self, hs, and_self, if_true]
  rw [e, decideHead_spec]
  constructor
  · generalize hu : modSrc l SrcPort.creditBack _ = u
    have hsrc : u.src = vmod s.src l fun p => SrcPort.creditBack { p with arrivals := rest } := by
      rw [← hu]; simp only [modSrc_src, modSlot_src, vmod_vmod]
    have hd := fun head f => decisionFor_congr head u (modSrc l f u) rfl rfl rfl
    apply vector_ext; intro j
    simp only [hd, modSrc_src, hsrc, vmod_get]
    split
    · simp only [if_true]
      rw [← processed_eq _ i rest _ hr, hr]
      simp only [creditBack_arrivals, List.tail_cons]
    · rfl
  · simp only [modSrc_slots, modSlot_slots, vmod_vmod]

/-! ### Notices, verdicts and the Fault Log (chapters 1, 2 and 9) -/

theorem offerNotice_frame (n : NoticeItem) (s : State) : LogOnly s (offerNotice n s) := by
  unfold offerNotice; split <;> rfl

theorem reeval_frame (c : CardIx) (s : State) : LogOnly s (reeval c s) := rfl

theorem reevalLabel_frame (label : Bytes) (s : State) : LogOnly s (reevalLabel label s) := by
  unfold reevalLabel; split <;> rfl

theorem announceRecord_frame (r : FaultRec) (s : State) : LogOnly s (announceRecord r s) := by
  have h : LogOnly s (if s.part.notices then offerNotice (.fault r) s else s) := by
    split
    · exact offerNotice_frame _ s
    · rfl
  unfold announceRecord
  simp only []
  split
  · exact h.trans (reevalLabel_frame _ _)
  · exact h

theorem storeRecord_frame (r : FaultRec) (s : State) : LogOnly s (storeRecord r s) :=
  LogOnly.trans (t := { s with
    log := roomInLog s.log ++ [placed r s], keyCounter := ((placed r s).key + 1) % 65536 }) rfl (announceRecord_frame _ _)

theorem loseRecord_frame (r : FaultRec) (s : State) : LogOnly s (loseRecord r s) := by
  unfold loseRecord
  simp only []
  split
  · rfl
  · split <;> rfl

theorem logFault_frame (r : FaultRec) (s : State) : LogOnly s (logFault r s) := by
  unfold logFault; split
  · exact storeRecord_frame r s
  · exact loseRecord_frame r s

/-- The records are as they were after an announcement. -/
theorem announceRecord_log (r : FaultRec) (s : State) : (announceRecord r s).log = s.log := by
  have h : (if s.part.notices then offerNotice (.fault r) s else s).log = s.log := by
    unfold offerNotice; split
    · split <;> rfl
    · rfl
  unfold announceRecord
  simp only []
  split
  · unfold reevalLabel; split
    · exact h
    · exact h
  · exact h

/-- R178: with room in the log, the record joins its end under its key. -/
theorem logFault_log (r : FaultRec) (s : State) (h : s.log.length < 64) : (logFault r s).log = s.log ++ [placed r s] := by
  have hp : logHasPlace s = true := by simp [logHasPlace, Config.logCap, h]
  have hr : roomInLog s.log = s.log := by simp [roomInLog, Config.logCap, h]
  unfold logFault
  rw [if_pos hp]
  unfold storeRecord
  simp only []
  rw [announceRecord_log, hr]

/-- R180: with room in the log, a record that is not of severity HOLD reaches no card. -/
theorem logFault_cards (r : FaultRec) (s : State) (h : s.log.length < 64) (hr : r.severity ≠ .hold) :
    (logFault r s).cards = s.cards := by
  have hp : logHasPlace s = true := by simp [logHasPlace, Config.logCap, h]
  have hn : ∀ n (t : State), (offerNotice n t).cards = t.cards := by
    intro n t; unfold offerNotice; split <;> rfl
  unfold logFault
  rw [if_pos hp]
  unfold storeRecord announceRecord
  simp only []
  split
  · next heq _ => exact absurd heq (by simpa [placed] using hr)
  · split
    · rw [hn]
    · rfl

/-- R183: an acknowledgement reaches the log and the verdicts. -/
theorem ackRecords_frame (p : FaultRec → Bool) (s : State) : LogOnly s (ackRecords p s) := by
  refine LogOnly.trans (t := { s with log := s.log.map fun r => if p r then r.ack else r }) rfl ?_
  exact foldl_keeps LogOnly LogOnly.refl (fun _ _ _ => LogOnly.trans) _
    (fun s r => by
      split
      · exact reevalLabel_frame _ _
      · rfl) _ _

/-! ### Destination queues (chapter 5) -/

theorem checkStall_frame (d : Dest) (s : State) : StallOnly s (checkStall d s) := by
  unfold checkStall; split <;> rfl

theorem checkStalls_frame (s : State) : StallOnly s (checkStalls s) :=
  foldl_keeps StallOnly StallOnly.refl (fun _ _ _ => StallOnly.trans) _ (fun s d => checkStall_frame d s) _ s

/-- R79: the conditions of the stall flag, spelled out. -/
theorem DestPort.stalled_iff (p : DestPort) : p.stalled = true ↔
    p.state = .up ∧ p.tx = none ∧ p.limit = .number p.inUse ∧ ∃ e rest, p.queue = e :: rest ∧ e ≠ .halt := by
  rcases p with ⟨_, _, _, _, _, _, queue, _, _, _, _, _⟩
  rcases queue with _ | ⟨e, rest⟩
  · simp [DestPort.stalled]
  · cases e <;> simp [DestPort.stalled, QEntry.needsCredit] <;> tauto

/-- R79: what the evaluation of the stall flag does. -/
theorem checkStall_checked (d : Dest) (s : State) : StallChecked d s (checkStall d s) := by
  rintro p rfl
  have key := DestPort.stalled_iff s.dest[d]
  constructor
  · rintro ⟨h1, h2, h3, h4, h5⟩
    rw [checkStall, if_pos ⟨key.mpr ⟨h1, h2, h3, h5⟩, h4⟩]
    rfl
  · intro h
    rw [checkStall, if_neg fun x => h ⟨(key.mp x.1).1, (key.mp x.1).2.1, (key.mp x.1).2.2.1, x.2, (key.mp x.1).2.2.2⟩]

theorem withdraw_frame (d : Dest) (t : Tid) (s : State) : DestOnly s (withdraw d t s) :=
  DestOnly.trans (t := modDest d (fun p => p.withdraw t) s) rfl (releaseEntries_frame _ _).toDest

theorem purgeWaiting_frame (d : Dest) (keep : QEntry → Bool) (s : State) : DestOnly s (purgeWaiting d keep s) :=
  DestOnly.trans (t := modDest d (fun p => { p with queue := p.sending ++ p.waiting.filter keep }) s) rfl
    (releaseEntries_frame _ _).toDest

theorem nullify_frame (d : Dest) (s : State) : DestOnly s (nullify d s) := by
  unfold nullify; split
  · rfl
  · split
    · exact DestOnly.trans (t := modDest d (fun p => { p with queue := p.queue.drop 1, tx := none }) s) rfl
        (releaseEntries_frame _ _).toDest
    · rfl

/-! ### Files (chapter 2) -/

theorem setCopy_frame (i : FileIx) (d : Dest) (x : CopyState) (s : State) : FilesOnly s (setCopy i d x s) := rfl

theorem failCopy_frame (i : FileIx) (d : Dest) (r : FailReason) (vs : List Nat) (s : State) :
    FilesOnly s (failCopy i d r vs s) := by
  unfold failCopy; split
  · rfl
  · simp only []
    split
    · rfl
    · exact FilesOnly.trans (setCopy_frame _ _ _ _) (logFault_frame _ _).toFiles

theorem completeFile_frame (i : FileIx) (f : FileRec) (s : State) : FilesOnly s (completeFile i f s) := by
  have h : FilesOnly s (issueManifest (manifestOf i f false s) s) := by
    unfold issueManifest; split
    · exact (offerNotice_frame _ _).toFiles
    · rfl
  exact h.trans rfl

theorem settleShort_frame (i : FileIx) (f : FileRec) (s : State) : FilesOnly s (settleShort i f s) :=
  FilesOnly.trans (t := modFile i (fun f => { f with state := .short }) s) rfl
    ((logFault_frame _ _).trans (reeval_frame _ _)).toFiles

theorem settleFile_frame (i : FileIx) (s : State) : FilesOnly s (settleFile i s) := by
  unfold settleFile; split
  · rfl
  · split
    · split
      · exact completeFile_frame _ _ _
      · exact settleShort_frame _ _ _
    · rfl

/-- R89, R91: the failure of every unsettled copy of a destination reaches the files and the log alone. -/
theorem failAll_frame (d : Dest) (r : FailReason) (s : State) : FilesOnly s (failAll d r s) :=
  foldl_keeps FilesOnly FilesOnly.refl (fun _ _ _ => FilesOnly.trans) _
    (fun s i => (failCopy_frame i d r [] s).trans (settleFile_frame i _)) _ s

/-! ### Look engines and channels (chapters 7 and 8) -/

theorem discardCounted_frame (e : Engine) (item : LookItem) (s : State) : EnginesOnly s (discardCounted e item s) := by
  have h : EnginesOnly s (match (loseOne (.skips e) s).slots[item.slot].owner with
      | some l => countEvent .reviewSkips (.link l) 1 (loseOne (.skips e) s)
      | none => loseOne (.skips e) s) := by
    split <;> rfl
  exact h.trans (dropRef_frame _ _).toEngines

theorem discardWaiting_frame (e : Engine) (s : State) : EnginesOnly s (discardWaiting e s) :=
  EnginesOnly.trans (foldl_keeps EnginesOnly EnginesOnly.refl (fun _ _ _ => EnginesOnly.trans) _
    (fun s item => discardCounted_frame e item s) s.engines[e].waiting s) rfl

theorem changeFollow_frame (e : Engine) (new : Option Follow) (s : State) : EnginesOnly s (changeFollow e new s) :=
  EnginesOnly.trans (discardWaiting_frame e s) rfl

theorem takeSelection_frame (e : Engine) (sel : Selection) (s : State) : EnginesOnly s (takeSelection e sel s) := by
  unfold takeSelection
  simp only []
  split
  · rfl
  · exact EnginesOnly.trans (t := modEngine e (fun g => { g with selection := sel }) s) rfl (changeFollow_frame _ _ _)

theorem reportFlip_frame (c : Channel) (p : Fin 8) (dir : FlipDirection) (frame value : Nat) (s : State) :
    ChannelsOnly s (reportFlip c p dir frame value s) := by
  unfold reportFlip; split
  · rfl
  · exact ChannelsOnly.trans (logFault_frame _ _).toChannels rfl

theorem evalProbe_frame (c : Channel) (m : Measures) (frame : Nat) (p : Fin 8) (s : State) :
    ChannelsOnly s (evalProbe c m frame p s) := by
  unfold evalProbe
  simp only []
  split
  · split
    · rfl
    · next v _ =>
      have h : ChannelsOnly s (modProbe c p
          (fun _ => (LatchedProbe.next s.channels[c].probes[p] s.channels[c].probeStates[p] v).1) s) := rfl
      split <;> split
      all_goals first | exact h.trans (reportFlip_frame _ _ _ _ _ _) | exact h
  · rfl

/-- R161: the evaluation of a channel's probes reaches the channel, the log and what a record reaches. -/
theorem evalProbes_frame (c : Channel) (m : Measures) (frame : Nat) (s : State) :
    ChannelsOnly s (evalProbes c m frame s) :=
  foldl_keeps ChannelsOnly ChannelsOnly.refl (fun _ _ _ => ChannelsOnly.trans) _
    (fun s p => evalProbe_frame c m frame p s) _ s

/-! ### Taking a head (chapters 1 and 10) -/

/-- R12, R15: a segment of the step's kind that passes its header checks has its effect, and its processing ends. -/
theorem takeHead_good (l : SrcLink) (i : SlotIx) (g : Segment) (kind : Segment → Bool) (f : Segment → State → State)
    (s : State) (h : s.src[l].arrivals.head? = some i) (hs : s.slots[i].seg = g) (hk : kind g = true)
    (hh : g.headerOk = true) : takeHead l kind f s = endProcessing l (f g s) := by
  have : headSegment l s = some g := by simp only [headSegment, h, Option.map_some, hs]
  unfold takeHead
  rw [this]
  simp only [hk, hh, if_true]

/-- R17, R188: a command of the step, addressed to this part, with room in the reply queue, is passed to the
Management Responder. -/
theorem takeControl_good (l : SrcLink) (i : SlotIx) (g : Segment) (mine : Segment → Bool)
    (f : Segment → State → State) (s : State) (h : Serves l i g s) (hm : mine g = true)
    (hc : isCommand g.command = true) : takeControl l mine f s = f g s := by
  obtain ⟨⟨-, hh, hs⟩, hk, hg, ha, hr⟩ := h
  have : headSegment l s = some g := by simp only [headSegment, hh, Option.map_some, hs]
  unfold takeControl
  rw [this]
  simp only [hk, hg, if_true, headDecision, ha, Option.getD_some, takeCommand, hc, hm]
  rw [if_neg (by simp only [Config.replyCap]; omega)]

/-- R189: a body that passes steps 2 and 3 is executed. -/
theorem guardBody_passes (b : BodyShape) (s : State) (go : Answer) (h : b.passes) : guardBody b s go = go := by
  obtain ⟨h1, h2, h3⟩ := h
  simp [guardBody, h1, h2, h3]

/-- R190: the answer to a command whose effect leaves the links and the slots as they stand: one reply, and the end of
its processing. -/
theorem answerHead_spec (l : SrcLink) (i : SlotIx) (g : Segment) (a : Answer) (s : State)
    (h : s.src[l].arrivals.head? = some i) (hs : s.slots[i] = ⟨some l, true, 0, g⟩)
    (ha : a.after.src = s.src) (hb : a.after.slots = s.slots) :
    Replied l i g a.result a.body s (answerHead l g a) := by
  have p := endProcessing_spec l i g (queueReply l ⟨g.tag, g.command, a.result, a.body⟩ a.after)
    (by simp only [queueReply, modSrc_src, vmod_self, ha]; exact h)
    (by simp only [queueReply, modSrc_slots, hb]; exact hs)
  obtain ⟨p1, p2⟩ := p
  refine ⟨?_, ?_⟩
  · show (endProcessing l _).src = _
    rw [p1]
    simp only [queueReply, modSrc_src, vmod_self, ha, vmod_vmod, processed_replies]
    rfl
  · show (endProcessing l _).slots = _
    rw [p2]
    simp only [queueReply, modSrc_slots, hb]

/-! ### What a body gives -/

/-- R205: settings in form are stored as their bytes give them. -/
theorem counterArg_setFrom (b : Bytes) (o : Nat) (he : fieldAt b o 1 < 8)
    (hk : suits (fieldAt b o 1) (fieldAt b (o + 1) 1) = true) (hn : (numberTest b o).2 = true) :
    SetFrom b o (counterArg b o) := by
  have kinds : fieldAt b (o + 1) 1 < 3 := by
    unfold suits at hk
    split at hk <;> simp_all
  simp [numberTest] at hn
  refine ⟨rfl, ?_, ?_, ?_, ?_⟩
  · simp only [counterArg]
    generalize fieldAt b o 1 = e at he
    revert e
    decide
  all_goals
    simp only [counterArg, qualifierArg]
    have : fieldAt b (o + 1) 1 = 0 ∨ fieldAt b (o + 1) 1 = 1 ∨ fieldAt b (o + 1) 1 = 2 := by omega
    rcases this with h | h | h <;> simp [h] at hn ⊢
  all_goals
    intro x
    rw [Fin.ext_iff]
    simp
    omega

/-- R168, R203: every parameter of a TEST FRAME is clamped to its range. -/
theorem testParams_clamped (b : Bytes) :
    (testParams b).channel.val = min 7 (fieldAt b 0 1) ∧ (testParams b).profile.val = min 7 (fieldAt b 1 1) ∧
      (testParams b).width = max 16 (min 1024 (fieldAt b 2 2)) ∧
      (testParams b).height = max 16 (min 1024 (fieldAt b 4 2)) ∧
      (testParams b).colour = ⟨min 4095 (fieldAt b 6 2), min 4095 (fieldAt b 8 2), min 4095 (fieldAt b 10 2)⟩ ∧
      (testParams b).count = max 1 (min 16 (fieldAt b 12 1)) := by
  simp [testParams, clamped2, clampNat]
  refine ⟨?_, ?_, ⟨?_, ?_, ?_⟩, ?_⟩ <;> split_ifs <;> omega

end Sys2Proof.Machine
end

