-- ==== Sys2Proof/WellFormed.lean ====
section
/-! DEFINITION. Well-formed commands: the bytes an event carries are those of a whole segment, or of a whole inbound
message of the event's type. -/

namespace Sys2Proof

/-- The bytes hold a whole segment (R212). -/
def wholeSegment (wire : Bytes) : Bool := (Machine.Segment.ofBytes wire).isSome

/-- The bytes hold a whole inbound message whose type passes a test (R218). -/
def wholeMessage (wire : Bytes) (type : Nat → Bool) : Bool :=
  (Machine.InMessage.ofBytes wire).any fun m => type m.type

/-- A command is well-formed. -/
def Instr.wellFormed : Instr → Bool
  | .segmentArrival _ wire => wholeSegment wire
  | .credit _ wire => wholeMessage wire (· == 0)
  | .verify _ wire => wholeMessage wire (· == 1)
  | .writeError _ wire => wholeMessage wire (· == 2)
  | .announce _ wire => wholeMessage wire (· == 3)
  | .unknownDestMessage _ wire => wholeMessage wire fun t => decide (4 ≤ t)
  | .powerOnReset _ | .sourcePartnerDetected _ | .sourceAlignmentAchieved _ | .sourceLossOfAlignment _
  | .sourcePartnerLost _ | .returnItemStart _ | .returnItemEndGood _ | .mount _ | .unmount _ | .cardEnd _
  | .openFile _ | .essence _ | .preview _ | .metaRecord _ | .entryStart _ | .entryCompletion _
  | .destPartnerDetected _ | .destLossOfAlignment _ | .destPartnerLost _ | .retrainTimerExpiry _
  | .destTransmissionStart _ | .destTransmissionEndGood _ | .verifyTimerExpiry _ _ | .identify _ | .writeTable _
  | .readTable _ | .readState _ | .readFaults _ | .ackFaultsKeys _ | .ackFaultsLabel _ | .waiveLoss _
  | .releaseCard _ | .clearCard _ | .waiveFile _ | .destQuarantine _ | .destRestore _ | .reviewSelect _
  | .setCounterEvents _ | .readCounters _ | .testFrame _ | .testFrameEvaluation _ | .linkResetSource _
  | .linkResetDest _ | .softReset _ | .unknownKindSegment _ | .resetNHeldLow => true

end Sys2Proof
end

