-- ==== Sys2Proof/Tests/Slice0.lean ====
section
/-! SUPPORT. The model's own tests: ill-formed commands, a state and operands that meet the hypotheses of each statement,
and one step of each command against a figure of the data book. -/

namespace Sys2Proof.Tests

open Sys2Proof Sys2Proof.Machine

/-! ### Small states -/

/-- A segment of a kind with a payload; file number 7. -/
def seg (kind : Byte) (payload : Bytes) : Segment :=
  { kind := kind, flags := 0, slotByte := 0, mbz3 := 0, len := payload.length, mbz6 := 0
    fileNumber := if kind = 4 ∨ kind = 5 ∨ kind = 6 then 7 else 0, offset := 0, mbz20 := 0, ext := [], payload := payload }

/-- A CONTROL segment with tag 9. -/
def control (code : Byte) (payload : Bytes) : Segment := { seg 7 payload with ext := [0, 0, 9, 0, code, 0, 0, 0] }

/-- S0 UP with a segment in slot 0 at its head, addressed to the part. -/
def atHead (g : Segment) (s : State) : State :=
  { s with
    src := vmod s.src 0 fun _ => ⟨.up, 1, 255, 0, 0, [0], some true, [], none, false⟩
    slots := vmod s.slots 0 fun _ => ⟨some 0, true, 0, g⟩ }

/-- The state after an outcome that is a next state. -/
def after : Host.Outcome State Fault Refusal → Option State
  | .next t => some t
  | .fault _ => none
  | .refused _ => none

/-- The label "A-CAM 007". -/
def label : Bytes := [0x41, 0x2D, 0x43, 0x41, 0x4D, 0x20, 0x30, 0x30, 0x37]

/-- Its 17-byte label field. -/
def labelBytes : Bytes := 9 :: label ++ List.replicate 7 0

/-- The card "A-CAM 007", mounted in card slot 0 of S0. -/
def card : Card := ⟨label, some ⟨0, 0⟩, 0x0102, none, 1, 0, 0, .active, .pending, false, false, false, none⟩

/-- Its file 7, STREAMING, with a SENDING copy on D0. -/
def file : FileRec :=
  { card := 0, number := 7, name := none, declared := none, nextOffset := 0, sums := Sums.initial, finalDigest := none
    route := ⟨1, 1, 0, none, none⟩, state := .streaming, recopy := false
    copies := #v[.sending, .none_, .none_, .none_, .none_, .none_], channel := none, stamp := 1
    assembly := some (Assembly.start none) }

/-- The state with that card. -/
def withCard (k : Card) (s : State) : State := { s with cards := vmod s.cards 0 fun _ => some k }

/-- The state with that file at index 5, generation 3. -/
def withFile (f : FileRec) (s : State) : State := { s with files := vmod s.files 5 fun _ => ⟨3, some f⟩ }

/-- D0 with a record. -/
def withDest (p : DestPort) (s : State) : State := { s with dest := vmod s.dest 0 fun _ => p }

/-- Right after reset no position of the file table holds a record. -/
theorem reset_file (j : FileIx) : State.reset.files[j] = ⟨0, none⟩ := by simp [State.reset]

/-- Where no position holds a record, anything holds of every record. -/
theorem no_file {s : State} {P : FileIx → FileRec → Prop} (h : s.files = State.reset.files) :
    ∀ (j : FileIx) (f : FileRec), s.files[j].file = some f → P j f := by
  intro j f e; rw [h, reset_file] at e; cases e

/-- Where position 5 alone holds a record, what holds of it holds of every record. -/
theorem one_file {s : State} {f : FileRec} {P : FileIx → FileRec → Prop}
    (h : s.files = vmod State.reset.files 5 fun _ => ⟨3, some f⟩) (hp : P 5 f) :
    ∀ (j : FileIx) (g : FileRec), s.files[j].file = some g → P j g := by
  intro j g e
  rw [h, vmod_get] at e
  split at e
  · next hj => cases e; rw [hj]; exact hp
  · rw [reset_file] at e; cases e

/-- The same, for what names the record. -/
theorem file_unique {s : State} {f : FileRec} {x : CardIx × Nat}
    (h : s.files = vmod State.reset.files 5 fun _ => ⟨3, some f⟩) :
    ∀ j' : FileIx, (s.files[j'].file.map fun f' => (f'.card, f'.number)) = some x → j' = 5 := by
  intro j' e
  rw [h, vmod_get] at e
  split at e
  · next hj => exact hj
  · rw [reset_file] at e; cases e

/-- The segment of `atHead` stands at the head. -/
theorem head_of (g : Segment) (s : State) (h : s.resetLow = false) : AtHead 0 0 g (atHead g s) := by
  refine ⟨h, ?_, ?_⟩
  · show (vmod s.src 0 _)[(0 : SrcLink)].arrivals.head? = _
    rw [vmod_self]; rfl
  · exact vmod_self s.slots 0 _

/-- A CONTROL segment of `atHead` is served. -/
theorem served (g : Segment) (s : State) (h : s.resetLow = false) (hk : g.kind = 7) (hh : g.headerOk = true) :
    Serves 0 0 g (atHead g s) := by
  have e : (atHead g s).src[(0 : SrcLink)] = ⟨.up, 1, 255, 0, 0, [0], some true, [], none, false⟩ := vmod_self s.src 0 _
  exact ⟨head_of g s h, hk, hh, by rw [e], by rw [e]; decide⟩

/-- A data segment of file 7 at the head, from the card "A-CAM 007". -/
def dataState (g : Segment) (f : FileRec) : State := atHead g (withFile f (withCard card State.reset))

/-- The card alone holds its handle. -/
theorem card_unique :
    ∀ c' : CardIx, ((withCard card State.reset).cards[c'].bind Card.handle) = some ⟨0, 0⟩ → c' = 0 := by decide +kernel

/-- It is one of the STREAMING file. -/
theorem data_of (g : Segment) (f : FileRec) (h : g.isData = true ∧ g.headerOk = true ∧ g.cardSlot = 0 ∧ g.fileNumber = 7)
    (hf : f.card = 0 ∧ f.number = 7 ∧ f.state = .streaming) : DataOf 0 0 g 0 card 5 f (dataState g f) := by
  obtain ⟨h1, h2, h3, h4⟩ := h
  obtain ⟨f1, f2, f3⟩ := hf
  refine ⟨head_of g _ rfl, h1, h2, rfl, by rw [h3]; rfl, ?_, by simp [card],
    ?_, f1, by rw [f2, h4], file_unique rfl, f3⟩
  · rw [h3]
    exact card_unique
  · show ((vmod State.reset.files 5 fun _ => (⟨3, some f⟩ : FilePos))[(5 : FileIx)]).file = some f
    rw [vmod_self]

/-! ### Ill-formed commands -/

/-- A segment of 24 bytes whose length field says 1 is no whole segment (R2, R212). -/
theorem test_illformed_segment :
    (Instr.segmentArrival 0 ([4, 0, 0, 0, 1] ++ List.replicate 19 0)).wellFormed = false ∧
      (Instr.segmentArrival 0 ([4, 0, 0, 0, 1] ++ List.replicate 20 0)).wellFormed = true := by decide

/-- An inbound message of another type, or one that is cut off, is not the event's (R218). -/
theorem test_illformed_message :
    (Instr.credit 0 [1, 0, 0, 0, 0, 0, 0, 0]).wellFormed = false ∧
      (Instr.verify 0 [0, 0, 0, 0, 0, 0, 0, 0]).wellFormed = false ∧
      (Instr.writeError 0 [2, 0, 1, 0, 0, 0, 0, 0]).wellFormed = false ∧
      (Instr.announce 0 [3, 0, 0, 0, 0, 0, 0]).wellFormed = false ∧
      (Instr.unknownDestMessage 0 [3, 0, 0, 0, 0, 0, 0, 0]).wellFormed = false ∧
      (Instr.unknownDestMessage 0 [4, 0, 0, 0, 0, 0, 0, 0]).wellFormed = true := by decide

/-- No row of the table gives bits, so no word spells a command. -/
theorem test_no_words : decodeTableWord 16 5 = none ∧ State.reset.withFetchWord 16 5 = State.reset :=
  ⟨rfl, rfl⟩

/-! ### A state and operands for the hypotheses of each statement: the machine and the source links -/

/-- S0 in a state, with counts and queues. -/
def withSrc (p : SrcPort) (s : State) : State := { s with src := vmod s.src 0 fun _ => p }

/-- An UP link with 256 granted credits. -/
def upPort : SrcPort := ⟨.up, 0, 256, 0, 0, [], none, [], none, false⟩

theorem test_witness_StepTakesFront : State.reset.pending = [] := rfl

theorem test_witness_PowerOnValues : ({ State.reset with resetLow := true } : State).resetLow = true ∧
    ∀ adr, Instr.softReset 3 ≠ .powerOnReset adr := ⟨rfl, fun _ h => by cases h⟩

/-- A credit limit wholly in use, and a failure count at its end. -/
def fullDest : DestPort := { DestPort.initial with state := .up, limit := .number 4, inUse := 4, failures := 15 }

theorem test_witness_CreditLawsKept :
    CreditLaw { State.reset with pending := [.resetNHeldLow] } ∧
      DestLaw { withDest fullDest State.reset with pending := [.resetNHeldLow] } ∧
      (after (step { State.reset with pending := [.resetNHeldLow] })).isSome = true ∧
      (after (step { withDest fullDest State.reset with pending := [.resetNHeldLow] })).isSome = true := by
  refine ⟨fun l => ⟨?_, ?_⟩, fun d => ?_, rfl, rfl⟩
  · simp [SrcPort.creditsOk, State.reset, SrcPort.initial]
  · simp [ownedSlots, allIx, State.reset, SrcPort.initial, Slot.free]
  · show ((vmod State.reset.dest 0 fun _ => fullDest)[d]).creditsOk ∧
      ((vmod State.reset.dest 0 fun _ => fullDest)[d]).failures ≤ 15
    rw [vmod_get]
    split
    · exact ⟨by simp [DestPort.creditsOk, fullDest], by decide⟩
    · simp [State.reset, DestPort.creditsOk, DestPort.initial]

/-- A record with the highest key. -/
def record : FaultRec := { FaultRec.ofCard .cardPulled .hold label with key := 65535 }

/-- The reply queue and the notice queue full, and a loss counter at its end. -/
theorem test_witness_RecordLawsKept :
    let r : Reply := ⟨9, 1, .done, []⟩
    let n : NoticeEntry := ⟨.released ⟨label, false, 1, 1, 0⟩, none⟩
    let s : State := { withSrc { upPort with replies := List.replicate 4 r } State.reset with
      notices := List.replicate 16 n, pending := [.resetNHeldLow] }
    let x : State := { State.reset with loss := { LossCounters.initial with stray := 65535 }, pending := [.resetNHeldLow] }
    LogLaw { State.reset with log := [record], keyCounter := 65535, pending := [.resetNHeldLow] } ∧ QueueLaw s ∧
      LossLaw x ∧ (after (step { State.reset with log := [record], pending := [.resetNHeldLow] })).isSome = true ∧
      (after (step s)).isSome = true ∧ (after (step x)).isSome = true :=
  ⟨by unfold LogLaw; decide, by unfold QueueLaw; decide +kernel, by unfold LossLaw; decide, rfl, rfl, rfl⟩

/-- The card "A-CAM 007", ACTIVE and PENDING. -/
theorem test_witness_VerdictLawKept :
    VerdictLaw { withCard card State.reset with pending := [.resetNHeldLow] } ∧
      (after (step { withCard card State.reset with pending := [.resetNHeldLow] })).isSome = true := by
  have one : ∀ (c : CardIx) (k : Card), (vmod State.reset.cards 0 fun _ => some card)[c] = some k → c = 0 ∧ k = card := by
    intro c k h
    rw [vmod_get] at h
    split at h
    · next e => cases h; exact ⟨e, rfl⟩
    · simp [State.reset] at h
  refine ⟨⟨fun c k h => ?_, fun c c' k k' h h' _ => ?_⟩, rfl⟩
  · rw [(one c k h).2]; rfl
  · rw [(one c k h).1, (one c' k' h').1]

/-- A segment pending in slot 0. -/
theorem test_witness_SlotLawKept :
    SlotLaw { atHead (seg 4 [1]) State.reset with pending := [.resetNHeldLow] } ∧
      (after (step { atHead (seg 4 [1]) State.reset with pending := [.resetNHeldLow] })).isSome = true := by
  have d0 : ∀ (d : Dest) (i : SlotIx),
      destRefs d i { atHead (seg 4 [1]) State.reset with pending := [.resetNHeldLow] } = 0 := fun d i => by
    simp [destRefs, atHead, State.reset, DestPort.initial]
  have e0 : ∀ (e : Engine) (i : SlotIx),
      lookRefs e i { atHead (seg 4 [1]) State.reset with pending := [.resetNHeldLow] } = 0 := fun e i => by
    simp [lookRefs, atHead, State.reset, EngineState.initial]
  have sl : ∀ i : SlotIx, (vmod State.reset.slots 0 fun _ => (⟨some 0, true, 0, seg 4 [1]⟩ : Slot))[i] =
      if i = 0 then ⟨some 0, true, 0, seg 4 [1]⟩ else Slot.free := fun i => by
    rw [vmod_get]; split <;> simp [State.reset]
  have ar : ∀ l : SrcLink, (vmod State.reset.src 0 fun _ =>
      (⟨.up, 1, 255, 0, 0, [0], some true, [], none, false⟩ : SrcPort))[l].arrivals = if l = 0 then [0] else [] := fun l => by
    rw [vmod_get]; split <;> simp [State.reset, SrcPort.initial]
  refine ⟨⟨fun i => ⟨?_, fun d => by rw [d0]; omega, fun e => by rw [e0]; omega, ?_, ?_⟩, fun l => ?_⟩, rfl⟩
  · simp only [d0, e0]
    show (vmod State.reset.slots 0 fun _ => (⟨some 0, true, 0, seg 4 [1]⟩ : Slot))[i].refs = _
    rw [sl]; split <;> simp [Slot.free]
  · show (vmod State.reset.slots 0 fun _ => (⟨some 0, true, 0, seg 4 [1]⟩ : Slot))[i].owner = none ↔
      (vmod State.reset.slots 0 fun _ => (⟨some 0, true, 0, seg 4 [1]⟩ : Slot))[i].mark = false ∧
      (vmod State.reset.slots 0 fun _ => (⟨some 0, true, 0, seg 4 [1]⟩ : Slot))[i].refs = 0
    rw [sl]; split <;> simp [Slot.free]
  · show (vmod State.reset.slots 0 fun _ => (⟨some 0, true, 0, seg 4 [1]⟩ : Slot))[i].mark = true →
      (vmod State.reset.slots 0 fun _ => (⟨some 0, true, 0, seg 4 [1]⟩ : Slot))[i].refs = 0
    rw [sl]; split <;> simp [Slot.free]
  · show (vmod State.reset.src 0 _)[l].arrivals.Nodup ∧ ∀ i : SlotIx, i ∈ (vmod State.reset.src 0 _)[l].arrivals ↔
      (vmod State.reset.slots 0 fun _ => (⟨some 0, true, 0, seg 4 [1]⟩ : Slot))[i].mark = true ∧
      (vmod State.reset.slots 0 fun _ => (⟨some 0, true, 0, seg 4 [1]⟩ : Slot))[i].owner = some l
    rw [ar]
    refine ⟨by split <;> simp, fun i => ?_⟩
    rw [sl]
    by_cases hl : l = 0 <;> by_cases hi : i = 0 <;> simp [hl, hi, Slot.free, eq_comm]

/-- D0 in QUARANTINED with a waiting HALT; and file 7 with channel 2. -/
theorem test_witness_QuietAndChannelLawsKept :
    let q := withDest { DestPort.initial with state := .quarantined, queue := [.halt] } State.reset
    let c : State := { withFile { file with channel := some 2 } State.reset with
      channels := vmod State.reset.channels 2 fun _ => { ChannelRec.initial with state := .file ⟨⟨5, 3⟩, label, 7⟩ } }
    QuietLaw { q with pending := [.resetNHeldLow] } ∧ ChannelLaw { c with pending := [.resetNHeldLow] } ∧
      (after (step { q with pending := [.resetNHeldLow] })).isSome = true ∧
      (after (step { c with pending := [.resetNHeldLow] })).isSome = true := by
  refine ⟨fun d _ => ⟨?_, ?_, fun j f h => ?_⟩, ⟨fun j f ch h hc => ?_, fun ch o h => ?_⟩, rfl, rfl⟩
  · show ∀ e ∈ (vmod State.reset.dest 0 fun _ =>
      ({ DestPort.initial with state := .quarantined, queue := [.halt] } : DestPort))[d].waiting, e = .halt
    rw [vmod_get]; split <;> simp [State.reset, DestPort.initial, DestPort.waiting]
  · intro x e h
    change (vmod State.reset.dest 0 fun _ =>
      ({ DestPort.initial with state := .quarantined, queue := [.halt] } : DestPort))[d].tx = some x at h
    rw [vmod_get] at h
    split at h <;> simp [State.reset, DestPort.initial] at h
  · change State.reset.files[j].file = some f at h
    rw [reset_file] at h; cases h
  · change (vmod State.reset.files 5 fun _ => (⟨3, some { file with channel := some 2 }⟩ : FilePos))[j].file = some f at h
    rw [vmod_get] at h
    split at h
    · next e =>
      cases h; cases hc
      refine ⟨rfl, ⟨⟨5, 3⟩, label, 7⟩, ?_, ?_, rfl⟩
      · show ((vmod State.reset.channels 2 _)[(2 : Channel)]).state = _
        rw [vmod_self]
      · show (⟨5, 3⟩ : Tid) = ⟨j, ((vmod State.reset.files 5 _)[j]).gen⟩
        subst e
        rw [vmod_self]
    · rw [reset_file] at h; cases h
  · change ((vmod State.reset.channels 2 fun _ =>
      ({ ChannelRec.initial with state := .file ⟨⟨5, 3⟩, label, 7⟩ } : ChannelRec))[ch]).state = .file o at h
    rw [vmod_get] at h
    split at h
    · next e =>
      cases h
      refine ⟨{ file with channel := some 2 }, ?_, by rw [e]⟩
      show (vmod State.reset.files 5 _)[(5 : FileIx)] = _
      rw [vmod_self]
    · simp [State.reset, ChannelRec.initial] at h

theorem test_witness_EnteringUpGrants :
    let s := withSrc { SrcPort.initial with state := .training } State.reset
    s.resetLow = false ∧ s.src[(0 : SrcLink)].state = .training ∧ s.src[(0 : SrcLink)].tx = none ∧
      0 < s.src[(0 : SrcLink)].withheld := by decide +kernel

theorem test_witness_SourceLinkEvents :
    let s := withSrc upPort State.reset
    s.resetLow = false ∧ s.src[(0 : SrcLink)].state = .up ∧ s.part.station = 0 := by decide +kernel

theorem test_witness_SourceLinkEvents_outside_up :
    (withSrc { upPort with state := .training } State.reset).src[(0 : SrcLink)].state = .training ∧
      State.reset.src[(0 : SrcLink)].state = .down ∧ (withSrc upPort State.reset).src[(0 : SrcLink)].state = .up ∧
      State.reset.resetLow = false := by decide +kernel

/-- A notice queue with an item in transmission on S0, which is not the station link. -/
theorem test_witness_SourceLinkEvents_notices :
    let n : NoticeEntry := ⟨.released ⟨label, false, 1, 1, 0⟩, some 0⟩
    let s := { withSrc upPort State.reset with notices := [n], part := { PartConfig.initial with station := 1 } }
    s.part.station ≠ 0 ∧ (s.notices.filter fun n => n.sending != some 0) = [] ∧ s.src[(0 : SrcLink)].state = .up := by
  decide +kernel

/-- The last granted credit, and slot 0 the lowest FREE one. -/
theorem test_witness_SegmentArrives :
    let s := withSrc { upPort with held := 255, granted := 1 } State.reset
    s.resetLow = false ∧ s.src[(0 : SrcLink)].state = .up ∧ 0 < s.src[(0 : SrcLink)].granted ∧
      Segment.ofBytes (seg 4 [1, 2]).toBytes = some (seg 4 [1, 2]) ∧ s.slots[(0 : SlotIx)].owner = none ∧
      ∀ j : SlotIx, j < 0 → s.slots[j].owner ≠ none :=
  ⟨rfl, by decide +kernel, by decide +kernel, by decide +kernel, by decide +kernel,
    fun j h => absurd h (Fin.not_lt_zero j)⟩

theorem test_witness_SegmentArrives_overrun :
    let s := withSrc { upPort with held := 256, granted := 0 } State.reset
    let u := withSrc { upPort with held := 256, granted := 0, overrun := true } State.reset
    s.resetLow = false ∧ s.src[(0 : SrcLink)].state = .up ∧ s.src[(0 : SrcLink)].granted = 0 ∧
      Segment.ofBytes (seg 4 [1]).toBytes = some (seg 4 [1]) ∧ s.src[(0 : SrcLink)].overrun = false ∧
      s.log.length < 64 ∧ u.src[(0 : SrcLink)].overrun = true ∧ u.src[(0 : SrcLink)].granted = 0 := by decide +kernel

/-- A reply, and a notice. -/
def reply : Reply := ⟨9, 1, .done, []⟩
def notice : NoticeEntry := ⟨.released ⟨label, false, 1, 1, 0⟩, none⟩

theorem test_witness_ReturnItems :
    let credit := withSrc { upPort with unannounced := 1 } State.reset
    let replies := withSrc { upPort with replies := [reply] } State.reset
    let notices := { withSrc upPort State.reset with notices := [{ notice with sending := some 1 }, notice] }
    let other := { withSrc upPort State.reset with part := { PartConfig.initial with station := 1 } }
    let sent := { withSrc { upPort with tx := some ⟨.notice, []⟩ } State.reset with
      notices := [notice, { notice with sending := some 0 }] }
    (0 < credit.src[(0 : SrcLink)].unannounced ∧ credit.src[(0 : SrcLink)].tx = none ∧ credit.resetLow = false) ∧
      (replies.src[(0 : SrcLink)].unannounced = 0 ∧ replies.src[(0 : SrcLink)].replies = reply :: []) ∧
      (notices.part.station = 0 ∧ notices.src[(0 : SrcLink)].replies = [] ∧
        notices.notices = [{ notice with sending := some 1 }] ++ notice :: [] ∧
        (∀ m ∈ [{ notice with sending := some 1 }], m.sending ≠ none) ∧ notice.sending = none) ∧
      (other.part.station ≠ 0 ∧ other.src[(0 : SrcLink)].unannounced = 0) ∧
      (sent.src[(0 : SrcLink)].tx = some ⟨.notice, []⟩ ∧ sent.notices = [notice] ++ { notice with sending := some 0 } :: [] ∧
        ∀ m ∈ [notice], m.sending ≠ some 0) := by decide +kernel

/-! ### The same: cards and files -/

/-- The record names itself. -/
theorem names_file (f : FileRec) (s : State) (h : s.files = vmod State.reset.files 5 fun _ => ⟨3, some f⟩)
    (hc : f.card = 0) (hn : f.number = 7) : NamesFile 0 7 5 f s := by
  refine ⟨?_, hc, hn, file_unique h⟩
  rw [h, vmod_self]

/-- A MOUNT of "A-CAM 007", with camera number 0102h and no expected file count. -/
def mountSeg : Segment := seg 0 (labelBytes ++ [0, 2, 1, 0, 0, 0, 0, 0, 0])

theorem test_witness_MountTaken :
    let s := atHead mountSeg State.reset
    AtHead 0 0 mountSeg s ∧ mountSeg.kind = 0 ∧ mountSeg.headerOk = true ∧ mountBodyOk mountSeg.payload = true ∧
      (∀ c' : CardIx, (s.cards[c'].map Card.label) ≠ some label ∧ (s.cards[c'].bind Card.handle) ≠ some ⟨0, 0⟩) ∧
      bytesAt mountSeg.payload 1 (fieldAt mountSeg.payload 0 1) = label ∧ s.cards[(0 : CardIx)] = none ∧
      ∀ c' : CardIx, c' < 0 → s.cards[c'] ≠ none := by decide +kernel

/-- The card mounted; detached, with its handle taken by another card; and detached with the handle free. -/
theorem test_witness_MountTaken_known :
    let gone : Card := { card with handle := none, mount := .detached }
    let other : State → State := fun s => { s with cards := vmod s.cards 1 fun _ => some { card with label := [0x42] } }
    AtHead 0 0 mountSeg (atHead mountSeg (withCard card State.reset)) ∧
      NamesCard label 0 card (atHead mountSeg (withCard card State.reset)) ∧ card.mount ≠ .detached ∧
      NamesCard label 0 gone (atHead mountSeg (other (withCard gone State.reset))) ∧ gone.mount = .detached ∧
      (∃ c' : CardIx, ((other (withCard gone State.reset)).cards[c'].bind Card.handle) = some ⟨0, 0⟩) ∧
      NamesCard label 0 gone (atHead mountSeg (withCard gone State.reset)) ∧
      ∀ c' : CardIx, ((withCard gone State.reset).cards[c'].bind Card.handle) ≠ some ⟨0, 0⟩ := by decide +kernel

/-- An ACTIVE card whose count agrees, one whose count differs, and an ENDED card. -/
theorem test_witness_CardEndEnds :
    let short : Card := { card with expected := some 2 }
    let done : Card := { card with mount := .ended }
    AtHead 0 0 (seg 2 []) (atHead (seg 2 []) (withCard card State.reset)) ∧ (seg 2 []).headerOk = true ∧
      HoldsHandle ⟨0, 0⟩ 0 card (withCard card State.reset) ∧ card.mount = .active ∧ card.expected = none ∧
      HoldsHandle ⟨0, 0⟩ 0 short (withCard short State.reset) ∧ short.expected = some 2 ∧ 2 ≠ short.opened ∧
      HoldsHandle ⟨0, 0⟩ 0 done (withCard done State.reset) ∧ done.mount ≠ .active := by decide +kernel

/-- The STREAMING file 7 on channel 2, with its OPEN and a DATA entry of slot 3 queued to D0 and engine 0 following it. -/
def streaming : State :=
  let tid : Tid := ⟨5, 3⟩
  let f : FileRec := { file with channel := some 2 }
  let s := withFile f (withCard card (withDest { DestPort.initial with
    state := .up, limit := .number 4, queue := [.data tid 3] } State.reset))
  { s with
    slots := vmod s.slots 3 fun _ => ⟨some 0, false, 2, seg 5 [1]⟩
    channels := vmod s.channels 2 fun _ => { ChannelRec.initial with state := .file ⟨tid, label, 7⟩ }
    engines := vmod s.engines 0 fun _ => { EngineState.initial with
      follow := some ⟨tid, label, 7, 16, 16, .p8, 0, false⟩, queue := [⟨3, 100, 0, 2, .begin, false, false⟩] } }

theorem test_witness_UnmountDetaches :
    let s := atHead (seg 1 []) (withCard card State.reset)
    let e : Card := { card with ended := true }
    AtHead 0 0 (seg 1 []) s ∧ (seg 1 []).headerOk = true ∧ HoldsHandle ⟨0, 0⟩ 0 card s ∧
      (∀ (j : FileIx) (f : FileRec), s.files[j].file = some f → f.card = 0 → f.state ≠ .streaming) ∧
      (∀ d : Dest, ¬ (s.dest[d].stalled = true ∧ s.dest[d].stall = false)) ∧ s.log.length < 64 ∧ card.ended = false ∧
      HoldsHandle ⟨0, 0⟩ 0 e (withCard e State.reset) ∧
      ∀ c' : CardIx, (State.reset.cards[c'].bind Card.handle) ≠ some ⟨0, 0⟩ :=
  ⟨head_of _ _ rfl, by decide, by decide +kernel, no_file rfl, by decide +kernel, by decide, rfl, by decide +kernel,
    by decide +kernel⟩

/-- A card with a STREAMING file. -/
theorem test_witness_UnmountDetaches_streaming :
    let s := atHead (seg 1 []) streaming
    AtHead 0 0 (seg 1 []) s ∧ HoldsHandle ⟨0, 0⟩ 0 card s ∧ s.files[(5 : FileIx)].file.any (fun f => f.card == 0 &&
      f.state == .streaming) = true ∧ file.copies[(0 : Dest)].unsettled = true ∧ s.log.length + 1 < 64 ∧
      s.engines[(0 : Engine)].waiting.length = 1 :=
  ⟨head_of _ _ rfl, by decide +kernel, by decide +kernel, by decide, by decide, by decide +kernel⟩

/-- A new label on a handle that is held, and on a free handle with 16 card records. -/
theorem test_witness_MountTaken_full :
    let b := withCard { card with label := [0x42] } State.reset
    let f : State := { State.reset with cards := Vector.replicate 16 (some { card with label := [0x42], handle := none }) }
    (∀ c' : CardIx, ((atHead mountSeg b).cards[c'].map Card.label) ≠ some label) ∧
      ((atHead mountSeg b).cards[(0 : CardIx)].bind Card.handle) = some ⟨0, mountSeg.cardSlot⟩ ∧
      (∀ c' : CardIx, ((atHead mountSeg f).cards[c'].map Card.label) ≠ some label) ∧
      ∀ c' : CardIx, (atHead mountSeg f).cards[c'] ≠ none ∧
        ((atHead mountSeg f).cards[c'].bind Card.handle) ≠ some ⟨0, mountSeg.cardSlot⟩ := by decide +kernel

/-- A MOUNT whose label has no bytes. -/
theorem test_witness_MountTaken_malformed :
    let g : Segment := seg 0 (List.replicate 26 0)
    AtHead 0 0 g (atHead g State.reset) ∧ g.kind = 0 ∧ g.headerOk = true ∧ mountBodyOk g.payload = false :=
  ⟨head_of _ _ rfl, rfl, by decide, by decide⟩

/-- An OPEN of a file number, with flags. -/
def openSeg (number flags : Byte) : Segment := { seg 3 (number :: List.replicate 79 0) with flags := flags }

/-- An unknown kind; a MOUNT and a CONTROL with a must-be-zero byte set; an addressed, a foreign and a held CONTROL; and the
codes at both ends of the unknown ones. -/
theorem test_witness_Refusals :
    let m : Segment := { mountSeg with mbz3 := 1 }
    let c : Segment := { control 1 [] with mbz3 := 1 }
    let f : State := withSrc ⟨.up, 1, 255, 0, 0, [0], some false, [], none, false⟩ (atHead (control 1 []) State.reset)
    let h : State := withSrc ⟨.up, 1, 255, 0, 0, [0], some true, List.replicate 4 reply, none, false⟩
      (atHead (control 1 []) State.reset)
    AtHead 0 0 (seg 8 []) (atHead (seg 8 []) State.reset) ∧ 8 ≤ (seg 8 []).kind.toNat ∧
      AtHead 0 0 m (atHead m State.reset) ∧ m.kind.toNat < 4 ∧ m.headerOk = false ∧
      AtHead 0 0 c (atHead c State.reset) ∧ c.kind = 7 ∧ c.headerOk = false ∧ Instr.identify 0 ∈ commandSteps 0 ∧
      AtHead 0 0 (control 1 []) f ∧ (control 1 []).headerOk = true ∧ f.src[(0 : SrcLink)].headAddressed = some false ∧
      AtHead 0 0 (control 1 []) h ∧ h.src[(0 : SrcLink)].headAddressed = some true ∧
      4 ≤ h.src[(0 : SrcLink)].replies.length ∧ (control 0 []).command = 0 ∧ 18 < (control 19 []).command ∧
      Serves 0 0 (control 19 []) (atHead (control 19 []) State.reset) := by
  refine ⟨head_of _ _ rfl, by decide, head_of _ _ rfl, by decide, by decide, head_of _ _ rfl, rfl, by decide, by decide,
    by decide +kernel, by decide, by decide +kernel, by decide +kernel, by decide +kernel, by decide +kernel, by decide,
    by decide, served _ _ rfl rfl (by decide)⟩

/-- An ESSENCE whose must-be-zero byte is set: without a card under its handle; of the card's refused file; without a file;
and of the STREAMING and of a SHORT file 7. -/
theorem test_witness_Refusals_data :
    let g : Segment := { seg 4 [1] with mbz3 := 1 }
    let r : Card := { card with refused := some 7 }
    let f : FileRec := { file with state := .short }
    g.isData = true ∧ g.headerOk = false ∧ AtHead 0 0 g (atHead g State.reset) ∧
      (∀ c' : CardIx, (State.reset.cards[c'].bind Card.handle) ≠ some ⟨0, g.cardSlot⟩) ∧
      HoldsHandle ⟨0, g.cardSlot⟩ 0 r (atHead g (withCard r State.reset)) ∧ r.refused = some g.fileNumber ∧
      HoldsHandle ⟨0, g.cardSlot⟩ 0 card (atHead g (withCard card State.reset)) ∧ card.refused ≠ some g.fileNumber ∧
      (∀ (j : FileIx) (f : FileRec), (atHead g (withCard card State.reset)).files[j].file = some f → f.card = 0 →
        f.number ≠ g.fileNumber) ∧
      NamesFile 0 g.fileNumber 5 file (dataState g file) ∧ file.state = .streaming ∧
      NamesFile 0 g.fileNumber 5 f (dataState g f) ∧ f.state ≠ .streaming :=
  ⟨by decide, by decide, head_of _ _ rfl, by decide +kernel, by decide +kernel, by decide, by decide +kernel, by decide,
    no_file rfl, names_file _ _ rfl rfl rfl, rfl, names_file _ _ rfl rfl rfl, by decide⟩

/-- An ESSENCE in form: without a card; of the refused file; without a file; and of a SHORT file 7. An OPEN and a CARD_END
without a card. -/
theorem test_witness_Refusals_dispatch :
    let g := seg 4 [1]
    let r : Card := { card with refused := some 7 }
    let f : FileRec := { file with state := .short }
    g.isData = true ∧ g.headerOk = true ∧ (∀ c' : CardIx, (State.reset.cards[c'].bind Card.handle) ≠ some ⟨0, g.cardSlot⟩) ∧
      HoldsHandle ⟨0, g.cardSlot⟩ 0 r (atHead g (withCard r State.reset)) ∧ r.refused = some g.fileNumber ∧
      HoldsHandle ⟨0, g.cardSlot⟩ 0 card (atHead g (withCard card State.reset)) ∧ card.refused ≠ some g.fileNumber ∧
      (∀ (j : FileIx) (f : FileRec), (atHead g (withCard card State.reset)).files[j].file = some f → f.card = 0 →
        f.number ≠ g.fileNumber) ∧
      NamesFile 0 g.fileNumber 5 f (dataState g f) ∧ f.state ≠ .streaming ∧ (dataState g f).log.length < 64 ∧
      (openSeg 7 0).kind = 3 ∧ (openSeg 7 0).headerOk = true ∧ (seg 2 []).kind = 2 ∧ (seg 2 []).headerOk = true :=
  ⟨by decide, by decide, by decide +kernel, by decide +kernel, by decide, by decide +kernel, by decide, no_file rfl,
    names_file _ _ rfl rfl rfl, by decide, by decide, by decide, by decide +kernel, by decide, by decide⟩

/-- A route for every key to D0, with a profile and a format or without. -/
def withRoute (p f : Option (Fin 8)) (s : State) : State :=
  { s with routes := vmod s.routes 3 fun _ => ⟨true, 0, 0, 1, 2, 4, p, f⟩ }

/-- Entry 3 is the lowest that matches. -/
theorem routes_three (p f : Option (Fin 8)) (g : Segment) (key : BitVec 24) (s : State) (h : s.routes = State.reset.routes) :
    Routes 3 key (atHead g (withRoute p f s)) := by
  refine ⟨?_, fun m hm => ?_⟩
  · show ((vmod s.routes 3 _)[(3 : Fin 32)]).takes key = true
    rw [vmod_self]; simp [RouteEntry.takes]
  · show ((vmod s.routes 3 _)[m]).takes key = false
    rw [vmod_other _ _ _ _ (ne_of_lt hm), h]; simp [State.reset, RouteEntry.takes, RouteEntry.initial]

/-- A fresh OPEN of file 7 of an ACTIVE card, at record index 0. -/
theorem test_witness_OpenFresh :
    let p : Option (Fin 8) := some 2
    let f : Option (Fin 8) := some 1
    let g := openSeg 7 0
    let s := atHead g (withRoute p f (withCard card State.reset))
    OpensOn 0 0 g 0 card s ∧ openBodyOk g.payload = true ∧ OpenAllowed g 0 card s ∧
      (∀ (j' : FileIx) (f : FileRec), s.files[j'].file = some f → f.card = 0 → f.number ≠ openNumber g) ∧
      Routes 3 (openKey g card) s ∧ s.files[(0 : FileIx)].file = none ∧
      (∀ j' : FileIx, j' < 0 → s.files[j'].file ≠ none) ∧ s.log.length < 64 := by
  refine ⟨⟨head_of _ _ rfl, by decide, by decide +kernel, rfl, by decide, ?_⟩, by decide +kernel, ⟨by decide, no_file rfl⟩,
    no_file rfl, routes_three _ _ _ _ _ rfl, ?_, fun j h => absurd h (Fin.not_lt_zero j), Nat.zero_lt_succ 63⟩
  · exact card_unique
  · show State.reset.files[(0 : FileIx)].file = none
    rw [reset_file]

/-- The channels all FREE, so that channel 0 is the lowest; and all taken. -/
theorem test_witness_OpenFresh_channels :
    State.reset.channels[(0 : Channel)].state = .free ∧
      (∀ ch' : Channel, ch' < 0 → State.reset.channels[ch'].state ≠ .free) ∧
      ∀ ch : Channel, ({ State.reset with
        channels := Vector.replicate 8 ({ ChannelRec.initial with state := .test ⟨⟨0, 0, 0⟩, 1, 0⟩ } : ChannelRec) } :
        State).channels[ch].state ≠ .free := by
  decide +kernel

/-- An engine that an OPEN on S0 with a PICTURE format qualifies for, and one that it does not. -/
theorem test_witness_OpenFresh_follows :
    let m : FormatEntry := { FormatEntry.initial with valid := true }
    followOpened (.follow 1) 0 ⟨0, 1⟩ label 7 4 (some m) = some ⟨⟨0, 1⟩, label, 7, 16, 16, .p8, 4, false⟩ ∧
      followOpened (.pin label 8) 0 ⟨0, 1⟩ label 7 4 (some m) = none ∧ followOpened .off 0 ⟨0, 1⟩ label 7 4 (some m) = none ∧
      followOpened (.follow 2) 0 ⟨0, 1⟩ label 7 4 (some m) = none := by decide

/-- A recopy OPEN of the SHORT file 7, whose copies on D0 and D1 were VERIFIED and FAILED, under any route result; the
channels are those of `test_witness_OpenFresh_channels`. -/
theorem test_witness_OpenRecopy (p f : Option (Fin 8)) (channels : Vector ChannelRec 8) :
    let g := openSeg 7 2
    let old : FileRec := { file with state := .short, copies := #v[.verified, .failed .link, .none_, .none_, .none_, .none_] }
    let s : State := { atHead g (withRoute p f (withFile old (withCard card State.reset))) with channels := channels }
    OpensOn 0 0 g 0 card s ∧ openBodyOk g.payload = true ∧ g.recopy = true ∧ NamesFile 0 (openNumber g) 5 old s ∧
      old.state = .short ∧ Routes 3 (openKey g card) s ∧ s.log.length < 64 :=
  ⟨⟨head_of _ _ rfl, by decide, by decide +kernel, rfl, by decide, card_unique⟩, by decide +kernel, by decide,
    names_file _ _ rfl rfl rfl, rfl, routes_three p f (openSeg 7 2) _ State.reset rfl, Nat.zero_lt_succ 63⟩

/-- An OPEN whose body fails; a late one; a second one of a STREAMING file; and an unrouted one. -/
theorem test_witness_OpenRefused :
    let bad : Segment := seg 3 ([7, 0, 0, 0, 1, 2] ++ List.replicate 74 0)
    let done : Card := { card with mount := .ended }
    OpensOn 0 0 bad 0 card (atHead bad (withCard card State.reset)) ∧ openBodyOk bad.payload = false ∧
      OpensOn 0 0 (openSeg 7 0) 0 done (atHead (openSeg 7 0) (withCard done State.reset)) ∧
      openBodyOk (openSeg 7 0).payload = true ∧ done.mount = .ended ∧ (openSeg 7 0).recopy = false ∧
      OpensOn 0 0 (openSeg 7 0) 0 card (atHead (openSeg 7 0) (withFile file (withCard card State.reset))) ∧
      NamesFile 0 (openNumber (openSeg 7 0)) 5 file (atHead (openSeg 7 0) (withFile file (withCard card State.reset))) ∧
      file.state ≠ .short ∧
      OpenAllowed (openSeg 7 0) 0 card (atHead (openSeg 7 0) (withCard card State.reset)) ∧
      ∀ n : Fin 32, State.reset.routes[n].takes (openKey (openSeg 7 0) card) = false := by
  refine ⟨⟨head_of _ _ rfl, by decide, by decide +kernel, rfl, by decide, card_unique⟩, by decide +kernel,
    ⟨head_of _ _ rfl, by decide, by decide +kernel, rfl, by decide, ?_⟩, by decide +kernel, rfl, by decide,
    ⟨head_of _ _ rfl, by decide, by decide +kernel, rfl, by decide, card_unique⟩, names_file _ _ rfl rfl rfl, by decide,
    ⟨by decide, no_file rfl⟩, by decide +kernel⟩
  exact (by decide +kernel : ∀ c' : CardIx,
    ((withCard { card with mount := .ended } State.reset).cards[c'].bind Card.handle) = some ⟨0, 0⟩ → c' = 0)

/-- A file table without a free position. -/
theorem test_witness_OpenRefused_full :
    let s : State := { State.reset with files := Vector.replicate 512 ⟨0, some { file with number := 8 }⟩ }
    (∀ j : FileIx, s.files[j].file ≠ none) ∧
      ∀ (j : FileIx) (f : FileRec), s.files[j].file = some f → f.card = 0 → f.number ≠ openNumber (openSeg 7 0) := by
  refine ⟨fun j => by simp, fun j f e _ => ?_⟩
  simp at e
  rw [← e]
  decide

/-- An ESSENCE, a PREVIEW and a META of three bytes, in place. -/
theorem test_witness_DataSegmentAccepted :
    let e : Segment := seg 4 [1, 2, 3]
    let p : Segment := { seg 5 [1, 2, 3] with ext := [100, 0, 0, 0, 0, 0, 1, 0] }
    let m : Segment := { seg 6 [1, 2, 3] with ext := [100, 0, 0, 0, 0, 0, 0, 0] }
    DataOf 0 0 e 0 card 5 file (dataState e file) ∧ DataOf 0 0 p 0 card 5 file (dataState p file) ∧
      DataOf 0 0 m 0 card 5 file (dataState m file) ∧ InPlace file e ∧ InPlace file p ∧ InPlace file m ∧
      e.payload ≠ [] ∧ e.last = false ∧ p.last = false ∧ m.last = false :=
  ⟨data_of _ _ (by decide) (by decide), data_of _ _ (by decide) (by decide), data_of _ _ (by decide) (by decide),
    by decide, by decide, by decide, by decide, by decide, by decide, by decide⟩

/-- A file with an 8-line frame assembly in a state, of width 16 with one byte for each colour. -/
def picture (st : AssemblyState) (last : Option Nat) : FileRec :=
  { file with
    channel := some 2
    assembly := some ⟨some { FormatEntry.initial with valid := true, height := 16 }, st, last, 4, some Sums.initial, [], none, none⟩ }

/-- One line of frame 100. -/
def line (first count : Byte) : Segment := { seg 5 (List.replicate 48 7) with ext := [100, 0, 0, 0, first, 0, count, 0] }

/-- The PREVIEW of a PICTURE file: one that begins a frame, one that continues it, one with a wrong shape, an older one
and a repeated one. -/
theorem test_witness_PreviewPlaced :
    DataOf 0 0 (line 0 1) 0 card 5 (picture .idle none) (dataState (line 0 1) (picture .idle none)) ∧
      DataOf 0 0 (line 4 1) 0 card 5 (picture .building (some 100)) (dataState (line 4 1) (picture .building (some 100))) ∧
      DataOf 0 0 (line 4 1) 0 card 5 (picture (.broken .line) (some 101))
        (dataState (line 4 1) (picture (.broken .line) (some 101))) ∧
      (line 0 1).kind = 5 ∧ InPlace (picture .idle none) (line 0 1) ∧ InPlace (picture .building (some 100)) (line 4 1) ∧
      (line 0 1).payload ≠ [] ∧ (line 0 1).last = false ∧ (line 4 1).last = false :=
  ⟨data_of _ _ (by decide) (by decide), data_of _ _ (by decide) (by decide), data_of _ _ (by decide) (by decide),
    by decide, by decide, by decide, by decide, by decide, by decide⟩

theorem test_witness_PreviewPlaced_rows :
    let m : FormatEntry := { FormatEntry.initial with valid := true, height := 16 }
    shapeOk m (line 0 1) = true ∧ shapeOk m (line 0 2) = false ∧ shapeOk m (line 15 1) = true ∧
      shapeOk m (line 16 1) = false ∧ shapeOk { m with height := 1 } (line 0 1) = true ∧
      (∀ a, (picture .idle none).assembly = some a → a.greater 100 = true) ∧
      (∀ a, (picture .idle (some 100)).assembly = some a → a.greater 100 = false) ∧
      (∀ a, (picture .building (some 99)).assembly = some a → a.greater 100 = true) ∧
      (line 4 1).firstLine + (line 4 1).lineCount < m.height := by
  refine ⟨by decide, by decide, by decide, by decide, by decide, ?_, ?_, ?_, by decide⟩ <;>
    intro a h <;> cases h <;> decide

/-- The last line of the frame in progress completes it; a greater frame closes one in BUILDING and one in BROKEN. -/
theorem test_witness_PreviewPlaced_closures :
    let m : FormatEntry := { FormatEntry.initial with valid := true, height := 16 }
    let a : FileRec := { picture .building (some 100) with
      assembly := some ⟨some m, .building, some 100, 15, some Sums.initial, [], none, none⟩ }
    DataOf 0 0 (line 15 1) 0 card 5 a (dataState (line 15 1) a) ∧ shapeOk m (line 15 1) = true ∧
      (line 15 1).firstLine = 15 ∧ (line 15 1).firstLine + (line 15 1).lineCount = m.height ∧
      DataOf 0 0 (line 0 1) 0 card 5 (picture .building (some 99)) (dataState (line 0 1) (picture .building (some 99))) ∧
      DataOf 0 0 (line 4 1) 0 card 5 (picture (.broken .shape) (some 99))
        (dataState (line 4 1) (picture (.broken .shape) (some 99))) ∧
      99 < (line 0 1).frame ∧ (line 4 1).firstLine ≠ 0 ∧ (line 0 1).lineCount ≠ m.height :=
  ⟨data_of _ _ (by decide) (by decide), by decide, by decide, by decide, data_of _ _ (by decide) (by decide),
    data_of _ _ (by decide) (by decide), by decide, by decide, by decide⟩

/-- Frames that a channel measures: one that begins, one that begins as its only segment, and one that is completed by its
last line. -/
theorem test_witness_PictureMeasured :
    let m : FormatEntry := { FormatEntry.initial with valid := true, height := 16 }
    let a : FileRec := { picture .building (some 100) with
      assembly := some ⟨some m, .building, some 100, 15, some Sums.initial, [], none, none⟩ }
    let p : FrameProgress := ⟨100, LookTableEntry.initial, 15, 0, 0, 0, 0⟩
    let s : State := { dataState (line 15 1) a with
      channels := vmod State.reset.channels 2 fun _ => { ChannelRec.initial with frame := some p, width := 16, height := 16 } }
    DataOf 0 0 (line 0 1) 0 card 5 (picture .idle none) (dataState (line 0 1) (picture .idle none)) ∧
      (picture .idle none).channel = some 2 ∧ shapeOk m (line 0 1) = true ∧ (line 0 1).firstLine = 0 ∧
      (∀ x, (picture .idle none).assembly = some x → x.greater (line 0 1).frame = true ∧ x.state = .idle) ∧
      (line 0 1).firstLine + (line 0 1).lineCount < m.height ∧
      DataOf 0 0 (line 15 1) 0 card 5 a s ∧ a.channel = some 2 ∧ s.channels[(2 : Channel)].frame = some p ∧
      shapeOk m (line 15 1) = true ∧ (line 15 1).firstLine + (line 15 1).lineCount = m.height ∧
      (∀ (e : Engine) (h : Follow), s.engines[e].follow = some h → h.tid ≠ ⟨5, s.files[(5 : FileIx)].gen⟩) := by
  refine ⟨data_of _ _ (by decide) (by decide), rfl, by decide, by decide, ?_, by decide, data_of (line 15 1) _ (by decide)
    (by decide), rfl, ?_, by decide, by decide, fun e h hf => ?_⟩
  · intro x h; cases h; decide
  · show (vmod State.reset.channels 2 _)[(2 : Channel)].frame = _
    rw [vmod_self]
  · have : ∀ e : Engine, State.reset.engines[e].follow = none := by decide +kernel
    change State.reset.engines[e].follow = some h at hf
    rw [this] at hf; cases hf

/-- Engine 0 follows file 7 with room in its queue, and engine 1 with a full queue. -/
theorem test_witness_PreviewOffered :
    let g := line 0 1
    let fo : Follow := ⟨⟨5, 3⟩, label, 7, 16, 16, .p8, 0, false⟩
    let x : LookItem := ⟨0, 99, 0, 1, .begin, false, false⟩
    let s : State := { dataState g (picture .idle none) with
      engines := #v[{ EngineState.initial with follow := some fo, pendingGap := true },
        { EngineState.initial with follow := some fo, queue := List.replicate 8 x }] }
    DataOf 0 0 g 0 card 5 (picture .idle none) s ∧ g.kind = 5 ∧ InPlace (picture .idle none) g ∧ g.payload ≠ [] ∧
      g.last = false ∧ s.files[(5 : FileIx)].gen = 3 ∧
      (∀ e : Engine, s.engines[e].follow = some fo) ∧ fo.tid = ⟨5, 3⟩ ∧
      ¬ 8 ≤ s.engines[(0 : Engine)].queue.length ∧ 8 ≤ s.engines[(1 : Engine)].queue.length := by
  refine ⟨data_of (line 0 1) (picture .idle none) (by decide) (by decide), by decide, by decide, by decide, by decide, ?_,
    by decide +kernel, rfl, by decide +kernel, by decide +kernel⟩
  show ((vmod State.reset.files 5 _)[(5 : FileIx)]).gen = 3
  rw [vmod_self]

/-- A file whose format is META_ONLY or PICTURE, with a record length of 8 and both offsets. -/
def metaFile (packing : Packing) (last : Option Nat) (st : AssemblyState) (channel : Option Channel) : FileRec :=
  { file with
    channel := channel
    assembly := some ⟨some ⟨true, packing, 16, 16, .fps24, some 0, some 4, 8⟩, st, last, 0, none, [], none, none⟩ }

/-- A META of frame 100 with bytes. -/
def metaSeg (payload : Bytes) : Segment := { seg 6 payload with ext := [100, 0, 0, 0, 0, 0, 0, 0] }

/-- A META of the record length for a PICTURE file, late and not late, and for a META_ONLY file with a channel; one of another
length; and one of a file whose format is not valid. -/
theorem test_witness_MetaTaken :
    let g := metaSeg [0, 0, 0, 1, 5, 0, 0, 0]
    let p := metaFile .p8 (some 100) .building none
    let o := metaFile .none_ none .idle (some 2)
    let n : FileRec := { file with assembly := some (Assembly.start (some FormatEntry.initial)) }
    DataOf 0 0 g 0 card 5 p (dataState g p) ∧ DataOf 0 0 g 0 card 5 o (dataState g o) ∧
      DataOf 0 0 g 0 card 5 n (dataState g n) ∧ DataOf 0 0 (metaSeg [1]) 0 card 5 p (dataState (metaSeg [1]) p) ∧
      g.kind = 6 ∧ InPlace p g ∧ InPlace o g ∧ InPlace n g ∧ g.payload ≠ [] ∧ g.last = false ∧ g.payload.length = 8 ∧
      (metaSeg [1]).payload.length ≠ 8 ∧ ([] : List MetaRec).Pairwise (fun x y => x.frame < y.frame) ∧ g.frame = 100 :=
  ⟨data_of _ _ (by decide) (by decide), data_of _ _ (by decide) (by decide), data_of _ _ (by decide) (by decide),
    data_of _ _ (by decide) (by decide), by decide, by decide, by decide, by decide, by decide, by decide, by decide,
    by decide, by decide, by decide⟩

/-- A LAST with bytes for a SENDING copy, and a zero-length LAST of a file without an unsettled copy. -/
theorem test_witness_LastSegmentSettles :
    let g : Segment := { seg 4 [1, 2, 3] with flags := 1 }
    let z : Segment := { seg 4 [] with flags := 1 }
    let f : FileRec := { file with copies := #v[.verified, .none_, .none_, .none_, .none_, .none_] }
    DataOf 0 0 g 0 card 5 file (dataState g file) ∧ InPlace file g ∧ g.last = true ∧
      (∃ d : Dest, file.copies[d].unsettled = true) ∧ file.assembly.map Assembly.state = some .idle ∧
      DataOf 0 0 z 0 card 5 f (dataState z f) ∧ InPlace f z ∧ z.last = true ∧
      (∀ d : Dest, f.copies[d].unsettled = false) ∧ f.route.required ≤ f.verifiedCount ∧
      ({ f with copies := Vector.replicate 6 .none_ } : FileRec).verifiedCount < f.route.required :=
  ⟨data_of _ _ (by decide) (by decide), by decide, by decide, by decide, by decide, data_of _ _ (by decide) (by decide),
    by decide, by decide, by decide, by decide, by decide⟩

/-- A LAST PREVIEW, and a LAST META of a file whose declared size differs. -/
theorem test_witness_LastSegmentSettles_kinds :
    let p : Segment := { line 0 1 with flags := 1 }
    let m : Segment := { metaSeg [1] with flags := 1 }
    let d : FileRec := { file with declared := some 4 }
    DataOf 0 0 p 0 card 5 (picture .idle none) (dataState p (picture .idle none)) ∧ p.kind = 5 ∧ p.last = true ∧
      DataOf 0 0 m 0 card 5 d (dataState m d) ∧ m.kind = 6 ∧ m.last = true ∧ InPlace d m ∧
      4 ≠ d.nextOffset + m.payload.length :=
  ⟨data_of _ _ (by decide) (by decide), by decide, by decide, data_of _ _ (by decide) (by decide), by decide, by decide,
    by decide, by decide⟩

/-- A LAST of the file that engine 0 follows, with an entry queued and with none. -/
theorem test_witness_LastSegmentSettles_follow :
    let f : FileRec := { file with channel := some 2 }
    let g : Segment := { seg 4 [1] with flags := 1 }
    let fo : Follow := ⟨⟨5, 3⟩, label, 7, 16, 16, .p8, 0, false⟩
    let x : LookItem := ⟨3, 100, 0, 2, .begin, false, false⟩
    let s : List LookItem → State := fun q => { dataState g f with
      engines := #v[{ EngineState.initial with follow := some fo, queue := q }, EngineState.initial] }
    DataOf 0 0 g 0 card 5 f (s [x]) ∧ DataOf 0 0 g 0 card 5 f (s []) ∧ g.last = true ∧ InPlace f g ∧
      (s [x]).engines[(0 : Engine)].follow = some fo ∧ (s []).files[(5 : FileIx)].gen = 3 ∧
      (s [x]).engines[(0 : Engine)].queue ≠ [] ∧ (s []).engines[(0 : Engine)].queue = [] ∧
      (s []).engines[(0 : Engine)].proc = none := by
  refine ⟨data_of { seg 4 [1] with flags := 1 } { file with channel := some 2 } (by decide) (by decide),
    data_of { seg 4 [1] with flags := 1 } { file with channel := some 2 } (by decide) (by decide), by decide, by decide,
    by decide, ?_, by decide, by decide, by decide⟩
  show ((vmod State.reset.files 5 _)[(5 : FileIx)]).gen = 3
  rw [vmod_self]

/-- A segment one byte beyond the offset expected. -/
theorem test_witness_SequenceBreaks :
    let g : Segment := { seg 4 [1] with offset := 1 }
    DataOf 0 0 g 0 card 5 file (dataState g file) ∧ ¬ InPlace file g ∧ (dataState g file).log.length < 58 :=
  ⟨data_of _ _ (by decide) (by decide), by decide, by decide⟩

/-! ### The same: look engines -/

/-- Engine 0 with a record. -/
def withEngine (g : EngineState) (s : State) : State := { s with engines := vmod s.engines 0 fun _ => g }

/-- What the engine latched of file 7. -/
def follow : Follow := ⟨⟨5, 3⟩, label, 7, 16, 16, .p8, 0, false⟩

/-- Two lines of frame 100 in slot 0. -/
def item : LookItem := ⟨0, 100, 0, 2, .begin, false, false⟩

theorem test_witness_EntryStartsFrame :
    let b := withEngine { EngineState.initial with follow := some follow, queue := [item] } State.reset
    let c := withEngine { EngineState.initial with
      follow := some follow, queue := [{ item with placement := .continue_, gap := true }], out := .opened 100 2 } State.reset
    b.resetLow = false ∧ b.engines[(0 : Engine)].proc = none ∧ b.engines[(0 : Engine)].queue = item :: [] ∧
      b.engines[(0 : Engine)].follow = some follow ∧ item.placement = .begin ∧
      c.engines[(0 : Engine)].out = .opened 100 2 ∧
      c.engines[(0 : Engine)].queue = { item with placement := .continue_, gap := true } :: [] ∧
      State.reset.engines[(0 : Engine)].queue = [] := by decide +kernel

/-- A passed-over entry in slot 0, which S0 owns: without an output frame, with one of another number, and with one of its
own number, as the last entry of an ended follow; and a CONTINUE of a BROKEN output frame. -/
theorem test_witness_EntryStartsFrame_passed_over :
    let fo : Follow := { follow with ended := true }
    let en : OutFrame → Placement → State := fun o p => atHead (seg 5 [1]) (withEngine { EngineState.initial with
      follow := some fo, queue := [{ item with placement := p }], out := o } State.reset)
    (en .none_ .misfit).engines[(0 : Engine)].out = .none_ ∧
      (en (.broken 99 4) .continue_).engines[(0 : Engine)].out = .broken 99 4 ∧ 99 ≠ item.frame ∧
      (en (.opened 100 4) .misfit).engines[(0 : Engine)].out = .opened item.frame 4 ∧
      (en (.broken 100 4) .continue_).engines[(0 : Engine)].out = .broken item.frame 4 ∧
      (en .none_ .misfit).engines[(0 : Engine)].queue = { item with placement := .misfit } :: [] ∧
      (en .none_ .misfit).engines[(0 : Engine)].follow = some fo ∧ fo.ended = true ∧
      (en .none_ .misfit).engines[(0 : Engine)].proc = none ∧
      (en .none_ .misfit).slots[item.slot].owner = some 0 ∧ (en .none_ .misfit).resetLow = false := by decide +kernel

/-- An engine with its entry in processing. -/
def busy (complete : Bool) : EngineState :=
  { EngineState.initial with
    follow := some follow, queue := [{ item with complete := complete }], proc := some ⟨16, .p8, 0⟩
    out := .opened 100 0, working := some ⟨0, LookTableEntry.initial⟩ }

theorem test_witness_EntryCompletes :
    let s := atHead (seg 5 (List.replicate 96 7)) (withEngine (busy true) State.reset)
    s.resetLow = false ∧ s.engines[(0 : Engine)].queue = { item with complete := true } :: [] ∧
      s.engines[(0 : Engine)].proc = some ⟨16, .p8, 0⟩ ∧
      s.engines[(0 : Engine)].working = some ⟨0, LookTableEntry.initial⟩ ∧
      s.engines[(0 : Engine)].follow = some follow ∧ s.engines[(0 : Engine)].out = .opened 100 0 ∧
      s.engines[(0 : Engine)].closeAfter = false ∧ s.slots[item.slot].owner = some 0 := by decide +kernel

/-- An entry of a BROKEN output frame, and one for whose completion a change of follow waits. -/
theorem test_witness_EntryCompletes_broken :
    let b := atHead (seg 5 (List.replicate 96 7)) (withEngine { busy true with out := .broken 100 4 } State.reset)
    let c := atHead (seg 5 (List.replicate 96 7)) (withEngine { busy false with closeAfter := true, follow := none }
      State.reset)
    b.engines[(0 : Engine)].out = .broken 100 4 ∧ b.engines[(0 : Engine)].proc = some ⟨16, .p8, 0⟩ ∧
      b.engines[(0 : Engine)].closeAfter = false ∧ c.engines[(0 : Engine)].closeAfter = true ∧
      c.engines[(0 : Engine)].follow = none ∧ c.engines[(0 : Engine)].out = .opened 100 0 ∧
      c.slots[item.slot].owner = some 0 := by decide +kernel

/-- A REVIEW SELECT of a kind for V0. -/
def reviewSeg (kind links : Byte) : Segment := control 13 ([0, kind, links] ++ List.replicate 25 0)

/-- OFF chooses nothing; a FOLLOW of every link chooses the one STREAMING file of PICTURE mode. -/
theorem test_witness_ReviewSelected :
    let s := atHead (reviewSeg 0 0) (withEngine (busy false) State.reset)
    Serves 0 0 (reviewSeg 0 0) s ∧ (reviewSeg 0 0).command = 13 ∧ (reviewShape (reviewSeg 0 0).payload).passes ∧
      fieldAt (reviewSeg 0 0).payload 0 1 = (0 : Engine).val ∧ fieldAt (reviewSeg 0 0).payload 1 1 = 0 ∧
      Chosen .off none s ∧ (none : Option Tid) ≠ s.engines[(0 : Engine)].follow.map Follow.tid :=
  ⟨served _ _ rfl rfl (by decide +kernel), by decide +kernel, by decide +kernel, by decide +kernel, by decide +kernel,
    .inl ⟨rfl, fun _ _ _ _ h => h.2.2.2.2.2.2⟩, by decide +kernel⟩

theorem test_witness_ReviewSelected_follow :
    let g := reviewSeg 1 15
    let m : FormatEntry := { FormatEntry.initial with valid := true, height := 16 }
    let s := atHead g (withFile (picture .idle none) (withCard card State.reset))
    Serves 0 0 g s ∧ g.command = 13 ∧ (reviewShape g.payload).passes ∧ fieldAt g.payload 1 1 = 1 ∧
      fieldAt g.payload 2 1 = 15 ∧ Chosen (.follow 15) (some ⟨⟨5, 3⟩, label, 7, m.width, m.height, m.packing, 0, false⟩) s := by
  refine ⟨served _ _ rfl rfl (by decide +kernel), by decide +kernel, by decide +kernel, by decide +kernel, by decide +kernel,
    .inr ⟨5, picture .idle none, { FormatEntry.initial with valid := true, height := 16 }, card, ?_, ?_, ?_⟩⟩
  · refine ⟨?_, rfl, rfl, rfl, by decide, by decide +kernel, ⟨0, 0⟩, rfl, by decide⟩
    show (vmod State.reset.files 5 _)[(5 : FileIx)].file = _
    rw [vmod_self]
  · intro j f m k h
    exact .inl (one_file (P := fun j _ => j = 5) rfl rfl j f h.1)
  · show _ = some (⟨⟨5, (vmod State.reset.files 5 _)[(5 : FileIx)].gen⟩, _, _, _, _, _, _, _⟩ : Follow)
    rw [vmod_self]; rfl

/-! ### The same: destinations -/

theorem test_witness_DestLinkEvents :
    State.reset.resetLow = false ∧ State.reset.dest[(0 : Dest)].state = .down ∧
      (withDest { fullDest with state := .training } State.reset).dest[(0 : Dest)].state = .training ∧
      (withDest fullDest State.reset).dest[(0 : Dest)].state = .up ∧
      (withDest fullDest State.reset).dest[(0 : Dest)].tx.any DestTx.noResend = false ∧
      (withDest { fullDest with state := .quarantined } State.reset).dest[(0 : Dest)].state = .quarantined := by
  decide +kernel

theorem test_witness_DestLinkEvents_announce :
    let m : InMessage := ⟨3, 0, 0, 0, 0, [255, 0, 0, 0]⟩
    State.reset.resetLow = false ∧ InMessage.ofBytes [3, 0, 4, 0, 0, 0, 0, 0, 255, 0, 0, 0] = some m ∧ m.type = 3 ∧
      m.numberOk = true ∧ (withDest { fullDest with state := .training } State.reset).dest[(0 : Dest)].state = .training ∧
      (withDest { fullDest with state := .retraining } State.reset).dest[(0 : Dest)].state = .retraining ∧
      (withDest { fullDest with state := .quarantined } State.reset).dest[(0 : Dest)].aligned = false ∧
      ({ m with mbz7 := 1 } : InMessage).numberOk = false := by decide +kernel

theorem test_witness_RetrainExpiryGoesDown :
    let s := withDest { fullDest with state := .retraining, retrain := some 100 } (withFile file (withCard card State.reset))
    s.resetLow = false ∧ s.dest[(0 : Dest)].retrain ≠ none ∧ s.files[(5 : FileIx)].file = some file ∧
      file.copies[(0 : Dest)].unsettled = true ∧ file.copies[(1 : Dest)].unsettled = false := by decide +kernel

/-- An ABORT at the head of an UP destination. -/
def abortDest (limit : CreditLimit) (inUse : Nat) (stall : Bool) : DestPort :=
  { DestPort.initial with state := .up, limit := limit, inUse := inUse, queue := [.abort ⟨5, 3⟩], stall := stall }

theorem test_witness_TransmissionStarts :
    let s := withDest (abortDest (.number 4) 3 false) State.reset
    let b := withDest (abortDest (.number 4) 4 false) State.reset
    let w := withDest (abortDest (.number 4) 4 true) State.reset
    let u := withDest (abortDest .unlimited 0 false) State.reset
    s.resetLow = false ∧ s.dest[(0 : Dest)].state = .up ∧ s.dest[(0 : Dest)].tx = none ∧
      s.dest[(0 : Dest)].queue = .abort ⟨5, 3⟩ :: [] ∧ QEntry.abort ⟨5, 3⟩ ≠ .halt ∧
      s.dest[(0 : Dest)].limit = .number 4 ∧ s.dest[(0 : Dest)].inUse < 4 ∧
      b.dest[(0 : Dest)].limit = .number b.dest[(0 : Dest)].inUse ∧ b.dest[(0 : Dest)].stall = false ∧
      w.dest[(0 : Dest)].stall = true ∧ u.dest[(0 : Dest)].limit = .unlimited := by decide +kernel

/-- A HALT and an ABORT at the head of a QUARANTINED destination, aligned and not. -/
theorem test_witness_TransmissionStarts_quarantined :
    let q : Bool → QEntry → State := fun a e => withDest { DestPort.initial with
      state := .quarantined, aligned := a, queue := [e] } State.reset
    (q true .halt).dest[(0 : Dest)].state = .quarantined ∧ (q true .halt).dest[(0 : Dest)].aligned = true ∧
      (q true .halt).dest[(0 : Dest)].tx = none ∧ (q true .halt).dest[(0 : Dest)].queue = .halt :: [] ∧
      (q false .halt).dest[(0 : Dest)].aligned = false ∧
      (q true (.abort ⟨5, 3⟩)).dest[(0 : Dest)].queue = .abort ⟨5, 3⟩ :: [] ∧ QEntry.abort ⟨5, 3⟩ ≠ .halt ∧
      State.reset.dest[(0 : Dest)].queue = [] := by decide +kernel

/-- D0 in the transmission of an entry. -/
def sendingDest (e : QEntry) : DestPort :=
  { DestPort.initial with state := .up, limit := .unlimited, queue := [e], tx := some ⟨false, []⟩ }

theorem test_witness_TransmissionEnds :
    let pend : FileRec := { file with copies := #v[.pending, .none_, .none_, .none_, .none_, .none_] }
    let o := withDest (sendingDest (.openMsg ⟨5, 3⟩ label 7 none none)) (withFile pend State.reset)
    let d := atHead (seg 4 [1]) (withDest (sendingDest (.data ⟨5, 3⟩ 0)) (withFile file State.reset))
    let c := withDest (sendingDest (.close ⟨5, 3⟩ 1 0)) (withFile file State.reset)
    o.resetLow = false ∧ o.dest[(0 : Dest)].tx = some ⟨false, []⟩ ∧
      o.dest[(0 : Dest)].queue = .openMsg ⟨5, 3⟩ label 7 none none :: [] ∧ o.files[(5 : FileIx)] = ⟨3, some pend⟩ ∧
      pend.copies[(0 : Dest)] = .pending ∧ d.dest[(0 : Dest)].queue = .data ⟨5, 3⟩ 0 :: [] ∧
      d.slots[(0 : SlotIx)].owner = some 0 ∧ c.dest[(0 : Dest)].queue = .close ⟨5, 3⟩ 1 0 :: [] ∧
      c.files[(5 : FileIx)] = ⟨3, some file⟩ ∧ file.copies[(0 : Dest)] = .sending ∧
      (sendingDest (.abort ⟨5, 3⟩)).queue = .abort ⟨5, 3⟩ :: [] ∧ (sendingDest .halt).queue = .halt :: [] := by
  decide +kernel

/-- The SETTLING file 7 with a CLOSED copy on D0 and another copy on D1; its final digest is 0. -/
def settling (other : CopyState) : FileRec :=
  { file with
    state := .settling, finalDigest := some 0, assembly := none
    copies := #v[.closed, other, .none_, .none_, .none_, .none_] }

/-- D0 UP with the verify timer of index 5 running. -/
def timed (failures : Nat) : DestPort :=
  { DestPort.initial with state := .up, limit := .unlimited, timers := [⟨5, 120⟩], failures := failures }

/-- A VERIFY of (5, 3) with a digest byte. -/
def verifyWire (digest : Byte) : Bytes := [1, 0, 8, 0, 5, 0, 3, 0, digest, 0, 0, 0, 0, 0, 0, 0]

/-- The message it is. -/
def verifyMsg (digest : Byte) : InMessage := ⟨1, 0, 5, 3, 0, [digest, 0, 0, 0, 0, 0, 0, 0]⟩

theorem test_witness_VerifyProves :
    let f := settling .none_
    let s := withDest (timed 2) (withFile f (withCard card State.reset))
    s.resetLow = false ∧ InMessage.ofBytes (verifyWire 0) = some (verifyMsg 0) ∧ (verifyMsg 0).type = 1 ∧
      (verifyMsg 0).verifyOk = true ∧ s.dest[(0 : Dest)].carries = true ∧ (verifyMsg 0).index = (5 : FileIx).val ∧
      s.files[(5 : FileIx)] = ⟨(verifyMsg 0).gen, some f⟩ ∧ f.copies[(0 : Dest)] = .closed ∧
      f.finalDigest = some (leNat (verifyMsg 0).body) ∧ s.cards[f.card] = some card ∧ s.part.manifests = true ∧
      s.notices.length < 16 ∧ s.log.length < 64 := by decide +kernel

/-- The file once D0's copy has settled: with enough VERIFIED copies, with too few, and with another copy unsettled. -/
theorem test_witness_Settles :
    let proved (f : FileRec) : FileRec := { f with copies := vmod f.copies 0 fun _ => .verified }
    let failed (f : FileRec) : FileRec := { f with copies := vmod f.copies 0 fun _ => .failed .mismatch }
    let two : FileRec := { settling .none_ with route := ⟨1, 2, 0, none, none⟩ }
    (proved (settling .none_)).AllSettled ∧ (proved (settling .none_)).afterSettling = none ∧
      (proved two).AllSettled ∧ (proved two).verifiedCount = 1 ∧ (proved two).route.required = 2 ∧
      (failed (settling .none_)).AllSettled ∧ (failed (settling .none_)).verifiedCount < 1 ∧
      (failed (settling .verified)).afterSettling = none ∧ ¬ (proved (settling .closed)).AllSettled := by decide +kernel

theorem test_witness_VerifyFails :
    let f := settling .closed
    let s := withDest (timed 1) (withFile f (withCard card State.reset))
    let u := withDest (timed 2) (withFile f (withCard card State.reset))
    s.resetLow = false ∧ s.files[(5 : FileIx)].file = some f ∧ f.copies[(0 : Dest)] = .closed ∧
      InMessage.ofBytes (verifyWire 1) = some (verifyMsg 1) ∧ (verifyMsg 1).verifyOk = true ∧
      s.dest[(0 : Dest)].carries = true ∧ s.files[(5 : FileIx)].gen = (verifyMsg 1).gen ∧
      f.finalDigest ≠ some (leNat (verifyMsg 1).body) ∧ (∃ v ∈ s.dest[(0 : Dest)].timers, v.file = 5) ∧
      BelowThreshold 0 s ∧ s.log.length < 64 ∧ ¬ BelowThreshold 0 u ∧ u.dest[(0 : Dest)].state ≠ .quarantined := by
  decide +kernel

theorem test_witness_InboundMessagesCounted :
    let late : FileRec := { settling .none_ with copies := #v[.failed .timeout, .none_, .none_, .none_, .none_, .none_] }
    let s := withDest (timed 0) (withFile late State.reset)
    let c := withDest { fullDest with inUse := 1 } State.reset
    s.resetLow = false ∧ InMessage.ofBytes (verifyWire 0) = some (verifyMsg 0) ∧ s.dest[(0 : Dest)].carries = true ∧
      s.files[(5 : FileIx)] = ⟨3, some late⟩ ∧ late.copies[(0 : Dest)] = .failed .timeout ∧
      late.copies[(1 : Dest)] ≠ .closed ∧ State.reset.dest[(0 : Dest)].carries = false ∧
      InMessage.ofBytes [0, 0, 4, 0, 0, 0, 0, 0, 1, 0, 0, 0] = some ⟨0, 0, 0, 0, 0, [1, 0, 0, 0]⟩ ∧
      (⟨0, 0, 0, 0, 0, [1, 0, 0, 0]⟩ : InMessage).numberOk = true ∧ c.dest[(0 : Dest)].carries = true ∧
      c.dest[(0 : Dest)].limit = .number 4 ∧ c.dest[(0 : Dest)].inUse = 1 ∧
      InMessage.ofBytes [2, 0, 4, 0, 0, 2, 0, 0, 1, 0, 0, 0] = some ⟨2, 0, 512, 0, 0, [1, 0, 0, 0]⟩ := by decide +kernel

/-- A VERIFY and a WRITE_ERROR with a must-be-zero byte set, and a WRITE_ERROR for a settled copy. -/
theorem test_witness_InboundMessagesCounted_malformed :
    let late : FileRec := { settling .none_ with copies := #v[.failed .timeout, .none_, .none_, .none_, .none_, .none_] }
    let s := withDest (timed 0) (withFile late State.reset)
    InMessage.ofBytes (1 :: 1 :: (verifyWire 0).drop 2) = some { verifyMsg 0 with mbz1 := 1 } ∧
      ({ verifyMsg 0 with mbz1 := 1 } : InMessage).verifyOk = false ∧
      (⟨2, 0, 5, 3, 0, [1, 0, 0, 1]⟩ : InMessage).errorOk = false ∧
      InMessage.ofBytes [2, 0, 4, 0, 5, 0, 3, 0, 1, 0, 0, 1] = some ⟨2, 0, 5, 3, 0, [1, 0, 0, 1]⟩ ∧
      (⟨2, 0, 5, 3, 0, [1, 0, 0, 0]⟩ : InMessage).errorOk = true ∧ s.dest[(0 : Dest)].carries = true ∧
      s.files[(5 : FileIx)] = ⟨3, some late⟩ ∧ late.copies[(0 : Dest)].unsettled = false := by decide +kernel

/-- A message that names no record: an index beyond the table. -/
theorem test_witness_InboundMessagesCounted_stray :
    ∀ j : FileIx, 512 = j.val → State.reset.files[j].gen ≠ 0 ∨ State.reset.files[j].file = none := by
  intro j h; omega

theorem test_witness_WriteErrorFails :
    let m : InMessage := ⟨2, 0, 5, 3, 0, [0x34, 0x12, 0, 0]⟩
    let s := withDest (timed 1) (withFile file (withCard card State.reset))
    s.resetLow = false ∧ InMessage.ofBytes [2, 0, 4, 0, 5, 0, 3, 0, 0x34, 0x12, 0, 0] = some m ∧ m.type = 2 ∧
      m.errorOk = true ∧ s.dest[(0 : Dest)].carries = true ∧ m.index = (5 : FileIx).val ∧
      s.files[(5 : FileIx)] = ⟨m.gen, some file⟩ ∧ file.copies[(0 : Dest)].unsettled = true ∧ BelowThreshold 0 s ∧
      s.log.length < 64 := by decide +kernel

/-- The same for a copy whose failure settles its file, on a destination that it brings to the threshold; and a queue whose
head, an ABORT, waits for a credit. -/
theorem test_witness_WriteErrorFails_settles :
    let f := settling .none_
    let s := withDest (timed 2) (withFile f (withCard card State.reset))
    let p : DestPort := { fullDest with queue := [.abort ⟨5, 3⟩] }
    s.dest[(0 : Dest)].carries = true ∧ s.files[(5 : FileIx)] = ⟨3, some f⟩ ∧ f.copies[(0 : Dest)].unsettled = true ∧
      ({ f with copies := vmod f.copies 0 fun _ => .failed .writeError } : FileRec).AllSettled ∧
      ¬ BelowThreshold 0 s ∧ s.dest[(0 : Dest)].state ≠ .quarantined ∧ p.state = .up ∧ p.tx = none ∧
      p.limit = .number p.inUse ∧ p.stall = false ∧ p.queue = .abort ⟨5, 3⟩ :: [] := by decide +kernel

/-! ### The same: management -/

theorem test_witness_OneReplyPerCommand :
    let g := control 17 [9, 0, 0, 0]
    Serves 0 0 g (atHead g State.reset) ∧ controlStep 0 g = some (.linkResetDest 0) ∧
      controlStep 0 (control 1 []) = some (.identify 0) ∧ controlStep 0 (control 18 []) = some (.softReset 0) :=
  ⟨served _ _ rfl rfl (by decide), by decide, by decide, by decide⟩

/-- A body too long, a must-be-zero byte set, an enumeration outside its list, and a label that names no card: each of a
command with a length of its own. -/
theorem test_witness_CommandsRefused :
    let n := control 1 [0]
    let z := control 12 [0, 1, 0, 0]
    let e := control 17 [10, 0, 0, 0]
    let r := control 8 labelBytes
    Serves 0 0 n (atHead n State.reset) ∧ commandStep 0 n = some (.identify 0) ∧ (commandShape n).lengthOk = false ∧
      Serves 0 0 z (atHead z State.reset) ∧ commandStep 0 z = some (.destRestore 0) ∧ (commandShape z).lengthOk = true ∧
      (commandShape z).zeros.firstBad = some 1 ∧
      Serves 0 0 e (atHead e State.reset) ∧ commandStep 0 e = some (.linkResetDest 0) ∧ (commandShape e).lengthOk = true ∧
      (commandShape e).zeros.firstBad = none ∧ (commandShape e).enums.firstBad = some 0 ∧
      Serves 0 0 r (atHead r State.reset) ∧ commandStep 0 r = some (.releaseCard 0) ∧ (commandShape r).passes ∧
      ∀ k : CardIx, (State.reset.cards[k].map Card.label) ≠ some (bytesAt r.payload 1 (fieldAt r.payload 0 1)) :=
  ⟨served _ _ rfl rfl (by decide), by decide, by decide, served _ _ rfl rfl (by decide), by decide, by decide, by decide,
    served _ _ rfl rfl (by decide), by decide, by decide, by decide, by decide, served _ _ rfl rfl (by decide), by decide,
    by decide, by decide +kernel⟩

/-- A WAIVE FILE of a number that no file of the card has. -/
theorem test_witness_CommandsRefused_file :
    let g := control 10 (labelBytes ++ [0, 0, 0, 7, 0, 0, 0])
    let s := atHead g (withCard card State.reset)
    Serves 0 0 g s ∧ commandStep 0 g = some (.waiveFile 0) ∧ (commandShape g).passes ∧
      NamesCard (bytesAt g.payload 1 (fieldAt g.payload 0 1)) 0 card s ∧
      ∀ (j : FileIx) (f : FileRec), s.files[j].file = some f → f.card = 0 → f.number ≠ fieldAt g.payload 20 4 :=
  ⟨served _ _ rfl rfl (by decide), by decide, by decide, by decide +kernel, no_file rfl⟩

/-- Bodies at the ends of the ranges that the tests of R189 name. -/
theorem test_witness_CommandsRefused_shapes :
    (control 7 (17 :: List.replicate 16 0)).command = 7 ∧ 16 < fieldAt (control 7 (17 :: List.replicate 16 0)).payload 0 1 ∧
      fieldAt (control 10 (labelBytes ++ [1, 0, 0, 7, 0, 0, 0])).payload 17 3 ≠ 0 ∧
      bytesAt (control 10 (labelBytes ++ [1, 0, 0, 7, 0, 0, 0])).payload 10 7 = List.replicate 7 0 ∧
      tableArg [5, 0, 1, 0, 1, 0] = some .partConfig ∧ TableName.partConfig.entries ≤ fieldAt [5, 0, 1, 0, 1, 0] 2 2 ∧
      tableArg [6, 0, 1, 0, 1, 0] = none ∧ fieldAt [0, 17] 1 1 = 17 ∧ 2 ≤ ([0, 16] : Bytes).length ∧
      2 ≤ fieldAt (control 6 [2]).payload 0 1 := by decide

theorem test_witness_IdentifyReply :
    Serves 0 0 (control 1 []) (atHead (control 1 []) State.reset) ∧ (control 1 []).command = 1 ∧
      (control 1 []).payload = [] := ⟨served _ _ rfl rfl (by decide), by decide, rfl⟩

/-- A WRITE TABLE of two ROUTE entries from index 31 on, and a READ TABLE. -/
def writeSeg : Segment := control 2 ([0, 0, 31, 0] ++ List.replicate 24 0)
def readSeg : Segment := control 3 [0, 0, 31, 0, 255, 255]

theorem test_witness_TablesWrittenAndRead :
    Serves 0 0 writeSeg (atHead writeSeg State.reset) ∧ tableArg writeSeg.payload = some .route ∧ writeSeg.command = 2 ∧
      (writeTableShape .route writeSeg.payload).passes ∧ Serves 0 0 readSeg (atHead readSeg State.reset) ∧
      tableArg readSeg.payload = some .route ∧ readSeg.command = 3 ∧ (readTableShape readSeg.payload).passes :=
  ⟨served _ _ rfl rfl (by decide +kernel), by decide +kernel, by decide +kernel, by decide +kernel,
    served _ _ rfl rfl (by decide), by decide, by decide, by decide⟩

/-- A READ STATE of a form, with a label or without. -/
def stateSeg (form clear : Byte) (name : Bytes) : Segment := control 4 ([form, clear] ++ name ++ [0, 0, 0])

/-- R216: a link restored to UP, whose aligned flag has not changed since, shows 0; a QUARANTINED one shows the flag. -/
theorem test_destImage_aligned :
    let s (st : DestState) (aligned : Bool) := withDest { fullDest with state := st, aligned := aligned } State.reset
    (destImage 0 (s .up true)).getD 2 9 = 0 ∧ (destImage 0 (s .down true)).getD 2 9 = 0 ∧
      (destImage 0 (s .quarantined true)).getD 2 9 = 1 ∧ (destImage 0 (s .quarantined false)).getD 2 9 = 0 := by
  decide +kernel

theorem test_witness_ReadStateReports :
    let z := List.replicate 17 (0 : Byte)
    Serves 0 0 (stateSeg 4 0 z) (atHead (stateSeg 4 0 z) State.reset) ∧ (stateSeg 4 0 z).command = 4 ∧
      (readStateShape (stateSeg 0 0 z).payload).passes ∧ (readStateShape (stateSeg 4 0 z).payload).passes ∧
      (readStateShape (stateSeg 1 0 labelBytes).payload).passes ∧
      ((withCard card State.reset).cards[(0 : CardIx)].map Card.label) = some label ∧
      bytesAt (stateSeg 1 0 labelBytes).payload 3 (fieldAt (stateSeg 1 0 labelBytes).payload 2 1) = label ∧
      (∀ c : CardIx, (State.reset.cards[c].map Card.label) ≠ some label) ∧
      (readStateShape (stateSeg 5 1 z).payload).passes ∧ fieldAt (stateSeg 5 1 z).payload 1 1 = 1 :=
  ⟨served _ _ rfl rfl (by decide), by decide, by decide, by decide, by decide, by decide +kernel, by decide +kernel,
    by decide +kernel, by decide, by decide⟩

/-- The one file of the card, as the list of its files. -/
theorem test_witness_ReadStateReports_files :
    let s := withFile file (withCard card State.reset)
    NamesCard label 0 card s ∧ [((5 : FileIx), file)].Pairwise (fun x y => x.2.number < y.2.number) ∧
      ∀ (j : FileIx) (f : FileRec), (j, f) ∈ [((5 : FileIx), file)] ↔ s.files[j].file = some f ∧ f.card = 0 := by
  refine ⟨by decide +kernel, by simp, fun j f => ?_⟩
  show _ ↔ (vmod State.reset.files 5 fun _ => (⟨3, some file⟩ : FilePos))[j].file = some f ∧ f.card = 0
  rw [vmod_get]
  split
  · next e => simp [e, eq_comm]; intro h; rw [h]; rfl
  · next e =>
    simp [e]
    intro hf
    have hr := reset_file j
    simp_all

theorem test_witness_FaultsReadAndAcknowledged :
    let g := control 5 [63, 0, 255, 255]
    Serves 0 0 g (atHead g State.reset) ∧ g.command = 5 ∧ g.payload.length = 4 :=
  ⟨served _ _ rfl rfl (by decide), by decide, rfl⟩

theorem test_witness_FaultsReadAndAcknowledged_ack :
    let k := control 6 [0, 1, 0xFF, 0xFF]
    let b := control 6 ([1, 0] ++ labelBytes)
    Serves 0 0 k (atHead k { State.reset with log := [record] }) ∧ k.command = 6 ∧ (ackKeysShape k.payload).passes ∧
      fieldAt k.payload 0 1 = 0 ∧ Serves 0 0 b (atHead b { State.reset with log := [record] }) ∧ b.command = 6 ∧
      (ackLabelShape b.payload).passes ∧ fieldAt b.payload 0 1 = 1 ∧
      bytesAt b.payload 3 (fieldAt b.payload 2 1) = label ∧ record.label = some label :=
  ⟨served _ _ rfl rfl (by decide), by decide, by decide, by decide, served _ _ rfl rfl (by decide), by decide, by decide,
    by decide, by decide, rfl⟩

theorem test_witness_WaivedAndReleased :
    let w := control 7 labelBytes
    let r := control 8 labelBytes
    let k : Card := { card with verdict := .releasable, ended := true, mount := .ended }
    Serves 0 0 w (atHead w (withCard card State.reset)) ∧ (labelShape w.payload).passes ∧ w.command = 7 ∧
      NamesCard (bytesAt w.payload 1 (fieldAt w.payload 0 1)) 0 card (atHead w (withCard card State.reset)) ∧
      Serves 0 0 r (atHead r (withCard k State.reset)) ∧ r.command = 8 ∧ k.verdict = .releasable ∧
      NamesCard label 0 k (atHead r (withCard k State.reset)) ∧ k.mount ≠ .detached ∧ card.verdict ≠ .releasable :=
  ⟨served _ _ rfl rfl (by decide), by decide, by decide, by decide +kernel, served _ _ rfl rfl (by decide), by decide, rfl,
    by decide +kernel, by decide, by decide⟩

/-- A RELEASABLE card that is DETACHED, and a full notice queue. -/
theorem test_witness_WaivedAndReleased_detached :
    let r := control 8 labelBytes
    let k : Card := { card with verdict := .releasable, ended := true, mount := .detached, handle := none }
    let s : State := { atHead r (withCard k State.reset) with notices := List.replicate 16 notice }
    Serves 0 0 r (atHead r (withCard k State.reset)) ∧ NamesCard label 0 k (atHead r (withCard k State.reset)) ∧
      k.verdict = .releasable ∧ k.mount = .detached ∧ 16 ≤ s.notices.length :=
  ⟨served _ _ rfl rfl (by decide), by decide +kernel, rfl, rfl, by decide +kernel⟩

theorem test_witness_CardCleared :
    let g := control 9 labelBytes
    let s := atHead g (withFile file (withCard card State.reset))
    Serves 0 0 g s ∧ g.command = 9 ∧ (labelShape g.payload).passes ∧
      NamesCard (bytesAt g.payload 1 (fieldAt g.payload 0 1)) 0 card s ∧ s.files[(5 : FileIx)].file = some file ∧
      file.card = 0 ∧ file.copies[(0 : Dest)].unsettled = true ∧ s.log.length < 64 :=
  ⟨served _ _ rfl rfl (by decide), by decide, by decide, by decide +kernel, by decide +kernel, rfl, by decide, by decide⟩

theorem test_witness_WaivedAndReleased_file :
    let g := control 10 (labelBytes ++ [0, 0, 0, 7, 0, 0, 0])
    let f : FileRec := { file with state := .short }
    Serves 0 0 g (atHead g (withFile f (withCard card State.reset))) ∧ g.command = 10 ∧
      (waiveFileShape g.payload).passes ∧
      NamesCard (bytesAt g.payload 1 (fieldAt g.payload 0 1)) 0 card (atHead g (withFile f (withCard card State.reset))) ∧
      NamesFile 0 (fieldAt g.payload 20 4) 5 f (atHead g (withFile f (withCard card State.reset))) ∧ f.state = .short ∧
      NamesFile 0 (fieldAt g.payload 20 4) 5 file (atHead g (withFile file (withCard card State.reset))) ∧
      file.state ≠ .short :=
  ⟨served _ _ rfl rfl (by decide), by decide, by decide, by decide +kernel, names_file _ _ rfl rfl rfl, rfl,
    names_file _ _ rfl rfl rfl, by decide⟩

theorem test_witness_DestQuarantinedAndRestored :
    let q := control 11 [0, 0, 0, 0]
    let r := control 12 [0, 0, 0, 0]
    let s := atHead q (withDest fullDest (withFile file (withCard card State.reset)))
    let u := atHead r (withDest { fullDest with state := .quarantined, partner := true } State.reset)
    Serves 0 0 q s ∧ q.command = 11 ∧ (destShape q.payload).passes ∧ fieldAt q.payload 0 1 = (0 : Dest).val ∧
      s.dest[(0 : Dest)].state ≠ .quarantined ∧ Serves 0 0 r u ∧ r.command = 12 ∧ (destShape r.payload).passes ∧
      u.dest[(0 : Dest)].state = .quarantined ∧ (destShape (control 12 [5, 0, 0, 0]).payload).passes ∧
      s.log.length + 2 * (List.replicate 1 ()).length < 64 :=
  ⟨served _ _ rfl rfl (by decide), by decide, by decide, by decide, by decide +kernel, served _ _ rfl rfl (by decide),
    by decide, by decide, by decide +kernel, by decide, by decide⟩

/-- The states that a DEST QUARANTINE can leave, with a transfer id in the open transfer set and a HALT waiting. -/
theorem test_witness_DestQuarantinedAndRestored_states :
    let q := control 11 [0, 0, 0, 0]
    let s : DestState → State := fun st => atHead q (withDest { fullDest with
      state := st, queue := [.halt], openSet := [⟨5, 3⟩] } State.reset)
    Serves 0 0 q (s .retraining) ∧ (s .retraining).dest[(0 : Dest)].state = .retraining ∧
      (s .training).dest[(0 : Dest)].state = .training ∧ (s .down).dest[(0 : Dest)].state = .down ∧
      QEntry.halt ∈ (s .down).dest[(0 : Dest)].queue ∧ (s .down).dest[(0 : Dest)].openSet ≠ [] :=
  ⟨served _ _ rfl rfl (by decide), by decide +kernel, by decide +kernel, by decide +kernel, by decide +kernel,
    by decide +kernel⟩

/-- A joined pair whose even counter wraps, and an unjoined one that counts an event in one of its two. -/
theorem test_witness_CountersSetAndRead_take :
    let j : CounterPair := ⟨true, ⟨4294967295, .bytesIn, .link 1⟩, ⟨4294967295, .segIn, .all⟩⟩
    let u : CounterPair := ⟨false, ⟨0, .segIn, .link 1⟩, ⟨0, .segIn, .all⟩⟩
    j.joined = true ∧ Counts j.even .bytesIn (.link 1) ∧ ¬ Counts j.even .bytesIn (.link 2) ∧ j.even.count < 2 ^ 32 ∧
      2 ^ 32 ≤ j.even.count + 1 ∧ u.joined = false ∧ ¬ Counts u.even .segIn (.link 2) ∧ Counts u.odd .segIn (.link 2) := by
  decide

/-- Counter 0 set to BYTES_IN on S3, counter 1 to CREDIT_STALL on D5, counters 2 and 3 to SEG_IN for ALL. -/
theorem test_witness_CountersSetAndRead :
    let g := control 14 ([1, 1, 3, 0, 7, 2, 5, 0] ++ List.replicate 8 0 ++ [1, 0, 0, 0])
    let r := control 15 [1, 0, 0, 0]
    Serves 0 0 g (atHead g State.reset) ∧ g.command = 14 ∧ (setCountersShape g.payload).passes ∧
      Serves 0 0 r (atHead r State.reset) ∧ r.command = 15 ∧ (readCountersShape r.payload).passes ∧
      fieldAt r.payload 0 1 = 1 ∧ (readCountersShape (control 15 [0, 0, 0, 0]).payload).passes :=
  ⟨served _ _ rfl rfl (by decide), by decide, by decide, served _ _ rfl rfl (by decide), by decide, by decide, by decide,
    by decide⟩

/-- The TEST FRAME of the white card (section 8.6): channel 5, profile 2, 64 by 32, count 4. -/
def testSeg : Segment := control 16 [5, 2, 64, 0, 32, 0, 0xFF, 0x0F, 0xFF, 0x0F, 0xFF, 0x0F, 4, 0, 0, 0]

/-- Channel 5 in TEST with a frame to come. -/
def testing (next : Nat) : State :=
  { State.reset with channels := vmod State.reset.channels 5 fun _ =>
    { ChannelRec.initial with state := .test ⟨⟨4095, 4095, 4095⟩, 4, next⟩, width := 64, height := 32 } }

theorem test_witness_TestRuns :
    Serves 0 0 testSeg (atHead testSeg State.reset) ∧ testSeg.command = 16 ∧ (testShape testSeg.payload).passes ∧
      (testParams testSeg.payload).channel = 5 ∧ State.reset.channels[(5 : Channel)].state = .free ∧
      (testing 0).resetLow = false ∧ (testing 2).channels[(5 : Channel)].state = .test ⟨⟨4095, 4095, 4095⟩, 4, 2⟩ ∧
      (testing 3).channels[(5 : Channel)].state ≠ .free :=
  ⟨served _ _ rfl rfl (by decide), by decide, by decide, by decide, by decide +kernel, rfl, by decide +kernel,
    by decide +kernel⟩

/-- The last evaluation of a run, and of a run of count 1: a probe that flips reports, in a direction that its mode
reports, to a new record, or into its record of an earlier frame. -/
theorem test_witness_TestRuns_last :
    let s := testing 3
    let q : LatchedProbe := ⟨true, .clip, 10, 5, 1, .both, 4, .hold⟩
    let st : ProbeState := ⟨false, 0, some ⟨9, 1⟩⟩
    let x : FaultRec := { FaultRec.offered .test .note with
      key := 9, probe := some ⟨5, 3, .cleared⟩, frames := some ⟨1, 1⟩ }
    s.resetLow = false ∧ s.channels[(5 : Channel)].state = .test ⟨⟨4095, 4095, 4095⟩, 4, 3⟩ ∧ 4 ≤ 3 + 1 ∧
      s.channels[(5 : Channel)].state ≠ .free ∧ s.log.length + 8 ≤ 64 ∧ s.notices.length + 8 ≤ 16 ∧
      q.reported st (some 2048) = some (.asserted, 2048) ∧ q.reported st (some 10) = none ∧ q.reported st none = none ∧
      ({ q with mode := .clear } : LatchedProbe).reported st (some 2048) = none ∧
      takesReport 5 3 .test 3 q.window st x = true ∧ takesReport 5 4 .test 3 q.window st x = false := by
  decide +kernel

theorem test_witness_LinksReset :
    Serves 0 0 (control 17 [0, 0, 0, 0]) (atHead (control 17 [0, 0, 0, 0]) State.reset) ∧
      (control 17 [0, 0, 0, 0]).command = 17 ∧ (linkResetShape (control 17 [0, 0, 0, 0]).payload).passes ∧
      fieldAt (control 17 [0, 0, 0, 0]).payload 0 1 = (0 : SrcLink).val ∧
      (linkResetShape (control 17 [9, 0, 0, 0]).payload).passes ∧
      fieldAt (control 17 [9, 0, 0, 0]).payload 0 1 = 4 + (5 : Dest).val :=
  ⟨served _ _ rfl rfl (by decide), by decide, by decide, by decide, by decide, by decide⟩

/-- A LINK RESET of D0 in each state, the UP one with an unsettled copy, the QUARANTINED one with a HALT in transmission
that is not sent again. -/
theorem test_witness_LinksReset_states :
    let g := control 17 [4, 0, 0, 0]
    let s (p : DestPort) : State := atHead g (withDest p (withFile file (withCard card State.reset)))
    let halting : DestPort := { fullDest with state := .quarantined, queue := [.halt, .halt], tx := some ⟨true, []⟩ }
    (∀ p, Serves 0 0 g (s p)) ∧ g.command = 17 ∧ (linkResetShape g.payload).passes ∧
      fieldAt g.payload 0 1 = 4 + (0 : Dest).val ∧ (s fullDest).dest[(0 : Dest)].state = .up ∧
      unsettledOn 0 (s fullDest) ≠ [] ∧ (s fullDest).log.length + 2 * 1 < 64 ∧
      (s { fullDest with state := .retraining }).dest[(0 : Dest)].state = .retraining ∧
      (s { fullDest with state := .training }).dest[(0 : Dest)].state = .training ∧
      (s { fullDest with state := .down }).dest[(0 : Dest)].state = .down ∧
      (s halting).dest[(0 : Dest)].state = .quarantined ∧ (s halting).dest[(0 : Dest)].cut.queue = [.halt] :=
  ⟨fun _ => served _ _ rfl rfl (by decide), by decide, by decide, by decide, by decide +kernel, by decide +kernel,
    by decide, by decide +kernel, by decide +kernel, by decide +kernel, by decide +kernel, by decide +kernel⟩

theorem test_witness_SoftResetFrees :
    Serves 0 0 (control 18 []) (atHead (control 18 []) State.reset) ∧ (control 18 []).command = 18 ∧
      (control 18 []).payload = [] := ⟨served _ _ rfl rfl (by decide), by decide, rfl⟩

/-- A link whose second segment is a CONTROL segment, which reaches the head. -/
theorem test_witness_SoftResetFrees_heads :
    let s : State := { State.reset with
      src := vmod State.reset.src 1 fun _ => { upPort with held := 2, arrivals := [1, 2] }
      slots := vmod (vmod State.reset.slots 1 fun _ => ⟨some 1, true, 0, seg 4 [1]⟩) 2 fun _ =>
        ⟨some 1, true, 0, control 1 []⟩ }
    s.src[(1 : SrcLink)].arrivals.head? = some 1 ∧ s.slots[(1 : SlotIx)].seg.kind ≠ 7 ∧
      s.slots[(2 : SlotIx)].seg.kind = 7 ∧ s.slots[(2 : SlotIx)].seg.headerOk = true ∧
      ¬ ForThisPart (control 1 []).target { s with partAddress := 0x41 } := by
  decide +kernel

/-! ### The same: the Fault Log and the arithmetic -/

/-- A full log, its records with the keys 0..63; the first ACKED or not. -/
def fullLog (st : RecordState) : List FaultRec :=
  (List.range 64).map fun k => { record with key := k, state := if k = 0 then st else .opened }

theorem test_witness_FaultRecordStored :
    let s : State := { State.reset with log := [record], keyCounter := 65535 }
    let a : State := { State.reset with log := fullLog .acked, keyCounter := 64 }
    let o : State := withCard card { State.reset with log := fullLog .opened, keyCounter := 64 }
    LogLaw s ∧ s.log.length < 64 ∧ LogLaw a ∧ a.log.length = 64 ∧
      a.log = [] ++ { record with key := 0, state := .acked } :: (fullLog .acked).tail ∧
      LogLaw o ∧ o.log.length = 64 ∧ (∀ x ∈ o.log, x.state = .opened) ∧ record.label = some card.label ∧
      NamesCard card.label 0 card o := by
  refine ⟨?_, by decide, ?_, by decide +kernel, by decide +kernel, ?_, by decide +kernel, by decide +kernel, rfl,
    by decide +kernel⟩ <;> unfold LogLaw <;> decide +kernel

/-- Notices on with a full queue, and off. -/
theorem test_witness_FaultRecordStored_notices :
    let s : State := { State.reset with notices := List.replicate 16 notice }
    let o : State := { State.reset with part := { PartConfig.initial with notices := false } }
    s.part.notices = true ∧ 16 ≤ s.notices.length ∧ State.reset.notices.length < 16 ∧ o.part.notices = false ∧
      record.severity = .hold ∧ NamesCard label 0 card (withCard card State.reset) := by decide +kernel

/-- Probe 3 of channel 2, in BOTH, about to flip, with a window record. -/
def probing (mode : ReportMode) (window : Option WindowRec) : ChannelRec :=
  { ChannelRec.initial with
    state := .file ⟨⟨5, 3⟩, label, 7⟩
    probes := vmod ChannelRec.initial.probes 3 fun _ => ⟨true, .clip, 10, 5, 1, mode, 4, .hold⟩
    probeStates := vmod ChannelRec.initial.probeStates 3 fun _ => ⟨false, 0, window⟩ }

/-- The record the probe made at frame 100. -/
def probeRecord : FaultRec :=
  { FaultRec.ofFile .probe .hold label 7 with key := 9, probe := some ⟨2, 3, .asserted⟩, frames := some ⟨100, 100⟩ }

/-- The measurement 11 flips the probe; its window record, of frame 100, takes frame 103 and not frame 104. -/
theorem test_witness_ProbeReported :
    let q : LatchedProbe := ⟨true, .clip, 10, 5, 1, .both, 4, .hold⟩
    let st : ProbeState := ⟨false, 0, some ⟨9, 100⟩⟩
    let m : Measures := ⟨some 11, none, none, none, none, none, none, none⟩
    (probing .both st.window).probes[(3 : Fin 8)] = q ∧ (probing .both st.window).probeStates[(3 : Fin 8)] = st ∧
      m.get q.source = some 11 ∧ q.next st 11 = ({ st with asserted := true }, true) ∧
      q.next st 10 = (st, false) ∧ (metaOnlyMeasures ⟨none, none, none⟩).get q.source = none ∧
      takesReport 2 3 .probe 103 q.window st probeRecord = true ∧
      takesReport 2 3 .probe 104 q.window st probeRecord = false ∧
      (∀ dir, ∃ r, reportOf 2 3 dir 103 11 q.severity (probing .both st.window).state = some r ∧ r.cls = .probe) ∧
      ([] ++ probeRecord :: [] = [probeRecord]) := by
  refine ⟨by decide, by decide, rfl, by decide, by decide, rfl, by decide, by decide, fun dir => ⟨_, rfl, rfl⟩, rfl⟩

/-- A segment with every field at its end. -/
theorem test_witness_SegmentRoundTrip :
    ({ kind := 7, flags := 255, slotByte := 255, mbz3 := 255, len := 1, mbz6 := 65535, fileNumber := 2 ^ 32 - 1
       offset := 2 ^ 64 - 1, mbz20 := 2 ^ 32 - 1, ext := List.replicate 8 255, payload := [255] } : Segment).fits = true := by
  decide

/-- Entries at the ends of their ranges. -/
theorem test_witness_TableEntriesRoundTrip :
    ({ RouteEntry.initial with required := 6 } : RouteEntry).inRange ∧
      ({ FormatEntry.initial with width := 1024, recordLength := 8, timecodeOffset := some 4 } : FormatEntry).inRange ∧
      ({ LookTableEntry.initial with offsets := #v[-4096, 4095, 0] } : LookTableEntry).inRange ∧
      ProfileEntry.initial.inRange ∧ ({ DestConfig.initial with verifyTimeout := 3600 } : DestConfig).inRange ∧
      ({ PartConfig.initial with threshold := 15 } : PartConfig).inRange := by
  refine ⟨?_, ?_, ?_, ?_, ?_, ?_⟩
  · unfold RouteEntry.inRange; decide
  · unfold FormatEntry.inRange
    refine ⟨by decide, by decide, by decide, by decide, by decide, by decide, fun o h => ?_, fun o h => ?_⟩
    · cases h; decide
    · cases h
  · unfold LookTableEntry.inRange; decide +kernel
  · unfold ProfileEntry.inRange; decide +kernel
  · unfold DestConfig.inRange; decide
  · unfold PartConfig.inRange; decide

theorem test_witness_DigestIgnoresCuts : Sums.initial.carried.length < 4 ∧ Sums.initial.a < 4294967291 := by decide

theorem test_witness_RoundingTable :
    ((-6144 : Int) = 4096 * (-2) + 2048 ∧ (0 : Int) ≤ 2048 ∧ (2048 : Int) < 4096) ∧ (96 : Int) = 64 * 1 + 32 := by decide

theorem test_witness_GradedPixels : LookTableEntry.initial.inRange ∧ (⟨4095, 4095, 4095⟩ : Pixel).r ≤ 4095 :=
  ⟨by unfold LookTableEntry.inRange; decide +kernel, by decide⟩

/-- The CLIP probe of section 8.2, with N = 3. -/
def clipProbe : LatchedProbe := ⟨true, .clip, 1518, 506, 3, .both, 48, .warn⟩

theorem test_witness_ThresholdsAndPersistence :
    1 ≤ clipProbe.persistence ∧ (∀ v ∈ [1519, 2600, 2700], if ProbeState.initial.asserted = true then v < clipProbe.tLo
      else clipProbe.tHi < v) ∧ ProbeState.initial.run = 0 ∧ [1519, 2600].length < clipProbe.persistence ∧
      [1519, 2600, 2700].length = clipProbe.persistence ∧
      (∀ v ∈ [505, 0], if (⟨true, 0, none⟩ : ProbeState).asserted = true then v < clipProbe.tLo else clipProbe.tHi < v) := by
  decide

theorem test_witness_TimecodeSuccession :
    let t : Timecode := ⟨23, 59, 59, 49⟩
    t.frames < FrameRate.fps50.fps ∧ t.seconds < 60 ∧ t.minutes < 60 ∧ t.hours < 24 := by decide

/-! ### Figures of the data book -/

/-- Chapter 4: the worked digest, and the digest of no bytes (R64 to R68). -/
theorem test_digest_worked : digestOf [1, 0, 0, 0, 2, 0, 0, 0, 3] = 0x0000000D00000007 ∧ digestOf [] = 1 ∧
    digestOf [0xFF, 0xFF, 0xFF, 0xFF] = 0x0000000500000005 := by decide

/-- The look of section 7.2. -/
def look3 (mode : Rounding) : LookTableEntry :=
  { LookTableEntry.initial with
    matrix := #v[#v[4915, -819, 0], #v[-1638, 4096, 0], #v[0, 0, 4096]], offsets := #v[-20, 0, 0], rounding := mode }

theorem test_stage1_worked :
    (look3 .up).acc 0 ⟨3000, 2000, 500⟩ = 13025080 ∧ (look3 .up).acc 1 ⟨3000, 2000, 500⟩ = 3278000 ∧
      (look3 .nearestEven).stage1 0 ⟨3000, 2000, 500⟩ = 3180 ∧ (look3 .down).stage1 0 ⟨3000, 2000, 500⟩ = 3179 ∧
      (look3 .up).stage1 0 ⟨3000, 2000, 500⟩ = 3180 ∧ (look3 .nearestEven).stage1 1 ⟨3000, 2000, 500⟩ = 800 ∧
      (look3 .up).stage1 1 ⟨3000, 2000, 500⟩ = 801 ∧ (look3 .down).stage1 2 ⟨3000, 2000, 500⟩ = 500 := by decide

/-- The same look, accumulation −818000: the modes part below zero. -/
theorem test_rounding_negative :
    roundDiv .nearestEven 4096 (-818000) = -200 ∧ roundDiv .down 4096 (-818000) = -200 ∧
      roundDiv .up 4096 (-818000) = -199 ∧ roundDiv .towardZero 4096 (-818000) = -199 := by decide

theorem test_curve_worked :
    [2, 6, 500, 2000, 3000, 4095].map (stage2 .nearestEven plainCurve) = [0, 2, 125, 500, 750, 1023] ∧
      [2, 6, 4095].map (stage2 .down plainCurve) = [0, 1, 1022] ∧
      [2, 6, 4095].map (stage2 .up plainCurve) = [1, 2, 1023] := by decide +kernel

theorem test_expansions_worked :
    expand8 128 = 2056 ∧ expand8 255 = 4095 ∧ expand10 512 = 2050 ∧
      pixels10 [0xFF, 3, 0, 0x20] = [⟨4095, 0, 2050⟩] ∧
      pixels12 [0x23, 1, 0xFF, 0x0F, 0, 0xF8] = [⟨291, 4095, 2048⟩] := by decide

theorem test_thresholds_worked :
    [2, 0].map (threshold .clip 129600) = [1518, 506] ∧ [127, 63].map (threshold .black 129600) = [64800, 32400] ∧
      [131, 99].map (threshold .luma 129600) = [2112, 1600] ∧ [0].map (threshold .range 129600) = [506] ∧
      threshold .tcBreak 129600 5 = 5 := by decide

theorem test_timecodes_worked :
    decodeTimecode .fps25 [0x24, 3, 0, 0x10] = .valid ⟨10, 0, 3, 24⟩ ∧
      decodeTimecode .fps25 [0x25, 3, 0, 0x10] = .invalid ∧ decodeTimecode .fps25 [0x1A, 3, 0, 0x10] = .invalid ∧
      decodeTimecode .fps25 [0, 0, 0, 0x24] = .invalid := by decide

theorem test_successors_worked :
    Timecode.successor ⟨1, 15, 59, 23⟩ .fps24 = ⟨1, 16, 0, 0⟩ ∧ Timecode.successor ⟨23, 59, 59, 49⟩ .fps50 = ⟨0, 0, 0, 0⟩ :=
  by decide

theorem test_count_gap_worked :
    countGap 9003 (some 9001) = 1 ∧ countGap 9004 (some 9004) = 65535 ∧ countGap 9003 (some 9002) = 0 := by decide

/-- Chapter 11: the field of index 5, generation 3. -/
theorem test_tid_field : tidField ⟨5, 3⟩ = [5, 0, 3, 0] := by decide


/-- Section 7.3: look 3's red curve where pixel A reads it. -/
theorem test_curve_red :
    let c : Vector Nat 65 := (plainCurve.set 49 812).set 50 829
    stage2 .nearestEven c 3180 = 824 ∧ (cond2 c 3180).inexact = true ∧ stage2 .down c 3179 = 823 := by decide +kernel

/-- The worked joined byte counter of chapter 10: BYTES_IN on S1 beside SEG_IN for ALL. -/
theorem test_joined_counter :
    let p : CounterPair := ⟨true, ⟨4294960000, .bytesIn, .link 1⟩, ⟨11, .segIn, .all⟩⟩
    let q := (p.take .segIn (.link 1) 1).take .bytesIn (.link 1) 16384
    let r := (q.take .segIn (.link 2) 1).take .bytesIn (.link 2) 26
    (q.even.count, q.odd.count) = (9088, 12) ∧ (r.even.count, r.odd.count) = (9088, 12) := by decide

/-! ### One step of a command -/

/-- The last reply the command at the head of S0 queues. -/
def replyOf (c : Instr) (s : State) : Option Reply := (after (exec c s)).bind fun t => t.src[(0 : SrcLink)].replies.getLast?

/-- R1, R75: a partner brings a source or a destination link from DOWN to TRAINING. -/
theorem test_partners_train :
    (after (exec (.sourcePartnerDetected 1) State.reset)).map (fun t => t.src[(1 : SrcLink)].state) = some .training ∧
      (after (exec (.destPartnerDetected 2) State.reset)).map (fun t => t.dest[(2 : Dest)].state) = some .training := by
  decide +kernel

/-- R190: the reply carries the tag and the code of its segment. -/
theorem test_identify_reply :
    (replyOf (.identify 0) (atHead (control 1 []) State.reset)).map (fun r => (r.tag, r.code, r.result)) =
      some (9, 1, .done) := by decide +kernel

/-- A ROUTE entry's bytes with a required count, a look, no profile and a format. -/
def routeBytes (required look format : Byte) : Bytes := [1, 0, 0, 0, 0, 0, 0, 3, required, look, 255, format]

/-- The WRITE TABLE of ROUTE of the worked sequence of chapter 10: start 30, four entries. -/
def fourRoutes (required look format : Byte) : Segment :=
  control 2 ([0, 0, 30, 0] ++ routeBytes required 0 255 ++ routeBytes 1 look format ++ routeBytes 1 0 255 ++
    routeBytes 1 0 255)

/-- Its first row: REFUSED_VALUE at offset 27. -/
theorem test_write_table_refused :
    (replyOf (.writeTable 0) (atHead (fourRoutes 1 0 9) State.reset)).map (fun r => (r.result, r.body)) =
      some (.refusedValue, [27, 0]) := by decide +kernel

/-- Its second row: PARTIAL, 2 entries written, required copies 1, look 15. -/
theorem test_write_table_partial :
    let t := after (exec (.writeTable 0) (atHead (fourRoutes 0 20 255) State.reset))
    (t.bind fun t => t.src[(0 : SrcLink)].replies.getLast?).map (fun r => (r.result, r.body)) =
        some (.partialDone, [2, 0, 0, 0]) ∧
      t.map (fun t => (t.routes[30].required, t.routes[31].look)) = some (1, 15) := by decide +kernel

end Sys2Proof.Tests
end

