-- ==== Sys2Proof/Proofs/Slots.lean ====
section
/-! PROOF. What the freeing of slots does to the source links and to the Slot Buffer (R5, R54, R57): one relation,
`SlotsFreed`, that every operation which gives up marks and references keeps. -/

namespace Sys2Proof.Machine

open Sys2Proof

/-- A change of one place is told by what it makes of what stands there. -/
theorem vmod_congr {α : Type} {n : Nat} (v : Vector α n) (i : Fin n) {f g : α → α} (h : f v[i] = g v[i]) :
    vmod v i f = vmod v i g := by
  apply vector_ext; intro j; simp only [vmod_get, h]

/-! ### Counting the slots of a link -/

/-- One number fewer passes a test that has changed at that number alone. -/
theorem allIx_length_succ {n : Nat} {p q : Fin n → Bool} (i : Fin n) (hp : p i = true) (hq : q i = false)
    (h : ∀ j, j ≠ i → q j = p j) : (allIx p).length = (allIx q).length + 1 := by
  have nodup : (allIx p).Nodup := (List.nodup_finRange n).filter _
  have key : allIx q = (allIx p).erase i := by
    rw [nodup.erase_eq_filter]
    simp only [allIx, List.filter_filter]
    congr 1
    funext j
    by_cases hj : j = i
    · simp [hj, hq]
    · simp [hj, h j hj]
  have pos : 0 < (allIx p).length := List.length_pos_of_mem (mem_allIx.mpr hp)
  rw [key, List.length_erase_of_mem (mem_allIx.mpr hp)]
  omega

/-- R3: what a link owns depends on the owners of the slots alone. -/
theorem ownedSlots_congr (l : SrcLink) {s t : State} (h : ∀ i : SlotIx, t.slots[i].owner = s.slots[i].owner) :
    ownedSlots l t = ownedSlots l s := by
  simp only [ownedSlots, h]

/-- R3: a slot that has lost its owner `m` is one slot fewer for `m`. -/
theorem ownedSlots_freed (i : SlotIx) (m : SrcLink) {s t : State} (hs : s.slots[i].owner = some m)
    (ht : t.slots = vmod s.slots i fun _ => Slot.free) (l : SrcLink) :
    ownedSlots l s = ownedSlots l t + if l = m then 1 else 0 := by
  by_cases hl : l = m
  · rw [if_pos hl]
    refine allIx_length_succ i (by rw [hs, hl]; exact beq_self_eq_true _) (by rw [ht, vmod_self]; rfl) fun j hj => ?_
    rw [ht, vmod_other _ _ _ _ hj]
  · rw [if_neg hl, Nat.add_zero]
    unfold ownedSlots
    congr 2
    funext j
    rw [ht, vmod_get]
    by_cases hj : j = i
    · rw [if_pos hj, hj, hs]
      exact beq_eq_false_iff_ne.mpr fun e => hl (Option.some.inj e).symm
    · rw [if_neg hj]

/-- R52: a FREE slot that a link has taken is one slot more for it. -/
theorem ownedSlots_taken (i : SlotIx) (m : SrcLink) {s t : State} {x : Slot} (hs : s.slots[i].owner = none)
    (hx : x.owner = some m) (ht : t.slots = vmod s.slots i fun _ => x) (l : SrcLink) :
    ownedSlots l t = ownedSlots l s + if l = m then 1 else 0 := by
  by_cases hl : l = m
  · rw [if_pos hl]
    refine allIx_length_succ i (by rw [ht, vmod_self, hx, hl]; exact beq_self_eq_true _) (by rw [hs]; rfl) fun j hj => ?_
    rw [ht, vmod_other _ _ _ _ hj]
  · rw [if_neg hl, Nat.add_zero]
    unfold ownedSlots
    congr 2
    funext j
    rw [ht, vmod_get]
    by_cases hj : j = i
    · rw [if_pos hj, hj, hs, hx]
      exact beq_eq_false_iff_ne.mpr fun e => hl (Option.some.inj e).symm
    · rw [if_neg hj]

/-! ### Credits that come back -/

/-- R5: of a link's record, the credit accounts alone have moved; off UP, nothing is granted or reported. -/
def SrcPort.CreditsMoved (p q : SrcPort) : Prop :=
  q = { p with held := q.held, granted := q.granted, withheld := q.withheld, unannounced := q.unannounced } ∧
    (p.state ≠ .up → q.granted = p.granted ∧ q.unannounced = p.unannounced)

theorem SrcPort.CreditsMoved.refl (p : SrcPort) : p.CreditsMoved p := ⟨rfl, fun _ => ⟨rfl, rfl⟩⟩

theorem SrcPort.CreditsMoved.state {p q : SrcPort} (h : p.CreditsMoved q) : q.state = p.state := by rw [h.1]
theorem SrcPort.CreditsMoved.arrivals {p q : SrcPort} (h : p.CreditsMoved q) : q.arrivals = p.arrivals := by rw [h.1]
theorem SrcPort.CreditsMoved.replies {p q : SrcPort} (h : p.CreditsMoved q) : q.replies = p.replies := by rw [h.1]
theorem SrcPort.CreditsMoved.tx {p q : SrcPort} (h : p.CreditsMoved q) : q.tx = p.tx := by rw [h.1]
theorem SrcPort.CreditsMoved.overrun {p q : SrcPort} (h : p.CreditsMoved q) : q.overrun = p.overrun := by rw [h.1]
theorem SrcPort.CreditsMoved.headAddressed {p q : SrcPort} (h : p.CreditsMoved q) :
    q.headAddressed = p.headAddressed := by rw [h.1]

theorem SrcPort.CreditsMoved.trans {p q r : SrcPort} (h : p.CreditsMoved q) (k : q.CreditsMoved r) :
    p.CreditsMoved r := by
  refine ⟨?_, fun hp => ?_⟩
  · rw [k.1, h.1]
  · obtain ⟨g, u⟩ := k.2 (by rw [h.state]; exact hp)
    exact ⟨g.trans (h.2 hp).1, u.trans (h.2 hp).2⟩

theorem SrcPort.creditBack_moved (p : SrcPort) : p.CreditsMoved p.creditBack := by
  unfold SrcPort.creditBack
  split
  · next h => exact ⟨rfl, fun hp => absurd h hp⟩
  · exact ⟨rfl, fun _ => ⟨rfl, rfl⟩⟩

/-- R3, R5: a returned credit keeps a link's accounts, where a slot was held. -/
theorem SrcPort.creditBack_creditsOk {p : SrcPort} (h : p.creditsOk) (hp : 1 ≤ p.held) : p.creditBack.creditsOk := by
  obtain ⟨sum, report⟩ := h
  refine ⟨by rw [creditBack_sum p hp, sum], ?_⟩
  unfold SrcPort.creditBack
  split <;> simp <;> omega

@[simp] theorem SrcPort.creditBack_held (p : SrcPort) : p.creditBack.held = p.held - 1 := by
  unfold SrcPort.creditBack; split <;> rfl

/-! ### Slots freed -/

/-- R5, R54, R57: marks and references have been given up. Of the links, the credit accounts alone have moved, and they
still agree; no slot has gained a reference, and one that still has references keeps its owner. -/
structure SlotsFreed (s t : State) : Prop where
  ports : ∀ m : SrcLink, s.src[m].CreditsMoved t.src[m]
  refs : ∀ i : SlotIx, t.slots[i].refs ≤ s.slots[i].refs
  owner : ∀ i : SlotIx, 0 < t.slots[i].refs → t.slots[i].owner = s.slots[i].owner
  credits : CreditLaw s → CreditLaw t

theorem SlotsFreed.of_eq {s t : State} (hsrc : t.src = s.src) (hslots : t.slots = s.slots) : SlotsFreed s t where
  ports m := by rw [hsrc]; exact .refl _
  refs i := by rw [hslots]
  owner i _ := by rw [hslots]
  credits h l := by
    rw [hsrc, ownedSlots_congr l (s := s) fun i => by rw [hslots]]
    exact h l

theorem SlotsFreed.refl (s : State) : SlotsFreed s s := .of_eq rfl rfl

theorem SlotsFreed.trans {s t u : State} (h : SlotsFreed s t) (k : SlotsFreed t u) : SlotsFreed s u where
  ports m := (h.ports m).trans (k.ports m)
  refs i := (k.refs i).trans (h.refs i)
  owner i hi := (k.owner i hi).trans (h.owner i (Nat.lt_of_lt_of_le hi (k.refs i)))
  credits hs := k.credits (h.credits hs)

/-- A change of one slot that keeps its owner and adds no reference. -/
theorem modSlot_freed (i : SlotIx) (f : Slot → Slot) (s : State) (hr : (f s.slots[i]).refs ≤ s.slots[i].refs)
    (ho : (f s.slots[i]).owner = s.slots[i].owner) : SlotsFreed s (modSlot i f s) where
  ports m := .refl _
  refs j := by
    rw [modSlot_slots, vmod_get]
    split
    · next h => rw [h]; exact hr
    · exact le_rfl
  owner j _ := by
    rw [modSlot_slots, vmod_get]
    split
    · next h => rw [h]; exact ho
    · rfl
  credits h l := by
    rw [ownedSlots_congr l (s := s) fun j => ?_]
    · exact h l
    · rw [modSlot_slots, vmod_get]
      split
      · next h => rw [h]; exact ho
      · rfl

/-- R54: a slot that becomes FREE gives its credit back to its owner. -/
theorem settleSlot_freed (i : SlotIx) (s : State) : SlotsFreed s (settleSlot i s) := by
  unfold settleSlot
  split
  · exact .refl s
  next m hm =>
  split
  · next hc =>
    refine ⟨fun l => ?_, fun j => ?_, fun j hj => ?_, fun h l => ?_⟩
    · rw [modSrc_src, vmod_get]
      split
      · next e => rw [e]; exact SrcPort.creditBack_moved _
      · exact .refl _
    · rw [modSrc_slots, modSlot_slots, vmod_get]
      split
      · exact Nat.zero_le _
      · exact le_rfl
    · rw [modSrc_slots, modSlot_slots, vmod_get] at hj ⊢
      split at hj
      · exact absurd hj (lt_irrefl 0)
      · next e => rw [if_neg e]
    · have count := ownedSlots_freed i m (s := s)
        (t := modSrc m SrcPort.creditBack (modSlot i (fun _ => Slot.free) s)) hm rfl l
      obtain ⟨ok, held⟩ := h l
      rw [modSrc_src, vmod_get, modSlot_src]
      split
      · next e =>
        subst e
        rw [if_pos rfl] at count
        exact ⟨SrcPort.creditBack_creditsOk ok (by omega), by rw [SrcPort.creditBack_held]; omega⟩
      · next e =>
        rw [if_neg e] at count
        exact ⟨ok, by omega⟩
  · exact .refl s

theorem dropRef_freed (i : SlotIx) (s : State) : SlotsFreed s (dropRef i s) :=
  (modSlot_freed i _ s (Nat.sub_le _ _) rfl).trans (settleSlot_freed i _)

theorem clearMark_freed (i : SlotIx) (s : State) : SlotsFreed s (clearMark i s) :=
  (modSlot_freed i _ s le_rfl rfl).trans (settleSlot_freed i _)

/-- A fold of operations that free slots frees slots. -/
theorem SlotsFreed.foldl {α : Type} (f : State → α → State) (h : ∀ s a, SlotsFreed s (f s a)) (as : List α) (s : State) :
    SlotsFreed s (as.foldl f s) :=
  foldl_keeps SlotsFreed SlotsFreed.refl (fun _ _ _ => SlotsFreed.trans) f h as s

theorem releaseEntries_freed (es : List QEntry) (s : State) : SlotsFreed s (releaseEntries es s) :=
  .foldl _ (fun s i => dropRef_freed i s) _ s

/-! ### How many references are left -/

/-- R54: settling a slot changes no count. -/
theorem settleSlot_refs (i j : SlotIx) (s : State) : (settleSlot i s).slots[j].refs = s.slots[j].refs := by
  unfold settleSlot
  split
  · rfl
  split
  · next hc =>
    simp only [modSrc_slots, modSlot_slots, vmod_get]
    split
    · next e => rw [e, hc.2]; rfl
    · rfl
  · rfl

/-- R57: one reference of one slot has gone. -/
theorem dropRef_refs (i j : SlotIx) (s : State) :
    (dropRef i s).slots[j].refs = s.slots[j].refs - if j = i then 1 else 0 := by
  rw [dropRef, settleSlot_refs, modSlot_slots, vmod_get]
  split
  · next e => rw [e]
  · rfl

/-- R55: the end of a mark takes no reference. -/
theorem clearMark_refs (i j : SlotIx) (s : State) : (clearMark i s).slots[j].refs = s.slots[j].refs := by
  rw [clearMark, settleSlot_refs, modSlot_slots, vmod_get]
  split
  · next e => rw [e]
  · rfl

/-- R57, R59: each entry that leaves takes one reference of its slot. -/
theorem foldl_dropRef_refs (is : List SlotIx) (j : SlotIx) (s : State) :
    (is.foldl (fun s i => dropRef i s) s).slots[j].refs = s.slots[j].refs - is.count j := by
  induction is generalizing s with
  | nil => simp
  | cons i rest ih =>
    rw [List.foldl_cons, ih, dropRef_refs, List.count_cons]
    by_cases h : j = i
    · simp [h]; omega
    · simp [h, Ne.symm h]

end Sys2Proof.Machine
end

