-- ==== Sys2Proof/Proofs/CreditLaws.lean ====
section
/-! PROOF. R3, R54, R77, R93: every step keeps the credit accounts of the source links and the limits of the destinations.
One relation, `LawsKept`, is shown of each operation of the model, in the order of their definitions. -/

namespace Sys2Proof.Machine

open Sys2Proof

/-! ### The relation -/

/-- Both laws hold after, where they held before. -/
structure LawsKept (s t : State) : Prop where
  credits : CreditLaw s → CreditLaw t
  limits : DestLaw s → DestLaw t

theorem LawsKept.refl (s : State) : LawsKept s s := ⟨id, id⟩

theorem LawsKept.trans {s t u : State} (h : LawsKept s t) (k : LawsKept t u) : LawsKept s u :=
  ⟨k.credits ∘ h.credits, k.limits ∘ h.limits⟩

/-- What frees slots and leaves the destinations keeps the laws. -/
theorem SlotsFreed.kept {s t : State} (h : SlotsFreed s t) (hd : t.dest = s.dest) : LawsKept s t where
  credits := h.credits
  limits l d := by rw [hd]; exact l d

/-- What leaves the links, the slots and the destinations keeps the laws. -/
theorem LawsKept.same {s t : State} (hsrc : t.src = s.src) (hslots : t.slots = s.slots) (hdest : t.dest = s.dest) :
    LawsKept s t := (SlotsFreed.of_eq hsrc hslots).kept hdest

/-- What leaves the links, the slots and the destinations may come first. -/
theorem LawsKept.after {s t u : State} (k : LawsKept t u) (hsrc : t.src = s.src) (hslots : t.slots = s.slots)
    (hdest : t.dest = s.dest) : LawsKept s u := (LawsKept.same hsrc hslots hdest).trans k

theorem LogOnly.kept {s t : State} (h : LogOnly s t) : LawsKept s t := by
  unfold LogOnly at h
  refine .same ?_ ?_ ?_ <;> rw [h]

theorem FilesOnly.kept {s t : State} (h : FilesOnly s t) : LawsKept s t := by
  unfold FilesOnly at h
  refine .same ?_ ?_ ?_ <;> rw [h]

theorem ChannelsOnly.kept {s t : State} (h : ChannelsOnly s t) : LawsKept s t := by
  unfold ChannelsOnly at h
  refine .same ?_ ?_ ?_ <;> rw [h]

theorem SlotsOnly.dest {s t : State} (h : SlotsOnly s t) : t.dest = s.dest := by
  unfold SlotsOnly at h
  rw [h]

/-- A fold of operations that keep the laws keeps them. -/
theorem LawsKept.foldl {α : Type} (f : State → α → State) (h : ∀ s a, LawsKept s (f s a)) (as : List α) (s : State) :
    LawsKept s (as.foldl f s) :=
  foldl_keeps LawsKept LawsKept.refl (fun _ _ _ => LawsKept.trans) f h as s

/-- A change of one link's record that keeps its accounts in agreement and the slots held. -/
theorem modSrc_kept (l : SrcLink) (f : SrcPort → SrcPort) (s : State) (hok : s.src[l].creditsOk → (f s.src[l]).creditsOk)
    (hheld : (f s.src[l]).held = s.src[l].held) : LawsKept s (modSrc l f s) where
  credits h m := by
    show (modSrc l f s).src[m].creditsOk ∧ (modSrc l f s).src[m].held = ownedSlots m s
    rw [modSrc_src, vmod_get]
    split
    · next e => rw [hheld, e]; exact ⟨hok (h l).1, (h l).2⟩
    · exact h m
  limits h := h

/-- R77, R93: what a destination's record must meet. -/
abbrev DestPort.Lawful (p : DestPort) : Prop := p.creditsOk ∧ p.failures ≤ 15

/-- A change of one destination's record that keeps it within its limits. -/
theorem modDest_kept (d : Dest) (f : DestPort → DestPort) (s : State) (h : s.dest[d].Lawful → (f s.dest[d]).Lawful) :
    LawsKept s (modDest d f s) where
  credits c := c
  limits k e := by
    rw [modDest_dest, vmod_get]
    split
    · exact h (k d)
    · exact k e

/-- A record with the limit and the failure count of another, and no more credits in use, meets what that one meets. -/
theorem DestPort.Lawful.fewer {p q : DestPort} (h : p.Lawful) (hl : q.limit = p.limit) (hu : q.inUse ≤ p.inUse)
    (hf : q.failures = p.failures) : q.Lawful := by
  obtain ⟨hc, hfailures⟩ := h
  refine ⟨?_, by rw [hf]; exact hfailures⟩
  unfold DestPort.creditsOk at hc ⊢
  rw [hl]
  cases hp : p.limit <;> simp only [hp] at hc ⊢ <;> omega

/-- The same, where the credits in use have not changed either. -/
theorem DestPort.Lawful.congr {p q : DestPort} (h : p.Lawful) (hl : q.limit = p.limit) (hu : q.inUse = p.inUse)
    (hf : q.failures = p.failures) : q.Lawful := h.fewer hl hu.le hf

/-- A record whose credit has been given up is within its limits. -/
theorem DestPort.Lawful.absent {p q : DestPort} (h : p.Lawful) (hl : q.limit = .absent) (hu : q.inUse = 0)
    (hf : q.failures = p.failures) : q.Lawful := by
  unfold DestPort.Lawful DestPort.creditsOk at *
  rw [hl, hu, hf]
  exact ⟨rfl, h.2⟩

/-! ### Elementary updates -/

theorem modEngine_kept (e : Engine) (f : EngineState → EngineState) (s : State) : LawsKept s (modEngine e f s) :=
  .same rfl rfl rfl
theorem modChannel_kept (c : Channel) (f : ChannelRec → ChannelRec) (s : State) : LawsKept s (modChannel c f s) :=
  .same rfl rfl rfl
theorem modCard_kept (c : CardIx) (f : Card → Card) (s : State) : LawsKept s (modCard c f s) := .same rfl rfl rfl
theorem putCard_kept (c : CardIx) (k : Option Card) (s : State) : LawsKept s (putCard c k s) := .same rfl rfl rfl
theorem modFile_kept (i : FileIx) (f : FileRec → FileRec) (s : State) : LawsKept s (modFile i f s) := .same rfl rfl rfl
theorem freeFile_kept (i : FileIx) (s : State) : LawsKept s (freeFile i s) := .same rfl rfl rfl
theorem setCopy_kept (i : FileIx) (d : Dest) (x : CopyState) (s : State) : LawsKept s (setCopy i d x s) :=
  .same rfl rfl rfl
theorem loseOne_kept (k : Loss) (s : State) : LawsKept s (loseOne k s) := .same rfl rfl rfl
theorem countEvent_kept (ev : CountEvent) (ag : Against) (n : Nat) (s : State) : LawsKept s (countEvent ev ag n s) :=
  .same rfl rfl rfl

/-! ### Slots, replies and heads (chapters 1 and 3) -/

theorem dropRef_kept (i : SlotIx) (s : State) : LawsKept s (dropRef i s) :=
  (dropRef_freed i s).kept (dropRef_frame i s).dest

theorem addRef_kept (i : SlotIx) (s : State) : LawsKept s (addRef i s) where
  credits h l := by
    rw [ownedSlots_congr l (s := s) fun j => ?_]
    · exact h l
    · rw [addRef, modSlot_slots, vmod_get]
      split
      · next e => rw [e]
      · rfl
  limits h := h

theorem clearMark_kept (i : SlotIx) (s : State) : LawsKept s (clearMark i s) :=
  (clearMark_freed i s).kept (clearMark_frame i s).dest

theorem decideHead_kept (l : SrcLink) (s : State) : LawsKept s (decideHead l s) := modSrc_kept l _ s id rfl

theorem queueReply_kept (l : SrcLink) (r : Reply) (s : State) : LawsKept s (queueReply l r s) :=
  modSrc_kept l _ s id rfl

theorem endProcessing_kept (l : SrcLink) (s : State) : LawsKept s (endProcessing l s) := by
  unfold endProcessing
  split
  · exact .refl s
  · next i rest _ =>
    exact (modSrc_kept l (fun p => { p with arrivals := rest }) s id rfl).trans
      ((clearMark_kept i _).trans (decideHead_kept l _))

theorem releaseEntries_kept (es : List QEntry) (s : State) : LawsKept s (releaseEntries es s) :=
  .foldl _ (fun s i => dropRef_kept i s) _ s

/-! ### Look engines (chapter 7) -/

theorem discardCounted_kept (e : Engine) (item : LookItem) (s : State) : LawsKept s (discardCounted e item s) := by
  refine LawsKept.trans (t := match s.slots[item.slot].owner with
      | some l => countEvent .reviewSkips (.link l) 1 (loseOne (.skips e) s)
      | none => loseOne (.skips e) s) ?_ (dropRef_kept item.slot _)
  split <;> exact .same rfl rfl rfl

theorem discardWaiting_kept (e : Engine) (s : State) : LawsKept s (discardWaiting e s) :=
  (LawsKept.foldl _ (fun s item => discardCounted_kept e item s) _ s).trans (modEngine_kept e _ _)

theorem changeFollow_kept (e : Engine) (new : Option Follow) (s : State) : LawsKept s (changeFollow e new s) :=
  (discardWaiting_kept e s).trans (modEngine_kept e _ _)

theorem takeSelection_kept (e : Engine) (sel : Selection) (s : State) : LawsKept s (takeSelection e sel s) := by
  have h : LawsKept s (modEngine e (fun g => { g with selection := sel }) s) := .same rfl rfl rfl
  unfold takeSelection
  dsimp only
  split
  · exact h
  · exact h.trans (changeFollow_kept _ _ _)

theorem reportOpenTo_kept (i : FileIx) (e : Engine) (s : State) : LawsKept s (reportOpenTo i e s) := by
  unfold reportOpenTo
  split
  · exact .refl s
  · split
    · exact changeFollow_kept _ _ _
    · exact .refl s

theorem reportOpen_kept (i : FileIx) (s : State) : LawsKept s (reportOpen i s) :=
  (reportOpenTo_kept i 0 s).trans (reportOpenTo_kept i 1 _)

theorem endFollowAbort_kept (p : Follow → Bool) (e : Engine) (s : State) : LawsKept s (endFollowAbort p e s) := by
  unfold endFollowAbort
  split
  · exact (discardWaiting_kept e s).trans (modEngine_kept e _ _)
  · exact .refl s

theorem endFollowsAbort_kept (p : Follow → Bool) (s : State) : LawsKept s (endFollowsAbort p s) :=
  (endFollowAbort_kept p 0 s).trans (endFollowAbort_kept p 1 _)

theorem offerLookTo_kept (l : SrcLink) (tid : Tid) (i : SlotIx) (g : Segment) (place : Placement) (complete : Bool)
    (e : Engine) (s : State) : LawsKept s (offerLookTo l tid i g place complete e s) := by
  unfold offerLookTo
  split
  · split
    · exact (addRef_kept i _).after rfl rfl rfl
    · exact .same rfl rfl rfl
  · exact .refl s

theorem leaveQueue_kept (e : Engine) (s : State) : LawsKept s (leaveQueue e s) := by
  unfold leaveQueue
  split
  · exact .refl s
  · next item _ _ => exact (dropRef_kept item.slot _).after rfl rfl rfl

theorem startOther_kept (e : Engine) (item : LookItem) (f : Follow) (s : State) : LawsKept s (startOther e item f s) := by
  unfold startOther
  split
  · exact leaveQueue_kept e s
  · split
    · exact (modEngine_kept _ _ s).trans (leaveQueue_kept e _)
    split
    · exact (modEngine_kept _ _ s).trans (leaveQueue_kept e _)
    · exact modEngine_kept _ _ s
  · split
    · exact (modEngine_kept _ _ s).trans (leaveQueue_kept e _)
    split
    · exact leaveQueue_kept e s
    · exact modEngine_kept _ _ s

theorem startEntry_kept (e : Engine) (s : State) : LawsKept s (startEntry e s) := by
  unfold startEntry
  split
  · split
    · exact modEngine_kept _ _ s
    · exact startOther_kept _ _ _ s
  · exact .refl s

theorem completeEntry_kept (e : Engine) (s : State) : LawsKept s (completeEntry e s) := by
  unfold completeEntry
  split
  · exact (modEngine_kept _ _ s).trans ((modEngine_kept _ _ _).trans ((modEngine_kept _ _ _).trans (leaveQueue_kept e _)))
  · exact .refl s

theorem progressEngine_kept (e : Engine) (s : State) : LawsKept s (progressEngine e s) := by
  unfold progressEngine
  split
  · split
    · exact .same rfl rfl rfl
    · exact .refl s
  · exact .refl s

theorem softResetEngine_kept (e : Engine) (s : State) : LawsKept s (softResetEngine e s) :=
  (progressEngine_kept e s).trans
    ((LawsKept.foldl _ (fun s (item : LookItem) => dropRef_kept item.slot s) _ _).trans (modEngine_kept _ _ _))

/-! ### Channels and pictures (chapters 6 and 8) -/

theorem evaluateTest_kept (c : Channel) (s : State) : LawsKept s (evaluateTest c s) := by
  unfold evaluateTest
  split
  · dsimp only
    split
    · exact (evalProbes_frame _ _ _ s).kept.trans (modChannel_kept _ _ _)
    · exact (evalProbes_frame _ _ _ s).kept.trans (modChannel_kept _ _ _)
  · exact .refl s

theorem evaluatePicture_kept (c : Channel) (frame digest : Nat) (m : MetaMeasures) (s : State) :
    LawsKept s (evaluatePicture c frame digest m s) :=
  (evalProbes_frame _ _ _ s).kept.trans (modChannel_kept _ _ _)

theorem evaluateMeta_kept (c : Channel) (frame : Nat) (m : MetaMeasures) (s : State) :
    LawsKept s (evaluateMeta c frame m s) := (evalProbes_frame _ _ _ s).kept.trans (modChannel_kept _ _ _)

theorem modAssembly_kept (i : FileIx) (f : Assembly → Assembly) (s : State) : LawsKept s (modAssembly i f s) :=
  modFile_kept i _ s

theorem toChannel_kept (i : FileIx) (f : Channel → State → State) (s : State) (h : ∀ c, LawsKept s (f c s)) :
    LawsKept s (toChannel i f s) := by
  unfold toChannel
  split
  · exact .refl s
  · exact h _

theorem logPartial_kept (i : FileIx) (frame : Nat) (c : PartialCause) (s : State) : LawsKept s (logPartial i frame c s) := by
  unfold logPartial
  split
  · exact .refl s
  · exact (logFault_frame _ s).kept

theorem closePartial_kept (i : FileIx) (s : State) : LawsKept s (closePartial i s) := by
  unfold closePartial
  split
  · exact .refl s
  · exact (modAssembly_kept i _ s).trans
      ((toChannel_kept i _ _ fun c => modChannel_kept c _ _).trans (logPartial_kept i _ _ _))

theorem completeFrame_kept (i : FileIx) (l : SrcLink) (frame : Nat) (m : FormatEntry) (s : State) :
    LawsKept s (completeFrame i l frame m s) := by
  unfold completeFrame
  split
  · exact .refl s
  · exact (modAssembly_kept i _ s).trans
      (toChannel_kept i _ _ fun c => (evaluatePicture_kept c _ _ _ _).after rfl rfl rfl)

theorem parseSegment_kept (i : FileIx) (l : SrcLink) (m : FormatEntry) (g : Segment) (s : State) :
    LawsKept s (parseSegment i l m g s).1 := by
  have h : LawsKept s (toChannel i (fun c => gather c (pixelsOf m.packing g.payload) g.lineCount)
      (modAssembly i (fun a => { a with
        digest := a.digest.map fun d => d.advance g.payload, nextLine := g.firstLine + g.lineCount }) s)) :=
    (modAssembly_kept i _ s).trans (toChannel_kept i _ _ fun c => modChannel_kept c _ _)
  unfold parseSegment
  dsimp only
  split
  · exact h.trans (completeFrame_kept i l _ m _)
  · exact h

theorem beginAssembly_kept (i : FileIx) (g : Segment) (s : State) : LawsKept s (beginAssembly i g s) := by
  unfold beginAssembly
  dsimp only
  split
  · exact modAssembly_kept i _ s
  · exact (modAssembly_kept i _ s).trans (toChannel_kept i _ _ fun c => modChannel_kept c _ _)

theorem placeGreater_kept (i : FileIx) (l : SrcLink) (m : FormatEntry) (g : Segment) (s : State) :
    LawsKept s (placeGreater i l m g s).1 := by
  unfold placeGreater
  dsimp only
  split
  · exact (beginAssembly_kept i g s).trans (parseSegment_kept i l m g _)
  · exact modAssembly_kept i _ s

theorem readPreview_kept (i : FileIx) (l : SrcLink) (m : FormatEntry) (g : Segment) (s : State) :
    LawsKept s (readPreview i l m g s).1 := by
  unfold readPreview
  split
  · exact .refl s
  split
  · split
    · exact placeGreater_kept i l m g s
    · exact logPartial_kept i _ _ s
  · split
    · exact (closePartial_kept i s).trans (placeGreater_kept i l m g _)
    split
    · exact modAssembly_kept i _ s
    split
    · exact parseSegment_kept i l m g s
    · exact modAssembly_kept i _ s
  · split
    · exact (closePartial_kept i s).trans (placeGreater_kept i l m g _)
    · exact .refl s

theorem closeAtLast_kept (i : FileIx) (s : State) : LawsKept s (closeAtLast i s) := by
  unfold closeAtLast
  split
  · exact .refl s
  · split
    · exact .refl s
    · exact closePartial_kept i s

theorem readMeta_kept (i : FileIx) (l : SrcLink) (m : FormatEntry) (g : Segment) (s : State) :
    LawsKept s (readMeta i l m g s) := by
  unfold readMeta
  split
  · unfold metaParseFailure
    split
    · exact .refl s
    · dsimp only
      split
      · exact (modAssembly_kept i _ s).trans (logFault_frame _ _).kept
      · exact (logFault_frame _ s).kept
  · dsimp only
    split
    · unfold evaluateMetaOnly
      split
      · exact .refl s
      · exact (modAssembly_kept i _ s).trans
          (toChannel_kept i _ _ fun c => (evaluateMeta_kept c _ _ _).after rfl rfl rfl)
    · exact modAssembly_kept i _ s

/-! ### Destination queues (chapter 5) -/

theorem checkStall_kept (d : Dest) (s : State) : LawsKept s (checkStall d s) := by
  unfold checkStall
  split
  · exact (modDest_kept d _ s fun h => h.congr rfl rfl rfl).trans (countEvent_kept _ _ _ _)
  · exact .refl s

theorem checkStalls_kept (s : State) : LawsKept s (checkStalls s) := .foldl _ (fun s d => checkStall_kept d s) _ s

theorem enqueue_kept (d : Dest) (e : QEntry) (s : State) : LawsKept s (enqueue d e s) :=
  modDest_kept d _ s fun h => h.congr rfl rfl rfl

theorem DestPort.queueAbort_lawful {p : DestPort} (t : Tid) (h : p.Lawful) : (p.queueAbort t).Lawful := by
  unfold DestPort.queueAbort
  split
  · exact h
  · exact h.congr rfl rfl rfl

theorem DestPort.withdraw_lawful {p : DestPort} (t : Tid) (h : p.Lawful) : (p.withdraw t).Lawful := by
  unfold DestPort.withdraw
  dsimp only
  split
  · exact h.congr rfl rfl rfl
  · exact DestPort.queueAbort_lawful t (h.congr rfl rfl rfl)

theorem withdraw_kept (d : Dest) (t : Tid) (s : State) : LawsKept s (withdraw d t s) :=
  (modDest_kept d _ s (DestPort.withdraw_lawful t)).trans (releaseEntries_kept _ _)

theorem purgeWaiting_kept (d : Dest) (keep : QEntry → Bool) (s : State) : LawsKept s (purgeWaiting d keep s) :=
  (modDest_kept d _ s fun h => h.congr rfl rfl rfl).trans (releaseEntries_kept _ _)

theorem nullify_kept (d : Dest) (s : State) : LawsKept s (nullify d s) := by
  unfold nullify
  split
  · exact .refl s
  split
  · exact (modDest_kept d _ s fun h => h.congr rfl rfl rfl).trans (releaseEntries_kept _ _)
  · exact modDest_kept d _ s fun h => h.congr rfl rfl rfl

/-! ### Files (chapter 2) -/

theorem withdrawUnsettled_kept (i : FileIx) (r : FailReason) (s : State) : LawsKept s (withdrawUnsettled i r s) := by
  unfold withdrawUnsettled
  split
  · exact .refl s
  · exact .foldl _ (fun s d => (failCopy_frame i d r [] s).kept.trans (withdraw_kept d _ _)) _ s

theorem releaseChannel_kept (i : FileIx) (s : State) : LawsKept s (releaseChannel i s) := by
  unfold releaseChannel
  split <;> exact .same rfl rfl rfl

theorem leaveStreaming_kept (i : FileIx) (next : FileState) (s : State) : LawsKept s (leaveStreaming i next s) :=
  (releaseChannel_kept i s).trans (modFile_kept i _ _)

theorem stopFile_kept (i : FileIx) (r : FailReason) (s : State) : LawsKept s (stopFile i r s) :=
  (withdrawUnsettled_kept i r s).trans ((leaveStreaming_kept i .short _).trans (endFollowsAbort_kept _ _))

theorem abortFile_kept (i : FileIx) (s : State) : LawsKept s (abortFile i s) := by
  unfold abortFile
  split
  · exact .refl s
  · exact (stopFile_kept i _ s).trans ((logFault_frame _ _).kept.trans (reeval_frame _ _).kept)

theorem breakFile_kept (i : FileIx) (received : Nat) (s : State) : LawsKept s (breakFile i received s) := by
  unfold breakFile
  split
  · exact .refl s
  · exact (stopFile_kept i _ s).trans ((logFault_frame _ _).kept.trans (reeval_frame _ _).kept)

theorem abortStreaming_kept (is : List FileIx) (s : State) : LawsKept s (abortStreaming is s) :=
  .foldl _ (fun s i => abortFile_kept i s) is s

/-! ### Destination links (chapter 5) -/

theorem DestPort.train_lawful {p : DestPort} (h : p.Lawful) : p.train.Lawful := h.congr rfl rfl rfl

theorem logDest_kept (cls : FaultClass) (code : Option FaultCode) (d : Dest) (s : State) :
    LawsKept s (logDest cls code d s) := (logFault_frame _ s).kept

theorem downProcedure_kept (d : Dest) (s : State) : LawsKept s (downProcedure d s) :=
  (modDest_kept d DestPort.down s fun h => h.absent rfl rfl rfl).trans
    ((releaseEntries_kept _ _).trans ((failAll_frame d _ _).kept.trans (logDest_kept _ _ _ _)))

theorem loseAlignment_kept (d : Dest) (s : State) : LawsKept s (loseAlignment d s) := by
  unfold loseAlignment
  split
  · exact (nullify_kept d s).trans (modDest_kept d _ _ fun h => h.congr rfl rfl rfl)
  · exact (nullify_kept d s).trans (modDest_kept d _ _ fun h => h.absent rfl rfl rfl)
  all_goals exact .refl s

/-- R76: right after an announcement no credit is in use. -/
theorem DestPort.exchange_lawful {p : DestPort} (n : Nat) (h : p.Lawful) : (p.exchange n).Lawful := by
  refine ⟨?_, h.2⟩
  unfold DestPort.creditsOk DestPort.exchange announcedLimit
  dsimp only
  split_ifs
  · rfl
  · exact Nat.zero_le n

theorem DestPort.achieve_lawful {p : DestPort} (n : Nat) (h : p.Lawful) : (p.achieve n).Lawful := by
  unfold DestPort.achieve
  split
  · exact (DestPort.exchange_lawful n h).congr rfl rfl rfl
  · exact (DestPort.exchange_lawful n h).congr rfl rfl rfl
  · split
    · exact h
    · exact (DestPort.exchange_lawful n h).congr rfl rfl rfl
  all_goals exact h

/-- R77: the credit that a start takes was free. -/
theorem DestPort.takeCredit_lawful {p : DestPort} (e : QEntry) (hc : p.canTake e = true) (h : p.Lawful) :
    (p.takeCredit e).Lawful := by
  unfold DestPort.takeCredit
  split
  · next n hl =>
    split
    · next hn =>
      refine ⟨?_, h.2⟩
      simp only [DestPort.canTake, hn, hl, Bool.not_true, Bool.false_or, decide_eq_true_eq] at hc
      simp only [DestPort.creditsOk, hl]
      exact hc
    · exact h
  all_goals exact h

theorem startTransmission_kept (d : Dest) (e : QEntry) (s : State) (hc : s.dest[d].canStart e = true) :
    LawsKept s (startTransmission d e s) := by
  have ht : s.dest[d].canTake e = true := by
    simp only [DestPort.canStart, Bool.and_eq_true] at hc
    exact hc.1.2
  exact modDest_kept d _ s fun h => (DestPort.takeCredit_lawful e ht h).congr rfl rfl rfl

theorem advanceCopy_kept (t : Tid) (d : Dest) (old new : CopyState) (s : State) : LawsKept s (advanceCopy t d old new s) := by
  unfold advanceCopy
  split <;> exact .same rfl rfl rfl

theorem sentGood_kept (d : Dest) (e : QEntry) (s : State) : LawsKept s (sentGood d e s) := by
  unfold sentGood
  split
  · exact (advanceCopy_kept _ d _ _ s).trans (modDest_kept d _ _ fun h => h.congr rfl rfl rfl)
  · exact (dropRef_kept _ _).after rfl rfl rfl
  · split
    · exact (modDest_kept d _ _ fun h => h.congr rfl rfl rfl).after rfl rfl rfl
    · exact .refl s
  · exact modDest_kept d _ s fun h => h.congr rfl rfl rfl
  · exact modDest_kept d _ s fun h => h.congr rfl rfl rfl

theorem endTransmission_kept (d : Dest) (s : State) : LawsKept s (endTransmission d s) := by
  unfold endTransmission
  split
  · exact (modDest_kept d _ s fun h => h.congr rfl rfl rfl).trans ((sentGood_kept d _ _).trans (checkStall_kept d _))
  · exact .refl s

theorem takeInbound_kept (k : Nat) (d : Dest) (wire : Bytes) (f : InMessage → State → State) (s : State)
    (h : ∀ m, LawsKept s (f m s)) : LawsKept s (takeInbound k d wire f s) := by
  unfold takeInbound
  split
  · exact .refl s
  · split
    · exact h _
    · exact .refl s

theorem takeCreditMessage_kept (d : Dest) (m : InMessage) (s : State) : LawsKept s (takeCreditMessage d m s) := by
  unfold takeCreditMessage
  split
  · exact modDest_kept d _ s fun h => h.fewer rfl (Nat.sub_le _ _) rfl
  · exact .same rfl rfl rfl

theorem DestPort.enterQuarantine_lawful {p : DestPort} (h : p.Lawful) : p.enterQuarantine.Lawful := by
  unfold DestPort.enterQuarantine
  split
  · exact h.congr rfl rfl rfl
  · exact h.absent rfl rfl rfl
  all_goals exact h.congr rfl rfl rfl

theorem enterQuarantine_kept (code : FaultCode) (d : Dest) (s : State) : LawsKept s (enterQuarantine code d s) :=
  (modDest_kept d _ s DestPort.enterQuarantine_lawful).trans
    ((releaseEntries_kept _ _).trans ((failAll_frame d _ _).kept.trans (logDest_kept _ _ _ _)))

theorem autoQuarantine_kept (d : Dest) (s : State) : LawsKept s (autoQuarantine d s) := by
  unfold autoQuarantine
  split
  · exact enterQuarantine_kept _ d s
  · exact .refl s

theorem countFailure_kept (d : Dest) (s : State) : LawsKept s (countFailure d s) :=
  (modDest_kept d _ s fun h => ⟨h.1, Nat.min_le_left _ _⟩).trans (countEvent_kept _ _ _ _)

theorem cancelTimer_kept (i : FileIx) (d : Dest) (s : State) : LawsKept s (cancelTimer i d s) :=
  modDest_kept d _ s fun h => h.congr rfl rfl rfl

theorem proveCopy_kept (i : FileIx) (d : Dest) (s : State) : LawsKept s (proveCopy i d s) :=
  (setCopy_kept i d _ s).trans ((cancelTimer_kept i d _).trans ((modDest_kept d _ _ fun h => ⟨h.1, Nat.zero_le _⟩).trans
    ((countEvent_kept _ _ _ _).trans (settleFile_frame i _).kept)))

theorem failClosed_kept (i : FileIx) (d : Dest) (r : FailReason) (s : State) : LawsKept s (failClosed i d r s) :=
  (cancelTimer_kept i d s).trans ((failCopy_frame i d r [] _).kept.trans
    ((countFailure_kept d _).trans ((settleFile_frame i _).kept.trans (autoQuarantine_kept d _))))

theorem takeVerify_kept (d : Dest) (m : InMessage) (s : State) : LawsKept s (takeVerify d m s) := by
  have lost : ∀ k, LawsKept s (loseOne k s) := fun k => .same rfl rfl rfl
  unfold takeVerify
  split
  · split
    · unfold verifyCopy
      split
      · split
        · exact proveCopy_kept _ d s
        · exact failClosed_kept _ d _ s
      all_goals exact lost _
    · exact lost _
  · exact lost _

theorem failWrite_kept (i : FileIx) (d : Dest) (code : Nat) (s : State) : LawsKept s (failWrite i d code s) :=
  (failCopy_frame i d _ _ s).kept.trans ((countFailure_kept d _).trans ((withdraw_kept d _ _).trans
    ((settleFile_frame i _).kept.trans (autoQuarantine_kept d _))))

theorem takeWriteError_kept (d : Dest) (m : InMessage) (s : State) : LawsKept s (takeWriteError d m s) := by
  have lost : ∀ k, LawsKept s (loseOne k s) := fun k => .same rfl rfl rfl
  unfold takeWriteError
  split
  · split
    · split
      · exact (failWrite_kept _ d _ s).trans (checkStall_kept d _)
      · exact lost _
    · exact lost _
  · exact lost _

theorem expireTimer_kept (i : FileIx) (d : Dest) (s : State) : LawsKept s (expireTimer i d s) := by
  unfold expireTimer
  split
  · exact failClosed_kept i d _ s
  · exact .refl s

theorem resetDest_kept (d : Dest) (s : State) : LawsKept s (resetDest d s) := by
  have train : ∀ t : State, LawsKept t (modDest d DestPort.train t) := fun t =>
    modDest_kept d _ t DestPort.train_lawful
  unfold resetDest
  split
  · exact (downProcedure_kept d s).trans (train _)
  · exact (downProcedure_kept d s).trans (train _)
  · exact modDest_kept d _ s fun h => h.congr rfl rfl rfl
  · exact train s
  · exact (nullify_kept d s).trans (modDest_kept d _ _ fun h => h.absent rfl rfl rfl)

/-! ### Segments and files (chapters 1 and 2) -/

theorem logCardFile_kept (cls : FaultClass) (c : CardIx) (number : Nat) (values : List Nat) (s : State) :
    LawsKept s (logCardFile cls c number values s) := (logFault_frame _ s).kept

theorem refuseHeader_kept (l : SrcLink) (g : Segment) (s : State) : LawsKept s (refuseHeader l g s) := by
  unfold refuseHeader
  split
  · unfold refuseData
    split
    · exact loseOne_kept _ s
    split
    · exact .refl s
    split
    · exact loseOne_kept _ s
    split
    · exact (breakFile_kept _ _ s).trans (checkStalls_kept _)
    · exact logCardFile_kept _ _ _ _ s
  · exact loseOne_kept _ s

theorem takeHead_kept (l : SrcLink) (kind : Segment → Bool) (f : Segment → State → State) (s : State)
    (h : ∀ g, LawsKept s (f g s)) : LawsKept s (takeHead l kind f s) := by
  unfold takeHead
  split
  · exact .refl s
  split
  · refine LawsKept.trans ?_ (endProcessing_kept l _)
    split
    · exact h _
    · exact refuseHeader_kept l _ s
  · exact .refl s

theorem takeMount_kept (l : SrcLink) (g : Segment) (s : State) : LawsKept s (takeMount l g s) := by
  have refused : ∀ cls h, LawsKept s (refuseMount cls h s) := fun _ _ => (logFault_frame _ s).kept
  unfold takeMount
  dsimp only
  split
  · split
    · exact refused _ _
    split
    · exact refused _ _
    split
    · exact modCard_kept _ _ s
    · split
      · exact refused _ _
      · exact .same rfl rfl rfl
  · exact loseOne_kept _ s

theorem takeCardEnd_kept (l : SrcLink) (g : Segment) (s : State) : LawsKept s (takeCardEnd l g s) := by
  unfold takeCardEnd
  split
  · exact loseOne_kept _ s
  split
  · exact .refl s
  split
  · refine LawsKept.trans ?_ (reeval_frame _ _).kept
    split
    · exact (modCard_kept _ _ s).trans (logFault_frame _ _).kept
    · exact modCard_kept _ _ s
  · exact .refl s

theorem takeUnmount_kept (l : SrcLink) (g : Segment) (s : State) : LawsKept s (takeUnmount l g s) := by
  unfold takeUnmount
  split
  · exact .refl s
  · refine LawsKept.trans ?_ ((modCard_kept _ _ _).trans (reeval_frame _ _).kept)
    split
    · exact (abortStreaming_kept _ s).trans ((checkStalls_kept _).trans
        ((modCard_kept _ _ _).trans (logFault_frame _ _).kept))
    · exact (abortStreaming_kept _ s).trans (checkStalls_kept _)

theorem assignChannel_kept (i : FileIx) (s : State) : LawsKept s (assignChannel i s) := by
  unfold assignChannel
  split
  · exact .refl s
  split
  · split
    · exact (logFault_frame _ s).kept
    · exact .same rfl rfl rfl
  · exact .refl s

theorem startFile_kept (i : FileIx) (f : FileRec) (countIt : Bool) (s : State) : LawsKept s (startFile i f countIt s) :=
  LawsKept.trans (t := writeRecord i f s) (.same rfl rfl rfl)
    ((LawsKept.foldl _ (fun s d => enqueue_kept d _ s) _ _).trans
      (LawsKept.trans (t := startAssembly i _) (modFile_kept i _ _) ((assignChannel_kept i _).trans
        ((modCard_kept _ _ _).trans ((checkStalls_kept _).trans
          ((reeval_frame _ _).kept.trans (reportOpen_kept i _)))))))

theorem refuseOpen_kept (cls : FaultClass) (c : CardIx) (number : Nat) (s : State) :
    LawsKept s (refuseOpen cls c number s) := (logCardFile_kept _ _ _ _ s).trans (modCard_kept _ _ _)

theorem takeOpen_kept (l : SrcLink) (g : Segment) (s : State) : LawsKept s (takeOpen l g s) := by
  unfold takeOpen
  split
  · exact loseOne_kept _ s
  split
  · split
    · exact .refl s
    · unfold decideOpen
      dsimp only
      split
      · exact refuseOpen_kept _ _ _ s
      split
      · exact refuseOpen_kept _ _ _ s
      split
      · split
        · exact .refl s
        · exact startFile_kept _ _ _ s
      · split
        · exact refuseOpen_kept _ _ _ s
        · exact startFile_kept _ _ _ s
  · exact refuseOpen_kept _ _ _ s

theorem checkSize_kept (i : FileIx) (s : State) : LawsKept s (checkSize i s) := by
  unfold checkSize
  split
  · exact .refl s
  split
  · split
    · exact (logFault_frame _ s).kept
    · exact .refl s
  · exact .refl s

theorem queueCloses_kept (i : FileIx) (s : State) : LawsKept s (queueCloses i s) := by
  unfold queueCloses
  split
  · exact .refl s
  · exact .foldl _ (fun s d => enqueue_kept d _ s) _ s

theorem reevalFile_kept (i : FileIx) (s : State) : LawsKept s (reevalFile i s) := by
  unfold reevalFile
  split <;> exact .same rfl rfl rfl

theorem lastSegment_kept (i : FileIx) (s : State) : LawsKept s (lastSegment i s) :=
  (closeAtLast_kept i s).trans ((modFile_kept i FileRec.finalise _).trans
    ((checkSize_kept i _).trans ((queueCloses_kept i _).trans ((leaveStreaming_kept i _ _).trans
      ((modEngine_kept _ _ _).trans ((modEngine_kept _ _ _).trans
        ((reevalFile_kept i _).trans (settleFile_frame i _).kept)))))))

theorem acceptBytes_kept (l : SrcLink) (i : FileIx) (slot : SlotIx) (f : FileRec) (g : Segment) (s : State) :
    LawsKept s (acceptBytes l i slot f g s) := by
  refine LawsKept.trans (t := queueData i slot f (modFile i (fun f => { f with
    sums := f.sums.advance g.payload, nextOffset := f.nextOffset + g.payload.length }) s)) ?_ ?_
  · exact LawsKept.trans (t := modFile i _ s) (.same rfl rfl rfl)
      (.foldl _ (fun s d => (enqueue_kept d _ s).trans (addRef_kept slot _)) _ _)
  · show LawsKept _ (readSegment l i slot f g _)
    unfold readSegment
    split
    · exact .refl _
    split
    · exact (readPreview_kept i l _ g _).trans
        ((offerLookTo_kept _ _ _ _ _ _ 0 _).trans (offerLookTo_kept _ _ _ _ _ _ 1 _))
    split
    · exact readMeta_kept i l _ g _
    · exact .refl _

theorem acceptData_kept (l : SrcLink) (i : FileIx) (slot : SlotIx) (f : FileRec) (g : Segment) (s : State) :
    LawsKept s (acceptData l i slot f g s) := by
  have h : LawsKept s (if g.payload = [] then s else acceptBytes l i slot f g s) := by
    split
    · exact .refl s
    · exact acceptBytes_kept l i slot f g s
  unfold acceptData
  dsimp only
  split
  · exact h.trans (lastSegment_kept i _)
  · exact h

theorem takeData_kept (l : SrcLink) (g : Segment) (s : State) : LawsKept s (takeData l g s) := by
  unfold takeData
  split
  · exact loseOne_kept _ s
  split
  · exact .refl s
  split
  · exact logCardFile_kept _ _ _ _ s
  split
  · split
    · refine LawsKept.trans ?_ (checkStalls_kept _)
      split
      · exact acceptData_kept l _ _ _ g s
      · exact breakFile_kept _ _ s
    · exact logCardFile_kept _ _ _ _ s
  · exact .refl s

/-! ### Commands (chapter 10) -/

theorem guardBody_kept (shape : BodyShape) (s : State) (go : Answer) (h : LawsKept s go.after) :
    LawsKept s (guardBody shape s go).after := by
  unfold guardBody
  split
  · split
    · exact .refl s
    · split
      · exact .refl s
      · exact h
  · exact .same rfl rfl rfl

theorem answerHead_kept (l : SrcLink) (g : Segment) (a : Answer) (s : State) (h : LawsKept s a.after) :
    LawsKept s (answerHead l g a) := h.trans ((queueReply_kept l _ _).trans (endProcessing_kept l _))

theorem takeControl_kept (l : SrcLink) (mine : Segment → Bool) (f : Segment → State → State) (s : State)
    (h : ∀ g, LawsKept s (f g s)) : LawsKept s (takeControl l mine f s) := by
  unfold takeControl
  split
  · exact .refl s
  split
  · split
    · split
      · unfold takeCommand
        split
        · exact .refl s
        split
        · split
          · exact h _
          · exact .refl s
        · exact answerHead_kept l _ _ s (.refl s)
      · exact (loseOne_kept _ s).trans (endProcessing_kept l _)
    · exact (refuseHeader_kept l _ s).trans (endProcessing_kept l _)
  · exact .refl s

theorem cmdWriteTable_kept (b : Bytes) (s : State) : LawsKept s (cmdWriteTable b s).after := by
  unfold cmdWriteTable
  split
  · exact guardBody_kept _ s _ (.refl s)
  · refine guardBody_kept _ s _ (.foldl _ (fun s k => ?_) _ s)
    split
    · unfold writeEntry
      split
      all_goals first | exact .same rfl rfl rfl | (split <;> exact .same rfl rfl rfl)
    · exact .refl s

theorem readForm_kept (b : Bytes) (s : State) : LawsKept s (readForm b s).after := by
  unfold readForm
  split
  case h_2 => unfold readFiles; split <;> exact .refl s
  case h_6 =>
    refine ((progressEngine_kept 0 s).trans (progressEngine_kept 1 _)).trans ?_
    unfold readEngines Answer.done
    dsimp only
    split <;> exact .same rfl rfl rfl
  all_goals exact .refl s

theorem ackByKeys_kept (keys : List Nat) (s : State) : LawsKept s (ackByKeys keys s).after := by
  unfold ackByKeys
  dsimp only
  split
  · exact (ackRecords_frame _ s).kept
  · exact .refl s

theorem ackByLabel_kept (label : Bytes) (s : State) : LawsKept s (ackByLabel label s).after := by
  unfold ackByLabel
  dsimp only
  split
  · exact (ackRecords_frame _ s).kept
  · exact .refl s

theorem cmdAckFaults_kept (b : Bytes) (s : State) : LawsKept s (cmdAckFaults b s).after := by
  unfold cmdAckFaults
  split
  · exact guardBody_kept _ s _ (ackByKeys_kept _ s)
  · exact guardBody_kept _ s _ (ackByLabel_kept _ s)
  · exact guardBody_kept _ s _ (.refl s)

theorem onCard_kept (label : Bytes) (s : State) (f : CardIx → Card → Answer) (h : ∀ c k, LawsKept s (f c k).after) :
    LawsKept s (onCard label s f).after := by
  unfold onCard
  split
  · exact .refl s
  · split
    · exact .refl s
    · exact h _ _

theorem offerNotice_kept (n : NoticeItem) (s : State) : LawsKept s (offerNotice n s) := (offerNotice_frame n s).kept

theorem cmdReleaseCard_kept (b : Bytes) (s : State) : LawsKept s (cmdReleaseCard b s).after := by
  refine guardBody_kept _ s _ (onCard_kept _ s _ fun c k => ?_)
  split
  · show LawsKept s (releaseEffect c k s)
    unfold releaseEffect
    dsimp only
    split
    · exact .same rfl rfl rfl
    · exact (offerNotice_kept _ _).after rfl rfl rfl
  · exact .refl s

theorem discardCopies_kept (i : FileIx) (s : State) : LawsKept s (discardCopies i s) := by
  unfold discardCopies
  split
  · exact .refl s
  · exact .foldl _ (fun s d => withdraw_kept d _ s) _ s

theorem clearEffect_kept (c : CardIx) (k : Card) (s : State) : LawsKept s (clearEffect c k s) :=
  (LawsKept.foldl _ (fun s i => (discardCopies_kept i s).trans
      ((releaseChannel_kept i _).trans (freeFile_kept i _))) _ s).trans
    ((endFollowsAbort_kept _ _).trans ((checkStalls_kept _).trans
      ((logFault_frame _ _).kept.trans (putCard_kept c _ _))))

theorem waiveEffect_kept (i : FileIx) (f : FileRec) (s : State) : LawsKept s (waiveEffect i f s) := by
  refine LawsKept.trans (t := issueManifest (manifestOf i f true s) s) ?_ (.same rfl rfl rfl)
  unfold issueManifest
  split
  · exact offerNotice_kept _ s
  · exact .refl s

theorem cmdWaiveFile_kept (b : Bytes) (s : State) : LawsKept s (cmdWaiveFile b s).after := by
  refine guardBody_kept _ s _ (onCard_kept _ s _ fun c k => ?_)
  split
  · exact .refl s
  · unfold waiveFile
    split
    · exact .refl s
    · split
      · exact waiveEffect_kept _ _ s
      · exact .refl s

theorem cmdDestQuarantine_kept (b : Bytes) (s : State) : LawsKept s (cmdDestQuarantine b s).after := by
  refine guardBody_kept _ s _ ?_
  unfold quarantineCommand
  split
  · exact .refl s
  · dsimp only [Answer.done]
    exact enterQuarantine_kept .byCommand (destArg b) s

theorem cmdDestRestore_kept (b : Bytes) (s : State) : LawsKept s (cmdDestRestore b s).after := by
  refine guardBody_kept _ s _ ?_
  unfold restoreCommand
  split
  · exact modDest_kept _ _ s fun h => ⟨h.1, Nat.zero_le _⟩
  · exact .refl s

theorem cmdTestFrame_kept (b : Bytes) (s : State) : LawsKept s (cmdTestFrame b s).after := by
  refine guardBody_kept _ s _ ?_
  unfold testCommand
  split
  · exact .same rfl rfl rfl
  · exact .refl s

/-! ### Source links and resets (chapters 1 and 10) -/

/-- R18: a link reset withholds what was granted. -/
theorem SrcPort.reset_creditsOk {p : SrcPort} (h : p.creditsOk) : p.reset.creditsOk := by
  obtain ⟨sum, -⟩ := h
  refine ⟨?_, le_rfl⟩
  show p.held + 0 + (p.withheld + p.granted) = 256
  omega

theorem dropNotices_kept (l : SrcLink) (s : State) : LawsKept s (dropNotices l s) :=
  LawsKept.trans (t := { s with notices := s.notices.filter fun n => !resetTakes l s n }) (.same rfl rfl rfl)
    (.foldl _ (fun s _ => loseOne_kept _ s) _ _)

theorem discardArrivals_kept (l : SrcLink) (keepHead : Bool) (s : State) : LawsKept s (discardArrivals l keepHead s) :=
  (modSrc_kept l _ s id rfl).trans (.foldl _ (fun s i => clearMark_kept i s) _ _)

theorem resetSource_kept (l : SrcLink) (keepHead : Bool) (s : State) : LawsKept s (resetSource l keepHead s) :=
  (modSrc_kept l SrcPort.reset s SrcPort.reset_creditsOk rfl).trans ((dropNotices_kept l _).trans
    ((discardArrivals_kept l keepHead _).trans ((abortStreaming_kept _ _).trans (checkStalls_kept _))))

theorem setSrcState_kept (l : SrcLink) (st : SrcState) (s : State) : LawsKept s (setSrcState l st s) :=
  modSrc_kept l _ s id rfl

/-- R4: what a link grants as it enters UP was withheld. -/
theorem SrcPort.enterUp_creditsOk {p : SrcPort} (h : p.creditsOk) : p.enterUp.creditsOk := by
  obtain ⟨sum, report⟩ := h
  refine ⟨?_, Nat.add_le_add_right report _⟩
  show p.held + (p.granted + p.withheld) + 0 = 256
  omega

/-- R6, R52: an accepted segment takes a FREE slot against a granted credit. -/
theorem acceptSegment_kept (l : SrcLink) (i : SlotIx) (g : Segment) (s : State) (hg : s.src[l].granted ≠ 0)
    (hi : s.slots[i].owner = none) : LawsKept s (acceptSegment l i g s) := by
  have taken : LawsKept s (modSrc l (SrcPort.accept i) (modSlot i (fun _ => ⟨some l, true, 0, g⟩) s)) := by
    refine ⟨fun h m => ?_, fun h => h⟩
    have count := ownedSlots_taken i l
      (t := modSrc l (SrcPort.accept i) (modSlot i (fun _ => ⟨some l, true, 0, g⟩) s)) hi rfl rfl m
    obtain ⟨⟨sum, report⟩, held⟩ := h m
    rw [modSrc_src, vmod_get, modSlot_src]
    split
    · next e =>
      subst e
      rw [if_pos rfl] at count
      refine ⟨⟨?_, Nat.min_le_right _ _⟩, ?_⟩
      · show s.src[m].held + 1 + (s.src[m].granted - 1) + s.src[m].withheld = 256
        omega
      · show s.src[m].held + 1 = _
        omega
    · next e =>
      rw [if_neg e] at count
      exact ⟨⟨sum, report⟩, by omega⟩
  have counted : LawsKept s (countEvent .bytesIn (.link l) g.len (countEvent .segIn (.link l) 1
      (modSrc l (SrcPort.accept i) (modSlot i (fun _ => ⟨some l, true, 0, g⟩) s)))) := taken.trans (.same rfl rfl rfl)
  unfold acceptSegment
  dsimp only
  split
  · exact counted.trans (decideHead_kept l _)
  · exact counted

theorem overrunAt_kept (l : SrcLink) (s : State) : LawsKept s (overrunAt l s) := by
  unfold overrunAt
  dsimp only
  split
  · exact loseOne_kept _ s
  · exact (loseOne_kept _ s).trans ((modSrc_kept l _ _ id rfl).trans (logFault_frame _ _).kept)

theorem startReturn_kept (l : SrcLink) (s : State) : LawsKept s (startReturn l s) := by
  have tx : ∀ k wire t, LawsKept t (beginReturn l k wire t) := fun _ _ t => modSrc_kept l _ t id rfl
  unfold startReturn
  dsimp only
  split
  · split
    · exact (modSrc_kept l _ s (fun h => ⟨h.1, Nat.zero_le _⟩) rfl).trans (tx _ _ _)
    split
    · exact tx _ _ s
    split
    · exact (tx _ _ _).after rfl rfl rfl
    · exact .refl s
  · exact .refl s

theorem endReturn_kept (l : SrcLink) (s : State) : LawsKept s (endReturn l s) := by
  unfold endReturn
  split
  · exact .refl s
  · refine LawsKept.trans ?_ (modSrc_kept l _ _ id rfl)
    unfold returnSent
    split
    · exact .refl s
    · exact modSrc_kept l _ s id rfl
    · exact .same rfl rfl rfl

theorem cmdLinkReset_kept (l : SrcLink) (b : Bytes) (s : State) : LawsKept s (cmdLinkReset l b s).after := by
  refine guardBody_kept _ s _ ?_
  show LawsKept s (linkReset l (fieldAt b 0 1) s)
  unfold linkReset
  split
  · exact resetSource_kept _ _ s
  · exact resetDest_kept _ s

theorem dropArrivals_kept (l : SrcLink) (s : State) : LawsKept s (dropArrivals l s) := by
  unfold dropArrivals
  dsimp only
  refine LawsKept.trans ?_ (.foldl _ (fun s i => clearMark_kept i s) _ _)
  split
  · exact modSrc_kept l _ s id rfl
  · exact (modSrc_kept l _ s id rfl).trans (decideHead_kept l _)

theorem softStopFile_kept (i : FileIx) (s : State) : LawsKept s (softStopFile i s) := by
  unfold softStopFile
  split
  · exact .refl s
  split
  · exact discardCopies_kept i s
  · exact .foldl _ (fun s d => cancelTimer_kept i d s) _ s
  · exact .refl s

theorem softEmpty_kept (d : Dest) (s : State) : LawsKept s (softEmpty d s) := by
  refine (purgeWaiting_kept d _ s).trans (modDest_kept d _ _ fun h => ?_)
  unfold DestPort.noResendUnlessHalt
  split
  · exact h
  · exact h.congr rfl rfl rfl

theorem softAborts_kept (d : Dest) (s : State) : LawsKept s (softAborts d s) := by
  refine modDest_kept d _ s fun h => ?_
  split
  · exact h.congr rfl rfl rfl
  · exact h

theorem freeChannels_kept (s : State) : LawsKept s (freeChannels s) := .same rfl rfl rfl
theorem freeTables_kept (s : State) : LawsKept s (freeTables s) := .same rfl rfl rfl

theorem softReset_kept (s : State) : LawsKept s (softReset s) := by
  unfold softReset
  dsimp only
  exact (LawsKept.foldl (fun s l => dropArrivals l s) (fun s l => dropArrivals_kept l s) (List.finRange 4) s).trans
    ((LawsKept.foldl (fun s i => softStopFile i s) (fun s i => softStopFile_kept i s) (List.finRange 512) _).trans
      ((LawsKept.foldl (fun s d => softEmpty d s) (fun s d => softEmpty_kept d s) (List.finRange 6) _).trans
        ((softResetEngine_kept 0 _).trans ((softResetEngine_kept 1 _).trans
          ((LawsKept.foldl (fun s d => softAborts d s) (fun s d => softAborts_kept d s) (List.finRange 6) _).trans
            ((freeChannels_kept _).trans ((freeTables_kept _).trans (checkStalls_kept _))))))))

theorem runSoftReset_kept (l : SrcLink) (g : Segment) (s : State) : LawsKept s (runSoftReset l g s) := by
  have h := answerHead_kept l g (guardBody (emptyShape g.payload) s (.done [] s)) s (guardBody_kept _ s _ (.refl s))
  unfold runSoftReset
  dsimp only
  split
  · exact h.trans (softReset_kept _)
  · exact h

/-- R3, R210: at power-on every link's 256 credits are withheld, and no slot is owned. -/
theorem creditLaw_of_initial {s : State} (hs : s.src = State.reset.src) (hl : s.slots = State.reset.slots) :
    CreditLaw s := by
  intro l
  simp [hs, hl, ownedSlots, allIx, SrcPort.creditsOk, State.reset, SrcPort.initial, Slot.free]

/-- R74, R210: at power-on no destination has credits or failures. -/
theorem destLaw_of_initial {s : State} (hd : s.dest = State.reset.dest) : DestLaw s := by
  intro d
  simp [hd, State.reset, DestPort.creditsOk, DestPort.initial]

theorem powerOn_kept (adr : BitVec 7) (s : State) : LawsKept s (powerOn adr s) :=
  ⟨fun _ => creditLaw_of_initial rfl rfl, fun _ => destLaw_of_initial rfl⟩

/-! ### The step -/

/-- A step of the live part keeps the laws where what it does to a part that is not held in reset does. -/
theorem live_kept {s t : State} {f : State → Host.Outcome State Fault Refusal}
    (h : ∀ u, f s = .next u → LawsKept s u) (e : live s f = .next t) : LawsKept s t := by
  unfold live at e
  split at e
  · cases e; exact .refl s
  · exact h t e

/-- The same, for a step that always has a next state. -/
theorem live_next_kept {s t : State} {f : State → State} (h : LawsKept s (f s))
    (e : (live s fun s => .next (f s)) = .next t) : LawsKept s t :=
  live_kept (fun u k => by cases k; exact h) e

theorem runCommand_kept {l : SrcLink} {mine : Segment → Bool} {cmd : Bytes → State → Answer} {s t : State}
    (h : ∀ b, LawsKept s (cmd b s).after) (e : runCommand l mine cmd s = .next t) : LawsKept s t :=
  live_next_kept (f := takeControl l mine fun g s => answerHead l g (cmd g.payload s))
    (takeControl_kept l mine _ s fun g => answerHead_kept l g _ s (h _)) e

theorem execSegmentArrival_kept {l : SrcLink} {wire : Bytes} {s t : State}
    (e : execSegmentArrival l wire s = .next t) : LawsKept s t := by
  refine live_kept (fun t e => ?_) e
  split at e
  · cases e; exact .refl s
  split at e
  · split at e
    · cases e; exact overrunAt_kept l s
    · next hg =>
      split at e
      · cases e
      · next i hi =>
        cases e
        exact acceptSegment_kept l i _ s hg (by simpa using firstIx_sound hi)
  · cases e; exact .refl s

theorem exec_kept (c : Instr) (s t : State) (e : exec c s = .next t) : LawsKept s t := by
  have setState : ∀ l st, LawsKept s (setSrcState l st s) := fun l st => setSrcState_kept l st s
  cases c with
  | powerOnReset adr => cases e; exact powerOn_kept adr s
  | resetNHeldLow => cases e; exact .same rfl rfl rfl
  | sourcePartnerDetected l =>
    refine live_next_kept ?_ e
    split
    · exact setState _ _
    · exact .refl s
  | sourceAlignmentAchieved l =>
    refine live_next_kept ?_ e
    split
    · exact modSrc_kept l _ s SrcPort.enterUp_creditsOk rfl
    · exact .refl s
  | sourceLossOfAlignment l =>
    refine live_next_kept ?_ e
    split
    · exact resetSource_kept l _ s
    · exact .refl s
  | sourcePartnerLost l =>
    unfold exec execSourcePartnerLost at e
    refine live_kept (fun u k => ?_) e
    cases k
    split
    · exact .refl s
    · exact setState _ _
    · exact (resetSource_kept l _ s).trans (setSrcState_kept l _ _)
  | segmentArrival l wire => exact execSegmentArrival_kept e
  | returnItemStart l => exact live_next_kept (startReturn_kept l s) e
  | returnItemEndGood l => exact live_next_kept (endReturn_kept l s) e
  | mount l => exact live_next_kept (takeHead_kept l _ _ s fun g => takeMount_kept l g s) e
  | unmount l => exact live_next_kept (takeHead_kept l _ _ s fun g => takeUnmount_kept l g s) e
  | cardEnd l => exact live_next_kept (takeHead_kept l _ _ s fun g => takeCardEnd_kept l g s) e
  | openFile l => exact live_next_kept (takeHead_kept l _ _ s fun g => takeOpen_kept l g s) e
  | essence l => exact live_next_kept (takeHead_kept l _ _ s fun g => takeData_kept l g s) e
  | preview l => exact live_next_kept (takeHead_kept l _ _ s fun g => takeData_kept l g s) e
  | metaRecord l => exact live_next_kept (takeHead_kept l _ _ s fun g => takeData_kept l g s) e
  | unknownKindSegment l => exact live_next_kept (takeHead_kept l _ _ s fun _ => .refl s) e
  | entryStart x => exact live_next_kept (startEntry_kept x s) e
  | entryCompletion x => exact live_next_kept (completeEntry_kept x s) e
  | destPartnerDetected d =>
    unfold exec execDestPartnerDetected at e
    refine live_kept (fun u k => ?_) e
    cases k
    exact modDest_kept d _ s fun h => DestPort.train_lawful (h.congr rfl rfl rfl)
  | announce d wire =>
    unfold exec execAnnounce at e
    refine live_kept (fun u k => ?_) e
    cases k
    split
    · exact .refl s
    split
    · exact (modDest_kept d _ s (DestPort.achieve_lawful _)).trans (checkStall_kept d _)
    · exact .refl s
  | destLossOfAlignment d => exact live_next_kept (loseAlignment_kept d s) e
  | destPartnerLost d =>
    unfold exec execDestPartnerLost at e
    refine live_kept (fun u k => ?_) e
    cases k
    exact (loseAlignment_kept d s).trans (modDest_kept d _ _ fun h => h.congr rfl rfl rfl)
  | retrainTimerExpiry d =>
    refine live_next_kept ?_ e
    split
    · exact (downProcedure_kept d s).trans (modDest_kept d _ _ DestPort.train_lawful)
    · exact .refl s
  | destTransmissionStart d =>
    unfold exec execDestTransmissionStart at e
    refine live_kept (fun u k => ?_) e
    cases k
    split
    · exact .refl s
    split
    · next hc => exact startTransmission_kept d _ s hc
    · exact checkStall_kept d s
  | destTransmissionEndGood d => exact live_next_kept (endTransmission_kept d s) e
  | credit d wire => exact live_next_kept (takeInbound_kept _ d wire _ s fun m => takeCreditMessage_kept d m s) e
  | verify d wire => exact live_next_kept (takeInbound_kept _ d wire _ s fun m => takeVerify_kept d m s) e
  | writeError d wire => exact live_next_kept (takeInbound_kept _ d wire _ s fun m => takeWriteError_kept d m s) e
  | unknownDestMessage d wire => exact live_next_kept (f := id) (.refl s) e
  | verifyTimerExpiry d f => exact live_next_kept (expireTimer_kept f d s) e
  | identify l => exact runCommand_kept (fun b => guardBody_kept _ s _ (.refl s)) e
  | writeTable l => exact runCommand_kept (fun b => cmdWriteTable_kept b s) e
  | readTable l => exact runCommand_kept (fun b => guardBody_kept _ s _ (.refl s)) e
  | readState l => exact runCommand_kept (fun b => guardBody_kept _ s _ (readForm_kept b s)) e
  | readFaults l => exact runCommand_kept (fun b => guardBody_kept _ s _ (.refl s)) e
  | ackFaultsKeys l => exact runCommand_kept (fun b => cmdAckFaults_kept b s) e
  | ackFaultsLabel l => exact runCommand_kept (fun b => cmdAckFaults_kept b s) e
  | waiveLoss l =>
    exact runCommand_kept (fun b => guardBody_kept _ s _ (onCard_kept _ s _ fun c k => .same rfl rfl rfl)) e
  | releaseCard l => exact runCommand_kept (fun b => cmdReleaseCard_kept b s) e
  | clearCard l =>
    refine runCommand_kept (fun b => guardBody_kept _ s _ (onCard_kept _ s _ fun c k => ?_)) e
    dsimp only [Answer.done]
    exact clearEffect_kept c k s
  | waiveFile l => exact runCommand_kept (fun b => cmdWaiveFile_kept b s) e
  | destQuarantine l => exact runCommand_kept (fun b => cmdDestQuarantine_kept b s) e
  | destRestore l => exact runCommand_kept (fun b => cmdDestRestore_kept b s) e
  | reviewSelect l =>
    refine runCommand_kept (fun b => guardBody_kept _ s _ ?_) e
    dsimp only [selectCommand, Answer.done]
    exact takeSelection_kept _ _ s
  | setCounterEvents l => exact runCommand_kept (fun b => guardBody_kept _ s _ (.same rfl rfl rfl)) e
  | readCounters l => exact runCommand_kept (fun b => guardBody_kept _ s _ (.same rfl rfl rfl)) e
  | testFrame l => exact runCommand_kept (fun b => cmdTestFrame_kept b s) e
  | testFrameEvaluation ch => exact live_next_kept (evaluateTest_kept ch s) e
  | linkResetSource l => exact runCommand_kept (fun b => cmdLinkReset_kept l b s) e
  | linkResetDest l => exact runCommand_kept (fun b => cmdLinkReset_kept l b s) e
  | softReset l => exact live_next_kept (takeControl_kept l _ _ s fun g => runSoftReset_kept l g s) e

/-- One step, idle or not, keeps the laws. -/
theorem step_kept (s t : State) (e : step s = .next t) : LawsKept s t := by
  unfold step at e
  split at e
  · cases e; exact .refl s
  · exact (exec_kept _ _ t e).after rfl rfl rfl

/-- Settles O3: each operation of a step either frees slots with their credits, or keeps the accounts it changes in
agreement, so that the laws pass through the whole step. -/
theorem creditLawsKept : Obligations.CreditLawsKept :=
  ⟨fun s t h e => (step_kept s t e).credits h, fun s t h e => (step_kept s t e).limits h⟩

end Sys2Proof.Machine
end

