-- ==== Sys2Proof/Proofs/Records.lean ====
section
/-! PROOF. What the creation of a fault record does to the log, the notice queue, the loss counters, the cards and their
verdicts (R24, R178 to R182). -/

namespace Sys2Proof.Machine

open Sys2Proof

/-! ### Fields that a record leaves -/

section
variable {s t : State}

theorem LogOnly.src (h : LogOnly s t) : t.src = s.src := by unfold LogOnly at h; rw [h]
theorem LogOnly.slots (h : LogOnly s t) : t.slots = s.slots := by unfold LogOnly at h; rw [h]
theorem LogOnly.files (h : LogOnly s t) : t.files = s.files := by unfold LogOnly at h; rw [h]
theorem LogOnly.dest (h : LogOnly s t) : t.dest = s.dest := by unfold LogOnly at h; rw [h]
theorem LogOnly.engines (h : LogOnly s t) : t.engines = s.engines := by unfold LogOnly at h; rw [h]
theorem LogOnly.channels (h : LogOnly s t) : t.channels = s.channels := by unfold LogOnly at h; rw [h]
theorem LogOnly.counters (h : LogOnly s t) : t.counters = s.counters := by unfold LogOnly at h; rw [h]
theorem LogOnly.part (h : LogOnly s t) : t.part = s.part := by unfold LogOnly at h; rw [h]

end

/-! ### Cards -/

/-- R23: a card record without its verdict. -/
def Card.unjudged (k : Card) : Card := { k with verdict := .pending }

/-- R23, R179: a card record without its verdict and its lost-fault mark. -/
def Card.unmarked (k : Card) : Card := { k with verdict := .pending, lostMark := false }

/-- R24: every card record keeps all but its verdict. -/
def CardsJudged (s t : State) : Prop := ∀ c : CardIx, t.cards[c].map Card.unjudged = s.cards[c].map Card.unjudged

/-- R24, R179: every card record keeps all but its verdict and its lost-fault mark. -/
def CardsMarked (s t : State) : Prop := ∀ c : CardIx, t.cards[c].map Card.unmarked = s.cards[c].map Card.unmarked

theorem CardsJudged.of_eq {s t : State} (h : t.cards = s.cards) : CardsJudged s t := fun c => by rw [h]
theorem CardsMarked.of_eq {s t : State} (h : t.cards = s.cards) : CardsMarked s t := fun c => by rw [h]

theorem CardsJudged.trans {s t u : State} (h : CardsJudged s t) (k : CardsJudged t u) : CardsJudged s u :=
  fun c => (k c).trans (h c)
theorem CardsMarked.trans {s t u : State} (h : CardsMarked s t) (k : CardsMarked t u) : CardsMarked s u :=
  fun c => (k c).trans (h c)

theorem CardsJudged.marked {s t : State} (h : CardsJudged s t) : CardsMarked s t := fun c => by
  have unmark : Card.unmarked = (fun k : Card => { k with lostMark := false }) ∘ Card.unjudged := rfl
  rw [unmark, ← Option.map_map, h c, Option.map_map]

/-- A card record after changes of its verdict and its mark. -/
theorem CardsMarked.some {s t : State} (h : CardsMarked s t) {c : CardIx} {k : Card} (hk : s.cards[c] = some k) :
    ∃ k', t.cards[c] = some k' ∧ k'.unmarked = k.unmarked := by
  have e := h c
  rw [hk] at e
  obtain ⟨k', hk', e'⟩ := Option.map_eq_some_iff.mp e
  exact ⟨k', hk', e'⟩

theorem CardsJudged.some {s t : State} (h : CardsJudged s t) {c : CardIx} {k : Card} (hk : s.cards[c] = some k) :
    ∃ v, t.cards[c] = some { k with verdict := v } := by
  have e := h c
  rw [hk] at e
  obtain ⟨k', hk', e'⟩ := Option.map_eq_some_iff.mp e
  refine ⟨k'.verdict, ?_⟩
  rw [hk']
  cases k; cases k'
  simp only [Card.unjudged, Card.mk.injEq] at e' ⊢
  simp_all

theorem CardsMarked.none {s t : State} (h : CardsMarked s t) {c : CardIx} (hk : s.cards[c] = none) :
    t.cards[c] = none := by
  have e := h c
  rw [hk] at e
  exact Option.map_eq_none_iff.mp e

/-- What is read of a card record but for its verdict and its mark has not changed. -/
theorem CardsMarked.read {α : Type} {s t : State} (h : CardsMarked s t) (f : Card → α)
    (hf : ∀ k : Card, f k.unmarked = f k) (c : CardIx) : t.cards[c].map f = s.cards[c].map f := by
  have e : f = f ∘ Card.unmarked := funext fun k => (hf k).symm
  rw [e, ← Option.map_map, h c, Option.map_map]

theorem CardsMarked.label {s t : State} (h : CardsMarked s t) (c : CardIx) :
    t.cards[c].map Card.label = s.cards[c].map Card.label := h.read _ (fun _ => rfl) c

theorem CardsMarked.labelAt {s t : State} (h : CardsMarked s t) (c : CardIx) : labelAt c t = labelAt c s := by
  unfold Machine.labelAt
  rw [h.label]

theorem CardsMarked.handle {s t : State} (h : CardsMarked s t) (c : CardIx) :
    t.cards[c].bind Card.handle = s.cards[c].bind Card.handle := by
  have join : ∀ x : Option Card, x.bind Card.handle = (x.map Card.handle).join := fun x => by cases x <;> rfl
  rw [join, join, h.read _ fun _ => rfl]

/-- A change of one card record that keeps all but its verdict. -/
theorem modCard_judged (c : CardIx) (f : Card → Card) (s : State) (h : ∀ k, (f k).unjudged = k.unjudged) :
    CardsJudged s (modCard c f s) := fun c' => by
  rw [modCard_cards, vmod_get]
  split
  · next e =>
    rw [e, Option.map_map]
    exact congrArg (fun g => s.cards[c].map g) (funext h)
  · rfl

theorem modCard_marked (c : CardIx) (f : Card → Card) (s : State) (h : ∀ k, (f k).unmarked = k.unmarked) :
    CardsMarked s (modCard c f s) := fun c' => by
  rw [modCard_cards, vmod_get]
  split
  · next e =>
    rw [e, Option.map_map]
    exact congrArg (fun g => s.cards[c].map g) (funext h)
  · rfl

theorem reeval_judged (c : CardIx) (s : State) : CardsJudged s (reeval c s) := modCard_judged c _ s fun _ => rfl

theorem reevalLabel_judged (label : Bytes) (s : State) : CardsJudged s (reevalLabel label s) := by
  unfold reevalLabel
  split
  · exact .of_eq rfl
  · exact reeval_judged _ s

theorem offerNotice_cards (n : NoticeItem) (s : State) : (offerNotice n s).cards = s.cards := by
  unfold offerNotice
  split <;> rfl

theorem announceRecord_judged (r : FaultRec) (s : State) : CardsJudged s (announceRecord r s) := by
  have h : CardsJudged s (if s.part.notices then offerNotice (.fault r) s else s) := by
    split
    · exact .of_eq (offerNotice_cards _ s)
    · exact .of_eq rfl
  unfold announceRecord
  dsimp only
  split
  · exact h.trans (reevalLabel_judged _ _)
  · exact h

/-- R178: there is a place for one more record where the log is not full. -/
theorem logHasPlace_of_lt {s : State} (h : s.log.length < 64) : logHasPlace s = true := by
  simp [logHasPlace, Config.logCap, h]

theorem roomInLog_of_lt {log : List FaultRec} (h : log.length < 64) : roomInLog log = log := by
  simp [roomInLog, Config.logCap, h]

/-- R178: with room in the log, what a record does is its place at the end and its announcement. -/
theorem logFault_room {r : FaultRec} {s : State} (h : s.log.length < 64) :
    logFault r s = announceRecord (placed r s)
      { s with log := s.log ++ [placed r s], keyCounter := ((placed r s).key + 1) % 65536 } := by
  rw [logFault, if_pos (logHasPlace_of_lt h), storeRecord, roomInLog_of_lt h]

/-- R179: a lost record leaves its mark and its verdict on a card alone. -/
theorem loseRecord_marked (r : FaultRec) (s : State) : CardsMarked s (loseRecord r s) := by
  unfold loseRecord
  dsimp only
  split
  · exact .of_eq rfl
  split
  · exact .of_eq rfl
  · next c _ =>
    have marked : CardsMarked s (modCard c (fun k => { k with lostMark := true }) (loseOne .faultsLost s)) :=
      modCard_marked c _ s fun _ => rfl
    exact marked.trans (reeval_judged c _).marked

theorem logFault_judged {r : FaultRec} {s : State} (h : s.log.length < 64) : CardsJudged s (logFault r s) := by
  rw [logFault_room h]
  exact (CardsJudged.of_eq rfl).trans (announceRecord_judged _ _)

theorem logFault_marked (r : FaultRec) (s : State) : CardsMarked s (logFault r s) := by
  unfold logFault
  split
  · exact (CardsMarked.of_eq rfl).trans (announceRecord_judged _ _).marked
  · exact loseRecord_marked r s

/-! ### Notices and loss counters -/

/-- R180, R182, R206: what a record's creation does to the notice queue and the loss counters: at most one FAULT notice of
its class joins, and only dropped notices and lost faults are counted; none is dropped while the queue has room. -/
structure Noticed (cls : FaultClass) (s t : State) : Prop where
  notices : ∃ more, t.notices = s.notices ++ more ∧ more.length ≤ 1 ∧ ∀ n ∈ more, ∃ r, n.item = .fault r ∧ r.cls = cls
  loss : t.loss = { s.loss with noticesDropped := t.loss.noticesDropped, faultsLost := t.loss.faultsLost }
  dropped : s.notices.length < 16 → t.loss.noticesDropped = s.loss.noticesDropped

theorem Noticed.of_eq {cls : FaultClass} {s t : State} (hn : t.notices = s.notices) (hl : t.loss = s.loss) :
    Noticed cls s t where
  notices := ⟨[], by simp [hn], Nat.zero_le 1, fun n h => by cases h⟩
  loss := by rw [hl]
  dropped _ := by rw [hl]

/-- Only the notice queues and the loss counters of the two states matter. -/
theorem Noticed.congr {cls : FaultClass} {s s' t t' : State} (h : Noticed cls s t) (hn : s'.notices = s.notices)
    (hl : s'.loss = s.loss) (hn' : t'.notices = t.notices) (hl' : t'.loss = t.loss) : Noticed cls s' t' where
  notices := by rw [hn, hn']; exact h.notices
  loss := by rw [hl, hl']; exact h.loss
  dropped := by rw [hn, hl, hl']; exact h.dropped

theorem announceRecord_noticed (r : FaultRec) (s : State) : Noticed r.cls s (announceRecord r s) := by
  have offered : Noticed r.cls s (if s.part.notices then offerNotice (.fault r) s else s) := by
    split
    · unfold offerNotice
      split
      · exact ⟨⟨_, rfl, le_rfl, fun n h => by rw [List.mem_singleton.mp h]; exact ⟨r, rfl, rfl⟩⟩, rfl, fun _ => rfl⟩
      · next full =>
        exact ⟨⟨[], (List.append_nil _).symm, Nat.zero_le 1, fun n h => by cases h⟩, rfl, fun h => absurd h full⟩
    · exact .of_eq rfl rfl
  unfold announceRecord
  dsimp only
  split
  · unfold reevalLabel
    split
    · exact offered
    · exact offered.congr rfl rfl rfl rfl
  · exact offered

theorem logFault_noticed (r : FaultRec) (s : State) : Noticed r.cls s (logFault r s) := by
  unfold logFault
  split
  · exact Noticed.congr (s := { s with
        log := roomInLog s.log ++ [placed r s], keyCounter := ((placed r s).key + 1) % 65536 })
      (announceRecord_noticed (placed r s) _) rfl rfl rfl rfl
  · have lost : Noticed r.cls s (loseOne .faultsLost s) :=
      ⟨⟨[], (List.append_nil _).symm, Nat.zero_le 1, fun n h => by cases h⟩, rfl, fun _ => rfl⟩
    unfold loseRecord
    dsimp only
    split
    · exact lost
    split
    · exact lost
    · exact lost.congr rfl rfl rfl rfl

/-! ### Verdicts -/

/-- R23, R24: labels are distinct, and the verdicts of the cards that pass a test are the rule's. -/
def VerdictsFor (p : CardIx → Prop) (s : State) : Prop :=
  (∀ (c : CardIx) (k : Card), p c → s.cards[c] = some k → k.verdict = verdictOf s c k) ∧
    ∀ (c c' : CardIx) (k k' : Card), s.cards[c] = some k → s.cards[c'] = some k' → k.label = k'.label → c = c'

theorem verdictsFor_all (s : State) : VerdictsFor (fun _ => True) s ↔ VerdictLaw s := by
  simp only [VerdictsFor, VerdictLaw, true_implies]

/-- R24: the verdict of a card depends on its own files, on the HOLD records of its label and on its record. -/
theorem verdictOf_congr {s t : State} {c : CardIx} {k k' : Card}
    (hfiles : ∀ j : FileIx, ∀ p, isFileOf t c p j = isFileOf s c p j)
    (hlog : t.log.any (·.holds k.label) = s.log.any (·.holds k.label)) (hk : k'.unjudged = k.unjudged) :
    verdictOf t c k' = verdictOf s c k := by
  have files : ∀ p, firstIx (isFileOf t c p) = firstIx (isFileOf s c p) := fun p =>
    congrArg firstIx (funext fun j => hfiles j p)
  obtain ⟨he, hl, hm⟩ : k'.ended = k.ended ∧ k'.label = k.label ∧ k'.lostMark = k.lostMark := by
    cases k; cases k'
    simp only [Card.unjudged, Card.mk.injEq] at hk
    simp [hk]
  unfold verdictOf releasable
  rw [files, files, he, hl, hm, hlog]

/-- R24: the same, where neither the files nor the log has changed. -/
theorem verdictOf_same {s t : State} {c : CardIx} {k k' : Card} (hfiles : t.files = s.files) (hlog : t.log = s.log)
    (hk : k'.unjudged = k.unjudged) : verdictOf t c k' = verdictOf s c k :=
  verdictOf_congr (fun j p => by unfold isFileOf; rw [hfiles]) (by rw [hlog]) hk

/-- R23: distinct labels stay distinct while the cards keep theirs. -/
theorem VerdictsFor.labels_kept {p : CardIx → Prop} {s t : State} (h : VerdictsFor p s) (hc : CardsMarked s t) :
    ∀ (c c' : CardIx) (k k' : Card), t.cards[c] = some k → t.cards[c'] = some k' → k.label = k'.label → c = c' := by
  intro c c' k k' hk hk' e
  have hl := hc.label c
  have hl' := hc.label c'
  rw [hk] at hl
  rw [hk'] at hl'
  obtain ⟨x, hx, ex⟩ := Option.map_eq_some_iff.mp hl.symm
  obtain ⟨x', hx', ex'⟩ := Option.map_eq_some_iff.mp hl'.symm
  exact h.2 c c' x x' hx hx' (by rw [ex, ex', e])

/-- R24: an evaluation gives a card the rule's verdict and leaves those of the others. -/
theorem VerdictsFor.reeval {p : CardIx → Prop} {s : State} (c : CardIx) (h : VerdictsFor p s) :
    VerdictsFor (fun c' => p c' ∨ c' = c) (reeval c s) := by
  refine ⟨fun c' k hp hk => ?_, h.labels_kept (reeval_judged c s).marked⟩
  rw [Machine.reeval, modCard_cards, vmod_get] at hk
  split at hk
  · next e =>
    subst e
    obtain ⟨x, hx, rfl⟩ := Option.map_eq_some_iff.mp hk
    exact (verdictOf_same rfl rfl rfl).symm
  · next e => exact (h.1 c' k (hp.resolve_right e) hk).trans (verdictOf_same rfl rfl rfl).symm

/-- R23: the card that a label finds is the one that has it. -/
theorem cardByLabel_eq {p : CardIx → Prop} {s : State} (h : VerdictsFor p s) {c : CardIx} {k : Card}
    (hk : s.cards[c] = some k) : cardByLabel k.label s = some c := by
  refine firstIx_unique (by rw [hk]; exact beq_self_eq_true _) fun c' hc' => ?_
  cases hx : s.cards[c'] with
  | none => rw [hx] at hc'; cases hc'
  | some k' =>
    rw [hx] at hc'
    exact h.2 c' c k' k hx hk (eq_of_beq hc')

/-- R24: after an evaluation by label, every verdict that was the rule's but for that label is the rule's. -/
theorem VerdictsFor.reevalLabel {p : CardIx → Prop} {s : State} {label : Bytes}
    (h : VerdictsFor (fun c => p c ∧ s.cards[c].map Card.label ≠ some label) s) :
    VerdictsFor p (reevalLabel label s) := by
  refine ⟨fun c k hp hk => ?_, h.labels_kept (reevalLabel_judged label s).marked⟩
  have found : ∀ x, s.cards[c] = some x → x.label = label → cardByLabel label s = some c := fun x hx e =>
    e ▸ cardByLabel_eq h hx
  unfold Machine.reevalLabel at hk ⊢
  cases hf : cardByLabel label s with
  | none =>
    rw [hf] at hk
    refine h.1 c k ⟨hp, fun e => ?_⟩ hk
    rw [hk] at e
    rw [found k hk (Option.some.inj e)] at hf
    cases hf
  | some c0 =>
    rw [hf] at hk
    refine (h.reeval c0).1 c k ?_ hk
    by_cases e : c = c0
    · exact .inr e
    · refine .inl ⟨hp, fun el => e ?_⟩
      obtain ⟨x, hx, ex⟩ := Option.map_eq_some_iff.mp el
      rw [found x hx ex] at hf
      exact Option.some.inj hf

/-- R24, R180: with room in the log, a record keeps the verdicts the rule's. -/
theorem VerdictsFor.logFault {p : CardIx → Prop} {s : State} (h : VerdictsFor p s) (r : FaultRec)
    (hroom : s.log.length < 64) : VerdictsFor p (logFault r s) := by
  -- a card whose label the record does not hold keeps its verdict, whatever the notice queue does
  have kept : ∀ t : State, t.files = s.files → t.log = s.log ++ [placed r s] → t.cards = s.cards →
      VerdictsFor (fun c => p c ∧ ∀ k, s.cards[c] = some k → r.holds k.label = false) t := by
    intro t hfiles hlog hcards
    refine ⟨fun c k hp hk => ?_, fun c c' k k' hk hk' => h.2 c c' k k' (hcards ▸ hk) (hcards ▸ hk')⟩
    rw [hcards] at hk
    rw [h.1 c k hp.1 hk]
    refine (verdictOf_congr (fun j q => by unfold isFileOf; rw [hfiles]) ?_ rfl).symm
    have : (placed r s).holds k.label = false := hp.2 k hk
    rw [hlog, List.any_append]
    simp [this]
  rw [logFault_room hroom]
  unfold announceRecord
  dsimp only
  generalize ht : (if s.part.notices = true then offerNotice (NoticeItem.fault (placed r s))
    { s with log := s.log ++ [placed r s], keyCounter := ((placed r s).key + 1) % 65536 } else
    { s with log := s.log ++ [placed r s], keyCounter := ((placed r s).key + 1) % 65536 }) = t
  obtain ⟨hfiles, hlog, hcards⟩ : t.files = s.files ∧ t.log = s.log ++ [placed r s] ∧ t.cards = s.cards := by
    rw [← ht]
    unfold offerNotice
    split
    · split <;> exact ⟨rfl, rfl, rfl⟩
    · exact ⟨rfl, rfl, rfl⟩
  split
  · next label hs hl =>
    refine VerdictsFor.reevalLabel ⟨fun c k hp => (kept t hfiles hlog hcards).1 c k ⟨hp.1, fun x hx => ?_⟩,
      (kept t hfiles hlog hcards).2⟩
    have ne := hp.2
    rw [hcards, hx] at ne
    have el : r.label = some label := hl
    simp only [FaultRec.holds, el]
    rw [show (some label == some x.label) = false from beq_eq_false_iff_ne.mpr fun e => ne e.symm]
    exact Bool.and_false _
  · next hnot =>
    refine ⟨fun c k hp => (kept t hfiles hlog hcards).1 c k ⟨hp, fun x hx => ?_⟩, (kept t hfiles hlog hcards).2⟩
    cases hh : r.holds x.label with
    | false => rfl
    | true =>
      simp only [FaultRec.holds, Bool.and_eq_true, beq_iff_eq] at hh
      exact absurd hh.2 (hnot x.label hh.1.2)

end Sys2Proof.Machine
end

