-- ==== Sys2Proof/Proofs/SourceLinks.lean ====
section
/-! PROOF. The laws at reset, and the steps of a source link that abort nothing: alignment (R4), arrival (R6, R7) and the
return direction (R8 to R11). -/

namespace Sys2Proof.Machine

open Sys2Proof

/-! ### Right after reset -/

@[simp] theorem reset_src (l : SrcLink) : State.reset.src[l] = SrcPort.initial := by simp [State.reset]
@[simp] theorem reset_slots (i : SlotIx) : State.reset.slots[i] = Slot.free := by simp [State.reset]
@[simp] theorem reset_cards (c : CardIx) : State.reset.cards[c] = none := by simp [State.reset]
@[simp] theorem reset_files (j : FileIx) : State.reset.files[j] = ⟨0, none⟩ := by simp [State.reset]
@[simp] theorem reset_dest (d : Dest) : State.reset.dest[d] = DestPort.initial := by simp [State.reset]
@[simp] theorem reset_engines (e : Engine) : State.reset.engines[e] = EngineState.initial := by simp [State.reset]
@[simp] theorem reset_channels (c : Channel) : State.reset.channels[c] = ChannelRec.initial := by simp [State.reset]

theorem logLaw_reset : LogLaw State.reset := by simp [LogLaw, State.reset]

theorem queueLaw_reset : QueueLaw State.reset :=
  ⟨fun l => by rw [reset_src]; exact Nat.zero_le 4, Nat.zero_le 16⟩

theorem lossLaw_reset : LossLaw State.reset := by simp [LossLaw, LossCounters.toList, State.reset, LossCounters.initial]

theorem verdictLaw_reset : VerdictLaw State.reset :=
  ⟨fun c k h => (by rw [reset_cards] at h; cases h), fun c c' k k' h => (by rw [reset_cards] at h; cases h)⟩

/-- R51: at power-on no entry points at a slot, and none is marked. -/
theorem slotLaw_reset : SlotLaw State.reset := by
  have dests : ∀ d i, destRefs d i State.reset = 0 := fun d i => by rw [destRefs, reset_dest]; rfl
  have looks : ∀ e i, lookRefs e i State.reset = 0 := fun e i => by rw [lookRefs, reset_engines]; rfl
  refine ⟨fun i => ?_, fun l => ?_⟩
  · simp only [dests, looks, reset_slots]
    simp [Slot.free]
  · rw [reset_src]
    exact ⟨List.nodup_nil, fun i => by rw [reset_slots]; simp [SrcPort.initial, Slot.free]⟩

theorem quietLaw_reset : QuietLaw State.reset := by
  intro d _
  rw [reset_dest]
  refine ⟨fun e h => ?_, fun x e h => ?_, fun j f h => ?_⟩
  · simp [DestPort.waiting, DestPort.initial] at h
  · cases h
  · rw [reset_files] at h; cases h

theorem channelLaw_reset : ChannelLaw State.reset := by
  refine ⟨fun j f c h => ?_, fun c o h => ?_⟩
  · rw [reset_files] at h; cases h
  · rw [reset_channels] at h; cases h

/-- Settles O8: at power-on every queue is empty and every record free. -/
theorem lawsAtReset : Obligations.LawsAtReset :=
  ⟨creditLaw_of_initial rfl rfl, logLaw_reset, destLaw_of_initial rfl, queueLaw_reset, lossLaw_reset, verdictLaw_reset,
    slotLaw_reset, quietLaw_reset, channelLaw_reset⟩

/-! ### Alignment -/

/-- R210: a part that is not held in reset takes its steps. -/
theorem live_running {s : State} (h : s.resetLow = false) (f : State → Host.Outcome State Fault Refusal) :
    live s f = f s := by
  unfold live
  rw [h]
  rfl

theorem exec_returnItemStart (l : SrcLink) {s : State} (h : s.resetLow = false) :
    exec (.returnItemStart l) s = .next (startReturn l s) := live_running h fun s => .next (startReturn l s)

theorem exec_returnItemEndGood (l : SrcLink) {s : State} (h : s.resetLow = false) :
    exec (.returnItemEndGood l) s = .next (endReturn l s) := live_running h fun s => .next (endReturn l s)

theorem exec_sourceAlignmentAchieved (l : SrcLink) {s : State} (h : s.resetLow = false) :
    exec (.sourceAlignmentAchieved l) s = .next (if s.src[l].state = .training then modSrc l SrcPort.enterUp s else s) :=
  live_running h fun s => .next (if s.src[l].state = .training then modSrc l SrcPort.enterUp s else s)

/-- R11: an idle UP link with credits to report starts a credit message. -/
theorem startReturn_credit {l : SrcLink} {s : State} (hup : s.src[l].state = .up) (htx : s.src[l].tx = none)
    (hu : 0 < s.src[l].unannounced) : startReturn l s = { s with src := vmod s.src l fun p => { p with
      unannounced := 0
      tx := some ⟨.credit p.unannounced, creditWire p.unannounced⟩ } } := by
  unfold startReturn beginReturn
  dsimp only
  rw [if_pos ⟨hup, htx⟩, if_pos hu]
  unfold modSrc
  dsimp only
  rw [vmod_vmod]
  congr 1

/-- Settles O9: the link's record in UP is `SrcPort.enterUp` of its record in TRAINING, and its first return item is the
credit message. -/
theorem enteringUpGrants : Obligations.EnteringUpGrants := by
  intro l s hs ht
  refine ⟨modSrc l SrcPort.enterUp s, ?_, rfl, fun htx hw => ?_⟩
  · rw [exec_sourceAlignmentAchieved l hs, if_pos ht]
  · have port : (modSrc l SrcPort.enterUp s).src[l] = s.src[l].enterUp := vmod_self _ _ _
    refine ⟨_, exec_returnItemStart l hs, ?_⟩
    rw [startReturn_credit (by rw [port]; rfl) (by rw [port]; exact htx)
      (by rw [port]; exact Nat.add_pos_right _ hw), vmod_self, port]
    rfl

/-! ### Return items -/

theorem resultByte_eq (r : CmdResult) : le 1 (posOf CmdResult.all r) = [resultByte r] := by cases r <;> rfl

theorem replyWire_eq (r : Reply) : r.wire = replyBytes r := by
  unfold Reply.wire itemHeader replyBytes
  rw [resultByte_eq]
  rfl

theorem classByte_eq (c : FaultClass) : le 1 (posOf FaultClass.all c) = [classByte c] := by cases c <;> rfl
theorem severityByte_eq (x : Severity) : le 1 (posOf Severity.all x) = [severityByte x] := by cases x <;> rfl
theorem stateByte_eq (x : RecordState) : le 1 x.carriage = [if x = .opened then 0 else 1] := by cases x <;> rfl

theorem codeByte_eq (x : FaultCode) : le 1 x.carriage = [codeByte x] := by
  cases x with
  | copyFailed r => cases r <;> rfl
  | partialFrame c => cases c <;> rfl
  | _ => rfl

theorem flagByte_isSome {α : Type} [DecidableEq α] (x : Option α) : yesNo x.isSome = [flagByte (x ≠ none)] := by
  cases x <;> rfl

theorem flagByte_eq (b : Bool) : yesNo b = [flagByte (b = true)] := by cases b <;> rfl

theorem optLabel_eq (x : Option Bytes) : optLabel x = x.elim (List.replicate 17 0) labelBytesOf := by cases x <;> rfl

theorem probeField_eq (x : Option ProbePart) : probeField x = x.elim [0, 0, 0, 0] (fun q =>
    [1] ++ le 1 q.channel.val ++ le 1 q.probe.val ++ [if q.direction = .asserted then 0 else 1]) := by
  rcases x with _ | ⟨c, p, _ | _⟩ <;> rfl

theorem optionalCode_eq (x : Option FaultCode) :
    presentField 1 (x.map FaultCode.carriage) = [flagByte (x ≠ none), x.elim 0 codeByte] := by
  cases x with
  | none => rfl
  | some c => show [_] ++ le 1 c.carriage = _; rw [codeByte_eq]; rfl

theorem optionalDest_eq (x : Option Dest) :
    presentField 1 (x.map Fin.val) = [flagByte (x ≠ none)] ++ le 1 (x.elim 0 Fin.val) := by cases x <;> rfl

theorem optionalNumber_eq (n : Nat) (x : Option Nat) :
    presentField n x = [flagByte (x ≠ none)] ++ le n (x.getD 0) := by
  rw [presentField, flagByte_isSome]; rfl

theorem firstFrame_eq (x : Option FrameSpan) : optField 4 (x.map FrameSpan.first) = le 4 (x.elim 0 FrameSpan.first) := by
  cases x <;> rfl

theorem lastFrame_eq (x : Option FrameSpan) : optField 4 (x.map FrameSpan.last) = le 4 (x.elim 0 FrameSpan.last) := by
  cases x <;> rfl

theorem valueField_eq (vs : List Nat) (k : Nat) : optField 8 vs[k]? = le 8 (vs.getD k 0) := by
  rw [optField, List.getD_eq_getElem?_getD]

/-- R217: the 64 bytes of a fault record, field by field. -/
theorem faultImage_eq (r : FaultRec) : r.image = faultBytes r := by
  unfold FaultRec.image faultBytes
  rw [classByte_eq, severityByte_eq, stateByte_eq, flagByte_isSome, optLabel_eq, optionalNumber_eq, optionalDest_eq,
    probeField_eq, flagByte_isSome, optionalCode_eq, firstFrame_eq, lastFrame_eq, valueField_eq, valueField_eq]
  simp only [List.append_assoc, List.cons_append, List.nil_append]

/-- R217: the 110 bytes of a manifest record, field by field. -/
theorem manifestBody_eq (m : Manifest) : m.body = manifestBytes m := by
  unfold Manifest.body manifestBytes nameField setField
  rw [flagByte_eq, flagByte_eq, optionalNumber_eq, flagByte_isSome]
  simp only [List.append_assoc, List.cons_append, List.nil_append]
  rfl

theorem releasedBody_eq (c : Released) : c.body = releasedBytes c := by
  unfold Released.body releasedBytes
  rw [flagByte_eq]
  rfl

theorem noticeWire_eq (n : NoticeItem) : n.wire = noticeBytes n := by
  cases n with
  | fault r => show _ ++ r.image = _; rw [faultImage_eq]; rfl
  | manifest m => show _ ++ m.body = _; rw [manifestBody_eq]; rfl
  | released c => show _ ++ c.body = _; rw [releasedBody_eq]; rfl

/-- R11: the oldest item of the notice queue that is in transmission on no link. -/
theorem find_unsent {before rest : List NoticeEntry} {n : NoticeEntry} (hb : ∀ m ∈ before, m.sending ≠ none)
    (hn : n.sending = none) : (before ++ n :: rest).find? (fun n => n.sending == none) = some n := by
  rw [List.find?_append, List.find?_eq_none.mpr fun m hm => by simpa using hb m hm]
  simp [hn]

/-- R11: that item is marked, and no other entry has changed. -/
theorem markSending_eq {l : SrcLink} {before rest : List NoticeEntry} {n : NoticeEntry}
    (hb : ∀ m ∈ before, m.sending ≠ none) (hn : n.sending = none) :
    markSending l (before ++ n :: rest) = before ++ { n with sending := some l } :: rest := by
  induction before with
  | nil => simp [markSending, hn]
  | cons m ms ih =>
    rw [List.cons_append, markSending, if_neg (hb m (by simp)), ih fun x hx => hb x (by simp [hx])]
    rfl

/-- R10: the first entry in transmission on the link leaves the notice queue. -/
theorem noticeSent_eq {l : SrcLink} {before rest : List NoticeEntry} {n : NoticeEntry}
    (hb : ∀ m ∈ before, m.sending ≠ some l) (hn : n.sending = some l) :
    noticeSent l (before ++ n :: rest) = before ++ rest := by
  induction before with
  | nil => simp [noticeSent, hn]
  | cons m ms ih =>
    rw [List.cons_append, noticeSent, if_neg (hb m (by simp)), ih fun x hx => hb x (by simp [hx])]
    rfl

/-- R11: with no credits to report, the oldest reply. -/
theorem startReturn_reply {l : SrcLink} {s : State} {r : Reply} {rest : List Reply} (hup : s.src[l].state = .up)
    (htx : s.src[l].tx = none) (hu : s.src[l].unannounced = 0) (hr : s.src[l].replies = r :: rest) :
    startReturn l s = beginReturn l .reply r.wire s := by
  unfold startReturn
  dsimp only
  rw [if_pos ⟨hup, htx⟩, if_neg (by omega), hr]

/-- R11: with no reply either, the notice that comes next. -/
theorem startReturn_notice {l : SrcLink} {s : State} {n : NoticeEntry} (hup : s.src[l].state = .up)
    (htx : s.src[l].tx = none) (hu : s.src[l].unannounced = 0) (hr : s.src[l].replies = [])
    (hn : nextNotice l s = some n) :
    startReturn l s = beginReturn l .notice n.item.wire { s with notices := markSending l s.notices } := by
  unfold startReturn
  dsimp only
  rw [if_pos ⟨hup, htx⟩, if_neg (by omega), hr, hn]

/-- R11: with nothing to send, nothing starts. -/
theorem startReturn_nothing {l : SrcLink} {s : State} (hu : s.src[l].unannounced = 0) (hr : s.src[l].replies = [])
    (hn : nextNotice l s = none) : startReturn l s = s := by
  unfold startReturn
  dsimp only
  rw [if_neg (show ¬ 0 < s.src[l].unannounced by omega), hr, hn]
  exact ite_self s

/-- R9, R10: the good end of a return transmission, by the kind of its item. -/
theorem endReturn_spec {l : SrcLink} {s : State} {x : ReturnTx} (hx : s.src[l].tx = some x) :
    endReturn l s = { s with
      src := vmod s.src l fun p => { p with
        tx := none, replies := if x.kind = .reply then p.replies.tail else p.replies }
      notices := if x.kind = .notice then noticeSent l s.notices else s.notices } := by
  unfold endReturn
  rw [hx]
  dsimp only
  unfold returnSent
  cases x.kind with
  | credit n => simp [modSrc]
  | reply => simp [modSrc, vmod_vmod]
  | notice => simp [modSrc]

/-- Settles O13: the arbiter's cases in their order, and what the good end takes out of the two queues. -/
theorem returnItems : Obligations.ReturnItems := by
  refine ⟨fun l s hs hup htx => ⟨fun hu => ?_, fun hu r rest hr => ?_, fun hu hr hst before n rest hn hb hsend => ?_,
    fun hu hr hst => ?_⟩, fun l s x hs hx => ?_⟩
  · rw [exec_returnItemStart l hs, startReturn_credit hup htx hu]
    rfl
  · rw [exec_returnItemStart l hs, startReturn_reply hup htx hu hr, replyWire_eq]
    rfl
  · have next : nextNotice l s = some n := by
      rw [nextNotice, if_pos hst, hn]
      exact find_unsent hb hsend
    rw [exec_returnItemStart l hs, startReturn_notice hup htx hu hr next, hn, markSending_eq hb hsend, noticeWire_eq]
    rfl
  · have next : nextNotice l s = none := by rw [nextNotice, if_neg hst]
    rw [exec_returnItemStart l hs, startReturn_nothing hu hr next]
  · refine ⟨_, exec_returnItemEndGood l hs, ?_⟩
    rw [endReturn_spec hx]
    refine ⟨rfl, rfl, fun hk => if_neg hk, fun hk before n rest hn hb hsend => ?_⟩
    rw [if_pos hk, hn]
    exact noticeSent_eq hb hsend

/-! ### Arrival -/

/-- R1, R2: bytes that are no whole segment, or that reach a link which is not UP, have no effect. -/
theorem exec_segmentArrival_ignored {l : SrcLink} {wire : Bytes} {s : State} (h : s.resetLow = false)
    (hw : s.src[l].state ≠ .up ∨ Segment.ofBytes wire = none) : exec (.segmentArrival l wire) s = .next s := by
  show execSegmentArrival l wire s = _
  unfold execSegmentArrival
  rw [live_running h]
  cases hg : Segment.ofBytes wire with
  | none => rfl
  | some g => exact if_neg (hw.resolve_right (by rw [hg]; exact Option.some_ne_none g))

/-- R7: a segment without a granted credit is an overrun. -/
theorem exec_segmentArrival_overrun {l : SrcLink} {wire : Bytes} {g : Segment} {s : State} (h : s.resetLow = false)
    (hw : Segment.ofBytes wire = some g) (hup : s.src[l].state = .up) (hg : s.src[l].granted = 0) :
    exec (.segmentArrival l wire) s = .next (overrunAt l s) := by
  show execSegmentArrival l wire s = _
  unfold execSegmentArrival
  rw [live_running h, hw]
  dsimp only
  rw [if_pos hup, if_pos hg]

/-- R6, R52: a segment against a granted credit is accepted into the lowest FREE slot. -/
theorem exec_segmentArrival_accepted {l : SrcLink} {wire : Bytes} {g : Segment} {i : SlotIx} {s : State}
    (h : s.resetLow = false) (hw : Segment.ofBytes wire = some g) (hup : s.src[l].state = .up)
    (hg : 0 < s.src[l].granted) (hi : freeSlot s = some i) :
    exec (.segmentArrival l wire) s = .next (acceptSegment l i g s) := by
  show execSegmentArrival l wire s = _
  unfold execSegmentArrival
  rw [live_running h, hw]
  dsimp only
  rw [if_pos hup, if_neg (by omega), hi]

/-- R6, R204: the two events of an accepted segment. -/
theorem countEvent_twice (a b : CountEvent) (x y : Against) (m n : Nat) (s : State) :
    countEvent b y n (countEvent a x m s) =
      { s with counters := s.counters.map fun p => (p.take a x m).take b y n } := by
  unfold countEvent
  simp [Function.comp_def]

/-- R6, R188: what an accepted segment changes. -/
theorem acceptSegment_spec (l : SrcLink) (i : SlotIx) (g : Segment) (s : State) :
    acceptSegment l i g s = { s with
      slots := vmod s.slots i fun _ => ⟨some l, true, 0, g⟩
      counters := s.counters.map fun p => (p.take .segIn (.link l) 1).take .bytesIn (.link l) g.len
      src := vmod s.src l fun p => { p.accept i with
        headAddressed := if p.arrivals = [] then
            decisionFor (some i) { s with slots := vmod s.slots i fun _ => ⟨some l, true, 0, g⟩ }
          else p.headAddressed } } := by
  unfold acceptSegment
  dsimp only
  rw [countEvent_twice]
  by_cases hq : s.src[l].arrivals = []
  · rw [if_pos (by rw [hq]; rfl), decideHead_spec]
    unfold modSrc modSlot
    dsimp only
    rw [vmod_vmod]
    congr 1
    refine vmod_congr _ _ ?_
    rw [if_pos hq]
    congr 1
    rw [show (SrcPort.accept i s.src[l]).arrivals.head? = some i by rw [SrcPort.accept, hq]; rfl]
    exact decisionFor_congr _ _ _ rfl rfl rfl
  · rw [if_neg (by simpa using hq)]
    unfold modSrc modSlot
    dsimp only
    congr 1
    refine vmod_congr _ _ ?_
    rw [if_neg hq]
    rfl

/-- R7: an overrun that is not the first of a run is counted alone. -/
theorem overrunAt_again {l : SrcLink} {s : State} (h : s.src[l].overrun = true) :
    overrunAt l s = loseOne .malformed s := if_pos h

/-- R7, R176: the first overrun of a run sets the flag and logs its record. -/
theorem overrunAt_first {l : SrcLink} {s : State} (h : s.src[l].overrun = false) :
    overrunAt l s = logFault { FaultRec.offered .overrun .warn with values := [l.val] }
      (modSrc l (fun p => { p with overrun := true }) (loseOne .malformed s)) :=
  if_neg (by rw [show (loseOne .malformed s).src[l].overrun = false from h]; exact Bool.false_ne_true)

/-- Settles O11: the cases of an arrival are the conditions of its three lemmas. -/
theorem segmentArrives : Obligations.SegmentArrives := by
  intro l wire s hs
  refine ⟨exec_segmentArrival_ignored hs, fun g hup hg => ⟨fun i hpos hi hlow => ?_, fun hzero => ?_⟩⟩
  · have free : freeSlot s = some i := firstIx_lowest (by rw [hi]; rfl) fun j hj => beq_eq_false_iff_ne.mpr (hlow j hj)
    refine ⟨_, exec_segmentArrival_accepted hs hg hup hpos free, ?_⟩
    rw [acceptSegment_spec]
    exact ⟨rfl, rfl, rfl, rfl⟩
  · refine ⟨_, exec_segmentArrival_overrun hs hg hup hzero, ?_⟩
    cases ho : s.src[l].overrun with
    | true =>
      rw [overrunAt_again ho]
      have same : (vmod s.src l fun p => { p with overrun := true }) = s.src := vmod_same _ _ _ (by rw [← ho])
      exact ⟨rfl, same.symm, rfl, fun _ => rfl, fun h => absurd h.symm Bool.false_ne_true⟩
    | false =>
      rw [overrunAt_first ho]
      generalize hr : ({ FaultRec.offered .overrun .warn with values := [l.val] } : FaultRec) = r
      have only := logFault_frame r (modSrc l (fun p => { p with overrun := true }) (loseOne .malformed s))
      refine ⟨?_, only.src, only.slots, fun h => absurd h Bool.false_ne_true, fun _ hlog =>
        ⟨_, logFault_log r _ hlog, ?_⟩⟩
      · rw [(logFault_noticed r _).loss]
        rfl
      · subst hr
        exact ⟨rfl, rfl, rfl, rfl, rfl⟩

end Sys2Proof.Machine
end

