-- ==== Sys2Proof/Proofs/Withdrawals.lean ====
section
/-! PROOF. The withdrawal of copies from the destination queues (R81, R85, R86), and that the references of the slots go
on covering the entries that point at them (R54, R57). -/

namespace Sys2Proof.Machine

open Sys2Proof

/-! ### One destination record -/

/-- The entry in transmission and those that wait are the queue. -/
theorem DestPort.sending_append_waiting (p : DestPort) : p.sending ++ p.waiting = p.queue := by
  unfold DestPort.sending DestPort.waiting
  split
  · exact List.take_append_drop 1 p.queue
  · rfl

/-- R85, R86: what the withdrawal of a copy makes of a destination's record. -/
theorem DestPort.withdraw_eq (p : DestPort) (t : Tid) : p.withdraw t = { p with
    queue := p.sending ++ afterWithdrawal t p.waiting
    tx := p.tx.map fun x => if (p.queue.head?.any (QEntry.belongs t)) = true then { x with noResend := true } else x
    timers := p.timers.filter fun v => v.file != t.index } := by
  obtain ⟨st, pa, al, li, iu, sl, queue, tx, rt, ti, fa, os⟩ := p
  have apart : QEntry.belongs t (.abort t) = false := rfl
  cases tx with
  | none =>
    simp only [DestPort.withdraw, DestPort.queueAbort, DestPort.waiting, DestPort.sending, afterWithdrawal,
      Option.map_none, Option.isSome_none, Bool.false_eq_true, if_false, List.nil_append, Bool.or_eq_true]
    split_ifs <;> simp_all
    grind
  | some x =>
    cases queue with
    | nil => simp [DestPort.withdraw, DestPort.queueAbort, DestPort.waiting, DestPort.sending, afterWithdrawal]
    | cons e rest =>
      simp only [DestPort.withdraw, DestPort.queueAbort, DestPort.waiting, DestPort.sending, afterWithdrawal,
        Option.map_some, Option.isSome_some, if_true, List.drop_succ_cons, List.drop_zero, List.take_succ_cons,
        List.take_zero, List.cons_append, List.nil_append, List.head?_cons, Option.getD_some, Option.any_some,
        Bool.or_eq_true]
      split_ifs <;> simp_all

/-- R81: an ABORT for another record index keeps its place through withdrawals. -/
theorem foldl_afterWithdrawal_abort (t : Tid) (ts : List Tid) (h : t.index ∉ ts.map Tid.index) (w : List QEntry) :
    ts.foldl (fun w u => afterWithdrawal u w) (.abort t :: w) =
      .abort t :: ts.foldl (fun w u => afterWithdrawal u w) w := by
  induction ts generalizing w with
  | nil => rfl
  | cons u rest ih =>
    rw [List.map_cons, List.mem_cons, not_or] at h
    have hu : u ≠ t := fun e => h.1 (by rw [e])
    have one : afterWithdrawal u (.abort t :: w) = .abort t :: afterWithdrawal u w := by
      have belongs : QEntry.belongs u (.abort t) = false := rfl
      have opens : QEntry.isOpen u (.abort t) = false := rfl
      have ours : (QEntry.abort u == QEntry.abort t) = false := by simpa using hu
      have stale : QEntry.isStaleAbort u (.abort t) = false := by
        have : (t.index == u.index) = false := by simpa using h.1
        simp [QEntry.isStaleAbort, this]
      simp only [afterWithdrawal, List.filter_cons, belongs, List.any_cons, opens, List.contains_cons, ours, stale,
        Bool.not_false, if_true, Bool.false_or]
      split_ifs <;> rfl
    rw [List.foldl_cons, one, ih h.2, List.foldl_cons]

/-- R85, R86: the copies of several records withdrawn, one after another. -/
theorem foldl_withdraw_eq (tids : List Tid) (hn : (tids.map Tid.index).Nodup) (p : DestPort) :
    tids.foldl DestPort.withdraw p = { p with
      queue := p.sending ++ tids.foldl (fun w t => afterWithdrawal t w) p.waiting
      tx := p.tx.map fun x =>
        if (p.queue.head?.any fun e => tids.any fun tid => e.belongs tid) = true then { x with noResend := true } else x
      timers := p.timers.filter fun v => tids.all fun tid => v.file != tid.index } := by
  induction tids generalizing p with
  | nil =>
    have none : (p.queue.head?.any fun _ => false) = false := by cases p.queue.head? <;> rfl
    simp [DestPort.sending_append_waiting, none]
  | cons t ts ih =>
    rw [List.map_cons, List.nodup_cons] at hn
    rw [List.foldl_cons, ih hn.2, DestPort.withdraw_eq]
    obtain ⟨st, pa, al, li, iu, sl, queue, tx, rt, ti, fa, os⟩ := p
    have timers : (ti.filter fun v => v.file != t.index).filter (fun v => ts.all fun tid => v.file != tid.index) =
        ti.filter fun v => (t :: ts).all fun tid => v.file != tid.index := by
      rw [List.filter_filter]
      simp only [List.all_cons, Bool.and_comm]
    cases tx with
    | none => simp [DestPort.sending, DestPort.waiting, timers]
    | some x =>
      cases queue with
      | nil =>
        have first : afterWithdrawal t [] = [.abort t] := rfl
        simp [DestPort.sending, DestPort.waiting, first, timers, foldl_afterWithdrawal_abort t ts hn.1,
          QEntry.belongs]
      | cons e rest =>
        simp only [DestPort.sending, DestPort.waiting, Option.map_some, Option.isSome_some, if_true,
          List.take_succ_cons, List.take_zero, List.cons_append, List.nil_append, List.drop_succ_cons, List.drop_zero,
          List.head?_cons, Option.any_some, List.any_cons, timers, List.foldl_cons]
        by_cases h1 : e.belongs t = true
        · simp [h1]
        · simp [h1]

/-! ### Entries that point at a slot -/

/-- R56: how many entries of a queue point at a slot. -/
def queueRefs (i : SlotIx) (q : List QEntry) : Nat := (q.filter fun e => e.slot == some i).length

theorem destRefs_eq (d : Dest) (i : SlotIx) (s : State) : destRefs d i s = queueRefs i s.dest[d].queue := rfl

theorem queueRefs_append (i : SlotIx) (q r : List QEntry) : queueRefs i (q ++ r) = queueRefs i q + queueRefs i r := by
  simp [queueRefs]

theorem queueRefs_sublist {i : SlotIx} {q r : List QEntry} (h : q.Sublist r) : queueRefs i q ≤ queueRefs i r :=
  (h.filter _).length_le

/-- A test parts the entries of a queue. -/
theorem queueRefs_parted (i : SlotIx) (p : QEntry → Bool) (q : List QEntry) :
    queueRefs i (q.filter fun e => !p e) + queueRefs i (q.filter p) = queueRefs i q := by
  induction q with
  | nil => rfl
  | cons e rest ih =>
    unfold queueRefs at *
    cases hp : p e <;> cases hs : (e.slot == some i) <;> simp [hp, hs] at ih ⊢ <;> omega

/-- The slots that entries give up, counted. -/
theorem count_slots (i : SlotIx) (es : List QEntry) : (es.filterMap QEntry.slot).count i = queueRefs i es := by
  induction es with
  | nil => rfl
  | cons e rest ih =>
    unfold queueRefs at *
    cases hs : e.slot with
    | none => simp [hs, ih]
    | some j => by_cases hj : j = i <;> simp [hs, hj, ih]

/-- R59: releasing entries takes their references. -/
theorem releaseEntries_refs (es : List QEntry) (j : SlotIx) (s : State) :
    (releaseEntries es s).slots[j].refs = s.slots[j].refs - queueRefs j es := by
  rw [releaseEntries, foldl_dropRef_refs, count_slots]

/-- R81: a withdrawal adds no entry that points at a slot. -/
theorem queueRefs_afterWithdrawal (i : SlotIx) (t : Tid) (w : List QEntry) :
    queueRefs i (afterWithdrawal t w) ≤ queueRefs i (w.filter fun e => !e.belongs t) := by
  unfold afterWithdrawal
  dsimp only
  split
  · exact le_rfl
  · rw [queueRefs_append]
    exact queueRefs_sublist List.filter_sublist

theorem DestPort.withdraw_refs (p : DestPort) (t : Tid) (i : SlotIx) :
    queueRefs i (p.withdraw t).queue + queueRefs i (p.waiting.filter (QEntry.belongs t)) ≤ queueRefs i p.queue := by
  rw [DestPort.withdraw_eq, ← DestPort.sending_append_waiting p]
  simp only [queueRefs_append]
  have parted := queueRefs_parted i (QEntry.belongs t) p.waiting
  have kept := queueRefs_afterWithdrawal i t p.waiting
  omega

/-! ### The references cover the entries -/

/-- R54, R56: every entry of the eight queues that points at a slot has its reference there. -/
def RefsCover (s : State) : Prop :=
  ∀ i : SlotIx, ((∑ d : Dest, destRefs d i s) + ∑ e : Engine, lookRefs e i s) ≤ s.slots[i].refs

theorem SlotLaw.cover {s : State} (h : SlotLaw s) : RefsCover s := fun i => by
  rw [(h.1 i).1, Fin.sum_univ_def, Fin.sum_univ_def]

theorem RefsCover.of_eq {s t : State} (h : RefsCover s) (hd : t.dest = s.dest) (he : t.engines = s.engines)
    (hr : ∀ i : SlotIx, t.slots[i].refs = s.slots[i].refs) : RefsCover t := fun i => by
  unfold destRefs lookRefs
  rw [hd, he, hr]
  exact h i

/-- A sum of which one term has changed. -/
theorem sum_change {n : Nat} {f g : Fin n → Nat} (d : Fin n) (h : ∀ e, e ≠ d → g e = f e) :
    (∑ e, g e) + f d = (∑ e, f e) + g d := by
  have rest : ∑ e ∈ Finset.univ.erase d, g e = ∑ e ∈ Finset.univ.erase d, f e :=
    Finset.sum_congr rfl fun e he => h e (Finset.ne_of_mem_erase he)
  rw [← Finset.add_sum_erase _ g (Finset.mem_univ d), ← Finset.add_sum_erase _ f (Finset.mem_univ d), rest]
  omega

/-- Entries that leave one destination queue with their references leave the others covered. -/
theorem RefsCover.of_dest {s t : State} (h : RefsCover s) (d : Dest) (gone : List QEntry)
    (hrefs : ∀ i : SlotIx, t.slots[i].refs = s.slots[i].refs - queueRefs i gone)
    (hqueue : ∀ i, queueRefs i t.dest[d].queue + queueRefs i gone ≤ queueRefs i s.dest[d].queue)
    (hdest : ∀ d', d' ≠ d → t.dest[d'] = s.dest[d']) (hengines : t.engines = s.engines) : RefsCover t := fun i => by
  have change : (∑ d, destRefs d i t) + destRefs d i s = (∑ d, destRefs d i s) + destRefs d i t :=
    sum_change (f := fun d => destRefs d i s) (g := fun d => destRefs d i t) d fun d' hd' => by
      rw [destRefs_eq, destRefs_eq, hdest d' hd']
  have looks : ∀ e, lookRefs e i t = lookRefs e i s := fun e => by unfold lookRefs; rw [hengines]
  have one : destRefs d i t + queueRefs i gone ≤ destRefs d i s := hqueue i
  have cover := h i
  simp only [looks, hrefs]
  omega

/-- The same for a look queue. -/
theorem RefsCover.of_engine {s t : State} (h : RefsCover s) (e : Engine) (gone : List LookItem)
    (hrefs : ∀ i : SlotIx, t.slots[i].refs = s.slots[i].refs - (gone.map LookItem.slot).count i)
    (hqueue : ∀ i, lookRefs e i t + (gone.map LookItem.slot).count i ≤ lookRefs e i s)
    (hother : ∀ e', e' ≠ e → t.engines[e'] = s.engines[e']) (hdest : t.dest = s.dest) : RefsCover t := fun i => by
  have change : (∑ e, lookRefs e i t) + lookRefs e i s = (∑ e, lookRefs e i s) + lookRefs e i t :=
    sum_change (f := fun e => lookRefs e i s) (g := fun e => lookRefs e i t) e fun e' he' => by
      unfold lookRefs; rw [hother e' he']
  have dests : ∀ d, destRefs d i t = destRefs d i s := fun d => by unfold destRefs; rw [hdest]
  have one := hqueue i
  have cover := h i
  simp only [dests, hrefs]
  omega

/-! ### One copy after another -/

/-- R28, R29, R85: the copies of file `i` on the destinations `ds` have failed for a reason and been withdrawn. -/
structure CopiesFailed (i : FileIx) (r : FailReason) (ds : List Dest) (s t : State) : Prop where
  frame : t = { s with
    src := t.src, slots := t.slots, cards := t.cards, files := t.files, dest := t.dest, log := t.log
    keyCounter := t.keyCounter, notices := t.notices, loss := t.loss }
  files : t.files = vmod s.files i fun p => { p with file := p.file.map fun f =>
    { f with copies := Vector.ofFn fun d => if d ∈ ds then .failed r else f.copies[d] } }
  dest : ∀ d : Dest, t.dest[d] = if d ∈ ds then s.dest[d].withdraw (tidOf i s) else s.dest[d]
  freed : SlotsFreed s t
  cover : RefsCover s → RefsCover t
  skips : t.loss.skipsV0 = s.loss.skipsV0 ∧ t.loss.skipsV1 = s.loss.skipsV1

/-- R28: a copy that fails is FAILED, and but for its record nothing else happens. -/
theorem failCopy_files (i : FileIx) (d : Dest) (r : FailReason) (vs : List Nat) (s : State) :
    (failCopy i d r vs s).files = (setCopy i d (.failed r) s).files := by
  unfold failCopy
  split
  · next h =>
    have same := vmod_same s.files i (fun p => { p with file := p.file.map fun f =>
      { f with copies := vmod f.copies d fun _ => .failed r } }) (by
        rw [h]
        cases hp : s.files[i] with
        | mk gen file => rw [hp] at h; subst h; rfl)
    exact same.symm
  · dsimp only
    split
    · rfl
    · exact (logFault_frame _ _).files

theorem failCopy_skips (i : FileIx) (d : Dest) (r : FailReason) (vs : List Nat) (s : State) :
    (failCopy i d r vs s).loss.skipsV0 = s.loss.skipsV0 ∧ (failCopy i d r vs s).loss.skipsV1 = s.loss.skipsV1 := by
  unfold failCopy
  split
  · exact ⟨rfl, rfl⟩
  · dsimp only
    split
    · exact ⟨rfl, rfl⟩
    · rw [(logFault_noticed _ _).loss]
      exact ⟨rfl, rfl⟩

section
variable {s t : State}

theorem FilesOnly.src (h : FilesOnly s t) : t.src = s.src := by unfold FilesOnly at h; rw [h]
theorem FilesOnly.slots (h : FilesOnly s t) : t.slots = s.slots := by unfold FilesOnly at h; rw [h]
theorem FilesOnly.dest (h : FilesOnly s t) : t.dest = s.dest := by unfold FilesOnly at h; rw [h]
theorem FilesOnly.engines (h : FilesOnly s t) : t.engines = s.engines := by unfold FilesOnly at h; rw [h]
theorem SlotsOnly.files (h : SlotsOnly s t) : t.files = s.files := by unfold SlotsOnly at h; rw [h]
theorem SlotsOnly.loss (h : SlotsOnly s t) : t.loss = s.loss := by unfold SlotsOnly at h; rw [h]
theorem SlotsOnly.engines (h : SlotsOnly s t) : t.engines = s.engines := by unfold SlotsOnly at h; rw [h]

end

theorem withdraw_dest (d d' : Dest) (t : Tid) (s : State) :
    (withdraw d t s).dest[d'] = if d' = d then s.dest[d].withdraw t else s.dest[d'] := by
  rw [withdraw, (releaseEntries_frame _ _).dest, modDest_dest, vmod_get]

theorem withdraw_freed (d : Dest) (t : Tid) (s : State) : SlotsFreed s (withdraw d t s) := by
  rw [withdraw]
  have first : SlotsFreed s (modDest d (fun p => p.withdraw t) s) := .of_eq rfl rfl
  exact first.trans (releaseEntries_freed _ _)

/-- R57, R85: a withdrawal leaves the remaining entries covered. -/
theorem withdraw_cover (d : Dest) (t : Tid) {s : State} (h : RefsCover s) : RefsCover (withdraw d t s) := by
  refine h.of_dest d (s.dest[d].waiting.filter (QEntry.belongs t)) (fun i => ?_) (fun i => ?_) (fun d' hd' => ?_) ?_
  · rw [withdraw]
    exact releaseEntries_refs _ _ _
  · rw [withdraw_dest, if_pos rfl]
    exact DestPort.withdraw_refs _ _ _
  · rw [withdraw_dest, if_neg hd']
  · rw [withdraw]
    exact (releaseEntries_frame _ _).engines

theorem CopiesFailed.nil (i : FileIx) (r : FailReason) (s : State) : CopiesFailed i r [] s s where
  frame := rfl
  files := by
    refine (vmod_same _ _ _ ?_).symm
    have same : ∀ f : FileRec, ({ f with copies := Vector.ofFn fun d =>
        if d ∈ ([] : List Dest) then CopyState.failed r else f.copies[d] } : FileRec) = f := fun f => by
      have : (Vector.ofFn fun d : Dest => if d ∈ ([] : List Dest) then CopyState.failed r else f.copies[d]) = f.copies :=
        vector_ext fun d => by simp
      rw [this]
    simp only [same, Option.map_id']
  dest d := by simp
  freed := .refl s
  cover := id
  skips := ⟨rfl, rfl⟩

theorem CopiesFailed.cons {i : FileIx} {r : FailReason} {d : Dest} {ds : List Dest} {vs : List Nat} {s t : State}
    (hd : d ∉ ds) (h : CopiesFailed i r ds (withdraw d (tidOf i s) (failCopy i d r vs s)) t) :
    CopiesFailed i r (d :: ds) s t := by
  have fail := failCopy_frame i d r vs s
  have files : (withdraw d (tidOf i s) (failCopy i d r vs s)).files = (setCopy i d (.failed r) s).files := by
    rw [withdraw]
    exact (releaseEntries_frame _ _).files.trans (failCopy_files i d r vs s)
  have tid : tidOf i (withdraw d (tidOf i s) (failCopy i d r vs s)) = tidOf i s := by
    have gen : (withdraw d (tidOf i s) (failCopy i d r vs s)).files[i].gen = s.files[i].gen := by
      rw [files]
      simp only [setCopy, modFile_files, vmod_self]
    exact congrArg (Tid.mk i) gen
  refine ⟨?_, ?_, fun d' => ?_, ?_, fun hc => ?_, ?_⟩
  · have one : withdraw d (tidOf i s) (failCopy i d r vs s) = { s with
        src := (withdraw d (tidOf i s) (failCopy i d r vs s)).src
        slots := (withdraw d (tidOf i s) (failCopy i d r vs s)).slots
        cards := (withdraw d (tidOf i s) (failCopy i d r vs s)).cards
        files := (withdraw d (tidOf i s) (failCopy i d r vs s)).files
        dest := (withdraw d (tidOf i s) (failCopy i d r vs s)).dest
        log := (withdraw d (tidOf i s) (failCopy i d r vs s)).log
        keyCounter := (withdraw d (tidOf i s) (failCopy i d r vs s)).keyCounter
        notices := (withdraw d (tidOf i s) (failCopy i d r vs s)).notices
        loss := (withdraw d (tidOf i s) (failCopy i d r vs s)).loss } := by
      have w := withdraw_frame d (tidOf i s) (failCopy i d r vs s)
      unfold DestOnly at w
      unfold FilesOnly at fail
      rw [w, fail]
    rw [h.frame, one]
  · rw [h.files, files, setCopy, modFile_files, vmod_vmod]
    refine vmod_congr _ _ ?_
    dsimp only
    rw [Option.map_map]
    congr 1
    congr 1
    funext f
    simp only [Function.comp]
    congr 1
    apply vector_ext; intro e
    simp only [Fin.getElem_fin, Vector.getElem_ofFn, List.mem_cons]
    by_cases he : e = d
    · subst he; simp [hd]
    · have := vmod_other f.copies d e (fun _ => CopyState.failed r) he
      simp only [Fin.getElem_fin] at this
      simp [he, this]
  · rw [h.dest d', tid, withdraw_dest, fail.dest]
    by_cases e : d' = d
    · subst e; simp [hd]
    · simp [e]
  · exact ((SlotsFreed.of_eq fail.src fail.slots).trans (withdraw_freed d _ _)).trans h.freed
  · exact h.cover (withdraw_cover d _ (hc.of_eq fail.dest fail.engines fun i => by rw [fail.slots]))
  · have loss : (withdraw d (tidOf i s) (failCopy i d r vs s)).loss = (failCopy i d r vs s).loss := by
      rw [withdraw]; exact (releaseEntries_frame _ _).loss
    obtain ⟨k0, k1⟩ := failCopy_skips i d r vs s
    exact ⟨by rw [h.skips.1, loss, k0], by rw [h.skips.2, loss, k1]⟩

/-- R29, R37: every unsettled copy of a file fails and is withdrawn. -/
theorem withdrawUnsettled_failed {i : FileIx} (r : FailReason) {f : FileRec} {s : State} (h : s.files[i].file = some f) :
    CopiesFailed i r f.unsettledDests s (withdrawUnsettled i r s) := by
  have each : ∀ (ds : List Dest) (u : State), ds.Nodup →
      CopiesFailed i r ds u (ds.foldl (fun s d => withdraw d (tidOf i s) (failCopy i d r [] s)) u) := by
    intro ds
    induction ds with
    | nil => exact fun u _ => .nil i r u
    | cons d rest ih => exact fun u hn => .cons (List.nodup_cons.mp hn).1 (ih _ (List.nodup_cons.mp hn).2)
  unfold withdrawUnsettled
  rw [h]
  exact each _ s (List.Nodup.filter _ (List.nodup_finRange 6))

/-- R29: the copies of an aborted file fail without a record. -/
theorem withdrawUnsettled_aborted (i : FileIx) (s : State) : withdrawUnsettled i .aborted s = { s with
    src := (withdrawUnsettled i .aborted s).src, slots := (withdrawUnsettled i .aborted s).slots
    files := (withdrawUnsettled i .aborted s).files, dest := (withdrawUnsettled i .aborted s).dest } := by
  have one : ∀ (u : State) (d : Dest), withdraw d (tidOf i u) (failCopy i d .aborted [] u) = { u with
      src := (withdraw d (tidOf i u) (failCopy i d .aborted [] u)).src
      slots := (withdraw d (tidOf i u) (failCopy i d .aborted [] u)).slots
      files := (withdraw d (tidOf i u) (failCopy i d .aborted [] u)).files
      dest := (withdraw d (tidOf i u) (failCopy i d .aborted [] u)).dest } := by
    intro u d
    have fail : failCopy i d .aborted [] u = { u with files := (failCopy i d .aborted [] u).files } := by
      unfold failCopy
      split <;> rfl
    have w := withdraw_frame d (tidOf i u) (failCopy i d .aborted [] u)
    unfold DestOnly at w
    rw [w, fail]
  unfold withdrawUnsettled
  split
  · rfl
  · next f _ =>
    exact foldl_keeps (fun s t => t = { s with src := t.src, slots := t.slots, files := t.files, dest := t.dest })
      (fun _ => rfl) (fun _ _ _ h k => by rw [k, h]) _ one f.unsettledDests s

end Sys2Proof.Machine
end

