-- ==== Sys2Proof/Proofs/Follows.lean ====
section
/-! PROOF. The follows of the look engines that end by an abort or a break (R145, R146): what waited on them is
discarded and counted. -/

namespace Sys2Proof.Machine

open Sys2Proof

/-! ### One look engine -/

/-- R146: an engine whose follow ends, if it passes a test. -/
def EngineState.stopFor (p : Follow → Bool) (g : EngineState) : EngineState :=
  match g.follow with
  | some f => if p f = true then g.stopped f else g
  | none => g

/-- R145: the entries that are discarded when it ends. -/
def EngineState.goneFor (p : Follow → Bool) (g : EngineState) : List LookItem :=
  if g.follow.any p = true then g.waiting else []

/-- A test that does not look at the ended flag. -/
def EndBlind (p : Follow → Bool) : Prop := ∀ f, p { f with ended := true } = p f

section
variable {p q : Follow → Bool} {g : EngineState} {f : Follow}

theorem EngineState.stopFor_of_passes (hf : g.follow = some f) (hp : p f = true) : g.stopFor p = g.stopped f := by
  unfold stopFor; rw [hf]; exact if_pos hp

theorem EngineState.stopFor_of_not (h : g.follow.any p = false) : g.stopFor p = g := by
  unfold stopFor
  split
  · next f hf => rw [hf] at h; rw [if_neg (by simpa using h)]
  · rfl

theorem EngineState.goneFor_of_passes (hf : g.follow = some f) (hp : p f = true) : g.goneFor p = g.waiting := by
  unfold goneFor; rw [hf]; exact if_pos hp

theorem EngineState.goneFor_of_not (h : g.follow.any p = false) : g.goneFor p = [] := by
  unfold goneFor; rw [h]; rfl

/-- Once a follow has ended, or is about to end, ending it again changes nothing and discards nothing. -/
theorem EngineState.stopFor_stopped (hp : EndBlind p) (g : EngineState) (f : Follow) :
    (g.stopped f).stopFor p = g.stopped f ∧ (g.stopped f).goneFor p = [] := by
  unfold stopped stopFor goneFor waiting
  by_cases h : g.proc = none
  · simp [h]
  · obtain ⟨x, hx⟩ := Option.ne_none_iff_exists'.mp h
    by_cases hf : p f = true
    · simp [hx, hp f, hf, stopped]
    · simp [hx, hp f, hf]

/-- R146: two tests, one after the other. -/
theorem EngineState.stopFor_stopFor (hq : EndBlind q) (g : EngineState) :
    (g.stopFor p).stopFor q = g.stopFor fun f => p f || q f := by
  cases hf : g.follow with
  | none =>
    have no : ∀ r : Follow → Bool, g.stopFor r = g := fun r => stopFor_of_not (by rw [hf]; rfl)
    rw [no, no, no]
  | some f =>
    by_cases h : p f = true
    · rw [stopFor_of_passes hf h, stopFor_of_passes (p := fun f => p f || q f) hf (by simp [h])]
      exact (stopFor_stopped hq g f).1
    · have first : g.stopFor p = g := stopFor_of_not (by rw [hf]; simpa using h)
      rw [first]
      unfold stopFor
      simp [hf, h]

theorem EngineState.goneFor_stopFor (hq : EndBlind q) (g : EngineState) :
    g.goneFor (fun f => p f || q f) = g.goneFor p ++ (g.stopFor p).goneFor q := by
  cases hf : g.follow with
  | none =>
    have no : ∀ r : Follow → Bool, g.goneFor r = [] := fun r => goneFor_of_not (by rw [hf]; rfl)
    rw [no, no, stopFor_of_not (by rw [hf]; rfl), no]
    rfl
  | some f =>
    by_cases h : p f = true
    · rw [goneFor_of_passes (p := fun f => p f || q f) hf (by simp [h]), goneFor_of_passes hf h,
        stopFor_of_passes hf h, (stopFor_stopped hq g f).2, List.append_nil]
    · have none : g.follow.any p = false := by rw [hf]; simpa using h
      rw [stopFor_of_not none, goneFor_of_not none]
      unfold goneFor
      simp [hf, h]

end

/-- R146: ending the follow once the entries that wait have gone. -/
theorem EngineState.finish_discarded (g : EngineState) (f : Follow) (h : g.follow = some f) :
    ({ g with queue := if g.proc.isSome then g.queue.take 1 else [] } : EngineState).setEnded.finishFollow =
      g.stopped f := by
  obtain ⟨sel, fo, queue, proc, ca, pg, out, wo, fi, fov, fu, sent⟩ := g
  subst h
  cases proc with
  | none =>
    cases out <;> simp [setEnded, finishFollow, stopped, endBroken, brokenEnd]
  | some x => simp [setEnded, finishFollow, stopped]

/-! ### The entries discarded -/

/-- R145: a discarded entry is a review skip and an event, and gives up its reference. -/
theorem discardCounted_eq (e : Engine) (item : LookItem) (s : State) :
    discardCounted e item s = dropRef item.slot { s with
      loss := s.loss.inc (.skips e), counters := s.counters.map fun p => skipEvent s p item } := by
  unfold discardCounted
  cases h : s.slots[item.slot].owner with
  | some m =>
    have owner : (loseOne (.skips e) s).slots[item.slot].owner = some m := h
    have event : ∀ p, skipEvent s p item = p.take .reviewSkips (.link m) 1 := fun p => by unfold skipEvent; rw [h]
    simp only [owner, event]
    rfl
  | none =>
    have owner : (loseOne (.skips e) s).slots[item.slot].owner = none := h
    have event : ∀ p, skipEvent s p item = p := fun p => by unfold skipEvent; rw [h]
    simp only [owner, event, Vector.map_id_fun']
    rfl

theorem discardCounted_refs (e : Engine) (item : LookItem) (s : State) (j : SlotIx) :
    (discardCounted e item s).slots[j].refs = s.slots[j].refs - if j = item.slot then 1 else 0 := by
  rw [discardCounted_eq, dropRef_refs]

theorem discardCounted_freed (e : Engine) (item : LookItem) (s : State) : SlotsFreed s (discardCounted e item s) := by
  rw [discardCounted_eq]
  have first : SlotsFreed s { s with
      loss := s.loss.inc (.skips e), counters := s.counters.map fun p => skipEvent s p item } := .of_eq rfl rfl
  exact first.trans (dropRef_freed _ _)

section
variable {s t : State}

theorem SlotsOnly.counters (h : SlotsOnly s t) : t.counters = s.counters := by unfold SlotsOnly at h; rw [h]

end

theorem discardCounted_engines (e : Engine) (item : LookItem) (s : State) :
    (discardCounted e item s).engines = s.engines := by
  rw [discardCounted_eq]
  exact (dropRef_frame _ _).engines

theorem discardCounted_dest (e : Engine) (item : LookItem) (s : State) : (discardCounted e item s).dest = s.dest := by
  rw [discardCounted_eq]
  exact (dropRef_frame _ _).dest

theorem discardCounted_loss (e : Engine) (item : LookItem) (s : State) :
    (discardCounted e item s).loss = s.loss.inc (.skips e) := by
  rw [discardCounted_eq]
  exact (dropRef_frame _ _).loss

theorem discardCounted_counters (e : Engine) (item : LookItem) (s : State) :
    (discardCounted e item s).counters = s.counters.map fun p => skipEvent s p item := by
  rw [discardCounted_eq]
  exact (dropRef_frame _ _).counters

/-- R204: the event of an entry goes by the owner of its slot. -/
theorem skipEvent_congr {s t : State} {x : LookItem} (h : t.slots[x.slot].owner = s.slots[x.slot].owner)
    (p : CounterPair) : skipEvent t p x = skipEvent s p x := by
  unfold skipEvent
  rw [h]

/-- R57, R145: entries that are discarded one after another. -/
theorem discardAll_refs (e : Engine) (items : List LookItem) (s : State) (j : SlotIx) :
    (items.foldl (fun s item => discardCounted e item s) s).slots[j].refs =
      s.slots[j].refs - (items.map LookItem.slot).count j := by
  induction items generalizing s with
  | nil => simp
  | cons x rest ih =>
    rw [List.foldl_cons, ih, discardCounted_refs, List.map_cons, List.count_cons]
    by_cases h : j = x.slot
    · simp [h]; omega
    · simp [h, Ne.symm h]

theorem discardAll_loss (e : Engine) (items : List LookItem) (s : State) :
    (items.foldl (fun s item => discardCounted e item s) s).loss =
      (fun c => c.inc (.skips e))^[items.length] s.loss := by
  induction items generalizing s with
  | nil => rfl
  | cons x rest ih => rw [List.foldl_cons, ih, discardCounted_loss]; rfl

theorem discardAll_engines (e : Engine) (items : List LookItem) (s : State) :
    (items.foldl (fun s item => discardCounted e item s) s).engines = s.engines :=
  foldl_keeps (fun s t => t.engines = s.engines) (fun _ => rfl) (fun _ _ _ h k => k.trans h) _
    (fun s x => discardCounted_engines e x s) items s

theorem discardAll_dest (e : Engine) (items : List LookItem) (s : State) :
    (items.foldl (fun s item => discardCounted e item s) s).dest = s.dest :=
  foldl_keeps (fun s t => t.dest = s.dest) (fun _ => rfl) (fun _ _ _ h k => k.trans h) _
    (fun s x => discardCounted_dest e x s) items s

theorem discardAll_freed (e : Engine) (items : List LookItem) (s : State) :
    SlotsFreed s (items.foldl (fun s item => discardCounted e item s) s) :=
  .foldl _ (fun s x => discardCounted_freed e x s) items s

/-- R145, R204: each discarded entry counts against the link that carried its segment: while an entry's reference
stands, its slot has its owner. -/
theorem discardAll_counters (e : Engine) (items : List LookItem) (s : State)
    (h : ∀ j : SlotIx, (items.map LookItem.slot).count j ≤ s.slots[j].refs) :
    (items.foldl (fun s item => discardCounted e item s) s).counters =
      s.counters.map fun p => items.foldl (skipEvent s) p := by
  induction items generalizing s with
  | nil => simp
  | cons x rest ih =>
    have count : ∀ j : SlotIx, (rest.map LookItem.slot).count j ≤ (discardCounted e x s).slots[j].refs := fun j => by
      have hj := h j
      rw [List.map_cons, List.count_cons] at hj
      rw [discardCounted_refs]
      by_cases e : j = x.slot
      · simp [e] at hj ⊢; omega
      · simp [e, Ne.symm e] at hj ⊢; omega
    have owners : ∀ p, rest.foldl (skipEvent (discardCounted e x s)) p = rest.foldl (skipEvent s) p := fun p =>
      List.foldl_ext _ _ p fun a y hy => by
        refine skipEvent_congr ((discardCounted_freed e x s).owner _ ?_) a
        exact Nat.lt_of_lt_of_le (List.count_pos_iff.mpr (List.mem_map_of_mem hy)) (count _)
    rw [List.foldl_cons, ih _ count, discardCounted_counters, Vector.map_map]
    congr 1
    funext p
    exact owners _

/-! ### A follow ended on one engine -/

/-- R146: the entries discarded, and then the engine as it is once its follow ends. -/
theorem endFollowAbort_eq (p : Follow → Bool) (e : Engine) (s : State) :
    endFollowAbort p e s = modEngine e (EngineState.stopFor p)
      ((s.engines[e].goneFor p).foldl (fun s item => discardCounted e item s) s) := by
  unfold endFollowAbort
  cases hf : s.engines[e].follow with
  | none =>
    have no : s.engines[e].follow.any p = false := by rw [hf]; rfl
    rw [EngineState.goneFor_of_not no]
    simp only [Option.map_none, Option.getD_none, Bool.false_eq_true, if_false, List.foldl_nil, modEngine]
    rw [vmod_same _ _ _ (EngineState.stopFor_of_not no)]
  | some f =>
    rw [Option.map_some, Option.getD_some]
    split
    · next hp =>
      rw [EngineState.goneFor_of_passes hf hp, discardWaiting]
      have engines := discardAll_engines e s.engines[e].waiting s
      have stop : ((s.engines[e].waiting.foldl (fun s item => discardCounted e item s) s).engines[e]).stopFor p =
          s.engines[e].stopped f := by rw [engines]; exact EngineState.stopFor_of_passes hf hp
      unfold modEngine
      simp only [vmod_vmod]
      congr 1
      refine vmod_congr _ _ ?_
      rw [stop, engines]
      exact EngineState.finish_discarded _ f hf
    · next hp =>
      have no : s.engines[e].follow.any p = false := by rw [hf]; simpa using hp
      rw [EngineState.goneFor_of_not no, List.foldl_nil, modEngine, vmod_same _ _ _ (EngineState.stopFor_of_not no)]

section
variable (p : Follow → Bool) (e : Engine) (s : State)

theorem endFollowAbort_engines : (endFollowAbort p e s).engines = vmod s.engines e (EngineState.stopFor p) := by
  rw [endFollowAbort_eq, modEngine_engines, discardAll_engines]

theorem endFollowAbort_loss : (endFollowAbort p e s).loss =
    (fun c => c.inc (.skips e))^[(s.engines[e].goneFor p).length] s.loss := by
  rw [endFollowAbort_eq, modEngine_loss, discardAll_loss]

theorem endFollowAbort_freed : SlotsFreed s (endFollowAbort p e s) := by
  rw [endFollowAbort_eq]
  exact (discardAll_freed e _ s).trans (.of_eq rfl rfl)

end

/-- The entries of an engine that point at a slot, by its look queue. -/
theorem lookRefs_eq (e : Engine) (i : SlotIx) (s : State) :
    lookRefs e i s = (s.engines[e].queue.map LookItem.slot).count i := by
  unfold lookRefs
  rw [List.count_eq_countP, List.countP_map, List.countP_eq_length_filter]
  rfl

/-- R145: what is discarded and what stays are parts of the queue. -/
theorem EngineState.stopFor_slots (p : Follow → Bool) (g : EngineState) (i : SlotIx) :
    ((g.stopFor p).queue.map LookItem.slot).count i + ((g.goneFor p).map LookItem.slot).count i =
      (g.queue.map LookItem.slot).count i := by
  cases h : g.follow.any p with
  | false => rw [stopFor_of_not h, goneFor_of_not h]; simp
  | true =>
    obtain ⟨f, hf, hp⟩ := (Option.any_eq_true p g.follow).mp h
    rw [stopFor_of_passes hf hp, goneFor_of_passes hf hp]
    unfold stopped waiting
    cases hproc : g.proc with
    | none => simp
    | some x =>
      simp only [reduceCtorEq, if_false, Option.isSome_some, if_true]
      rw [← List.count_append, ← List.map_append, List.take_append_drop]

section
variable (p : Follow → Bool) (e : Engine) {s : State} (h : RefsCover s)
include h

/-- R54: the discarded entries had their references. -/
theorem RefsCover.gone (i : SlotIx) : ((s.engines[e].goneFor p).map LookItem.slot).count i ≤ s.slots[i].refs := by
  have parts := EngineState.stopFor_slots p s.engines[e] i
  rw [← lookRefs_eq] at parts
  have one : lookRefs e i s ≤ ∑ e : Engine, lookRefs e i s :=
    Finset.single_le_sum (f := fun e => lookRefs e i s) (fun _ _ => Nat.zero_le _) (Finset.mem_univ e)
  have cover := h i
  omega

theorem endFollowAbort_counters : (endFollowAbort p e s).counters =
    s.counters.map fun c => (s.engines[e].goneFor p).foldl (skipEvent s) c := by
  rw [endFollowAbort_eq, modEngine_counters, discardAll_counters _ _ _ (h.gone p e)]

theorem endFollowAbort_cover : RefsCover (endFollowAbort p e s) := by
  refine h.of_engine e (s.engines[e].goneFor p) (fun i => ?_) (fun i => ?_) (fun e' he' => ?_) ?_
  · rw [endFollowAbort_eq, modEngine_slots, discardAll_refs]
  · rw [lookRefs_eq, lookRefs_eq, endFollowAbort_engines, vmod_self, EngineState.stopFor_slots]
  · rw [endFollowAbort_engines, vmod_get, if_neg he']
  · rw [endFollowAbort_eq, modEngine_dest, discardAll_dest]

end

/-! ### On both engines -/

section
variable (p : Follow → Bool) (s : State)

theorem endFollowAbort_engines_other {e e' : Engine} (h : e' ≠ e) :
    (endFollowAbort p e s).engines[e'] = s.engines[e'] := by
  rw [endFollowAbort_engines, vmod_get, if_neg h]

theorem endFollowAbort_frame (e : Engine) : EnginesOnly s (endFollowAbort p e s) := by
  unfold endFollowAbort
  split
  · exact (discardWaiting_frame e s).trans rfl
  · exact .refl s

theorem endFollowsAbort_frame : EnginesOnly s (endFollowsAbort p s) :=
  (endFollowAbort_frame p s 0).trans (endFollowAbort_frame p _ 1)

theorem endFollowsAbort_engines (e : Engine) : (endFollowsAbort p s).engines[e] = s.engines[e].stopFor p := by
  have zero_one : (0 : Engine) ≠ 1 := by decide
  rw [endFollowsAbort, endFollowAbort_engines, vmod_get, endFollowAbort_engines]
  obtain rfl | rfl : e = 0 ∨ e = 1 := by revert e; decide
  · rw [if_neg zero_one, vmod_self]
  · rw [if_pos rfl, vmod_get, if_neg zero_one.symm]

/-- R145: the review skips of each engine. -/
theorem endFollowsAbort_skips :
    (endFollowsAbort p s).loss.skipsV0 = oneMore^[(s.engines[(0 : Engine)].goneFor p).length] s.loss.skipsV0 ∧
      (endFollowsAbort p s).loss.skipsV1 = oneMore^[(s.engines[(1 : Engine)].goneFor p).length] s.loss.skipsV1 := by
  have v0 : ∀ (n : Nat) (c : LossCounters), ((fun c => c.inc (.skips 0))^[n] c).skipsV0 = oneMore^[n] c.skipsV0 ∧
      ((fun c => c.inc (.skips 0))^[n] c).skipsV1 = c.skipsV1 := by
    intro n
    induction n with
    | zero => exact fun _ => ⟨rfl, rfl⟩
    | succ n ih => exact fun c => ih _
  have v1 : ∀ (n : Nat) (c : LossCounters), ((fun c => c.inc (.skips 1))^[n] c).skipsV0 = c.skipsV0 ∧
      ((fun c => c.inc (.skips 1))^[n] c).skipsV1 = oneMore^[n] c.skipsV1 := by
    intro n
    induction n with
    | zero => exact fun _ => ⟨rfl, rfl⟩
    | succ n ih => exact fun c => ih _
  have other : (endFollowAbort p 0 s).engines[(1 : Engine)] = s.engines[(1 : Engine)] :=
    endFollowAbort_engines_other p s (by decide)
  rw [endFollowsAbort, endFollowAbort_loss, endFollowAbort_loss, other]
  exact ⟨by rw [(v1 _ _).1, (v0 _ _).1], by rw [(v1 _ _).2, (v0 _ _).2]⟩

theorem endFollowsAbort_freed : SlotsFreed s (endFollowsAbort p s) :=
  (endFollowAbort_freed p 0 s).trans (endFollowAbort_freed p 1 _)

variable {s} (h : RefsCover s)
include h

theorem endFollowsAbort_cover : RefsCover (endFollowsAbort p s) :=
  endFollowAbort_cover p 1 (endFollowAbort_cover p 0 h)

/-- R145, R204: the REVIEW_SKIPS events of both engines. -/
theorem endFollowsAbort_counters : (endFollowsAbort p s).counters = s.counters.map fun c =>
    (s.engines[(0 : Engine)].goneFor p ++ s.engines[(1 : Engine)].goneFor p).foldl (skipEvent s) c := by
  have other : (endFollowAbort p 0 s).engines[(1 : Engine)] = s.engines[(1 : Engine)] :=
    endFollowAbort_engines_other p s (by decide)
  have cover := endFollowAbort_cover p 0 h
  rw [endFollowsAbort, endFollowAbort_counters p 1 cover, endFollowAbort_counters p 0 h, Vector.map_map, other]
  congr 1
  funext c
  rw [Function.comp, List.foldl_append]
  refine List.foldl_ext _ _ _ fun a y hy => skipEvent_congr ((endFollowAbort_freed p 0 s).owner _ ?_) a
  have count := cover.gone p 1 y.slot
  rw [other] at count
  exact Nat.lt_of_lt_of_le (List.count_pos_iff.mpr (List.mem_map_of_mem hy)) count

end

end Sys2Proof.Machine
end

