-- ==== Sys2Proof/Proofs/Stops.lean ====
section
/-! PROOF. Files that stop short of their LAST (R29, R37): one, and several one after another. -/

namespace Sys2Proof.Machine

open Sys2Proof

/-! ### The frame of a stop -/

/-- What files that stop can reach (R28, R29, R37, R59, R146, R154). -/
def StopOnly (s t : State) : Prop :=
  t = { s with
    src := t.src, slots := t.slots, cards := t.cards, files := t.files, dest := t.dest, log := t.log
    keyCounter := t.keyCounter, notices := t.notices, loss := t.loss, counters := t.counters, engines := t.engines
    channels := t.channels }

section
variable {s t u : State}

theorem StopOnly.refl (s : State) : StopOnly s s := rfl

theorem StopOnly.trans (h : StopOnly s t) (k : StopOnly t u) : StopOnly s u := by
  cases s; cases t; cases u; simp_all [StopOnly]

theorem SlotsOnly.toStop (h : SlotsOnly s t) : StopOnly s t := by
  cases s; cases t; simp_all [SlotsOnly, StopOnly]

theorem LogOnly.toStop (h : LogOnly s t) : StopOnly s t := by
  cases s; cases t; simp_all [LogOnly, StopOnly]

theorem EnginesOnly.toStop (h : EnginesOnly s t) : StopOnly s t := by
  cases s; cases t; simp_all [EnginesOnly, StopOnly]

theorem StallOnly.toStop (h : StallOnly s t) : StopOnly s t := by
  cases s; cases t; simp_all [StallOnly, StopOnly]

theorem CopiesFailed.toStop {i : FileIx} {r : FailReason} {ds : List Dest} (h : CopiesFailed i r ds s t) :
    StopOnly s t := by
  have frame := h.frame
  cases s; cases t; simp_all [StopOnly]

theorem EnginesOnly.files (h : EnginesOnly s t) : t.files = s.files := by unfold EnginesOnly at h; rw [h]
theorem EnginesOnly.dest (h : EnginesOnly s t) : t.dest = s.dest := by unfold EnginesOnly at h; rw [h]
theorem EnginesOnly.channels (h : EnginesOnly s t) : t.channels = s.channels := by unfold EnginesOnly at h; rw [h]
theorem EnginesOnly.cards (h : EnginesOnly s t) : t.cards = s.cards := by unfold EnginesOnly at h; rw [h]
theorem EnginesOnly.log (h : EnginesOnly s t) : t.log = s.log := by unfold EnginesOnly at h; rw [h]
theorem EnginesOnly.notices (h : EnginesOnly s t) : t.notices = s.notices := by unfold EnginesOnly at h; rw [h]

end

/-! ### Leaving STREAMING -/

section
variable {i : FileIx} {f : FileRec} {s : State} (next : FileState) (h : s.files[i].file = some f)
include h

/-- R26, R106, R154: a file that leaves STREAMING loses its assembly and its channel. -/
theorem leaveStreaming_eq : leaveStreaming i next s = { s with
    files := vmod s.files i fun p => { p with file := some { f with state := next, assembly := none, channel := none } }
    channels := f.channel.elim s.channels fun c => vmod s.channels c fun _ => ChannelRec.initial } := by
  have channel : s.files[i].file.bind FileRec.channel = f.channel := by rw [h]; rfl
  unfold leaveStreaming releaseChannel
  rw [channel]
  cases hc : f.channel with
  | none =>
    simp only [modFile, Option.elim_none]
    congr 1
    refine vmod_congr _ _ ?_
    rw [h, Option.map_some, ← hc]
  | some c =>
    simp only [modFile, modChannel, Option.elim_some, vmod_vmod]
    congr 1
    refine vmod_congr _ _ ?_
    rw [h, Option.map_some, Option.map_some]

theorem leaveStreaming_frame : leaveStreaming i next s = { s with
    files := (leaveStreaming i next s).files, channels := (leaveStreaming i next s).channels } := by
  rw [leaveStreaming_eq next h]

theorem leaveStreaming_channels (ch : Channel) :
    (leaveStreaming i next s).channels[ch] = if f.channel = some ch then ChannelRec.initial else s.channels[ch] := by
  rw [leaveStreaming_eq next h]
  dsimp only
  cases hc : f.channel with
  | none => simp
  | some c =>
    rw [Option.elim_some, vmod_get]
    by_cases e : ch = c
    · simp [e]
    · simp [e, Ne.symm e]

end

/-! ### Files stopped -/

/-- R146: a follow is of one of the files. -/
def follows (js : List FileIx) (s : State) (h : Follow) : Bool := js.any fun j => h.tid == ⟨j, s.files[j].gen⟩

theorem follows_blind (js : List FileIx) (s : State) : EndBlind (follows js s) := fun _ => rfl

/-- R145: the entries of a follow of one of the files that wait. -/
def goneWith (js : List FileIx) (s : State) (e : Engine) : List LookItem := s.engines[e].goneFor (follows js s)

/-- R29, R37: the files `js` have stopped for a reason, one after another. -/
structure Stopped (js : List FileIx) (r : FailReason) (s t : State) : Prop where
  frame : StopOnly s t
  files : ∀ j : FileIx, t.files[j] = { s.files[j] with
    file := if j ∈ js then s.files[j].file.map (FileRec.stopped r) else s.files[j].file }
  dest : ∀ d : Dest, t.dest[d] = (unsettledTids d js s).foldl DestPort.withdraw s.dest[d]
  channels : ChannelsFreed js s t
  engines : ∀ e : Engine, t.engines[e] = s.engines[e].stopFor (follows js s)
  skips : t.loss.skipsV0 = oneMore^[(goneWith js s 0).length] s.loss.skipsV0 ∧
    t.loss.skipsV1 = oneMore^[(goneWith js s 1).length] s.loss.skipsV1
  counters : RefsCover s → ∃ es : List LookItem, es.Perm (goneWith js s 0 ++ goneWith js s 1) ∧
    t.counters = s.counters.map fun p => es.foldl (skipEvent s) p
  owner : ∀ i : SlotIx, 0 < t.slots[i].refs → t.slots[i].owner = s.slots[i].owner
  refs : ∀ i : SlotIx, t.slots[i].refs ≤ s.slots[i].refs
  cover : RefsCover s → RefsCover t

/-- A step that stops no file and takes no reference. -/
theorem Stopped.none {r : FailReason} {s t : State} (frame : StopOnly s t) (files : t.files = s.files)
    (dest : t.dest = s.dest) (channels : t.channels = s.channels) (engines : t.engines = s.engines)
    (skips : t.loss.skipsV0 = s.loss.skipsV0 ∧ t.loss.skipsV1 = s.loss.skipsV1) (counters : t.counters = s.counters)
    (owner : ∀ i : SlotIx, 0 < t.slots[i].refs → t.slots[i].owner = s.slots[i].owner)
    (refs : ∀ i : SlotIx, t.slots[i].refs = s.slots[i].refs) : Stopped [] r s t where
  frame := frame
  files j := by rw [files, if_neg List.not_mem_nil]
  dest d := by rw [dest]; rfl
  channels ch := by rw [channels]; rfl
  engines e := by
    rw [engines, EngineState.stopFor_of_not]
    cases s.engines[e].follow <;> rfl
  skips := by
    have gone : ∀ e, goneWith [] s e = [] := fun e => EngineState.goneFor_of_not (by cases s.engines[e].follow <;> rfl)
    rw [gone, gone]
    exact skips
  counters _ := by
    have gone : ∀ e, goneWith [] s e = [] := fun e => EngineState.goneFor_of_not (by cases s.engines[e].follow <;> rfl)
    refine ⟨[], ?_, ?_⟩
    · rw [gone, gone]; exact .refl _
    · rw [counters]; simp
  owner := owner
  refs i := (refs i).le
  cover h := h.of_eq dest engines refs

/-- The same, where a fault record at most is made. -/
theorem Stopped.recorded {r : FailReason} {cls : FaultClass} {s t : State} (h : LogOnly s t) (hn : Noticed cls s t) :
    Stopped [] r s t :=
  .none h.toStop h.files h.dest h.channels h.engines (by rw [hn.loss]; exact ⟨rfl, rfl⟩) h.counters
    (fun i _ => by rw [h.slots]) fun i => by rw [h.slots]

/-- R145: every entry that will be discarded has its reference. -/
theorem RefsCover.goneWith_pos {s : State} (h : RefsCover s) {js : List FileIx} {e : Engine} {x : LookItem}
    (hx : x ∈ goneWith js s e) : 0 < s.slots[x.slot].refs :=
  Nat.lt_of_lt_of_le (List.count_pos_iff.mpr (List.mem_map_of_mem hx)) (h.gone _ e x.slot)

/-- Files that stop after others. -/
theorem Stopped.append {js ks : List FileIx} {r : FailReason} {s t u : State} (h : Stopped js r s t)
    (k : Stopped ks r t u) (apart : ∀ j ∈ ks, j ∉ js) : Stopped (js ++ ks) r s u := by
  have gens : ∀ j : FileIx, t.files[j].gen = s.files[j].gen := fun j => by rw [h.files]
  have same : ∀ j ∈ ks, t.files[j] = s.files[j] := fun j hj => by rw [h.files, if_neg (apart j hj)]
  have later : follows ks t = follows ks s := funext fun x => by unfold follows; simp only [gens]
  have both : follows (js ++ ks) s = fun x => follows js s x || follows ks s x := funext fun x => List.any_append
  have gone : ∀ e, goneWith (js ++ ks) s e = goneWith js s e ++ goneWith ks t e := fun e => by
    unfold goneWith
    rw [both, EngineState.goneFor_stopFor (follows_blind ks s), h.engines, later]
  refine ⟨h.frame.trans k.frame, fun j => ?_, fun d => ?_, fun ch => ?_, fun e => ?_, ?_, fun hc => ?_, fun i hi => ?_,
    fun i => (k.refs i).trans (h.refs i), fun hc => k.cover (h.cover hc)⟩
  · rw [k.files]
    by_cases hk : j ∈ ks
    · rw [if_pos hk, same j hk, if_pos (List.mem_append_right _ hk)]
    · rw [if_neg hk, h.files]
      simp [hk]
  · have tids : unsettledTids d ks t = unsettledTids d ks s := by
      unfold unsettledTids
      rw [List.filter_congr fun j hj => by rw [same j hj]]
      simp only [gens]
    have split : unsettledTids d (js ++ ks) s = unsettledTids d js s ++ unsettledTids d ks s := by
      unfold unsettledTids
      rw [List.filter_append, List.map_append]
    rw [k.dest, h.dest, tids, split, List.foldl_append]
  · have kept : (ks.any fun j => (t.files[j].file.bind FileRec.channel) == some ch) =
        ks.any fun j => (s.files[j].file.bind FileRec.channel) == some ch :=
      Bool.eq_iff_iff.mpr (by
        simp only [List.any_eq_true]
        exact exists_congr fun j => and_congr_right fun hj => by rw [same j hj])
    rw [k.channels, h.channels, kept, List.any_append]
    cases ks.any fun j => (s.files[j].file.bind FileRec.channel) == some ch <;> simp
  · rw [k.engines, h.engines, later, both, EngineState.stopFor_stopFor (follows_blind ks s)]
  · rw [k.skips.1, k.skips.2, h.skips.1, h.skips.2, gone, gone, List.length_append, List.length_append]
    refine ⟨?_, ?_⟩ <;> rw [Nat.add_comm, Function.iterate_add_apply]
  · obtain ⟨es, perm, counters⟩ := h.counters hc
    obtain ⟨es', perm', counters'⟩ := k.counters (h.cover hc)
    refine ⟨es ++ es', ?_, ?_⟩
    · rw [gone, gone]
      refine (perm.append perm').trans ?_
      simp only [List.append_assoc]
      refine List.Perm.append_left _ ?_
      rw [← List.append_assoc, ← List.append_assoc]
      exact List.perm_append_comm.append_right _
    · rw [counters', counters, Vector.map_map]
      congr 1
      funext c
      rw [Function.comp, List.foldl_append]
      refine List.foldl_ext _ _ _ fun a x hx => skipEvent_congr (h.owner _ ?_) a
      rcases List.mem_append.mp (perm'.subset hx) with hx' | hx'
      · exact (h.cover hc).goneWith_pos hx'
      · exact (h.cover hc).goneWith_pos hx'
  · rw [k.owner i hi]
    exact h.owner i (Nat.lt_of_lt_of_le hi (k.refs i))

/-! ### One file stopped -/

theorem FileRec.mem_unsettledDests {f : FileRec} {d : Dest} : d ∈ f.unsettledDests ↔ f.copies[d].unsettled = true := by
  simp [FileRec.unsettledDests, FileRec.destsWith, allIx]

/-- R29, R37: the record of a file that stops. -/
theorem FileRec.stopped_eq (r : FailReason) (f : FileRec) : f.stopped r = { f with
    copies := Vector.ofFn fun d => if d ∈ f.unsettledDests then .failed r else f.copies[d]
    state := .short, assembly := none, channel := none } := by
  unfold FileRec.stopped
  congr 1
  apply vector_ext; intro d
  simp only [Fin.getElem_fin, Vector.getElem_map, Vector.getElem_ofFn, FileRec.mem_unsettledDests]

section
variable {i : FileIx} {f : FileRec} {s : State} (r : FailReason) (h : s.files[i].file = some f)
include h

theorem withdrawUnsettled_file : (withdrawUnsettled i r s).files[i].file = some { f with
    copies := Vector.ofFn fun d => if d ∈ f.unsettledDests then .failed r else f.copies[d] } := by
  rw [(withdrawUnsettled_failed r h).files, vmod_self, h, Option.map_some]

/-- R146: the follows that a stop ends are those of the file. -/
theorem stopFile_eq : stopFile i r s =
    endFollowsAbort (follows [i] s) (leaveStreaming i .short (withdrawUnsettled i r s)) := by
  have gen : (leaveStreaming i .short (withdrawUnsettled i r s)).files[i].gen = s.files[i].gen := by
    rw [leaveStreaming_eq _ (withdrawUnsettled_file r h)]
    dsimp only
    rw [vmod_self, (withdrawUnsettled_failed r h).files, vmod_self]
  unfold stopFile follows tidOf
  simp only [gen, List.any_cons, List.any_nil, Bool.or_false]

theorem stopFile_files : (stopFile i r s).files = vmod s.files i fun p => { p with file := some (f.stopped r) } := by
  rw [stopFile_eq r h, (endFollowsAbort_frame _ _).files, leaveStreaming_eq _ (withdrawUnsettled_file r h)]
  dsimp only
  rw [(withdrawUnsettled_failed r h).files, vmod_vmod, FileRec.stopped_eq]

theorem stopFile_freed : SlotsFreed s (stopFile i r s) := by
  have left := leaveStreaming_frame .short (withdrawUnsettled_file r h)
  rw [stopFile_eq r h]
  exact ((withdrawUnsettled_failed r h).freed.trans (.of_eq (by rw [left]) (by rw [left]))).trans
    (endFollowsAbort_freed _ _)

/-- R29, R37: what becomes of the part when one file stops. -/
theorem stopFile_stopped : Stopped [i] r s (stopFile i r s) := by
  have copies := withdrawUnsettled_failed r h
  have left := leaveStreaming_frame .short (withdrawUnsettled_file r h)
  have cover : RefsCover s → RefsCover (leaveStreaming i .short (withdrawUnsettled i r s)) := fun hc =>
    (copies.cover hc).of_eq (by rw [left]) (by rw [left]) fun j => by rw [left]
  have freed := stopFile_freed r h
  have engines : (leaveStreaming i .short (withdrawUnsettled i r s)).engines = s.engines := by
    rw [left, copies.frame]
  refine ⟨?_, fun j => ?_, fun d => ?_, fun ch => ?_, fun e => ?_, ?_, fun hc => ⟨_, .refl _, ?_⟩, freed.owner,
    freed.refs, fun hc => ?_⟩
  · have one : StopOnly (withdrawUnsettled i r s) (leaveStreaming i .short (withdrawUnsettled i r s)) := by
      rw [left]; rfl
    rw [stopFile_eq r h]
    exact (copies.toStop.trans one).trans (endFollowsAbort_frame _ _).toStop
  · rw [stopFile_files r h, vmod_get]
    by_cases e : j = i
    · rw [e, if_pos rfl, if_pos (List.mem_singleton_self i), h]
      rfl
    · rw [if_neg e, if_neg fun m => e (List.mem_singleton.mp m)]
  · have tids : unsettledTids d [i] s = if d ∈ f.unsettledDests then [tidOf i s] else [] := by
      unfold unsettledTids
      rw [List.filter_singleton, h]
      simp only [Option.any_some, FileRec.mem_unsettledDests]
      cases f.copies[d].unsettled <;> rfl
    rw [stopFile_eq r h, (endFollowsAbort_frame _ _).dest, left, tids]
    dsimp only
    rw [copies.dest]
    split <;> rfl
  · rw [stopFile_eq r h, (endFollowsAbort_frame _ _).channels,
      leaveStreaming_channels .short (withdrawUnsettled_file r h), copies.frame]
    have held : ([i].any fun j => (s.files[j].file.bind FileRec.channel) == some ch) = (f.channel == some ch) := by
      rw [List.any_cons, List.any_nil, Bool.or_false, h]
      rfl
    simp only [held, beq_iff_eq]
  · rw [stopFile_eq r h, endFollowsAbort_engines, engines]
  · rw [stopFile_eq r h]
    obtain ⟨v0, v1⟩ := endFollowsAbort_skips (follows [i] s) (leaveStreaming i .short (withdrawUnsettled i r s))
    obtain ⟨k0, k1⟩ := copies.skips
    rw [v0, v1, engines, left]
    exact ⟨by rw [← k0]; rfl, by rw [← k1]; rfl⟩
  · rw [stopFile_eq r h, endFollowsAbort_counters _ (cover hc), engines, left]
    dsimp only
    rw [copies.frame]
    dsimp only
    congr 1
    funext c
    refine List.foldl_ext _ _ _ fun a x hx => skipEvent_congr (copies.freed.owner _ ?_) a
    have covered : RefsCover (withdrawUnsettled i r s) := copies.cover hc
    have same : (withdrawUnsettled i r s).engines = s.engines := by rw [copies.frame]
    rcases List.mem_append.mp hx with hx' | hx'
    all_goals
      rw [← same] at hx'
      exact Nat.lt_of_lt_of_le (List.count_pos_iff.mpr (List.mem_map_of_mem hx')) (covered.gone _ _ _)
  · rw [stopFile_eq r h]
    exact endFollowsAbort_cover _ (cover hc)

end

/-! ### What follows a stop -/

/-- R145: the order of review skips does not matter to a counter. -/
theorem skipEvent_comm (s : State) (p : CounterPair) (x y : LookItem) :
    skipEvent s (skipEvent s p x) y = skipEvent s (skipEvent s p y) x := by
  have add : ∀ (c : EventCounter) (n : Nat) (ag : Against) (ev : CountEvent),
      (c.add n).counts ev ag = c.counts ev ag := fun _ _ _ _ => rfl
  have twice : ∀ ag ag' : Against, (p.take .reviewSkips ag 1).take .reviewSkips ag' 1 =
      (p.take .reviewSkips ag' 1).take .reviewSkips ag 1 := fun ag ag' => by
    unfold CounterPair.take
    obtain ⟨joined, even, odd⟩ := p
    cases joined
    · dsimp only
      cases h : even.counts .reviewSkips ag <;> cases h' : even.counts .reviewSkips ag' <;>
        cases k : odd.counts .reviewSkips ag <;> cases k' : odd.counts .reviewSkips ag' <;> simp [add, h, h', k, k']
    · dsimp only
      cases h : even.counts .reviewSkips ag <;> cases h' : even.counts .reviewSkips ag' <;> simp [add, h, h']
  unfold skipEvent
  split <;> split
  · exact twice _ _
  all_goals rfl

/-- R79: stall flags that rise, each with its event; and what else may go on in the links and the slots. -/
structure StallsRise (s t : State) : Prop where
  dest : ∀ d : Dest, t.dest[d] = { s.dest[d] with stall := t.dest[d].stall }
  rise : ∀ d : Dest, s.dest[d].stall = true → t.dest[d].stall = true
  counters : (∀ d : Dest, t.dest[d].stall = s.dest[d].stall) → t.counters = s.counters

theorem StallsRise.of_eq {s t : State} (hd : t.dest = s.dest) (hc : t.counters = s.counters) : StallsRise s t where
  dest d := by rw [hd]
  rise d h := by rw [hd]; exact h
  counters _ := hc

theorem StallsRise.trans {s t u : State} (h : StallsRise s t) (k : StallsRise t u) : StallsRise s u where
  dest d := by rw [k.dest d, h.dest d]
  rise d hd := k.rise d (h.rise d hd)
  counters same := by
    have first : ∀ d : Dest, t.dest[d].stall = s.dest[d].stall := fun d => by
      cases hs : s.dest[d].stall with
      | true => exact h.rise d hs
      | false =>
        cases ht : t.dest[d].stall with
        | false => rfl
        | true => have := k.rise d ht; rw [same, hs] at this; cases this
    rw [k.counters fun d => (same d).trans (first d).symm, h.counters first]

theorem checkStall_rise (d : Dest) (s : State) : StallsRise s (checkStall d s) := by
  unfold checkStall
  split
  · next h =>
    refine ⟨fun d' => ?_, fun d' hd' => ?_, fun same => ?_⟩
    · rw [countEvent_dest, modDest_dest, vmod_get]
      split
      · next e => rw [e]
      · rfl
    · rw [countEvent_dest, modDest_dest, vmod_get]
      split
      · rfl
      · exact hd'
    · have := same d
      rw [countEvent_dest, modDest_dest, vmod_self, h.2] at this
      cases this
  · exact .of_eq rfl rfl

theorem checkStalls_rise (s : State) : StallsRise s (checkStalls s) :=
  foldl_keeps StallsRise (fun _ => .of_eq rfl rfl) (fun _ _ _ => StallsRise.trans) _ (fun s d => checkStall_rise d s) _ s

theorem DestPort.foldl_withdraw_stall (tids : List Tid) (p : DestPort) :
    (tids.foldl DestPort.withdraw p).stall = p.stall := by
  induction tids generalizing p with
  | nil => rfl
  | cons t rest ih => rw [List.foldl_cons, ih, DestPort.withdraw_eq]

section
variable {js : List FileIx} {r : FailReason} {s t u : State} (h : Stopped js r s t) (k : StallsRise t u)
include h k

/-- R85, R86: what the destinations show of it in the end. -/
theorem Stopped.withdrawnAll (nodup : js.Nodup) (d : Dest) : WithdrawnAll d (unsettledTids d js s) s u := by
  have indices : ((unsettledTids d js s).map Tid.index).Nodup := by
    unfold unsettledTids
    rw [List.map_map]
    exact (nodup.filter _).map fun _ _ e => e
  unfold WithdrawnAll
  rw [k.dest d, h.dest d, foldl_withdraw_eq _ indices]

/-- R146: and the look engines and their counters. -/
theorem Stopped.followsStopped (engines : u.engines = t.engines)
    (skips : u.loss.skipsV0 = t.loss.skipsV0 ∧ u.loss.skipsV1 = t.loss.skipsV1) :
    FollowsStopped (follows js s) s u := by
  refine ⟨fun e => by rw [engines, h.engines]; rfl, by rw [skips.1, h.skips.1]; rfl, by rw [skips.2, h.skips.2]; rfl,
    fun law same => ?_⟩
  obtain ⟨es, perm, counters⟩ := h.counters law.cover
  have : RightCommutative (skipEvent s) := ⟨fun p x y => skipEvent_comm s p x y⟩
  have stalls : ∀ d : Dest, u.dest[d].stall = t.dest[d].stall := fun d => by
    rw [same d, h.dest d, DestPort.foldl_withdraw_stall]
  rw [k.counters stalls, counters]
  congr 1
  funext p
  exact perm.foldl_eq p

end

end Sys2Proof.Machine
end

