-- ==== Sys2Proof/Proofs/Aborts.lean ====
section
/-! PROOF. Files that are aborted one after another (R29, R44, R45): their records, notices and verdicts. -/

namespace Sys2Proof.Machine

open Sys2Proof

/-! ### What an aborted file leaves -/

/-- R206: review skips drop no notice. -/
theorem LossCounters.skips_dropped (e : Engine) (n : Nat) (c : LossCounters) :
    ((fun c => c.inc (.skips e))^[n] c).noticesDropped = c.noticesDropped := by
  induction n generalizing c with
  | zero => rfl
  | succ n ih =>
    have one : (c.inc (.skips e)).noticesDropped = c.noticesDropped := by
      by_cases h : e = 0 <;> simp [LossCounters.inc, h]
    rw [Function.iterate_succ_apply, ih, one]

/-- R29: an abort makes no COPY_FAILED record. -/
theorem stopFile_aborted {i : FileIx} {f : FileRec} {s : State} (h : s.files[i].file = some f) :
    (stopFile i .aborted s).cards = s.cards ∧ (stopFile i .aborted s).log = s.log ∧
      (stopFile i .aborted s).notices = s.notices ∧
      (stopFile i .aborted s).loss.noticesDropped = s.loss.noticesDropped := by
  have left := leaveStreaming_frame .short (withdrawUnsettled_file .aborted h)
  have quiet := withdrawUnsettled_aborted i s
  have ended := endFollowsAbort_frame (follows [i] s) (leaveStreaming i .short (withdrawUnsettled i .aborted s))
  rw [stopFile_eq .aborted h]
  refine ⟨?_, ?_, ?_, ?_⟩
  · rw [ended.cards, left, quiet]
  · rw [ended.log, left, quiet]
  · rw [ended.notices, left, quiet]
  · rw [endFollowsAbort, endFollowAbort_loss, LossCounters.skips_dropped, endFollowAbort_loss,
      LossCounters.skips_dropped, left, quiet]

/-- R29: the record of an aborted file. -/
def shortOf (f : FileRec) (s : State) : FaultRec :=
  { FaultRec.ofFile .fileShort .hold (labelAt f.card s) f.number with code := some .shortAborted }

theorem abortFile_eq {i : FileIx} {f : FileRec} {s : State} (h : s.files[i].file = some f) :
    abortFile i s = reeval f.card (logFault (shortOf f s) (stopFile i .aborted s)) := by
  have label : labelAt f.card (stopFile i .aborted s) = labelAt f.card s := by
    unfold labelAt
    rw [(stopFile_aborted h).1]
  unfold abortFile shortOf
  rw [h]
  dsimp only
  rw [label]

/-- R29, R45: the files `js` have been aborted, one after another. -/
structure AbortedEach (js : List FileIx) (s t : State) : Prop where
  stopped : Stopped js .aborted s t
  marked : CardsMarked s t
  notices : ∃ more, t.notices = s.notices ++ more ∧ more.length ≤ js.length ∧
    ∀ n ∈ more, ∃ r, n.item = .fault r ∧ r.cls = .fileShort
  dropped : s.notices.length + js.length ≤ 16 → t.loss.noticesDropped = s.loss.noticesDropped
  records : s.log.length + js.length ≤ 64 → CardsJudged s t ∧ (VerdictLaw s → VerdictLaw t) ∧
    ∃ rs, t.log = s.log ++ rs ∧ ShortRecords js s rs

/-- Files of cards that the part holds. -/
def Aborting (js : List FileIx) (s : State) : Prop :=
  ∀ j ∈ js, ∃ f k, s.files[j].file = some f ∧ s.cards[f.card] = some k

theorem AbortedEach.nil (s : State) : AbortedEach [] s s where
  stopped := .none rfl rfl rfl rfl rfl ⟨rfl, rfl⟩ rfl (fun _ _ => rfl) fun _ => rfl
  marked := .of_eq rfl
  notices := ⟨[], (List.append_nil _).symm, le_rfl, fun n h => by cases h⟩
  dropped _ := rfl
  records _ := ⟨.of_eq rfl, id, [], (List.append_nil _).symm, rfl, fun n j r f h => by cases h⟩

/-- R24: a file that stops can change the verdict of its own card alone. -/
theorem stopFile_aborted_verdicts {i : FileIx} {f : FileRec} {s : State} (h : s.files[i].file = some f)
    (law : VerdictLaw s) : VerdictsFor (fun c => c ≠ f.card) (stopFile i .aborted s) := by
  obtain ⟨cards, log, -, -⟩ := stopFile_aborted h
  have all := (verdictsFor_all s).mpr law
  refine ⟨fun c k hc hk => ?_, all.labels_kept (.of_eq cards)⟩
  rw [cards] at hk
  rw [all.1 c k trivial hk]
  refine (verdictOf_congr (fun j p => ?_) (by rw [log]) rfl).symm
  have other : (f.card == c) = false := beq_eq_false_iff_ne.mpr (Ne.symm hc)
  unfold isFileOf
  rw [stopFile_files .aborted h, vmod_get]
  split
  · next e => rw [e, h]; simp [FileRec.stopped, other]
  · rfl

/-- R24, R29: after the stop, an abort makes a record and evaluates a verdict. -/
theorem abortFile_recorded {i : FileIx} {f : FileRec} {s : State} (h : s.files[i].file = some f) :
    LogOnly (stopFile i .aborted s) (abortFile i s) ∧ Noticed .fileShort (stopFile i .aborted s) (abortFile i s) := by
  rw [abortFile_eq h]
  have record := logFault_frame (shortOf f s) (stopFile i .aborted s)
  have noticed : Noticed .fileShort _ (logFault (shortOf f s) (stopFile i .aborted s)) :=
    logFault_noticed (shortOf f s) (stopFile i .aborted s)
  generalize logFault (shortOf f s) (stopFile i .aborted s) = t at record noticed
  exact ⟨record.trans (reeval_frame f.card t), noticed.congr rfl rfl rfl rfl⟩

/-- R29: one file aborted. -/
theorem abortFile_aborted {i : FileIx} {f : FileRec} {k : Card} {s : State} (h : s.files[i].file = some f)
    (hk : s.cards[f.card] = some k) : AbortedEach [i] s (abortFile i s) := by
  obtain ⟨cards, log, notices, dropped⟩ := stopFile_aborted h
  obtain ⟨only, noticed⟩ := abortFile_recorded h
  refine ⟨(stopFile_stopped .aborted h).append (.recorded only noticed) fun j hj => (by cases hj), ?_, ?_, fun hn => ?_,
    fun hl => ?_⟩
  · rw [abortFile_eq h]
    exact ((CardsMarked.of_eq cards).trans (logFault_marked _ _)).trans (reeval_judged _ _).marked
  · obtain ⟨more, eq, len, all⟩ := noticed.notices
    exact ⟨more, by rw [eq, notices], len, all⟩
  · have room : (stopFile i .aborted s).notices.length < 16 := by
      rw [notices]
      simp only [List.length_singleton] at hn
      omega
    rw [noticed.dropped room, dropped]
  · have room : (stopFile i .aborted s).log.length < 64 := by
      rw [log]
      simp only [List.length_singleton] at hl
      omega
    rw [abortFile_eq h]
    refine ⟨((CardsJudged.of_eq cards).trans (logFault_judged room)).trans (reeval_judged _ _), fun law => ?_,
      [placed (shortOf f s) (stopFile i .aborted s)], ?_, rfl, fun n j r f' hj hr hf => ?_⟩
    · have judged := ((stopFile_aborted_verdicts h law).logFault (shortOf f s) room).reeval f.card
      exact ⟨fun c k => judged.1 c k (Classical.em (c = f.card)).symm, judged.2⟩
    · rw [reeval, modCard_log, logFault_log _ _ room, log]
    · cases n with
      | succ n => simp at hj
      | zero =>
        obtain rfl : i = j := by simpa using hj
        obtain rfl : _ = r := by simpa using hr
        rw [h] at hf
        cases hf
        refine ⟨rfl, rfl, rfl, rfl, ?_⟩
        rw [hk]
        show some (labelAt f.card s) = _
        unfold labelAt
        rw [hk]
        rfl

theorem Stopped.files_apart {js : List FileIx} {r : FailReason} {s t : State} (h : Stopped js r s t) {j : FileIx}
    (hj : j ∉ js) : t.files[j] = s.files[j] := by rw [h.files, if_neg hj]

/-- R29, R45: files aborted after others. -/
theorem AbortedEach.append {js ks : List FileIx} {s t u : State} (h : AbortedEach js s t) (k : AbortedEach ks t u)
    (apart : ∀ j ∈ ks, j ∉ js) : AbortedEach (js ++ ks) s u := by
  obtain ⟨more, eq, len, all⟩ := h.notices
  obtain ⟨more', eq', len', all'⟩ := k.notices
  refine ⟨h.stopped.append k.stopped apart, h.marked.trans k.marked, ⟨more ++ more', ?_, ?_, ?_⟩, fun hn => ?_,
    fun hl => ?_⟩
  · rw [eq', eq, List.append_assoc]
  · simp only [List.length_append]; omega
  · intro n hn
    exact (List.mem_append.mp hn).elim (all n) (all' n)
  · rw [List.length_append] at hn
    rw [k.dropped (by rw [eq, List.length_append]; omega), h.dropped (by omega)]
  · rw [List.length_append] at hl
    obtain ⟨judged, law, rs, log, length, rec⟩ := h.records (by omega)
    obtain ⟨judged', law', rs', log', length', rec'⟩ := k.records (by rw [log, List.length_append, length]; omega)
    refine ⟨judged.trans judged', fun l => law' (law l), rs ++ rs', by rw [log', log, List.append_assoc],
      by rw [List.length_append, List.length_append, length, length'], fun n j r f hj hr hf => ?_⟩
    by_cases hlt : n < js.length
    · rw [List.getElem?_append_left hlt] at hj
      rw [List.getElem?_append_left (by omega)] at hr
      exact rec n j r f hj hr hf
    · rw [List.getElem?_append_right (by omega)] at hj
      rw [List.getElem?_append_right (by omega), length] at hr
      have same := h.stopped.files_apart (apart j (List.mem_of_getElem? hj))
      rw [← judged.marked.label]
      exact rec' _ j r f hj hr (by rw [same, hf])

/-- R44, R45: several files, one after another. -/
theorem abortStreaming_aborted (js : List FileIx) (nodup : js.Nodup) (s : State) (h : Aborting js s) :
    AbortedEach js s (abortStreaming js s) := by
  induction js generalizing s with
  | nil => exact .nil s
  | cons j rest ih =>
    obtain ⟨hj, hrest⟩ := List.nodup_cons.mp nodup
    obtain ⟨f, k, hf, hk⟩ := h j List.mem_cons_self
    have first := abortFile_aborted hf hk
    have apart : ∀ i ∈ rest, i ∉ [j] := fun i hi e => hj (List.mem_singleton.mp e ▸ hi)
    refine first.append (ih hrest _ fun i hi => ?_) apart
    obtain ⟨f', k', hf', hk'⟩ := h i (List.mem_cons_of_mem _ hi)
    obtain ⟨k'', hk'', -⟩ := first.marked.some hk'
    exact ⟨f', k'', by rw [first.stopped.files_apart (apart i hi), hf'], hk''⟩

theorem abortFile_freed (i : FileIx) (s : State) : SlotsFreed s (abortFile i s) := by
  cases h : s.files[i].file with
  | none => unfold abortFile; rw [h]; exact .refl s
  | some f =>
    have only := (abortFile_recorded h).1
    exact (stopFile_freed .aborted h).trans (.of_eq only.src only.slots)

theorem abortStreaming_freed (js : List FileIx) (s : State) : SlotsFreed s (abortStreaming js s) :=
  SlotsFreed.foldl (fun s i => abortFile i s) (fun s i => abortFile_freed i s) js s

end Sys2Proof.Machine
end

