-- ==== Sys2Proof/Proofs/LinkResets.lean ====
section
/-! PROOF. The link reset of a source link (R18, R45). Settles O10. -/

namespace Sys2Proof.Machine

open Sys2Proof

/-! ### Verdicts after the aborts -/

theorem VerdictLaw.congr {s t : State} (h : VerdictLaw s) (hcards : t.cards = s.cards) (hfiles : t.files = s.files)
    (hlog : t.log = s.log) : VerdictLaw t := by
  refine ⟨fun c k hk => ?_, fun c c' k k' hk hk' => ?_⟩
  · rw [hcards] at hk
    rw [h.1 c k hk]
    exact (verdictOf_same hfiles hlog rfl).symm
  · rw [hcards] at hk hk'
    exact h.2 c c' k k' hk hk'

theorem CardsJudged.reevaluated {s t : State} (h : CardsJudged s t) (law : VerdictLaw s → VerdictLaw t) :
    Reevaluated s t := fun c => by
  refine ⟨h.marked.none, fun k hk => ?_⟩
  obtain ⟨v, hv⟩ := h.some hk
  exact ⟨v, hv, fun l => ((law l).1 c _ hv).trans (verdictOf_same rfl rfl rfl)⟩

/-! ### What is emptied first -/

/-- R18: the link's record emptied, and its notices and arrivals gone; the files are aborted after that. -/
def emptied (l : SrcLink) (keepHead : Bool) (s : State) : State :=
  discardArrivals l keepHead (dropNotices l (modSrc l SrcPort.reset s))

theorem resetSource_eq (l : SrcLink) (keepHead : Bool) (s : State) : resetSource l keepHead s =
    checkStalls (abortStreaming (streamingOnLink l (emptied l keepHead s)) (emptied l keepHead s)) := rfl

/-- R10, R206: the items that leave are counted one by one. -/
theorem dropNotices_eq (l : SrcLink) (s : State) : dropNotices l s = { s with
    notices := s.notices.filter fun n => !resetTakes l s n
    loss := { s.loss with
      noticesDropped := oneMore^[(s.notices.filter (resetTakes l s)).length] s.loss.noticesDropped } } := by
  have count : ∀ (gone : List NoticeEntry) (u : State), gone.foldl (fun s _ => loseOne .noticesDropped s) u =
      { u with loss := { u.loss with noticesDropped := oneMore^[gone.length] u.loss.noticesDropped } } := by
    intro gone
    induction gone with
    | nil => exact fun _ => rfl
    | cons n rest ih => exact fun u => ih _
  exact count _ _

/-- R18: the notices that stay. -/
theorem notices_kept (l : SrcLink) (s : State) : (s.notices.filter fun n => !resetTakes l s n) =
    if s.part.station = l then [] else s.notices.filter fun n => n.sending != some l := by
  unfold resetTakes
  split
  · next h => simp [h]
  · next h =>
    refine List.filter_congr fun n _ => ?_
    simp [h, bne]

theorem notices_gone (l : SrcLink) (s : State) : (s.notices.filter (resetTakes l s)).length =
    s.notices.length - (s.notices.filter fun n => !resetTakes l s n).length := by
  have parts := List.length_eq_length_filter_add (l := s.notices) (resetTakes l s)
  omega

/-- R18: the arrivals that stay are the head, or none. -/
theorem discardArrivals_src (l : SrcLink) (keepHead : Bool) (s : State) (m : SrcLink) :
    (if m = l then { s.src[l] with
      arrivals := if keepHead then s.src[l].arrivals.take 1 else []
      headAddressed := if keepHead then s.src[l].headAddressed else none } else s.src[m] : SrcPort).CreditsMoved
      (discardArrivals l keepHead s).src[m] := by
  have freed := SlotsFreed.foldl (fun s i => clearMark i s) (fun s i => clearMark_freed i s)
    (discardedArrivals keepHead s.src[l].arrivals) (modSrc l (fun p => { p with
      arrivals := if keepHead then p.arrivals.take 1 else []
      headAddressed := if keepHead then p.headAddressed else none }) s)
  have moved := freed.ports m
  rw [modSrc_src, vmod_get] at moved
  exact moved

theorem discardArrivals_frame (l : SrcLink) (keepHead : Bool) (s : State) : SlotsOnly s (discardArrivals l keepHead s) :=
  SlotsOnly.trans (t := modSrc l (fun p => { p with
      arrivals := if keepHead then p.arrivals.take 1 else []
      headAddressed := if keepHead then p.headAddressed else none }) s) rfl
    (foldl_keeps SlotsOnly SlotsOnly.refl (fun _ _ _ => SlotsOnly.trans) (fun s i => clearMark i s)
      (fun s i => clearMark_frame i s) _ _)

/-- R55: discarded arrivals take no reference, and a slot with references keeps its owner. -/
theorem discardArrivals_slots (l : SrcLink) (keepHead : Bool) (s : State) (j : SlotIx) :
    (discardArrivals l keepHead s).slots[j].refs = s.slots[j].refs ∧
      (0 < s.slots[j].refs → (discardArrivals l keepHead s).slots[j].owner = s.slots[j].owner) := by
  have refs : (discardArrivals l keepHead s).slots[j].refs = s.slots[j].refs :=
    foldl_keeps (fun s t => t.slots[j].refs = s.slots[j].refs) (fun _ => rfl) (fun _ _ _ h k => k.trans h)
      (fun s i => clearMark i s) (fun s i => clearMark_refs i j s) _ (modSrc l _ s)
  have freed := SlotsFreed.foldl (fun s i => clearMark i s) (fun s i => clearMark_freed i s)
    (discardedArrivals keepHead s.src[l].arrivals) (modSrc l (fun p => { p with
      arrivals := if keepHead then p.arrivals.take 1 else []
      headAddressed := if keepHead then p.headAddressed else none }) s)
  exact ⟨refs, fun h => freed.owner j (by rw [← refs] at h; exact h)⟩

/-- R18: before the aborts, the links, the slots, the notice queue and the count of dropped notices have changed. -/
theorem emptied_frame (l : SrcLink) (keepHead : Bool) (s : State) : emptied l keepHead s = { s with
    src := (emptied l keepHead s).src, slots := (emptied l keepHead s).slots
    notices := s.notices.filter fun n => !resetTakes l s n
    loss := { s.loss with
      noticesDropped := oneMore^[(s.notices.filter (resetTakes l s)).length] s.loss.noticesDropped } } := by
  have frame := discardArrivals_frame l keepHead (dropNotices l (modSrc l SrcPort.reset s))
  have notices := dropNotices_eq l (modSrc l SrcPort.reset s)
  unfold SlotsOnly at frame
  unfold emptied
  rw [frame, notices]
  rfl

theorem emptied_stopped (l : SrcLink) (keepHead : Bool) (r : FailReason) (s : State) :
    Stopped [] r s (emptied l keepHead s) := by
  have frame := emptied_frame l keepHead s
  have slots : ∀ j : SlotIx, (emptied l keepHead s).slots[j].refs = s.slots[j].refs ∧
      (0 < s.slots[j].refs → (emptied l keepHead s).slots[j].owner = s.slots[j].owner) := fun j => by
    have same : (dropNotices l (modSrc l SrcPort.reset s)).slots = s.slots := by rw [dropNotices_eq]; rfl
    have h := discardArrivals_slots l keepHead (dropNotices l (modSrc l SrcPort.reset s)) j
    rw [same] at h
    exact h
  refine .none ?_ (by rw [frame]) (by rw [frame]) (by rw [frame]) (by rw [frame]) (by rw [frame]; exact ⟨rfl, rfl⟩)
    (by rw [frame]) (fun j hj => (slots j).2 (by rw [← (slots j).1]; exact hj)) fun j => (slots j).1
  unfold StopOnly
  rw [frame]

/-- R18: the record of the link that was reset, before the aborts move its credits. -/
theorem emptied_src (l : SrcLink) (keepHead : Bool) (s : State) (m : SrcLink) :
    (if m = l then { s.src[l].reset with
      arrivals := if keepHead then s.src[l].arrivals.take 1 else []
      headAddressed := if keepHead then s.src[l].headAddressed else none } else s.src[m] : SrcPort).CreditsMoved
      (emptied l keepHead s).src[m] := by
  have moved := discardArrivals_src l keepHead (dropNotices l (modSrc l SrcPort.reset s)) m
  have same : (dropNotices l (modSrc l SrcPort.reset s)).src = vmod s.src l SrcPort.reset := by
    rw [dropNotices_eq]; rfl
  rw [same] at moved
  by_cases h : m = l
  · rw [if_pos h] at moved ⊢
    rw [vmod_self] at moved
    exact moved
  · rw [if_neg h] at moved ⊢
    rw [vmod_get, if_neg h] at moved
    exact moved

/-! ### The aborts of the link's files -/

theorem allIx_congr {n : Nat} {p q : Fin n → Bool} (h : ∀ i, p i = q i) : allIx p = allIx q := congrArg allIx (funext h)

theorem allIx_nodup {n : Nat} (p : Fin n → Bool) : (allIx p).Nodup := (List.nodup_finRange n).filter _

/-- R45: the files to be aborted, as the model finds them and as the statements say them. -/
theorem streamingOnLink_eq {l : SrcLink} {s t : State} (hfiles : t.files = s.files) (hcards : t.cards = s.cards) :
    streamingOnLink l t = streamsOn l s := by
  have link : ∀ f : FileRec, onLink l f t = (s.cards[f.card].bind Card.handle).any fun h => h.link == l := fun f => by
    unfold onLink
    rw [hcards]
    cases s.cards[f.card].bind Card.handle <;> rfl
  unfold streamingOnLink streamsOn
  refine allIx_congr fun i => ?_
  rw [hfiles]
  cases s.files[i].file with
  | none => rfl
  | some f => simp only [Option.map_some, Option.getD_some, Option.any_some, link]

theorem mem_streamsOn {l : SrcLink} {s : State} {j : FileIx} : j ∈ streamsOn l s ↔
    ∃ f, s.files[j].file = some f ∧ f.state = .streaming ∧ onLink l f s = true := by
  unfold streamsOn onLink
  rw [mem_allIx, Option.any_eq_true]
  refine ⟨fun h => ?_, fun h => ?_⟩
  · obtain ⟨f, hf, hs⟩ := h
    rw [Bool.and_eq_true] at hs
    refine ⟨f, hf, eq_of_beq hs.1, ?_⟩
    rw [← hs.2]
    cases s.cards[f.card].bind Card.handle <;> rfl
  · obtain ⟨f, hf, hs, hl⟩ := h
    refine ⟨f, hf, ?_⟩
    rw [hs, ← hl]
    cases s.cards[f.card].bind Card.handle <;> rfl

theorem streamsOn_nodup (l : SrcLink) (s : State) : (streamsOn l s).Nodup := allIx_nodup _

theorem streamsOn_aborting (l : SrcLink) (s : State) : Aborting (streamsOn l s) s := fun j hj => by
  obtain ⟨f, hf, -, hl⟩ := mem_streamsOn.mp hj
  clear hj
  unfold onLink at hl
  cases hk : s.cards[f.card] with
  | none => rw [hk] at hl; exact absurd hl Bool.false_ne_true
  | some k => exact ⟨f, k, hf, hk⟩

/-- R18, R45: the aborts, after the link has been emptied. -/
theorem resetSource_aborts (l : SrcLink) (keepHead : Bool) (s : State) :
    ∃ u, AbortedEach (streamsOn l s) (emptied l keepHead s) u ∧ SlotsFreed (emptied l keepHead s) u ∧
      resetSource l keepHead s = checkStalls u := by
  have frame := emptied_frame l keepHead s
  have hfiles : (emptied l keepHead s).files = s.files := by rw [frame]
  have hcards : (emptied l keepHead s).cards = s.cards := by rw [frame]
  refine ⟨_, abortStreaming_aborted _ (streamsOn_nodup l s) _ fun j hj => ?_, abortStreaming_freed _ _, ?_⟩
  · rw [hfiles, hcards]
    exact streamsOn_aborting l s j hj
  · rw [resetSource_eq, streamingOnLink_eq hfiles hcards]

section
variable {s t : State}

theorem StallOnly.src (h : StallOnly s t) : t.src = s.src := by unfold StallOnly at h; rw [h]
theorem StallOnly.slots (h : StallOnly s t) : t.slots = s.slots := by unfold StallOnly at h; rw [h]
theorem StallOnly.files (h : StallOnly s t) : t.files = s.files := by unfold StallOnly at h; rw [h]
theorem StallOnly.cards (h : StallOnly s t) : t.cards = s.cards := by unfold StallOnly at h; rw [h]
theorem StallOnly.log (h : StallOnly s t) : t.log = s.log := by unfold StallOnly at h; rw [h]
theorem StallOnly.loss (h : StallOnly s t) : t.loss = s.loss := by unfold StallOnly at h; rw [h]
theorem StallOnly.notices (h : StallOnly s t) : t.notices = s.notices := by unfold StallOnly at h; rw [h]
theorem StallOnly.engines (h : StallOnly s t) : t.engines = s.engines := by unfold StallOnly at h; rw [h]
theorem StallOnly.channels (h : StallOnly s t) : t.channels = s.channels := by unfold StallOnly at h; rw [h]

end

/-- R18, R45: what a link reset does away from the link's own record. -/
theorem resetSource_linkAborts (l : SrcLink) (keepHead : Bool) (s : State) :
    LinkAborts l s (resetSource l keepHead s) := by
  obtain ⟨u, aborted, -, eq⟩ := resetSource_aborts l keepHead s
  have frame := emptied_frame l keepHead s
  have stalls := checkStalls_frame u
  have rise := checkStalls_rise u
  have stopped := (emptied_stopped l keepHead .aborted s).append aborted.stopped fun _ _ => List.not_mem_nil
  rw [List.nil_append] at stopped
  rw [eq]
  refine ⟨⟨fun j => ?_, fun d => stopped.withdrawnAll rise (streamsOn_nodup l s) d, fun ch => ?_,
    stopped.followsStopped rise stalls.engines ⟨by rw [stalls.loss], by rw [stalls.loss]⟩⟩, fun room => ?_,
    fun kept hkept => ⟨?_, fun room => ?_⟩⟩
  · rw [stalls.files]; exact stopped.files j
  · rw [stalls.channels]; exact stopped.channels ch
  · obtain ⟨judged, law, rs, log, short⟩ := aborted.records (by rw [frame]; exact room)
    have cards : (emptied l keepHead s).cards = s.cards := by rw [frame]
    refine ⟨CardsJudged.reevaluated ?_ fun h => ?_, rs, ?_, ?_⟩
    · exact ((CardsJudged.of_eq cards).trans judged).trans (.of_eq stalls.cards)
    · exact (law (h.congr cards (by rw [frame]) (by rw [frame]))).congr stalls.cards stalls.files stalls.log
    · rw [stalls.log, log, frame]
    · refine ⟨short.1, fun n j r f hj hr hf => ?_⟩
      rw [← cards]
      exact short.2 n j r f hj hr (by rw [frame]; exact hf)
  · obtain ⟨more, eqn, -, all⟩ := aborted.notices
    refine ⟨more, ?_, all⟩
    rw [stalls.notices, eqn, frame, hkept, notices_kept]
  · have kept_eq := notices_kept l s
    rw [← hkept] at kept_eq
    rw [stalls.loss, aborted.dropped (by rw [frame]; dsimp only; rw [kept_eq]; exact room), frame]
    dsimp only
    rw [notices_gone, kept_eq]

/-- R18: what a link reset makes of the links' records. -/
theorem resetSource_src (l : SrcLink) (keepHead : Bool) (s : State) (m : SrcLink) :
    (if m = l then { s.src[l].reset with
      arrivals := if keepHead then s.src[l].arrivals.take 1 else []
      headAddressed := if keepHead then s.src[l].headAddressed else none } else s.src[m] : SrcPort).CreditsMoved
      (resetSource l keepHead s).src[m] := by
  obtain ⟨u, -, freed, eq⟩ := resetSource_aborts l keepHead s
  rw [eq, (checkStalls_frame u).src]
  exact (emptied_src l keepHead s m).trans (freed.ports m)

/-- R18: the link's record after a link reset. -/
theorem resetSource_self (l : SrcLink) (keepHead : Bool) (s : State) :
    let p := (resetSource l keepHead s).src[l]
    p.state = (if s.src[l].state = .down then .down else .training) ∧ p.granted = 0 ∧ p.unannounced = 0 ∧
      p.arrivals = (if keepHead then s.src[l].arrivals.take 1 else []) ∧ p.replies = [] ∧ p.tx = none ∧
      p.overrun = false ∧ p.headAddressed = if keepHead then s.src[l].headAddressed else none := by
  have moved := resetSource_src l keepHead s l
  rw [if_pos rfl] at moved
  have notUp : s.src[l].reset.state ≠ .up := by
    unfold SrcPort.reset
    dsimp only
    split <;> exact SrcState.noConfusion
  obtain ⟨granted, unannounced⟩ := moved.2 notUp
  exact ⟨moved.state, granted, unannounced, moved.arrivals, moved.replies, moved.tx, moved.overrun, moved.headAddressed⟩

/-- R18, R45: a link reset leaves the tables, the open counter and the part address. -/
theorem resetSource_frame (l : SrcLink) (keepHead : Bool) (s : State) : StopOnly s (resetSource l keepHead s) := by
  obtain ⟨u, aborted, -, eq⟩ := resetSource_aborts l keepHead s
  rw [eq]
  exact ((emptied_stopped l keepHead .aborted s).frame.trans aborted.stopped.frame).trans (checkStalls_frame u).toStop

theorem resetSource_marked (l : SrcLink) (keepHead : Bool) (s : State) : CardsMarked s (resetSource l keepHead s) := by
  obtain ⟨u, aborted, -, eq⟩ := resetSource_aborts l keepHead s
  have cards : (emptied l keepHead s).cards = s.cards := by rw [emptied_frame]
  rw [eq]
  exact ((CardsMarked.of_eq cards).trans aborted.marked).trans (.of_eq (checkStalls_frame u).cards)

/-- R45: no file of a card mounted on the link streams any more. -/
theorem resetSource_streams (l : SrcLink) (keepHead : Bool) (s : State) (i : FileIx) (f : FileRec)
    (h : (resetSource l keepHead s).files[i].file = some f) (hs : f.state = .streaming) :
    onLink l f (resetSource l keepHead s) = false := by
  rw [(resetSource_linkAborts l keepHead s).1.1 i] at h
  by_cases hi : i ∈ streamsOn l s
  · dsimp only at h
    rw [if_pos hi] at h
    obtain ⟨f', -, rfl⟩ := Option.map_eq_some_iff.mp h
    exact FileState.noConfusion hs
  · dsimp only at h
    rw [if_neg hi] at h
    have handle : onLink l f (resetSource l keepHead s) = onLink l f s := by
      unfold onLink
      rw [(resetSource_marked l keepHead s).handle]
    rw [handle, Bool.eq_false_iff]
    exact fun on => hi (mem_streamsOn.mpr ⟨f, h, hs, on⟩)

/-- Nothing of this lies on the links or in the slots. -/
theorem LinkAborts.slots {l : SrcLink} {s t u : State} (h : LinkAborts l s t) (k : SlotsOnly t u) :
    LinkAborts l s u := by
  cases t; cases u
  simp only [SlotsOnly, State.mk.injEq] at k
  obtain ⟨-, rfl, -, rfl, rfl, rfl, rfl, rfl, rfl, rfl, rfl, rfl, rfl, rfl, rfl, rfl, rfl, rfl, rfl, rfl, rfl, rfl, rfl⟩ :=
    k
  exact h

/-! ### The rows of the table that leave UP -/

/-- R1, R18: an UP link after a reset, in the state the event takes it to. -/
theorem setSrcState_reset {l : SrcLink} {s : State} (st : SrcState) (t : State)
    (h : t = setSrcState l st (resetSource l false s)) :
    t.src[l].state = st ∧ t.src[l].granted = 0 ∧ t.src[l].unannounced = 0 ∧ t.src[l].arrivals = [] ∧
      t.src[l].replies = [] ∧ t.src[l].tx = none ∧ t.src[l].overrun = false ∧
      (s.part.station = l → t.notices.all fun n => match n.item with
        | .fault r => r.cls == .fileShort
        | _ => false) ∧
      (∀ m : SrcLink, m ≠ l → t.src[m].state = s.src[m].state ∧ t.src[m].replies = s.src[m].replies ∧
        t.src[m].tx = s.src[m].tx ∧ t.src[m].arrivals = s.src[m].arrivals) ∧
      LinkAborts l s t ∧
      (∀ i : FileIx, ∀ f, t.files[i].file = some f → f.state = .streaming → onLink l f t = false) ∧
      t.routes = s.routes ∧ t.formats = s.formats ∧ t.looks = s.looks ∧ t.profiles = s.profiles ∧
      t.destConfig = s.destConfig ∧ t.part = s.part ∧ t.openCounter = s.openCounter ∧
      t.partAddress = s.partAddress := by
  have self := resetSource_self l false s
  have others := fun m (hm : m ≠ l) => (if_neg hm) ▸ resetSource_src l false s m
  have aborts := resetSource_linkAborts l false s
  have frame := resetSource_frame l false s
  have streams := resetSource_streams l false s
  generalize resetSource l false s = u at *
  subst h
  obtain ⟨-, granted, unannounced, arrivals, replies, tx, overrun, -⟩ := self
  have self : (setSrcState l st u).src[l] = { u.src[l] with state := st } := by
    rw [setSrcState, modSrc_src, vmod_self]
  unfold StopOnly at frame
  rw [self]
  refine ⟨rfl, granted, unannounced, arrivals, replies, tx, overrun, fun station => ?_, fun m hm => ?_,
    aborts.slots rfl, streams, ?_⟩
  · obtain ⟨⟨more, eq, all⟩, -⟩ := aborts.2.2 [] (if_pos station).symm
    rw [setSrcState, modSrc_notices, eq, List.nil_append, List.all_eq_true]
    intro n hn
    obtain ⟨r, hr, hc⟩ := all n hn
    rw [hr]
    exact beq_iff_eq.mpr hc
  · have moved := others m hm
    rw [setSrcState, modSrc_src, vmod_get, if_neg hm]
    exact ⟨moved.state, moved.replies, moved.tx, moved.arrivals⟩
  · rw [frame]
    exact ⟨rfl, rfl, rfl, rfl, rfl, rfl, rfl, rfl⟩

/-- R1: a loss of alignment in UP leaves the link in TRAINING, where the reset puts it. -/
theorem setSrcState_training {l : SrcLink} {s : State} (h : s.src[l].state = .up) :
    setSrcState l .training (resetSource l false s) = resetSource l false s := by
  have state := (resetSource_self l false s).1
  rw [h, if_neg SrcState.noConfusion] at state
  unfold setSrcState modSrc
  rw [vmod_same]
  rw [← state]

/-- Settles O10: the rows that leave UP by the link reset, and the others by the table's own case split. -/
theorem sourceLinkEvents : Obligations.SourceLinkEvents := by
  intro l s low
  have detected : exec (.sourcePartnerDetected l) s =
      .next (if s.src[l].state = .down then setSrcState l .training s else s) := by
    show execSourcePartnerDetected l s = _
    exact live_running low _
  have lost : exec (.sourcePartnerLost l) s = .next (match s.src[l].state with
      | .down => s
      | .training => setSrcState l .down s
      | .up => setSrcState l .down (resetSource l false s)) := by
    show execSourcePartnerLost l s = _
    exact live_running low _
  have loss : exec (.sourceLossOfAlignment l) s =
      .next (if s.src[l].state = .up then resetSource l false s else s) := by
    show execSourceLossOfAlignment l s = _
    exact live_running low _
  refine ⟨fun h => ?_, fun h => ?_, fun h => ?_, fun h => ?_, fun h => ?_, fun h => ?_, fun h c st event => ?_⟩
  · rw [detected, if_pos h]; rfl
  · rw [lost, h]; rfl
  · rw [lost, h]
  · rw [loss, if_neg h]
  · rw [detected, if_neg h]
  · rw [exec_sourceAlignmentAchieved l low, if_neg h]
  · refine ⟨setSrcState l st (resetSource l false s), ?_, setSrcState_reset st _ rfl⟩
    obtain ⟨rfl, rfl⟩ | ⟨rfl, rfl⟩ := event
    · rw [loss, if_pos h, setSrcState_training h]
    · rw [lost, h]

end Sys2Proof.Machine
end

