-- ==== Sys2Proof/Proofs/Heads.lean ====
section
/-! PROOF. The head of an arrival queue whose processing ends, and the replies of commands that reach the links and the
slots (R12, R188, R190). -/

namespace Sys2Proof.Machine

open Sys2Proof

/-- R12, R188: of the links' records, the end of the processing of a head moves the queue, the decision for the next head
and the credit accounts. -/
theorem endProcessing_src (l : SrcLink) (s : State) (h : s.src[l].arrivals ≠ []) (m : SrcLink) :
    (if m = l then { s.src[l] with
      arrivals := s.src[l].arrivals.tail
      headAddressed := decisionFor s.src[l].arrivals.tail.head? (endProcessing l s) } else s.src[m] : SrcPort).CreditsMoved
      (endProcessing l s).src[m] := by
  obtain ⟨i, rest, hr⟩ := List.exists_cons_of_ne_nil h
  have eq : endProcessing l s = decideHead l (clearMark i (modSrc l (fun p => { p with arrivals := rest }) s)) := by
    unfold endProcessing
    rw [hr]
  have freed := clearMark_freed i (modSrc l (fun p => { p with arrivals := rest }) s)
  have frame := clearMark_frame i (modSrc l (fun p => { p with arrivals := rest }) s)
  have decision : ∀ head, decisionFor head (endProcessing l s) =
      decisionFor head (clearMark i (modSrc l (fun p => { p with arrivals := rest }) s)) := fun head => by
    rw [eq, decideHead_spec]
    exact decisionFor_congr _ _ _ rfl rfl rfl
  have moved := freed.ports m
  rw [decision, eq, decideHead_spec, hr, List.tail_cons, modSrc_src, vmod_get]
  rw [modSrc_src, vmod_get] at moved
  by_cases e : m = l
  · subst e
    rw [if_pos rfl] at moved ⊢
    rw [if_pos rfl]
    obtain ⟨eqn, accounts⟩ := moved
    refine ⟨?_, accounts⟩
    rw [eqn]
  · rw [if_neg e] at moved ⊢
    rw [if_neg e]
    exact moved

/-- R12, R188: the head has left, after a step that moved credits alone. -/
theorem endProcessing_took (l : SrcLink) {s t : State} (h : s.src[l].CreditsMoved t.src[l])
    (ha : s.src[l].arrivals ≠ []) : TookHead l s (endProcessing l t) := by
  have moved := endProcessing_src l t (by rw [h.arrivals]; exact ha) l
  rw [if_pos rfl] at moved
  have arrivals : (endProcessing l t).src[l].arrivals = t.src[l].arrivals.tail := moved.arrivals
  exact ⟨by rw [arrivals, h.arrivals], by rw [arrivals]; exact moved.headAddressed⟩

/-- R190: the links' records after an answer. -/
theorem answerHead_src (l : SrcLink) (g : Segment) (a : Answer) (h : a.after.src[l].arrivals ≠ []) (m : SrcLink) :
    (if m = l then { a.after.src[l] with
      arrivals := a.after.src[l].arrivals.tail
      replies := a.after.src[l].replies ++ [⟨g.tag, g.command, a.result, a.body⟩]
      headAddressed := decisionFor a.after.src[l].arrivals.tail.head? (answerHead l g a) }
      else a.after.src[m] : SrcPort).CreditsMoved (answerHead l g a).src[m] := by
  have self : (queueReply l ⟨g.tag, g.command, a.result, a.body⟩ a.after).src[l] = { a.after.src[l] with
      replies := a.after.src[l].replies ++ [⟨g.tag, g.command, a.result, a.body⟩] } := by
    rw [queueReply, modSrc_src, vmod_self]
  have moved := endProcessing_src l (queueReply l ⟨g.tag, g.command, a.result, a.body⟩ a.after) (by rw [self]; exact h) m
  rw [self] at moved
  by_cases e : m = l
  · rw [if_pos e] at moved ⊢
    exact moved
  · rw [if_neg e, queueReply, modSrc_src, vmod_get, if_neg e] at moved
    rw [if_neg e]
    exact moved

/-- R190: the answer to a command whose effect may have freed slots. -/
theorem answerHead_replied (l : SrcLink) (g : Segment) (a : Answer) {s : State}
    (h : s.src[l].CreditsMoved a.after.src[l]) (ha : s.src[l].arrivals ≠ []) :
    RepliedToo l g a.result a.body s (answerHead l g a) := by
  have moved := answerHead_src l g a (by rw [h.arrivals]; exact ha) l
  rw [if_pos rfl] at moved
  have arrivals : (answerHead l g a).src[l].arrivals = a.after.src[l].arrivals.tail := moved.arrivals
  exact ⟨moved.replies.trans (by rw [h.replies]), by rw [arrivals, h.arrivals],
    by rw [arrivals]; exact moved.headAddressed⟩

theorem answerHead_frame (l : SrcLink) (g : Segment) (a : Answer) : SlotsOnly a.after (answerHead l g a) :=
  SlotsOnly.trans (t := queueReply l ⟨g.tag, g.command, a.result, a.body⟩ a.after) rfl (endProcessing_frame l _)

end Sys2Proof.Machine
end

