-- ==== Sys2Proof/Proofs/DestResets.lean ====
section
/-! PROOF. The failure of every copy on a destination (R28, R39, R89), and the link reset of a destination (R90). Settles
O50. -/

namespace Sys2Proof.Machine

open Sys2Proof

/-! ### One copy fails, and its file settles -/

theorem FileRec.unsettledDests_nil {f : FileRec} : f.unsettledDests = [] ↔ ∀ d : Dest, f.copies[d].unsettled = false := by
  simp only [List.eq_nil_iff_forall_not_mem, FileRec.mem_unsettledDests, Bool.not_eq_true]

/-- R40: a manifest reaches neither the files nor the log. -/
theorem issueManifest_kept_records (m : Manifest) (s : State) :
    (issueManifest m s).files = s.files ∧ (issueManifest m s).log = s.log := by
  unfold issueManifest offerNotice
  split
  · split <;> exact ⟨rfl, rfl⟩
  · exact ⟨rfl, rfl⟩

/-- R39: a settling file's record. -/
theorem settleFile_files (i : FileIx) (s : State) :
    (settleFile i s).files = vmod s.files i fun p => { p with file := p.file.bind FileRec.afterSettling } := by
  unfold settleFile
  cases h : s.files[i].file with
  | none =>
    refine (vmod_same _ _ _ ?_).symm
    rw [h]
    cases hp : s.files[i] with
    | mk gen file => rw [hp] at h; subst h; rfl
  | some f =>
    have same : f.afterSettling = some f →
        s.files = vmod s.files i fun p => { p with file := p.file.bind FileRec.afterSettling } := fun e => by
      refine (vmod_same _ _ _ ?_).symm
      rw [h, Option.bind_some, e, ← h]
    dsimp only
    split
    · next settled =>
      have all : f.AllSettled := ⟨settled.1, FileRec.unsettledDests_nil.mp settled.2⟩
      split
      · next enough =>
        have after : f.afterSettling = none := by unfold FileRec.afterSettling; rw [if_pos all, if_pos enough]
        have files : (issueManifest (manifestOf i f false s) s).files = s.files := (issueManifest_kept_records _ s).1
        unfold completeFile
        rw [reeval, modCard_files]
        refine Eq.trans (b := vmod (issueManifest (manifestOf i f false s) s).files i fun p => { p with file := none }) rfl ?_
        rw [files]
        refine vmod_congr _ _ ?_
        rw [h, Option.bind_some, after]
      · next short =>
        have after : f.afterSettling = some { f with state := .short } := by
          unfold FileRec.afterSettling; rw [if_pos all, if_neg short]
        unfold settleShort
        dsimp only
        rw [reeval, modCard_files, (logFault_frame _ _).files, modFile_files]
        refine vmod_congr _ _ ?_
        rw [h, Option.bind_some, after]
        rfl
    · next unsettled =>
      refine same ?_
      unfold FileRec.afterSettling
      rw [if_neg fun all => unsettled ⟨all.1, FileRec.unsettledDests_nil.mpr all.2⟩]

/-- R28, R39: the records of a copy that failed on `d`, and of its file if that settled SHORT. -/
def FailureRecord (d : Dest) (r : FailReason) (q : FaultRec) : Prop :=
  (q.cls = .copyFailed ∧ q.severity = .warn ∧ q.dest = some d ∧ q.code = some (.copyFailed r)) ∨
    (q.cls = .fileShort ∧ q.severity = .hold ∧ q.code = some .shortSettled)

/-- R28: how many of the records are of copies. -/
def copyRecords (rs : List FaultRec) : Nat := (rs.filter fun q => q.cls == .copyFailed).length

theorem settleFile_log (i : FileIx) (d : Dest) (r : FailReason) (s : State) (room : s.log.length < 64) :
    ∃ rs, (settleFile i s).log = s.log ++ rs ∧ rs.length ≤ 1 ∧ (∀ q ∈ rs, FailureRecord d r q) ∧ copyRecords rs = 0 := by
  have quiet : ∀ t : State, t.log = s.log → ∃ rs, t.log = s.log ++ rs ∧ rs.length ≤ 1 ∧
      (∀ q ∈ rs, FailureRecord d r q) ∧ copyRecords rs = 0 := fun t ht =>
    ⟨[], by rw [ht, List.append_nil], Nat.zero_le 1, fun q hq => absurd hq List.not_mem_nil, rfl⟩
  unfold settleFile
  split
  · exact quiet s rfl
  split
  · split
    · refine quiet _ ?_
      unfold completeFile
      rw [reeval, modCard_log]
      exact (issueManifest_kept_records _ s).2
    · unfold settleShort
      dsimp only
      rw [reeval, modCard_log, logFault_log _ _ (by rw [modFile_log]; exact room), modFile_log]
      refine ⟨_, rfl, le_rfl, fun q hq => ?_, rfl⟩
      rw [List.mem_singleton.mp hq]
      exact .inr ⟨rfl, rfl, rfl⟩
  · exact quiet s rfl

section
variable {i : FileIx} {d : Dest} {r : FailReason} {f : FileRec} {s : State} (hr : r ≠ .aborted)
  (h : s.files[i].file = some f)
include hr h

/-- R28: the record of a failed copy. -/
theorem failCopy_log (vs : List Nat) (room : s.log.length < 64) : ∃ q, (failCopy i d r vs s).log = s.log ++ [q] ∧
    q.cls = .copyFailed ∧ q.severity = .warn ∧ q.dest = some d ∧ q.code = some (.copyFailed r) ∧
    q.file = some f.number := by
  unfold failCopy
  rw [h]
  dsimp only
  rw [if_neg hr, logFault_log _ (setCopy i d (.failed r) s) room]
  exact ⟨_, rfl, rfl, rfl, rfl, rfl, rfl⟩

/-- R28, R39: a copy fails, and its file settles if it was the last. -/
theorem failSettle_log (room : s.log.length + 1 < 64) : ∃ rs,
    (settleFile i (failCopy i d r [] s)).log = s.log ++ rs ∧ rs.length ≤ 2 ∧ (∀ q ∈ rs, FailureRecord d r q) ∧
      copyRecords rs = 1 := by
  obtain ⟨q, eq, cls, severity, dest, code, -⟩ := failCopy_log (d := d) hr h [] (by omega)
  obtain ⟨rs, eq', len, all, count⟩ := settleFile_log i d r (failCopy i d r [] s) (by
    rw [eq, List.length_append, List.length_singleton]; omega)
  refine ⟨q :: rs, by rw [eq', eq, List.append_assoc]; rfl, by simp only [List.length_cons]; omega, fun x hx => ?_, ?_⟩
  · exact (List.mem_cons.mp hx).elim (fun e => e ▸ .inl ⟨cls, severity, dest, code⟩) (all x)
  · unfold copyRecords at *
    rw [List.filter_cons_of_pos (by rw [cls]; rfl), List.length_cons, count]

end

/-- R28, R39: the record of a file after one of its copies failed. -/
theorem failSettle_files {i : FileIx} {f : FileRec} (d : Dest) (r : FailReason) {s : State}
    (h : s.files[i].file = some f) (j : FileIx) : (settleFile i (failCopy i d r [] s)).files[j] =
      if j = i then ⟨s.files[i].gen, ({ f with copies := vmod f.copies d fun _ => .failed r } : FileRec).afterSettling⟩
      else s.files[j] := by
  rw [settleFile_files, failCopy_files, setCopy, modFile_files, vmod_vmod, vmod_get, h]
  rfl

/-! ### All copies of a destination fail -/

theorem mem_unsettledOn {d : Dest} {s : State} {j : FileIx} : j ∈ unsettledOn d s ↔
    ∃ f, s.files[j].file = some f ∧ f.copies[d].unsettled = true := by
  unfold unsettledOn copyAt
  rw [mem_allIx]
  cases s.files[j].file with
  | none => simp [CopyState.unsettled]
  | some f => simp

/-- R89, R91: the copies on `d` of the files `js` have failed. -/
structure FailedEach (js : List FileIx) (d : Dest) (r : FailReason) (s t : State) : Prop where
  kept : ∀ j : FileIx, j ∉ js → t.files[j] = s.files[j]
  failed : ∀ j ∈ js, ∀ f, s.files[j].file = some f → t.files[j] = ⟨s.files[j].gen,
    ({ f with copies := vmod f.copies d fun _ => .failed r } : FileRec).afterSettling⟩
  log : s.log.length + 2 * js.length < 64 → ∃ rs, t.log = s.log ++ rs ∧ rs.length ≤ 2 * js.length ∧
    (∀ q ∈ rs, FailureRecord d r q) ∧ copyRecords rs = js.length

theorem failEach (js : List FileIx) (nodup : js.Nodup) (d : Dest) {r : FailReason} (hr : r ≠ .aborted) (s : State)
    (h : ∀ j ∈ js, ∃ f, s.files[j].file = some f) :
    FailedEach js d r s (js.foldl (fun s i => settleFile i (failCopy i d r [] s)) s) := by
  induction js generalizing s with
  | nil => exact ⟨fun _ _ => rfl, fun j hj => absurd hj List.not_mem_nil,
      fun _ => ⟨[], (List.append_nil _).symm, Nat.zero_le _, fun q hq => absurd hq List.not_mem_nil, rfl⟩⟩
  | cons i rest ih =>
    obtain ⟨hi, hrest⟩ := List.nodup_cons.mp nodup
    obtain ⟨f, hf⟩ := h i List.mem_cons_self
    have files := failSettle_files d r hf
    have apart : ∀ j : FileIx, j ≠ i → (settleFile i (failCopy i d r [] s)).files[j] = s.files[j] := fun j hj => by
      rw [files, if_neg hj]
    have later := ih hrest (settleFile i (failCopy i d r [] s)) fun j hj => by
      rw [apart j fun e => hi (e ▸ hj)]
      exact h j (List.mem_cons_of_mem _ hj)
    rw [List.foldl_cons]
    refine ⟨fun j hj => ?_, fun j hj f' hf' => ?_, fun room => ?_⟩
    · obtain ⟨ne, hj'⟩ := not_or.mp (fun e => hj (List.mem_cons.mpr e))
      rw [later.kept j hj', apart j ne]
    · by_cases e : j = i
      · subst e
        rw [later.kept j hi, files, if_pos rfl]
        cases hf.symm.trans hf'
        rfl
      · have hj' := (List.mem_cons.mp hj).resolve_left e
        have same := later.failed j hj' f' (by rw [apart j e]; exact hf')
        rw [same, apart j e]
    · rw [List.length_cons] at room
      obtain ⟨rs, eq, len, all, count⟩ := failSettle_log (d := d) hr hf (by omega)
      obtain ⟨rs', eq', len', all', count'⟩ := later.log (by rw [eq, List.length_append]; omega)
      refine ⟨rs ++ rs', by rw [eq', eq, List.append_assoc], ?_, fun q hq => (List.mem_append.mp hq).elim (all q) (all' q),
        ?_⟩
      · rw [List.length_append, List.length_cons]; omega
      · unfold copyRecords at *
        rw [List.filter_append, List.length_append, count, count', List.length_cons]; omega

/-- R89: every unsettled copy on a destination fails. -/
theorem failAll_each (d : Dest) {r : FailReason} (hr : r ≠ .aborted) (s : State) :
    FailedEach (unsettledOn d s) d r s (failAll d r s) :=
  failEach _ (allIx_nodup _) d hr s fun _ hj => (mem_unsettledOn.mp hj).imp fun _ h => h.1

/-- R89, R91: and a record of the destination follows. -/
theorem failAll_failed {d : Dest} {r : FailReason} {cls : FaultClass} {code : Option FaultCode} (hr : r ≠ .aborted)
    {s t : State} (hfiles : t.files = (failAll d r s).files) (hlog : t.log = (logDest cls code d (failAll d r s)).log) :
    FailedAll d r cls code s t := by
  have each := failAll_each d hr s
  refine ⟨fun j f hf => ⟨fun settled => ?_, fun unsettled => ?_⟩, fun room => ?_⟩
  · rw [hfiles]
    refine each.kept j fun hj => ?_
    obtain ⟨f', hf', hu⟩ := mem_unsettledOn.mp hj
    cases hf.symm.trans hf'
    rw [hu] at settled
    cases settled
  · rw [hfiles]
    exact each.failed j (mem_unsettledOn.mpr ⟨f, hf, unsettled⟩) f hf
  · obtain ⟨rs, eq, len, all, count⟩ := each.log room
    refine ⟨rs, placed { FaultRec.offered cls .warn with dest := some d, code := code } (failAll d r s), ?_, all, count,
      rfl, rfl, rfl, rfl, rfl⟩
    rw [hlog, logDest, logFault_log _ _ (by rw [eq, List.length_append]; omega), eq]

/-! ### The reset of a destination -/

/-- R89: the slots lose what the queue held, and the destination's record is that of a DOWN link. -/
theorem downProcedure_spec (d : Dest) (s : State) : SlotsFreed s (downProcedure d s) ∧
    (∀ d' : Dest, (downProcedure d s).dest[d'] = if d' = d then s.dest[d].down else s.dest[d']) ∧
    FailedAll d .link .destDown none s (downProcedure d s) := by
  have freed : SlotsFreed s (releaseEntries s.dest[d].queue (modDest d DestPort.down s)) := by
    have first : SlotsFreed s (modDest d DestPort.down s) := .of_eq rfl rfl
    exact first.trans (releaseEntries_freed _ _)
  have slots := releaseEntries_frame s.dest[d].queue (modDest d DestPort.down s)
  have base : downProcedure d s =
      logDest .destDown none d (failAll d .link (releaseEntries s.dest[d].queue (modDest d DestPort.down s))) := rfl
  rw [base]
  generalize releaseEntries s.dest[d].queue (modDest d DestPort.down s) = u at freed slots
  have failed := failAll_frame d .link u
  have logged : LogOnly (failAll d .link u) (logDest .destDown none d (failAll d .link u)) := logFault_frame _ _
  refine ⟨freed.trans (.of_eq (logged.src.trans failed.src) (logged.slots.trans failed.slots)), fun d' => ?_, ?_⟩
  · rw [logged.dest, failed.dest, slots.dest, modDest_dest, vmod_get]
  · have same : FailedAll d .link .destDown none u (logDest .destDown none d (failAll d .link u)) :=
      failAll_failed (by decide) logged.files rfl
    have hfiles : u.files = s.files := slots.files
    have hlog : u.log = s.log := by unfold SlotsOnly at slots; rw [slots]; rfl
    have hon : unsettledOn d u = unsettledOn d s := by unfold unsettledOn copyAt; rw [hfiles]
    unfold FailedAll at same ⊢
    rw [hon, hlog, hfiles] at same
    exact same

/-- R90, R92: a QUARANTINED link goes out of alignment. -/
theorem nullify_dest (d d' : Dest) (s : State) :
    (nullify d s).dest[d'] = if d' = d then s.dest[d].cut else s.dest[d'] := by
  have put : ∀ f : DestPort → DestPort, f s.dest[d] = s.dest[d].cut →
      (modDest d f s).dest[d'] = if d' = d then s.dest[d].cut else s.dest[d'] := fun f hf => by
    rw [modDest_dest, vmod_get, hf]
  cases h : s.dest[d].tx with
  | none =>
    have idle : ∀ p : DestPort, p.tx = none → p.cut = p := by rintro ⟨⟩ rfl; rfl
    have eq : nullify d s = s := by unfold nullify; rw [h]
    rw [eq, idle _ h]
    split
    · next e => rw [e]
    · rfl
  | some x =>
    by_cases again : x.noResend = true
    · have eq : nullify d s =
          releaseEntries s.dest[d].sending (modDest d (fun p => { p with queue := p.queue.drop 1, tx := none }) s) := by
        unfold nullify; rw [h]; exact if_pos again
      rw [eq, (releaseEntries_frame _ _).dest]
      refine put _ ?_
      unfold DestPort.cut
      rw [h, Option.any_some, if_pos again]
    · have eq : nullify d s = modDest d (fun p => { p with tx := none }) s := by
        unfold nullify; rw [h]; exact if_neg again
      rw [eq]
      refine put _ ?_
      unfold DestPort.cut
      rw [h, Option.any_some, if_neg again]

theorem nullify_freed (d : Dest) (s : State) : SlotsFreed s (nullify d s) := by
  unfold nullify
  split
  · exact .refl s
  split
  · have first : SlotsFreed s (modDest d (fun p => { p with queue := p.queue.drop 1, tx := none }) s) := .of_eq rfl rfl
    exact first.trans (releaseEntries_freed _ _)
  · exact .of_eq rfl rfl

/-- R90: the reset of a destination reaches no other one, and of the links only the credits. -/
theorem resetDest_others (d : Dest) (s : State) : SlotsFreed s (resetDest d s) ∧
    ∀ d' : Dest, d' ≠ d → (resetDest d s).dest[d'] = s.dest[d'] := by
  obtain ⟨freed, dest, -⟩ := downProcedure_spec d s
  have put : ∀ (f : DestPort → DestPort) (u : State), SlotsFreed s u → (∀ d' : Dest, d' ≠ d → u.dest[d'] = s.dest[d']) →
      SlotsFreed s (modDest d f u) ∧ ∀ d' : Dest, d' ≠ d → (modDest d f u).dest[d'] = s.dest[d'] := fun f u hu hd =>
    ⟨hu.trans (.of_eq rfl rfl), fun d' hd' => by rw [modDest_dest, vmod_get, if_neg hd', hd d' hd']⟩
  have down := put DestPort.train _ freed fun d' hd' => by rw [dest, if_neg hd']
  unfold resetDest
  split
  · exact down
  · exact down
  · exact put _ s (.refl s) fun _ _ => rfl
  · exact put _ s (.refl s) fun _ _ => rfl
  · exact put _ _ (nullify_freed d s) fun d' hd' => by rw [nullify_dest, if_neg hd']

/-- R89, R90: an UP or RETRAINING destination goes through the DOWN procedure. -/
theorem resetDest_up {d : Dest} {s : State} (h : s.dest[d].state = .up ∨ s.dest[d].state = .retraining) :
    (resetDest d s).dest[d] = { s.dest[d] with
      state := if s.dest[d].partner = true then .training else .down
      limit := .absent, inUse := 0, stall := false, queue := [], tx := none, retrain := none, timers := []
      openSet := [] } ∧ FailedAll d .link .destDown none s (resetDest d s) := by
  obtain ⟨-, dest, failed⟩ := downProcedure_spec d s
  have eq : resetDest d s = modDest d DestPort.train (downProcedure d s) := by
    unfold resetDest
    rcases h with h | h <;> rw [h]
  rw [eq]
  generalize downProcedure d s = u at dest failed
  refine ⟨?_, failed⟩
  rw [modDest_dest, vmod_self, dest, if_pos rfl]
  simp [DestPort.train, DestPort.down]

/-- R90: any other destination keeps its copies. -/
theorem resetDest_rest {d : Dest} {s : State} (h : s.dest[d].state ≠ .up) (h' : s.dest[d].state ≠ .retraining) :
    (resetDest d s).files = s.files ∧ (resetDest d s).log = s.log := by
  have cut := nullify_frame d s
  have quiet : (nullify d s).files = s.files ∧ (nullify d s).log = s.log := by
    unfold DestOnly at cut
    rw [cut]
    exact ⟨rfl, rfl⟩
  unfold resetDest
  split
  · next e => exact absurd e h
  · next e => exact absurd e h'
  · exact ⟨rfl, rfl⟩
  · exact ⟨rfl, rfl⟩
  · exact quiet

theorem resetDest_training {d : Dest} {s : State} (h : s.dest[d].state = .training ∨ s.dest[d].state = .down) :
    (resetDest d s).dest[d] = { s.dest[d] with state := if s.dest[d].partner = true then .training else .down } := by
  unfold resetDest
  rcases h with h | h
  · rw [h]
    dsimp only
    rw [modDest_dest, vmod_self]
  · rw [h]
    dsimp only
    rw [modDest_dest, vmod_self]
    unfold DestPort.train
    simp only [h, true_and]

theorem resetDest_quarantined {d : Dest} {s : State} (h : s.dest[d].state = .quarantined) :
    (resetDest d s).dest[d] = { s.dest[d].cut with aligned := false, limit := .absent, inUse := 0 } := by
  unfold resetDest
  rw [h]
  dsimp only
  rw [loseQuarantined, modDest_dest, vmod_self, nullify_dest, if_pos rfl]

/-! ### The command -/

/-- R208: a LINK RESET that passes its checks is answered after the reset. -/
theorem linkReset_served {l : SrcLink} {i : SlotIx} {g : Segment} {s : State} (h : Serves l i g s) (hc : g.command = 17)
    (hp : (linkResetShape g.payload).passes) (mine : Segment → Bool) (hm : mine g = true) :
    takeControl l mine (fun g s => answerHead l g (cmdLinkReset l g.payload s)) s =
      answerHead l g (.done [] (linkReset l (fieldAt g.payload 0 1) s)) := by
  rw [takeControl_good l i g mine _ s h hm (by rw [hc]; rfl), cmdLinkReset, guardBody_passes _ _ _ hp]

/-- R18, R208: the link that was reset, after the answer on the link that carried the command. -/
theorem resetSource_answered (l n : SrcLink) (g : Segment) (s t : State) (queued : s.src[l].arrivals ≠ [])
    (ht : t = answerHead l g (.done [] (resetSource n (n == l) s))) :
    t.src[n].state = (if s.src[n].state = .down then .down else .training) ∧ t.src[n].granted = 0 ∧
      t.src[n].unannounced = 0 ∧ t.src[n].arrivals = [] ∧ t.src[n].tx = none ∧ t.src[n].overrun = false ∧
      t.src[l].replies = (if n = l then [] else s.src[l].replies) ++ [⟨g.tag, g.command, .done, []⟩] ∧
      (n ≠ l → t.src[n].replies = [] ∧ t.src[l].arrivals = s.src[l].arrivals.tail ∧
        t.src[l].state = s.src[l].state) := by
  have reset := resetSource_src n (n == l) s l
  obtain ⟨state, granted, unannounced, arrivals, replies, tx, overrun, -⟩ := resetSource_self n (n == l) s
  have answered := answerHead_src l g (.done [] (resetSource n (n == l) s))
  rw [← ht] at answered
  dsimp only [Answer.done] at answered
  generalize resetSource n (n == l) s = u at *
  have notUp : u.src[n].state ≠ .up := by rw [state]; split <;> exact SrcState.noConfusion
  by_cases e : n = l
  · subst e
    have head : u.src[n].arrivals = s.src[n].arrivals.take 1 := by rw [arrivals]; simp
    have some : u.src[n].arrivals ≠ [] := by rw [head]; simpa using queued
    have moved := answered some n
    rw [if_pos rfl] at moved
    obtain ⟨granted', unannounced'⟩ := moved.2 notUp
    have empty : u.src[n].arrivals.tail = [] := by rw [head]; cases s.src[n].arrivals <;> rfl
    refine ⟨moved.state.trans state, granted'.trans granted, unannounced'.trans unannounced, moved.arrivals.trans empty,
      moved.tx.trans tx, moved.overrun.trans overrun, moved.replies.trans ?_, fun h => absurd rfl h⟩
    rw [if_pos rfl, replies]
  · rw [if_neg (Ne.symm e)] at reset
    have some : u.src[l].arrivals ≠ [] := by rw [reset.arrivals]; exact queued
    have other := answered some n
    have own := answered some l
    rw [if_neg e] at other
    rw [if_pos rfl] at own
    obtain ⟨granted', unannounced'⟩ := other.2 notUp
    have empty : u.src[n].arrivals = [] := by rw [arrivals]; simp [e]
    refine ⟨other.state.trans state, granted'.trans granted, unannounced'.trans unannounced, other.arrivals.trans empty,
      other.tx.trans tx, other.overrun.trans overrun, own.replies.trans ?_, fun _ => ⟨other.replies.trans replies, ?_, ?_⟩⟩
    · rw [if_neg e, reset.replies]
    · exact own.arrivals.trans (by rw [reset.arrivals])
    · exact own.state.trans reset.state

theorem LinkAborts.replied {l : SrcLink} {s t : State} (h : LinkAborts l s t) (m : SrcLink) (g : Segment)
    (body : Bytes) : LinkAborts l s (answerHead m g (.done body t)) := h.slots (answerHead_frame m g (.done body t))

/-- Settles O50: by the link that the command names, a source link's reset or a destination's. -/
theorem linksReset : Obligations.LinksReset := by
  intro l i g s h hc hp
  have low : s.resetLow = false := h.1.1
  have queued : s.src[l].arrivals ≠ [] := fun e => by
    have head := h.1.2.1
    rw [e] at head
    cases head
  refine ⟨fun n hn => ?_, fun d hd => ?_⟩
  · have run : exec (.linkResetSource l) s = .next (answerHead l g (.done [] (resetSource n (n == l) s))) := by
      have mine : (hasCode 17 g && !namesDest g) = true := by
        simp [hasCode, hc, namesDest, hn]
      have reset : linkReset l (fieldAt g.payload 0 1) s = resetSource n (n == l) s := by
        unfold linkReset
        rw [dif_pos (by rw [hn]; exact n.isLt)]
        simp only [hn]
      show execLinkResetSource l s = _
      unfold execLinkResetSource runCommand
      rw [live_running low, linkReset_served h hc hp _ mine, reset]
    obtain ⟨state, granted, unannounced, arrivals, tx, overrun, replies, apart⟩ :=
      resetSource_answered l n g s _ queued rfl
    rw [hc] at replies
    exact ⟨_, run, state, granted, unannounced, arrivals, tx, overrun,
      (resetSource_linkAborts n (n == l) s).replied l g [], replies, apart⟩
  · have run : exec (.linkResetDest l) s = .next (answerHead l g (.done [] (resetDest d s))) := by
      have mine : (hasCode 17 g && !namesSource g) = true := by
        simp [hasCode, hc, namesSource, hd]
      have reset : linkReset l (fieldAt g.payload 0 1) s = resetDest d s := by
        have := d.isLt
        unfold linkReset
        rw [dif_neg (by rw [hd]; omega)]
        congr 1
        exact Fin.ext (by simp only [hd]; omega)
      show execLinkResetDest l s = _
      unfold execLinkResetDest runCommand
      rw [live_running low, linkReset_served h hc hp _ mine, reset]
    obtain ⟨freed, others⟩ := resetDest_others d s
    have replied := answerHead_replied l g (.done [] (resetDest d s)) (freed.ports l) queued
    have frame : SlotsOnly (resetDest d s) (answerHead l g (.done [] (resetDest d s))) :=
      answerHead_frame l g (.done [] (resetDest d s))
    have log : (answerHead l g (.done [] (resetDest d s))).log = (resetDest d s).log := by
      unfold SlotsOnly at frame; rw [frame]
    refine ⟨_, run, replied, fun d' hd' => by rw [frame.dest, others d' hd'], fun hs => ?_, fun hs hs' => ?_,
      fun hs => by rw [frame.dest, resetDest_training hs], fun hs => by rw [frame.dest, resetDest_quarantined hs]⟩
    · obtain ⟨dest, failed⟩ := resetDest_up hs
      refine ⟨by rw [frame.dest, dest], ?_⟩
      unfold FailedAll at failed ⊢
      rw [frame.files, log]
      exact failed
    · rw [frame.files, log]
      exact resetDest_rest hs hs'

end Sys2Proof.Machine
end

