-- ==== Sys2Proof/Proofs/Breaks.lean ====
section
/-! PROOF. A STREAMING file that breaks (R37): its records, and the whole of what its segment's processing does. -/

namespace Sys2Proof.Machine

open Sys2Proof

/-! ### The records of the copies -/

/-- R28, R37: the records of failed copies of one file, in the order of the destinations. -/
structure CopyRecords (number : Nat) (r : FailReason) (ds : List Dest) (rs : List FaultRec) : Prop where
  each : ∀ q ∈ rs, q.cls = .copyFailed ∧ q.severity = .warn ∧ q.code = some (.copyFailed r) ∧ q.file = some number
  dests : rs.map FaultRec.dest = ds.map some

theorem CopyRecords.length {number : Nat} {r : FailReason} {ds : List Dest} {rs : List FaultRec}
    (h : CopyRecords number r ds rs) : rs.length = ds.length := by
  have := congrArg List.length h.dests
  simpa using this

section
variable {i : FileIx} {r : FailReason} {f : FileRec} {s : State} (hr : r ≠ .aborted) (h : s.files[i].file = some f)
include hr h

/-- R28, R85: one copy fails and is withdrawn. -/
theorem withdrawFailed_step (d : Dest) :
    (∃ f', (withdraw d (tidOf i s) (failCopy i d r [] s)).files[i].file = some f' ∧ f'.number = f.number) ∧
      CardsMarked s (withdraw d (tidOf i s) (failCopy i d r [] s)) ∧
      (s.log.length < 64 → ∃ q, (withdraw d (tidOf i s) (failCopy i d r [] s)).log = s.log ++ [q] ∧
        CopyRecords f.number r [d] [q]) := by
  have frame := withdraw_frame d (tidOf i s) (failCopy i d r [] s)
  have files : (withdraw d (tidOf i s) (failCopy i d r [] s)).files = (failCopy i d r [] s).files := by
    unfold DestOnly at frame; rw [frame]
  have cards : (withdraw d (tidOf i s) (failCopy i d r [] s)).cards = (failCopy i d r [] s).cards := by
    unfold DestOnly at frame; rw [frame]
  have log : (withdraw d (tidOf i s) (failCopy i d r [] s)).log = (failCopy i d r [] s).log := by
    unfold DestOnly at frame; rw [frame]
  refine ⟨⟨{ f with copies := vmod f.copies d fun _ => .failed r }, ?_, rfl⟩, ?_, fun room => ?_⟩
  · rw [files, failCopy_files, setCopy, modFile_files, vmod_self, h]
    rfl
  · refine CardsMarked.trans ?_ (.of_eq cards)
    unfold failCopy
    rw [h]
    dsimp only
    rw [if_neg hr]
    exact (CardsMarked.of_eq (t := setCopy i d (.failed r) s) rfl).trans (logFault_marked _ _)
  · obtain ⟨q, eq, cls, severity, dest, code, file⟩ := failCopy_log (d := d) hr h [] room
    refine ⟨q, by rw [log, eq], fun x hx => ?_, by rw [List.map_singleton, dest]; rfl⟩
    rw [List.mem_singleton.mp hx]
    exact ⟨cls, severity, code, file⟩

/-- R29, R37: and so does each of several copies. -/
theorem withdrawFailed_records (ds : List Dest) :
    CardsMarked s (ds.foldl (fun s d => withdraw d (tidOf i s) (failCopy i d r [] s)) s) ∧
      (s.log.length + ds.length ≤ 64 → ∃ rs,
        (ds.foldl (fun s d => withdraw d (tidOf i s) (failCopy i d r [] s)) s).log = s.log ++ rs ∧
          CopyRecords f.number r ds rs) := by
  induction ds generalizing s f with
  | nil => exact ⟨.of_eq rfl, fun _ => ⟨[], (List.append_nil _).symm, fun q hq => absurd hq List.not_mem_nil, rfl⟩⟩
  | cons d rest ih =>
    obtain ⟨⟨f', hf', number⟩, marked, record⟩ := withdrawFailed_step hr h d
    obtain ⟨marked', records⟩ := ih hf'
    rw [List.foldl_cons]
    refine ⟨marked.trans marked', fun room => ?_⟩
    rw [List.length_cons] at room
    obtain ⟨q, eq, one⟩ := record (by omega)
    obtain ⟨rs, eq', more⟩ := records (by rw [eq, List.length_append, List.length_singleton]; omega)
    refine ⟨q :: rs, by rw [eq', eq, List.append_assoc]; rfl, fun x hx => ?_, ?_⟩
    · exact (List.mem_cons.mp hx).elim (fun e => one.each x (List.mem_singleton.mpr e)) fun m => number ▸ more.each x m
    · have d0 := one.dests
      simp only [List.map_cons, List.map_nil, List.cons.injEq, and_true] at d0
      rw [List.map_cons, List.map_cons, more.dests, d0]

/-- R37: the records of a stop. -/
theorem stopFile_records : CardsMarked s (stopFile i r s) ∧
    (s.log.length < 58 → ∃ rs, (stopFile i r s).log = s.log ++ rs ∧ CopyRecords f.number r f.unsettledDests rs ∧
      rs.length ≤ 6) := by
  have left := leaveStreaming_frame .short (withdrawUnsettled_file r h)
  have ended := endFollowsAbort_frame (follows [i] s) (leaveStreaming i .short (withdrawUnsettled i r s))
  have cards : (stopFile i r s).cards = (withdrawUnsettled i r s).cards := by rw [stopFile_eq r h, ended.cards, left]
  have log : (stopFile i r s).log = (withdrawUnsettled i r s).log := by rw [stopFile_eq r h, ended.log, left]
  have fold : withdrawUnsettled i r s =
      f.unsettledDests.foldl (fun s d => withdraw d (tidOf i s) (failCopy i d r [] s)) s := by
    unfold withdrawUnsettled
    rw [h]
  obtain ⟨marked, records⟩ := withdrawFailed_records hr h f.unsettledDests
  rw [← fold] at marked records
  have six : f.unsettledDests.length ≤ 6 := by
    refine (List.length_filter_le _ _).trans ?_
    rw [List.length_finRange]
  refine ⟨marked.trans (.of_eq cards), fun room => ?_⟩
  obtain ⟨rs, eq, recs⟩ := records (by omega)
  exact ⟨rs, by rw [log, eq], recs, by rw [recs.length]; exact six⟩

end

/-! ### The break -/

section
variable {i : FileIx} {f : FileRec} {s : State} (received : Nat) (h : s.files[i].file = some f)
include h

/-- R37: the record of a break. -/
def brokenRecord (received : Nat) (f : FileRec) (s : State) : FaultRec :=
  { FaultRec.ofFile .sequence .hold (labelAt f.card s) f.number with values := [f.nextOffset, received] }

theorem breakFile_eq : breakFile i received s =
    reeval f.card (logFault (brokenRecord received f s) (stopFile i .sequence s)) := by
  have label := (stopFile_records (r := .sequence) (by decide) h).1.labelAt f.card
  unfold breakFile brokenRecord
  rw [h]
  dsimp only
  rw [label]

theorem breakFile_recorded : LogOnly (stopFile i .sequence s) (breakFile i received s) ∧
    Noticed .sequence (stopFile i .sequence s) (breakFile i received s) := by
  rw [breakFile_eq received h]
  have record := logFault_frame (brokenRecord received f s) (stopFile i .sequence s)
  have noticed : Noticed .sequence _ (logFault (brokenRecord received f s) (stopFile i .sequence s)) :=
    logFault_noticed (brokenRecord received f s) (stopFile i .sequence s)
  generalize logFault (brokenRecord received f s) (stopFile i .sequence s) = t at record noticed
  exact ⟨record.trans (reeval_frame f.card t), noticed.congr rfl rfl rfl rfl⟩

theorem breakFile_stopped : Stopped [i] .sequence s (breakFile i received s) := by
  obtain ⟨only, noticed⟩ := breakFile_recorded received h
  exact (stopFile_stopped .sequence h).append (.recorded only noticed) fun _ hj => absurd hj List.not_mem_nil

theorem breakFile_freed : SlotsFreed s (breakFile i received s) := by
  obtain ⟨only, -⟩ := breakFile_recorded received h
  exact (stopFile_freed .sequence h).trans (.of_eq only.src only.slots)

/-- R37: the records of a break. -/
theorem breakFile_log (room : s.log.length < 58) : ∃ rs q, (breakFile i received s).log = s.log ++ rs ++ [q] ∧
    CopyRecords f.number .sequence f.unsettledDests rs ∧ q = placed (brokenRecord received f s) (stopFile i .sequence s) := by
  obtain ⟨rs, eq, recs, six⟩ := (stopFile_records (r := .sequence) (by decide) h).2 room
  refine ⟨rs, _, ?_, recs, rfl⟩
  rw [breakFile_eq received h, reeval, modCard_log, logFault_log _ _ (by rw [eq, List.length_append]; omega), eq]

/-- R12, R37: the file breaks and the segment that broke it leaves. -/
theorem breakFile_breaks {l : SrcLink} {k : Card} (hk : s.cards[f.card] = some k) (ha : s.src[l].arrivals ≠ []) :
    Breaks l k i f received s (endProcessing l (checkStalls (breakFile i received s))) := by
  have stopped := breakFile_stopped received h
  have freed := breakFile_freed received h
  have stalls := checkStalls_frame (breakFile i received s)
  have frame := endProcessing_frame l (checkStalls (breakFile i received s))
  have files : (breakFile i received s).files = vmod s.files i fun p => { p with file := some (f.stopped .sequence) } := by
    rw [(breakFile_recorded received h).1.files, stopFile_files .sequence h]
  have moved : s.src[l].CreditsMoved (checkStalls (breakFile i received s)).src[l] := by
    rw [stalls.src]; exact freed.ports l
  have took := endProcessing_took l moved ha
  have rise : StallsRise (breakFile i received s) (endProcessing l (checkStalls (breakFile i received s))) :=
    (checkStalls_rise _).trans (.of_eq frame.dest frame.counters)
  have log := breakFile_log received h
  generalize endProcessing l (checkStalls (breakFile i received s)) = t at *
  have one : follows [i] s = fun h => h.tid == ⟨i, s.files[i].gen⟩ := funext fun x => by
    simp only [follows, List.any_cons, List.any_nil, Bool.or_false]
  have loss : t.loss = (breakFile i received s).loss := frame.loss.trans stalls.loss
  have logs : t.log = (breakFile i received s).log := by
    refine Eq.trans ?_ stalls.log
    unfold SlotsOnly at frame; rw [frame]
  have channels : t.channels = (breakFile i received s).channels := by
    refine Eq.trans ?_ stalls.channels
    unfold SlotsOnly at frame; rw [frame]
  refine ⟨?_, took, ?_, fun d => stopped.withdrawnAll rise (List.nodup_singleton i) d, fun ch => ?_, ?_, fun room => ?_⟩
  · have all := (stopped.frame.trans stalls.toStop).trans frame.toStop
    unfold StopOnly at all
    exact all
  · rw [frame.files, stalls.files, files]
  · rw [channels]
    exact stopped.channels ch
  · rw [← one]
    exact stopped.followsStopped rise (frame.engines.trans stalls.engines) ⟨by rw [loss], by rw [loss]⟩
  · obtain ⟨rs, q, eq, recs, hq⟩ := log room
    have label : labelAt f.card s = k.label := by unfold labelAt; rw [hk]; rfl
    rw [hq] at eq
    refine ⟨rs, _, logs.trans eq, recs.each, recs.dests, rfl, rfl, ?_, rfl, rfl⟩
    exact congrArg some label

end

end Sys2Proof.Machine
end

