-- ==== Sys2Proof/Proofs/Refusals.lean ====
section
/-! PROOF. The refusals of segments and commands at the head of a link (R15 to R17, R35, R188, R189). Settles O12. -/

namespace Sys2Proof.Machine

open Sys2Proof

/-! ### The head and what stands under its handle -/

section
variable {l : SrcLink} {i : SlotIx} {g : Segment} {s : State} (h : AtHead l i g s)
include h

theorem AtHead.segment : headSegment l s = some g := by
  rw [headSegment, h.2.1, Option.map_some, h.2.2]

theorem AtHead.queued : s.src[l].arrivals ≠ [] := fun e => by
  have head := h.2.1
  rw [e] at head
  cases head

/-- R12: the head is processed by a step that leaves the links and the slots alone. -/
theorem AtHead.processed {t : State} (hsrc : t.src = s.src) (hslots : t.slots = s.slots) :
    Processed l i s.src[l].replies s (endProcessing l t) := by
  have spec := endProcessing_spec l i g t (by rw [hsrc]; exact h.2.1) (by rw [hslots]; exact h.2.2)
  unfold Processed at spec ⊢
  rw [hsrc, hslots] at spec
  exact spec

/-- R15, R16: the head is discarded and counted. -/
theorem AtHead.malformed : Malformed l i s (endProcessing l (loseOne .malformed s)) := by
  have frame := endProcessing_frame l (loseOne .malformed s)
  refine ⟨?_, h.processed rfl rfl⟩
  unfold SlotsOnly at frame
  exact frame

/-- R35: the head is discarded without a count. -/
theorem AtHead.dropped : endProcessing l s = { s with
    src := (endProcessing l s).src, slots := (endProcessing l s).slots } ∧
      Processed l i s.src[l].replies s (endProcessing l s) :=
  ⟨endProcessing_frame l s, h.processed rfl rfl⟩

/-- R12, R16: a refused header ends the processing of its segment. -/
theorem takeHead_refused {kind : Segment → Bool} (f : Segment → State → State) (hk : kind g = true)
    (hg : g.headerOk = false) : takeHead l kind f s = endProcessing l (refuseHeader l g s) := by
  unfold takeHead
  rw [h.segment]
  simp only [hk, hg, if_true, Bool.false_eq_true, if_false]

theorem takeHead_taken {kind : Segment → Bool} (f : Segment → State → State) (hk : kind g = true)
    (hg : g.headerOk = true) : takeHead l kind f s = endProcessing l (f g s) :=
  takeHead_good l i g kind f s h.2.1 (by rw [h.2.2]) hk hg

end

/-- R16: a header that fails, of a kind that is not a data kind. -/
theorem refuseHeader_plain {l : SrcLink} {g : Segment} {s : State} (h : g.isData = false) :
    refuseHeader l g s = loseOne .malformed s := by
  unfold refuseHeader
  rw [h]
  rfl

section
variable {s : State}

/-- R23: no card, or the one, under a handle. -/
theorem cardByHandle_none {a : Handle} (h : ∀ c' : CardIx, (s.cards[c'].bind Card.handle) ≠ some a) :
    cardByHandle a s = none := by
  refine firstIx_none.mpr fun c => ?_
  have ne := h c
  cases hk : s.cards[c] with
  | none => rfl
  | some k =>
    rw [hk] at ne
    exact beq_eq_false_iff_ne.mpr ne

theorem cardByHandle_some {a : Handle} {c : CardIx} {k : Card} (h : HoldsHandle a c k s) : cardByHandle a s = some c := by
  obtain ⟨hk, ha, only⟩ := h
  refine firstIx_unique (by rw [hk]; exact beq_iff_eq.mpr ha) fun c' hc' => only c' ?_
  cases hk' : s.cards[c'] with
  | none => rw [hk'] at hc'; cases hc'
  | some k' => rw [hk'] at hc'; exact eq_of_beq hc'

/-- R25: no file, or the one, under a card's file number. -/
theorem fileByNumber_none {c : CardIx} {number : Nat}
    (h : ∀ (j : FileIx) (f : FileRec), s.files[j].file = some f → f.card = c → f.number ≠ number) :
    fileByNumber c number s = none := by
  refine firstIx_none.mpr fun j => ?_
  unfold isFileOf
  cases hf : s.files[j].file with
  | none => rfl
  | some f =>
    rw [Option.map_some, Option.getD_some, Bool.and_eq_false_imp]
    exact fun hc => beq_eq_false_iff_ne.mpr (h j f hf (eq_of_beq hc))

theorem fileByNumber_some {c : CardIx} {number : Nat} {j : FileIx} {f : FileRec} (h : NamesFile c number j f s) :
    fileByNumber c number s = some j := by
  obtain ⟨hf, hc, hn, only⟩ := h
  refine firstIx_unique ?_ fun j' hj' => only j' ?_
  · unfold isFileOf
    rw [hf, Option.map_some, Option.getD_some, Bool.and_eq_true]
    exact ⟨beq_iff_eq.mpr hc, beq_iff_eq.mpr hn⟩
  · unfold isFileOf at hj'
    cases hf' : s.files[j'].file with
    | none => rw [hf'] at hj'; cases hj'
    | some f' =>
      rw [hf', Option.map_some, Option.getD_some, Bool.and_eq_true] at hj'
      rw [Option.map_some, eq_of_beq hj'.1, eq_of_beq hj'.2]

end

/-! ### A SEQUENCE record without a break -/

/-- R16, R35: what a SEQUENCE record of a refused segment is, and that the head has left. -/
def SequenceLogged (l : SrcLink) (i : SlotIx) (k : Card) (number offset : Nat) (s t : State) : Prop :=
  t = { s with
    src := t.src, slots := t.slots, cards := t.cards, log := t.log, keyCounter := t.keyCounter
    notices := t.notices, loss := t.loss } ∧
  Processed l i s.src[l].replies s t ∧
  (s.log.length < 64 → Reevaluated s t ∧ ∃ r, t.log = s.log ++ [r] ∧ r.cls = .sequence ∧ r.severity = .hold ∧
    r.label = some k.label ∧ r.file = some number ∧ r.values = [offset])

theorem AtHead.sequenceLogged {l : SrcLink} {i : SlotIx} {g : Segment} {s : State} (h : AtHead l i g s) {c : CardIx}
    {k : Card} (hk : s.cards[c] = some k) (number offset : Nat) :
    SequenceLogged l i k number offset s (endProcessing l (logCardFile .sequence c number [offset] s)) := by
  have record : LogOnly s (logCardFile .sequence c number [offset] s) := logFault_frame _ s
  have frame := endProcessing_frame l (logCardFile .sequence c number [offset] s)
  refine ⟨?_, h.processed record.src record.slots, fun room => ⟨?_, ?_⟩⟩
  · unfold LogOnly at record
    unfold SlotsOnly at frame
    generalize logCardFile .sequence c number [offset] s = u at *
    generalize endProcessing l u = t at *
    cases s; cases u; cases t; simp_all
  · have judged : CardsJudged s (logCardFile .sequence c number [offset] s) := logFault_judged room
    have law : VerdictLaw s → VerdictLaw (logCardFile .sequence c number [offset] s) := fun v =>
      (verdictsFor_all _).mp (((verdictsFor_all s).mpr v).logFault _ room)
    generalize logCardFile .sequence c number [offset] s = u at *
    have cards : (endProcessing l u).cards = u.cards := by unfold SlotsOnly at frame; rw [frame]
    have log : (endProcessing l u).log = u.log := by unfold SlotsOnly at frame; rw [frame]
    exact (judged.trans (.of_eq cards)).reevaluated fun v => (law v).congr cards frame.files log
  · have log : (endProcessing l (logCardFile .sequence c number [offset] s)).log =
        (logCardFile .sequence c number [offset] s).log := by unfold SlotsOnly at frame; rw [frame]
    have label : labelAt c s = k.label := by unfold labelAt; rw [hk]; rfl
    rw [log, logCardFile, logFault_log _ _ room]
    exact ⟨_, rfl, rfl, rfl, congrArg some label, rfl, rfl⟩

/-! ### Data segments -/

/-- R13: the step of a data kind takes the head by its kind. -/
theorem exec_dataStep {l : SrcLink} {i : SlotIx} {g : Segment} {s : State} (h : AtHead l i g s) (hd : g.isData = true) :
    ∃ kind : Segment → Bool, kind g = true ∧ exec (dataStep l g.kind) s = .next (takeHead l kind (takeData l) s) := by
  unfold Segment.isData at hd
  simp only [Bool.or_eq_true, beq_iff_eq] at hd
  obtain (e | e) | e := hd
  · rw [e]
    exact ⟨ofKind 4, beq_iff_eq.mpr e, live_running h.1 fun s => .next (takeHead l (ofKind 4) (takeData l) s)⟩
  · rw [e]
    exact ⟨ofKind 5, beq_iff_eq.mpr e, live_running h.1 fun s => .next (takeHead l (ofKind 5) (takeData l) s)⟩
  · rw [e]
    exact ⟨ofKind 6, beq_iff_eq.mpr e, live_running h.1 fun s => .next (takeHead l (ofKind 6) (takeData l) s)⟩

/-- R16: a data segment whose header fails, by what stands under its handle and its number. -/
theorem exec_dataStep_refused {l : SrcLink} {i : SlotIx} {g : Segment} {s : State} (h : AtHead l i g s)
    (hd : g.isData = true) (hg : g.headerOk = false) :
    exec (dataStep l g.kind) s = .next (endProcessing l (refuseData l g s)) := by
  obtain ⟨kind, hk, run⟩ := exec_dataStep h hd
  rw [run, takeHead_refused h _ hk hg, refuseHeader, hd]
  rfl

theorem exec_dataStep_taken {l : SrcLink} {i : SlotIx} {g : Segment} {s : State} (h : AtHead l i g s)
    (hd : g.isData = true) (hg : g.headerOk = true) :
    exec (dataStep l g.kind) s = .next (endProcessing l (takeData l g s)) := by
  obtain ⟨kind, hk, run⟩ := exec_dataStep h hd
  rw [run, takeHead_taken h _ hk hg]

section
variable {l : SrcLink} {g : Segment} {s : State}

/-- R16: with no card under its handle. -/
theorem refuseData_noCard (h : cardByHandle (g.handle l) s = none) : refuseData l g s = loseOne .malformed s := by
  unfold refuseData; rw [h]

theorem takeData_noCard (h : cardByHandle (g.handle l) s = none) : takeData l g s = loseOne .malformed s := by
  unfold takeData; rw [h]

variable {c : CardIx} {k : Card} (h : cardByHandle (g.handle l) s = some c) (hk : s.cards[c] = some k)
include h hk

/-- R16, R35: of the card's refused file. -/
theorem refuseData_refused (hr : k.refused = some g.fileNumber) : refuseData l g s = s := by
  unfold refuseData; rw [h]
  exact if_pos (by rw [hk]; exact hr)

theorem takeData_refused (hr : k.refused = some g.fileNumber) : takeData l g s = s := by
  unfold takeData; rw [h]
  exact if_pos (by rw [hk]; exact hr)

variable (hr : k.refused ≠ some g.fileNumber)
include hr

/-- R16: with no file under its number. -/
theorem refuseData_noFile (hf : fileByNumber c g.fileNumber s = none) : refuseData l g s = loseOne .malformed s := by
  unfold refuseData; rw [h]
  dsimp only
  rw [if_neg (by rw [hk]; exact hr), hf]

theorem takeData_noFile (hf : fileByNumber c g.fileNumber s = none) :
    takeData l g s = logCardFile .sequence c g.fileNumber [g.offset] s := by
  unfold takeData; rw [h]
  dsimp only
  rw [if_neg (by rw [hk]; exact hr), hf]

variable {j : FileIx} {f : FileRec} (hj : fileByNumber c g.fileNumber s = some j) (hf : s.files[j].file = some f)
include hj hf

/-- R16, R35: of a SETTLING or SHORT file. -/
theorem refuseData_settling (hs : f.state ≠ .streaming) :
    refuseData l g s = logCardFile .sequence c g.fileNumber [g.offset % 2 ^ 48] s := by
  unfold refuseData; rw [h]
  dsimp only
  rw [if_neg (by rw [hk]; exact hr), hj]
  exact if_neg (by rw [hf]; simpa using hs)

/-- R16, R37: of a STREAMING file, which breaks. -/
theorem refuseData_streaming (hs : f.state = .streaming) :
    refuseData l g s = checkStalls (breakFile j (g.offset % 2 ^ 48) s) := by
  unfold refuseData; rw [h]
  dsimp only
  rw [if_neg (by rw [hk]; exact hr), hj]
  exact if_pos (by rw [hf, ← hs]; rfl)

theorem takeData_settling {i : SlotIx} (hi : headSlot l s = some i) (hs : f.state ≠ .streaming) :
    takeData l g s = logCardFile .sequence c g.fileNumber [g.offset] s := by
  unfold takeData; rw [h]
  dsimp only
  rw [if_neg (by rw [hk]; exact hr), hj]
  dsimp only
  rw [hf, hi]
  exact if_neg hs

end

/-! ### CONTROL segments -/

theorem exec_control {l : SrcLink} {c : Instr} {s : State} (low : s.resetLow = false) (mine : Segment → Bool)
    (f : Segment → State → State) (h : exec c s = live s fun s => .next (takeControl l mine f s)) :
    ∃ mine f, exec c s = .next (takeControl l mine f s) := ⟨mine, f, by rw [h, live_running low]⟩

/-- R189: every command's step takes the head in one way. -/
theorem exec_commandStep {l : SrcLink} {c : Instr} {s : State} (hc : c ∈ commandSteps l) (low : s.resetLow = false) :
    ∃ mine f, exec c s = .next (takeControl l mine f s) := by
  simp only [commandSteps, List.mem_cons, List.not_mem_nil, or_false] at hc
  obtain rfl | rfl | rfl | rfl | rfl | rfl | rfl | rfl | rfl | rfl | rfl | rfl | rfl | rfl | rfl | rfl | rfl | rfl |
    rfl | rfl := hc
  all_goals exact exec_control low _ _ rfl

section
variable {l : SrcLink} {i : SlotIx} {g : Segment} {s : State} (h : AtHead l i g s) (hk : g.kind = 7)
  (mine : Segment → Bool) (f : Segment → State → State)
include h hk

/-- R16: a CONTROL segment whose header fails. -/
theorem takeControl_refused (hg : g.headerOk = false) :
    takeControl l mine f s = endProcessing l (loseOne .malformed s) := by
  have plain : g.isData = false := by unfold Segment.isData; rw [hk]; rfl
  unfold takeControl
  rw [h.segment]
  dsimp only
  rw [if_pos hk, if_neg (by rw [hg]; exact Bool.false_ne_true), refuseHeader_plain plain]

variable (hg : g.headerOk = true)
include hg

/-- R188: a foreign one. -/
theorem takeControl_foreign (ha : s.src[l].headAddressed = some false) :
    takeControl l mine f s = endProcessing l (loseOne .foreign s) := by
  unfold takeControl headDecision
  rw [h.segment, ha]
  dsimp only
  rw [if_pos hk, if_pos hg]
  exact if_neg Bool.false_ne_true

theorem takeControl_addressed (ha : s.src[l].headAddressed = some true) :
    takeControl l mine f s = takeCommand l mine f g s := by
  unfold takeControl headDecision
  rw [h.segment, ha]
  dsimp only
  rw [if_pos hk, if_pos hg]
  exact if_pos rfl

/-- R17: one that waits for a place in the reply queue. -/
theorem takeControl_held (ha : s.src[l].headAddressed = some true) (hr : 4 ≤ s.src[l].replies.length) :
    takeControl l mine f s = s := by
  rw [takeControl_addressed h hk mine f hg ha]
  exact if_pos hr

/-- R189: one of an unknown code. -/
theorem takeControl_unknown (ha : s.src[l].headAddressed = some true) (hr : s.src[l].replies.length < 4)
    (hc : g.command = 0 ∨ 18 < g.command) : takeControl l mine f s = answerHead l g (.refuse .unknownCommand s) := by
  have code : ¬ isCommand g.command = true := by
    unfold isCommand
    rw [decide_eq_true_eq]
    omega
  rw [takeControl_addressed h hk mine f hg ha]
  unfold takeCommand
  have room : ¬ Config.replyCap ≤ s.src[l].replies.length := Nat.not_le.mpr hr
  rw [if_neg room, if_neg code]

end

/-! ### The refusals together -/

/-- R15, R16: a kind below 4 or from 8 on is no data kind. -/
theorem isData_false {g : Segment} (h : g.kind.toNat < 4 ∨ 8 ≤ g.kind.toNat) : g.isData = false := by
  have ne : ∀ k : Byte, 4 ≤ k.toNat ∧ k.toNat < 8 → (g.kind == k) = false := fun k hk =>
    beq_eq_false_iff_ne.mpr fun e => by rw [e] at h; omega
  unfold Segment.isData
  rw [ne 4 (by decide), ne 5 (by decide), ne 6 (by decide)]
  rfl

/-- R15: a header of an unknown kind fails its checks. -/
theorem headerOk_unknown {g : Segment} (h : 8 ≤ g.kind.toNat) : g.headerOk = false := by
  unfold Segment.headerOk
  rw [decide_eq_false (Nat.not_lt.mpr h)]
  rfl

/-- R13: the step of a card event or an OPEN takes the head by its kind. -/
theorem exec_cardStep {l : SrcLink} {i : SlotIx} {g : Segment} {s : State} (h : AtHead l i g s) (hk : g.kind.toNat < 4) :
    ∃ (kind : Segment → Bool) (f : Segment → State → State), kind g = true ∧
      exec (cardStep l g.kind) s = .next (takeHead l kind f s) := by
  have four : g.kind = 0 ∨ g.kind = 1 ∨ g.kind = 2 ∨ g.kind = 3 := by
    have split : g.kind.toNat = 0 ∨ g.kind.toNat = 1 ∨ g.kind.toNat = 2 ∨ g.kind.toNat = 3 := by omega
    exact split.imp (fun e => BitVec.eq_of_toNat_eq e) fun r => r.imp (fun e => BitVec.eq_of_toNat_eq e) fun r =>
      r.imp (fun e => BitVec.eq_of_toNat_eq e) fun e => BitVec.eq_of_toNat_eq e
  obtain e | e | e | e := four
  · rw [e]
    exact ⟨ofKind 0, takeMount l, beq_iff_eq.mpr e, live_running h.1 fun s => .next (takeHead l (ofKind 0) (takeMount l) s)⟩
  · rw [e]
    exact ⟨ofKind 1, takeUnmount l, beq_iff_eq.mpr e,
      live_running h.1 fun s => .next (takeHead l (ofKind 1) (takeUnmount l) s)⟩
  · rw [e]
    exact ⟨ofKind 2, takeCardEnd l, beq_iff_eq.mpr e,
      live_running h.1 fun s => .next (takeHead l (ofKind 2) (takeCardEnd l) s)⟩
  · rw [e]
    exact ⟨ofKind 3, takeOpen l, beq_iff_eq.mpr e, live_running h.1 fun s => .next (takeHead l (ofKind 3) (takeOpen l) s)⟩

/-- R30, R43: a CARD_END or an OPEN without a card under its handle. -/
theorem exec_cardStep_noCard {l : SrcLink} {i : SlotIx} {g : Segment} {s : State} (h : AtHead l i g s)
    (hk : g.kind = 2 ∨ g.kind = 3) (hg : g.headerOk = true) (hc : cardByHandle (g.handle l) s = none) :
    exec (cardStep l g.kind) s = .next (endProcessing l (loseOne .malformed s)) := by
  obtain e | e := hk
  · have run : exec (cardStep l g.kind) s = .next (takeHead l (ofKind 2) (takeCardEnd l) s) := by
      rw [e]
      exact live_running h.1 fun s => .next (takeHead l (ofKind 2) (takeCardEnd l) s)
    rw [run, takeHead_taken h (kind := ofKind 2) _ (beq_iff_eq.mpr e) hg, takeCardEnd, hc]
  · have run : exec (cardStep l g.kind) s = .next (takeHead l (ofKind 3) (takeOpen l) s) := by
      rw [e]
      exact live_running h.1 fun s => .next (takeHead l (ofKind 3) (takeOpen l) s)
    rw [run, takeHead_taken h (kind := ofKind 3) _ (beq_iff_eq.mpr e) hg, takeOpen, hc]

/-- Settles O12: by the kind of the segment at the head and by what the card and file tables hold for it. -/
theorem refusals : Obligations.Refusals := by
  intro l i g s h
  refine ⟨fun hk => ?_, fun hk hg => ?_, fun hd hg => ⟨fun noCard => ?_, fun c k hold => ⟨fun hr => ?_, fun hr none => ?_,
    fun j f hr names => ⟨fun hs => ?_, fun hs => ?_⟩⟩⟩, fun hd hg => ⟨fun noCard => ?_, fun c k hold => ⟨fun hr => ?_,
    fun hr other => ?_⟩⟩, fun hk hg noCard => ?_, fun hk c hc => ?_⟩
  · -- R15: an unknown kind
    have run : exec (.unknownKindSegment l) s =
        .next (takeHead l (fun g => decide (8 ≤ g.kind.toNat)) (fun _ s => s) s) :=
      live_running h.1 fun s => .next (takeHead l (fun g => decide (8 ≤ g.kind.toNat)) (fun _ s => s) s)
    rw [run, takeHead_refused h _ (decide_eq_true hk) (headerOk_unknown hk), refuseHeader_plain (isData_false (.inr hk))]
    exact ⟨_, rfl, h.malformed⟩
  · -- R16: a card event or an OPEN
    obtain ⟨kind, f, taken, run⟩ := exec_cardStep h hk
    rw [run, takeHead_refused h f taken hg, refuseHeader_plain (isData_false (.inl hk))]
    exact ⟨_, rfl, h.malformed⟩
  · -- R16: a data segment
    rw [exec_dataStep_refused h hd hg, refuseData_noCard (cardByHandle_none noCard)]
    exact ⟨_, rfl, h.malformed⟩
  · rw [exec_dataStep_refused h hd hg, refuseData_refused (cardByHandle_some hold) hold.1 hr]
    exact ⟨_, rfl, h.dropped⟩
  · rw [exec_dataStep_refused h hd hg,
      refuseData_noFile (cardByHandle_some hold) hold.1 hr (fileByNumber_none none)]
    exact ⟨_, rfl, h.malformed⟩
  · rw [exec_dataStep_refused h hd hg, refuseData_settling (cardByHandle_some hold) hold.1 hr (fileByNumber_some names)
      names.1 hs]
    obtain ⟨frame, processed, logged⟩ := h.sequenceLogged hold.1 g.fileNumber (g.offset % 2 ^ 48)
    obtain ⟨-, -, number, -⟩ := names
    rw [number]
    exact ⟨_, rfl, frame, processed, fun room => (logged room).2⟩
  · rw [exec_dataStep_refused h hd hg, refuseData_streaming (cardByHandle_some hold) hold.1 hr (fileByNumber_some names)
      names.1 hs]
    obtain ⟨hf, rfl, -, -⟩ := names
    exact ⟨_, rfl, breakFile_breaks _ hf hold.1 h.queued⟩
  · -- R35: a data segment whose header is good
    rw [exec_dataStep_taken h hd hg, takeData_noCard (cardByHandle_none noCard)]
    exact ⟨_, rfl, h.malformed⟩
  · rw [exec_dataStep_taken h hd hg, takeData_refused (cardByHandle_some hold) hold.1 hr]
    exact ⟨_, rfl, h.dropped⟩
  · have logs : takeData l g s = logCardFile .sequence c g.fileNumber [g.offset] s := by
      obtain none | ⟨j, f, names, hs⟩ := other
      · exact takeData_noFile (cardByHandle_some hold) hold.1 hr (fileByNumber_none none)
      · exact takeData_settling (cardByHandle_some hold) hold.1 hr (fileByNumber_some names) names.1 h.2.1 hs
    rw [exec_dataStep_taken h hd hg, logs]
    exact ⟨_, rfl, h.sequenceLogged hold.1 g.fileNumber g.offset⟩
  · -- R30, R43: no card under the handle
    rw [exec_cardStep_noCard h hk hg (cardByHandle_none noCard)]
    exact ⟨_, rfl, h.malformed⟩
  · -- R16, R17, R188, R189: a CONTROL segment
    obtain ⟨mine, f, run⟩ := exec_commandStep hc h.1
    rw [run]
    refine ⟨fun hg => ?_, fun hg ha => ?_, fun hg ha hr => ?_, fun hg ha hr code => ?_⟩
    · rw [takeControl_refused h hk mine f hg]
      exact ⟨_, rfl, h.malformed⟩
    · rw [takeControl_foreign h hk mine f hg ha]
      have frame := endProcessing_frame l (loseOne .foreign s)
      unfold SlotsOnly at frame
      exact ⟨_, rfl, frame, h.processed rfl rfl⟩
    · rw [takeControl_held h hk mine f hg ha hr]
    · rw [takeControl_unknown h hk mine f hg ha hr code]
      exact ⟨_, rfl, answerHead_frame l g (.refuse .unknownCommand s),
        answerHead_spec l i g (.refuse .unknownCommand s) s h.2.1 h.2.2 rfl rfl⟩

end Sys2Proof.Machine
end

