-- ==== Sys2Proof/Proofs/Verdicts.lean ====
section
/-! PROOF. What keeps the verdicts of the cards the rule's (R23, R24): the relation `VerdictsKept`, and `VerdictsKeptBut`
for what is between a change of one card's files and the evaluation of its verdict. -/

namespace Sys2Proof.Machine

open Sys2Proof

/-! ### What a verdict depends on -/

/-- R24: the file is STREAMING or SETTLING. -/
def FileRec.moving (f : FileRec) : Bool := f.state == .streaming || f.state == .settling

/-- R24: what the rule looks at in a file record. -/
def FileRec.standing (f : FileRec) : CardIx × Bool := (f.card, f.moving)

/-- R23, R24: what the rule looks at in a card record, and the verdict. -/
def Card.judgement (k : Card) : Bytes × Bool × Bool × Verdict := (k.label, k.ended, k.lostMark, k.verdict)

theorem isFileOf_all (s : State) (c : CardIx) (j : FileIx) :
    isFileOf s c (fun _ => true) j = (s.files[j].file.map FileRec.standing).any fun x => x.1 == c := by
  unfold isFileOf
  cases s.files[j].file <;> simp [FileRec.standing]

theorem isFileOf_moving (s : State) (c : CardIx) (j : FileIx) :
    isFileOf s c FileRec.moving j = (s.files[j].file.map FileRec.standing).any fun x => x.1 == c && x.2 := by
  unfold isFileOf
  cases s.files[j].file <;> simp [FileRec.standing]

/-- R24: the rule, with its two questions about the card's files. -/
theorem verdictOf_rule (s : State) (c : CardIx) (k : Card) : verdictOf s c k =
    if k.ended && (firstIx (isFileOf s c fun _ => true)).isNone && !s.log.any (·.holds k.label) && !k.lostMark then
      .releasable
    else if k.ended && (firstIx (isFileOf s c FileRec.moving)).isNone then .held else .pending := rfl

/-- R24: cards of the same label, flag and mark, with files in the same standing, have the same verdict. -/
theorem verdictOf_standing {s t : State} {c : CardIx} {k k' : Card}
    (hfiles : ∀ j : FileIx, (∃ f, s.files[j].file = some f ∧ f.card = c) ∨ (∃ f, t.files[j].file = some f ∧ f.card = c) →
      t.files[j].file.map FileRec.standing = s.files[j].file.map FileRec.standing)
    (hlog : t.log.any (·.holds k.label) = s.log.any (·.holds k.label)) (hl : k'.label = k.label)
    (he : k'.ended = k.ended) (hm : k'.lostMark = k.lostMark) : verdictOf t c k' = verdictOf s c k := by
  have other : ∀ (u : State) (j : FileIx) (q : CardIx × Bool → Bool), (¬ ∃ f, u.files[j].file = some f ∧ f.card = c) →
      ((u.files[j].file.map FileRec.standing).any fun x => x.1 == c && q x) = false := fun u j q no => by
    cases hf : u.files[j].file with
    | none => rfl
    | some f =>
      have ne : (f.card == c) = false := beq_eq_false_iff_ne.mpr fun e => no ⟨f, hf, e⟩
      simp [FileRec.standing, ne]
  have same : ∀ (j : FileIx) (q : CardIx × Bool → Bool),
      ((t.files[j].file.map FileRec.standing).any fun x => x.1 == c && q x) =
        (s.files[j].file.map FileRec.standing).any fun x => x.1 == c && q x := fun j q => by
    by_cases h : (∃ f, s.files[j].file = some f ∧ f.card = c) ∨ ∃ f, t.files[j].file = some f ∧ f.card = c
    · rw [hfiles j h]
    · rw [other s j q fun x => h (.inl x), other t j q fun x => h (.inr x)]
  have all : isFileOf t c (fun _ => true) = isFileOf s c fun _ => true := funext fun j => by
    rw [isFileOf_all, isFileOf_all]
    simpa using same j fun _ => true
  have moving : isFileOf t c FileRec.moving = isFileOf s c FileRec.moving := funext fun j => by
    rw [isFileOf_moving, isFileOf_moving]
    exact same j Prod.snd
  rw [verdictOf_rule, verdictOf_rule, all, moving, hl, he, hm, hlog]

theorem verdictOf_holds {s t : State} {c : CardIx} {k : Card} (hfiles : t.files = s.files)
    (hlog : t.log.any (·.holds k.label) = s.log.any (·.holds k.label)) : verdictOf t c k = verdictOf s c k :=
  verdictOf_standing (fun j _ => by rw [hfiles]) hlog rfl rfl rfl

/-! ### The relations -/

/-- R23, R24: whatever verdicts were the rule's still are. -/
def VerdictsKept (s t : State) : Prop := ∀ p : CardIx → Prop, VerdictsFor p s → VerdictsFor p t

/-- R23, R24: whatever verdicts were the rule's still are, but for that of the card at `c`. -/
def VerdictsKeptBut (c : CardIx) (s t : State) : Prop :=
  ∀ p : CardIx → Prop, VerdictsFor p s → VerdictsFor (fun x => p x ∧ x ≠ c) t

theorem VerdictsFor.weaken {p q : CardIx → Prop} {s : State} (h : VerdictsFor p s) (hq : ∀ c, q c → p c) :
    VerdictsFor q s := ⟨fun c k hc => h.1 c k (hq c hc), h.2⟩

theorem VerdictsKept.refl (s : State) : VerdictsKept s s := fun _ => id

section
variable {s t u : State} {c : CardIx}

theorem VerdictsKept.trans (h : VerdictsKept s t) (k : VerdictsKept t u) : VerdictsKept s u := fun p v => k p (h p v)

theorem VerdictsKept.law (h : VerdictsKept s t) (law : VerdictLaw s) : VerdictLaw t :=
  (verdictsFor_all t).mp (h _ ((verdictsFor_all s).mpr law))

theorem VerdictsKept.but (h : VerdictsKept s t) : VerdictsKeptBut c s t := fun p v => (h p v).weaken fun _ => And.left

theorem VerdictsKeptBut.then (h : VerdictsKeptBut c s t) (k : VerdictsKept t u) : VerdictsKeptBut c s u :=
  fun p v => k _ (h p v)

theorem VerdictsKeptBut.trans (h : VerdictsKeptBut c s t) (k : VerdictsKeptBut c t u) : VerdictsKeptBut c s u :=
  fun p v => (k _ (h p v)).weaken fun _ hx => ⟨hx, hx.2⟩

/-- R24: the evaluation of the card's verdict makes up for it. -/
theorem VerdictsKeptBut.reeval (h : VerdictsKeptBut c s t) : VerdictsKept s (reeval c t) := fun p v =>
  ((h p v).reeval c).weaken fun x hx => (Classical.em (x = c)).symm.imp_left fun ne => ⟨hx, ne⟩

/-- R47: so does the end of the card record. -/
theorem VerdictsKeptBut.putNone (h : VerdictsKeptBut c s t) : VerdictsKept s (putCard c none t) := fun p v => by
  have same : ∀ (x : CardIx) (k : Card), (putCard c none t).cards[x] = some k → x ≠ c ∧ t.cards[x] = some k :=
    fun x k hk => by
      rw [putCard_cards, vmod_get] at hk
      split at hk
      · cases hk
      · next e => exact ⟨e, hk⟩
  refine ⟨fun x k hx hk => ?_, fun x y k k' hk hk' => (h p v).2 x y k k' (same x k hk).2 (same y k' hk').2⟩
  obtain ⟨ne, hk⟩ := same x k hk
  exact ((h p v).1 x k ⟨hx, ne⟩ hk).trans (verdictOf_same rfl rfl rfl).symm

/-- What the rule looks at has not changed, and neither have the verdicts. -/
theorem VerdictsKept.of_standing (hcards : ∀ x : CardIx, t.cards[x].map Card.judgement = s.cards[x].map Card.judgement)
    (hfiles : ∀ j : FileIx, t.files[j].file.map FileRec.standing = s.files[j].file.map FileRec.standing)
    (hlog : ∀ label, t.log.any (·.holds label) = s.log.any (·.holds label)) : VerdictsKept s t := fun p v => by
  have before : ∀ (x : CardIx) (k : Card), t.cards[x] = some k → ∃ k₀, s.cards[x] = some k₀ ∧
      k₀.judgement = k.judgement := fun x k hk => by
    have e := hcards x
    rw [hk] at e
    exact Option.map_eq_some_iff.mp e.symm
  refine ⟨fun x k hx hk => ?_, fun x y k k' hk hk' e => ?_⟩
  · obtain ⟨k₀, hk₀, e⟩ := before x k hk
    simp only [Card.judgement, Prod.mk.injEq] at e
    obtain ⟨label, ended, mark, verdict⟩ := e
    rw [← verdict, v.1 x k₀ hx hk₀]
    exact (verdictOf_standing (fun j _ => hfiles j) (hlog _) label.symm ended.symm mark.symm).symm
  · obtain ⟨k₀, hk₀, e₀⟩ := before x k hk
    obtain ⟨k₁, hk₁, e₁⟩ := before y k' hk'
    simp only [Card.judgement, Prod.mk.injEq] at e₀ e₁
    exact v.2 x y k₀ k₁ hk₀ hk₁ (by rw [e₀.1, e₁.1, e])

/-- What leaves the cards, the files and the log keeps the verdicts. -/
theorem VerdictsKept.same (hcards : t.cards = s.cards) (hfiles : t.files = s.files) (hlog : t.log = s.log) :
    VerdictsKept s t :=
  .of_standing (fun x => by rw [hcards]) (fun j => by rw [hfiles]) fun label => by rw [hlog]

/-- What leaves the cards, the files and the log may come first. -/
theorem VerdictsKept.after (k : VerdictsKept t u) (hcards : t.cards = s.cards) (hfiles : t.files = s.files)
    (hlog : t.log = s.log) : VerdictsKept s u := (VerdictsKept.same hcards hfiles hlog).trans k

theorem SlotsOnly.verdicts (h : SlotsOnly s t) : VerdictsKept s t := by
  unfold SlotsOnly at h; exact .same (by rw [h]) (by rw [h]) (by rw [h])
theorem DestOnly.verdicts (h : DestOnly s t) : VerdictsKept s t := by
  unfold DestOnly at h; exact .same (by rw [h]) (by rw [h]) (by rw [h])
theorem StallOnly.verdicts (h : StallOnly s t) : VerdictsKept s t := .same h.cards h.files h.log
theorem EnginesOnly.verdicts (h : EnginesOnly s t) : VerdictsKept s t := .same h.cards h.files h.log

/-- A part without card records has no verdict. -/
theorem VerdictsKept.of_none (h : ∀ x : CardIx, t.cards[x] = none) : VerdictsKept s t := fun _ _ =>
  ⟨fun x k _ hk => absurd ((h x).symm.trans hk) (Option.some_ne_none k).symm,
    fun x _ k _ hk => absurd ((h x).symm.trans hk) (Option.some_ne_none k).symm⟩

/-- Only files of the card at `c` and its own record, but not its label, have changed. -/
theorem VerdictsKeptBut.of_card (hcards : ∀ x, x ≠ c → t.cards[x] = s.cards[x])
    (hlabel : t.cards[c].map Card.label = s.cards[c].map Card.label)
    (hfiles : ∀ j : FileIx, t.files[j] = s.files[j] ∨
      (∀ f, s.files[j].file = some f → f.card = c) ∧ ∀ f, t.files[j].file = some f → f.card = c)
    (hlog : t.log = s.log) : VerdictsKeptBut c s t := fun p v => by
  have labels : ∀ x : CardIx, t.cards[x].map Card.label = s.cards[x].map Card.label := fun x => by
    by_cases e : x = c
    · rw [e, hlabel]
    · rw [hcards x e]
  refine ⟨fun x k hx hk => ?_, fun x y k k' hk hk' e => ?_⟩
  · rw [hcards x hx.2] at hk
    rw [v.1 x k hx.1 hk]
    refine (verdictOf_standing (fun j has => ?_) (by rw [hlog]) rfl rfl rfl).symm
    obtain same | ⟨olds, news⟩ := hfiles j
    · rw [same]
    · obtain ⟨f, hf, e⟩ | ⟨f, hf, e⟩ := has
      · exact absurd (e.symm.trans (olds f hf)) hx.2
      · exact absurd (e.symm.trans (news f hf)) hx.2
  · have lx := labels x
    have ly := labels y
    rw [hk] at lx
    rw [hk'] at ly
    obtain ⟨k₀, hk₀, e₀⟩ := Option.map_eq_some_iff.mp lx.symm
    obtain ⟨k₁, hk₁, e₁⟩ := Option.map_eq_some_iff.mp ly.symm
    exact v.2 x y k₀ k₁ hk₀ hk₁ (by rw [e₀, e₁, e])

end

/-- A fold of operations that keep the verdicts keeps them. -/
theorem VerdictsKept.foldl {α : Type} (f : State → α → State) (h : ∀ s a, VerdictsKept s (f s a)) (as : List α)
    (s : State) : VerdictsKept s (as.foldl f s) :=
  foldl_keeps VerdictsKept VerdictsKept.refl (fun _ _ _ => VerdictsKept.trans) f h as s

/-! ### Elementary updates -/

/-- A change of one card record that the rule does not look at. -/
theorem modCard_verdicts (c : CardIx) (f : Card → Card) (s : State) (h : ∀ k, (f k).judgement = k.judgement) :
    VerdictsKept s (modCard c f s) := by
  refine .of_standing (fun x => ?_) (fun _ => rfl) fun _ => rfl
  rw [modCard_cards, vmod_get]
  split
  · next e =>
    rw [e, Option.map_map]
    exact congrArg (fun g => s.cards[c].map g) (funext h)
  · rfl

/-- A change of one card record that keeps its label. -/
theorem modCard_verdictsBut (c : CardIx) (f : Card → Card) (s : State) (h : ∀ k, (f k).label = k.label) :
    VerdictsKeptBut c s (modCard c f s) := by
  refine .of_card (fun x hx => by rw [modCard_cards, vmod_get, if_neg hx]) ?_ (fun _ => .inl rfl) rfl
  rw [modCard_cards, vmod_self, Option.map_map]
  exact congrArg (fun g => s.cards[c].map g) (funext h)

/-- A change of one file record that the rule does not look at. -/
theorem modFile_verdicts (i : FileIx) (f : FileRec → FileRec) (s : State) (h : ∀ k, (f k).standing = k.standing) :
    VerdictsKept s (modFile i f s) := by
  refine .of_standing (fun _ => rfl) (fun j => ?_) fun _ => rfl
  rw [modFile_files, vmod_get]
  split
  · next e =>
    rw [e, Option.map_map]
    exact congrArg (fun g => s.files[i].file.map g) (funext h)
  · rfl

/-- A change of one file position that holds records of the card `c` alone. -/
theorem files_verdictsBut {c : CardIx} (i : FileIx) {s t : State} (hcards : t.cards = s.cards) (hlog : t.log = s.log)
    (hfiles : ∀ j : FileIx, j ≠ i → t.files[j] = s.files[j]) (olds : ∀ f, s.files[i].file = some f → f.card = c)
    (news : ∀ f, t.files[i].file = some f → f.card = c) : VerdictsKeptBut c s t :=
  .of_card (fun x _ => by rw [hcards]) (by rw [hcards]) (fun j => by
    by_cases e : j = i
    · rw [e]; exact .inr ⟨olds, news⟩
    · exact .inl (hfiles j e)) hlog

theorem modAssembly_verdicts (i : FileIx) (f : Assembly → Assembly) (s : State) : VerdictsKept s (modAssembly i f s) :=
  modFile_verdicts i _ s fun _ => rfl

theorem setCopy_verdicts (i : FileIx) (d : Dest) (x : CopyState) (s : State) : VerdictsKept s (setCopy i d x s) :=
  modFile_verdicts i _ s fun _ => rfl

/-! ### The Fault Log -/

/-- R178: an ACKED record that leaves the log held no verdict. -/
theorem removeFirst_holds (log : List FaultRec) (label : Bytes) :
    (removeFirst (·.state == .acked) log).any (·.holds label) = log.any (·.holds label) := by
  induction log with
  | nil => rfl
  | cons r rest ih =>
    unfold removeFirst
    split
    · next acked =>
      have no : r.holds label = false := by
        unfold FaultRec.holds
        rw [eq_of_beq acked]
        rfl
      rw [List.any_cons, no, Bool.false_or]
    · rw [List.any_cons, List.any_cons, ih]

theorem roomInLog_holds (log : List FaultRec) (label : Bytes) :
    (roomInLog log).any (·.holds label) = log.any (·.holds label) := by
  unfold roomInLog
  split
  · rfl
  · exact removeFirst_holds log label

theorem offerNotice_verdicts (n : NoticeItem) (s : State) : VerdictsKept s (offerNotice n s) := by
  unfold offerNotice
  split <;> exact .same rfl rfl rfl

theorem reeval_verdicts (c : CardIx) (s : State) : VerdictsKept s (reeval c s) := (VerdictsKept.refl s).but.reeval

/-- R24, R180: the announcement of a record evaluates the verdict that the record may have changed. -/
theorem announceRecord_verdicts {p : CardIx → Prop} {r : FaultRec} {s : State}
    (h : VerdictsFor (fun c => p c ∧ ∀ k, s.cards[c] = some k → r.holds k.label = false) s) :
    VerdictsFor p (announceRecord r s) := by
  unfold announceRecord
  dsimp only
  generalize ht : (if s.part.notices = true then offerNotice (NoticeItem.fault r) s else s) = t
  have kept : VerdictsKept s t := by
    rw [← ht]
    split
    · exact offerNotice_verdicts _ s
    · exact .refl s
  have cards : t.cards = s.cards := by
    rw [← ht]
    split
    · exact offerNotice_cards _ s
    · rfl
  split
  · next label hs hl =>
    refine VerdictsFor.reevalLabel ((kept _ h).weaken fun c hc => ⟨hc.1, fun k hk => ?_⟩)
    have ne := hc.2
    rw [cards, hk] at ne
    unfold FaultRec.holds
    rw [hl, show (some label == some k.label) = false from beq_eq_false_iff_ne.mpr fun e => ne e.symm]
    exact Bool.and_false _
  · next other =>
    refine (kept _ h).weaken fun c hc => ⟨hc, fun k _ => ?_⟩
    cases hh : r.holds k.label with
    | false => rfl
    | true =>
      simp only [FaultRec.holds, Bool.and_eq_true, beq_iff_eq] at hh
      exact absurd hh.2 (other k.label hh.1.2)

theorem storeRecord_verdicts (r : FaultRec) (s : State) : VerdictsKept s (storeRecord r s) :=
  fun p v => by
    refine announceRecord_verdicts ⟨fun c k hc hk => ?_, v.2⟩
    rw [v.1 c k hc.1 hk]
    refine (verdictOf_holds (by rfl) ?_).symm
    rw [List.any_append, roomInLog_holds, List.any_cons, hc.2 k hk]
    simp

/-- R179: the loss of a record marks a card, whose verdict is evaluated. -/
theorem loseRecord_verdicts (r : FaultRec) (s : State) : VerdictsKept s (loseRecord r s) := by
  have lost : VerdictsKept s (loseOne .faultsLost s) := .same rfl rfl rfl
  unfold loseRecord
  dsimp only
  split
  · exact lost
  split
  · exact lost
  · next c _ =>
    exact lost.trans (modCard_verdictsBut c (fun k => { k with lostMark := true }) _ fun _ => rfl).reeval

theorem logFault_verdicts (r : FaultRec) (s : State) : VerdictsKept s (logFault r s) := by
  unfold logFault
  split
  · exact storeRecord_verdicts r s
  · exact loseRecord_verdicts r s

/-- R24, R183: the evaluations after an acknowledgement reach every card that one of the records named. -/
theorem reevalLabels_verdicts {p : CardIx → Prop} (rs : List FaultRec) (s : State)
    (h : VerdictsFor (fun c => p c ∧ ∀ r ∈ rs, r.severity = .hold → r.label ≠ none →
      r.label ≠ s.cards[c].map Card.label) s) :
    VerdictsFor p (rs.foldl (fun s r =>
      match r.severity, r.label with
      | .hold, some label => reevalLabel label s
      | _, _ => s) s) := by
  induction rs generalizing s with
  | nil => exact h.weaken fun c hc => ⟨hc, fun r hr => absurd hr List.not_mem_nil⟩
  | cons r rest ih =>
    rw [List.foldl_cons]
    refine ih _ ?_
    split
    · next label hs hl =>
      refine VerdictsFor.reevalLabel (h.weaken fun c hc => ⟨hc.1.1, fun q hq hold some => ?_⟩)
      obtain rfl | hq := List.mem_cons.mp hq
      · rw [hl]; exact Ne.symm hc.2
      · rw [← (reevalLabel_judged label s).marked.label]
        exact hc.1.2 q hq hold some
    · next other =>
      refine h.weaken fun c hc => ⟨hc.1, fun q hq hold some => ?_⟩
      obtain rfl | hq := List.mem_cons.mp hq
      · obtain ⟨label, hl⟩ := Option.ne_none_iff_exists'.mp some
        exact absurd hl (other label hold)
      · exact hc.2 q hq hold some

theorem ackRecords_verdicts (p : FaultRec → Bool) (s : State) : VerdictsKept s (ackRecords p s) := fun q v => by
  unfold ackRecords
  refine reevalLabels_verdicts _ _ ⟨fun c k hc hk => ?_, v.2⟩
  rw [v.1 c k hc.1 hk]
  refine (verdictOf_holds (by rfl) ?_).symm
  dsimp only
  rw [List.any_map]
  refine Bool.eq_iff_iff.mpr ?_
  simp only [List.any_eq_true]
  refine exists_congr fun r => and_congr_right fun hr => ?_
  show FaultRec.holds (if p r = true then r.ack else r) k.label = true ↔ r.holds k.label = true
  split
  · next hp =>
    have acked : r.ack.holds k.label = false := rfl
    rw [acked]
    refine ⟨fun h => absurd h Bool.false_ne_true, fun h => ?_⟩
    simp only [FaultRec.holds, Bool.and_eq_true, beq_iff_eq] at h
    obtain ⟨⟨opened, hold⟩, label⟩ := h
    have named := hc.2 r (List.mem_filter.mpr ⟨hr, by rw [hp, opened]; rfl⟩) hold
      (by rw [label]; exact Option.some_ne_none _)
    rw [hk] at named
    exact absurd label named
  · exact Iff.rfl

end Sys2Proof.Machine
end

