-- ==== Sys2Proof/Proofs/FileVerdicts.lean ====
section
/-! PROOF. The operations on channels, look engines, file records and destinations keep the verdicts (R24), in the order of
their definitions. -/

namespace Sys2Proof.Machine

open Sys2Proof

/-! ### Channels and pictures (chapters 6 and 8) -/

theorem modChannel_verdicts (c : Channel) (f : ChannelRec → ChannelRec) (s : State) :
    VerdictsKept s (modChannel c f s) := .same rfl rfl rfl

/-- R181: a merge changes neither a record's state nor its severity nor its label. -/
theorem mergeInto_verdicts (cls : FaultClass) (key : Nat) (c : Channel) (p : Fin 8) (frame : Nat) (s : State) :
    VerdictsKept s (mergeInto cls key c p frame s) := by
  refine .of_standing (fun _ => rfl) (fun _ => rfl) fun label => ?_
  unfold mergeInto
  rw [List.any_map]
  congr 1
  funext r
  dsimp only [Function.comp]
  split <;> rfl

theorem reportFlip_verdicts (c : Channel) (p : Fin 8) (dir : FlipDirection) (frame value : Nat) (s : State) :
    VerdictsKept s (reportFlip c p dir frame value s) := by
  unfold reportFlip
  split
  · exact mergeInto_verdicts _ _ c p frame s
  · exact (logFault_verdicts _ s).trans (modChannel_verdicts c _ _)

theorem evalProbe_verdicts (c : Channel) (m : Measures) (frame : Nat) (p : Fin 8) (s : State) :
    VerdictsKept s (evalProbe c m frame p s) := by
  unfold evalProbe
  dsimp only
  split
  · split
    · exact .refl s
    · have stored : ∀ x, VerdictsKept s (modProbe c p (fun _ => x) s) := fun _ => modChannel_verdicts c _ s
      split <;> split
      · exact (stored _).trans (reportFlip_verdicts c p _ frame _ _)
      · exact stored _
      · exact (stored _).trans (reportFlip_verdicts c p _ frame _ _)
      · exact stored _
  · exact .refl s

theorem evalProbes_verdicts (c : Channel) (m : Measures) (frame : Nat) (s : State) :
    VerdictsKept s (evalProbes c m frame s) := .foldl _ (fun s p => evalProbe_verdicts c m frame p s) _ s

theorem evaluateTest_verdicts (c : Channel) (s : State) : VerdictsKept s (evaluateTest c s) := by
  unfold evaluateTest
  split
  · dsimp only
    split <;> exact (evalProbes_verdicts _ _ _ s).trans (modChannel_verdicts _ _ _)
  · exact .refl s

theorem toChannel_verdicts (i : FileIx) (f : Channel → State → State) (s : State) (h : ∀ c, VerdictsKept s (f c s)) :
    VerdictsKept s (toChannel i f s) := by
  unfold toChannel
  split
  · exact .refl s
  · exact h _

theorem logPartial_verdicts (i : FileIx) (frame : Nat) (c : PartialCause) (s : State) :
    VerdictsKept s (logPartial i frame c s) := by
  unfold logPartial
  split
  · exact .refl s
  · exact logFault_verdicts _ s

theorem closePartial_verdicts (i : FileIx) (s : State) : VerdictsKept s (closePartial i s) := by
  unfold closePartial
  split
  · exact .refl s
  · exact (modAssembly_verdicts i _ s).trans
      ((toChannel_verdicts i _ _ fun c => modChannel_verdicts c _ _).trans (logPartial_verdicts i _ _ _))

theorem evaluated_verdicts (c : Channel) (l : SrcLink) (m : Measures) (frame : Nat) (f : ChannelRec → ChannelRec)
    (s : State) :
    VerdictsKept s (modChannel c f (evalProbes c m frame (countEvent .framesInspected (.link l) 1 s))) :=
  ((evalProbes_verdicts c m frame _).trans (modChannel_verdicts c f _)).after rfl rfl rfl

theorem completeFrame_verdicts (i : FileIx) (l : SrcLink) (frame : Nat) (m : FormatEntry) (s : State) :
    VerdictsKept s (completeFrame i l frame m s) := by
  unfold completeFrame
  split
  · exact .refl s
  · exact (modAssembly_verdicts i _ s).trans (toChannel_verdicts i _ _ fun c => evaluated_verdicts c l _ frame _ _)

theorem parseSegment_verdicts (i : FileIx) (l : SrcLink) (m : FormatEntry) (g : Segment) (s : State) :
    VerdictsKept s (parseSegment i l m g s).1 := by
  have h : VerdictsKept s (toChannel i (fun c => gather c (pixelsOf m.packing g.payload) g.lineCount)
      (modAssembly i (fun a => { a with
        digest := a.digest.map fun d => d.advance g.payload, nextLine := g.firstLine + g.lineCount }) s)) :=
    (modAssembly_verdicts i _ s).trans (toChannel_verdicts i _ _ fun c => modChannel_verdicts c _ _)
  unfold parseSegment
  dsimp only
  split
  · exact h.trans (completeFrame_verdicts i l _ m _)
  · exact h

theorem beginAssembly_verdicts (i : FileIx) (g : Segment) (s : State) : VerdictsKept s (beginAssembly i g s) := by
  unfold beginAssembly
  dsimp only
  split
  · exact modAssembly_verdicts i _ s
  · exact (modAssembly_verdicts i _ s).trans (toChannel_verdicts i _ _ fun c => modChannel_verdicts c _ _)

theorem placeGreater_verdicts (i : FileIx) (l : SrcLink) (m : FormatEntry) (g : Segment) (s : State) :
    VerdictsKept s (placeGreater i l m g s).1 := by
  unfold placeGreater
  dsimp only
  split
  · exact (beginAssembly_verdicts i g s).trans (parseSegment_verdicts i l m g _)
  · exact modAssembly_verdicts i _ s

theorem readPreview_verdicts (i : FileIx) (l : SrcLink) (m : FormatEntry) (g : Segment) (s : State) :
    VerdictsKept s (readPreview i l m g s).1 := by
  have closed : VerdictsKept s (placeGreater i l m g (closePartial i s)).1 :=
    (closePartial_verdicts i s).trans (placeGreater_verdicts i l m g _)
  unfold readPreview
  split
  · exact .refl s
  split
  · split
    · exact placeGreater_verdicts i l m g s
    · exact logPartial_verdicts i _ _ s
  · split
    · exact closed
    split
    · exact modAssembly_verdicts i _ s
    split
    · exact parseSegment_verdicts i l m g s
    · exact modAssembly_verdicts i _ s
  · split
    · exact closed
    · exact .refl s

theorem closeAtLast_verdicts (i : FileIx) (s : State) : VerdictsKept s (closeAtLast i s) := by
  unfold closeAtLast
  split
  · exact .refl s
  · split
    · exact .refl s
    · exact closePartial_verdicts i s

theorem readMeta_verdicts (i : FileIx) (l : SrcLink) (m : FormatEntry) (g : Segment) (s : State) :
    VerdictsKept s (readMeta i l m g s) := by
  unfold readMeta
  split
  · unfold metaParseFailure
    split
    · exact .refl s
    · dsimp only
      split
      · exact (modAssembly_verdicts i _ s).trans (logFault_verdicts _ _)
      · exact logFault_verdicts _ s
  · dsimp only
    split
    · unfold evaluateMetaOnly
      split
      · exact .refl s
      · exact (modAssembly_verdicts i _ s).trans (toChannel_verdicts i _ _ fun c => evaluated_verdicts c l _ _ _ _)
    · exact modAssembly_verdicts i _ s

/-! ### Look engines (chapter 7) -/

theorem modEngine_verdicts (e : Engine) (f : EngineState → EngineState) (s : State) :
    VerdictsKept s (modEngine e f s) := .same rfl rfl rfl

theorem dropRef_verdicts (i : SlotIx) (s : State) : VerdictsKept s (dropRef i s) := (dropRef_frame i s).verdicts

theorem leaveQueue_verdicts (e : Engine) (s : State) : VerdictsKept s (leaveQueue e s) := by
  unfold leaveQueue
  split
  · exact .refl s
  · exact (modEngine_verdicts e _ s).trans (dropRef_verdicts _ _)

theorem startEntry_verdicts (e : Engine) (s : State) : VerdictsKept s (startEntry e s) := by
  have left : ∀ f, VerdictsKept s (leaveQueue e (modEngine e f s)) := fun f =>
    (modEngine_verdicts e f s).trans (leaveQueue_verdicts e _)
  unfold startEntry
  split
  · split
    · exact modEngine_verdicts _ _ s
    · unfold startOther
      split
      · exact leaveQueue_verdicts e s
      · split
        · exact left _
        split
        · exact left _
        · exact modEngine_verdicts _ _ s
      · split
        · exact left _
        split
        · exact leaveQueue_verdicts e s
        · exact modEngine_verdicts _ _ s
  · exact .refl s

theorem completeEntry_verdicts (e : Engine) (s : State) : VerdictsKept s (completeEntry e s) := by
  unfold completeEntry
  split
  · exact (modEngine_verdicts _ _ s).trans ((modEngine_verdicts _ _ _).trans
      ((modEngine_verdicts _ _ _).trans (leaveQueue_verdicts e _)))
  · exact .refl s

theorem reportOpen_verdicts (i : FileIx) (s : State) : VerdictsKept s (reportOpen i s) := by
  have one : ∀ (e : Engine) (u : State), VerdictsKept u (reportOpenTo i e u) := fun e u => by
    unfold reportOpenTo
    split
    · exact .refl u
    · split
      · exact (changeFollow_frame e _ u).verdicts
      · exact .refl u
  exact (one 0 s).trans (one 1 _)

theorem offerLookTo_verdicts (l : SrcLink) (tid : Tid) (i : SlotIx) (g : Segment) (place : Placement) (complete : Bool)
    (e : Engine) (s : State) : VerdictsKept s (offerLookTo l tid i g place complete e s) := by
  unfold offerLookTo
  split
  · split <;> exact .same rfl rfl rfl
  · exact .refl s

theorem progressEngine_verdicts (e : Engine) (s : State) : VerdictsKept s (progressEngine e s) := by
  unfold progressEngine
  split
  · split
    · exact .same rfl rfl rfl
    · exact .refl s
  · exact .refl s

/-! ### Files (chapter 2) -/

theorem failCopy_verdicts (i : FileIx) (d : Dest) (r : FailReason) (vs : List Nat) (s : State) :
    VerdictsKept s (failCopy i d r vs s) := by
  unfold failCopy
  split
  · exact .refl s
  · dsimp only
    split
    · exact setCopy_verdicts i d _ s
    · exact (setCopy_verdicts i d _ s).trans (logFault_verdicts _ _)

theorem issueManifest_verdicts (m : Manifest) (s : State) : VerdictsKept s (issueManifest m s) := by
  unfold issueManifest
  split
  · exact offerNotice_verdicts _ s
  · exact .refl s

section
variable {i : FileIx} {f : FileRec} {s : State}

/-- R39, R48: a record that is freed can change the verdict of its own card alone. -/
theorem freeFile_verdictsBut (h : s.files[i].file = some f) : VerdictsKeptBut f.card s (freeFile i s) :=
  files_verdictsBut i rfl rfl (fun j hj => by rw [freeFile_files, vmod_get, if_neg hj])
    (fun x hx => by rw [h] at hx; cases hx; rfl) fun x hx => by
      rw [freeFile_files, vmod_self] at hx
      cases hx

/-- R26: and so can one that changes its state. -/
theorem modFile_verdictsBut (m : FileRec → FileRec) (hm : ∀ x, (m x).card = x.card) (h : s.files[i].file = some f) :
    VerdictsKeptBut f.card s (modFile i m s) :=
  files_verdictsBut i rfl rfl (fun j hj => by rw [modFile_files, vmod_get, if_neg hj])
    (fun x hx => by rw [h] at hx; cases hx; rfl) fun x hx => by
      rw [modFile_files, vmod_self, h] at hx
      cases hx
      exact hm f

/-- R39, R48: a file whose manifest is issued, whose card is counted and whose record is freed. -/
theorem freedFile_verdicts (m : Manifest) (count : Card → Card) (hc : ∀ k, (count k).judgement = k.judgement)
    (h : s.files[i].file = some f) :
    VerdictsKept s (reeval f.card (freeFile i (modCard f.card count (issueManifest m s)))) := by
  have files : (issueManifest m s).files = s.files := (issueManifest_kept_records m s).1
  have counted := (issueManifest_verdicts m s).trans (modCard_verdicts f.card count _ hc)
  refine counted.trans (freeFile_verdictsBut ?_).reeval
  rw [modCard_files, files, h]

theorem settleFile_verdicts (i : FileIx) (s : State) : VerdictsKept s (settleFile i s) := by
  unfold settleFile
  split
  · exact .refl s
  next f h =>
  split
  · split
    · exact freedFile_verdicts (manifestOf i f false s) _ (fun _ => rfl) h
    · exact ((modFile_verdictsBut (fun f => { f with state := .short }) (fun _ => rfl) h).then
        (logFault_verdicts _ _)).reeval
  · exact .refl s

theorem withdraw_verdicts (d : Dest) (t : Tid) (s : State) : VerdictsKept s (withdraw d t s) :=
  (withdraw_frame d t s).verdicts

theorem withdrawUnsettled_verdicts (i : FileIx) (r : FailReason) (s : State) :
    VerdictsKept s (withdrawUnsettled i r s) := by
  unfold withdrawUnsettled
  split
  · exact .refl s
  · exact .foldl _ (fun s d => (failCopy_verdicts i d r [] s).trans (withdraw_verdicts d _ _)) _ s

theorem leaveStreaming_verdictsBut (next : FileState) (h : s.files[i].file = some f) :
    VerdictsKeptBut f.card s (leaveStreaming i next s) := by
  have left := leaveStreaming_eq next h
  refine files_verdictsBut i (by rw [left]) (by rw [left]) (fun j hj => ?_) (fun x hx => ?_) fun x hx => ?_
  · rw [left]; exact vmod_other _ _ _ _ hj
  · rw [h] at hx; cases hx; rfl
  · rw [left] at hx
    dsimp only at hx
    rw [vmod_self] at hx
    cases hx
    rfl

theorem stopFile_verdictsBut (r : FailReason) (h : s.files[i].file = some f) :
    VerdictsKeptBut f.card s (stopFile i r s) := by
  have withdrawn := withdrawUnsettled_verdicts i r s
  rw [stopFile_eq r h]
  have left := leaveStreaming_verdictsBut .short (withdrawUnsettled_file r h)
  exact fun p v => (left.then (endFollowsAbort_frame _ _).verdicts) p (withdrawn p v)

end

theorem abortFile_verdicts (i : FileIx) (s : State) : VerdictsKept s (abortFile i s) := by
  unfold abortFile
  split
  · exact .refl s
  · next f h => exact ((stopFile_verdictsBut .aborted h).then (logFault_verdicts _ _)).reeval

theorem breakFile_verdicts (i : FileIx) (received : Nat) (s : State) : VerdictsKept s (breakFile i received s) := by
  unfold breakFile
  split
  · exact .refl s
  · next f h => exact ((stopFile_verdictsBut .sequence h).then (logFault_verdicts _ _)).reeval

theorem abortStreaming_verdicts (is : List FileIx) (s : State) : VerdictsKept s (abortStreaming is s) :=
  .foldl _ (fun s i => abortFile_verdicts i s) is s

theorem checkStalls_verdicts (s : State) : VerdictsKept s (checkStalls s) := (checkStalls_frame s).verdicts

/-! ### Destination links (chapter 5) -/

theorem modDest_verdicts (d : Dest) (f : DestPort → DestPort) (s : State) : VerdictsKept s (modDest d f s) :=
  .same rfl rfl rfl

theorem loseOne_verdicts (k : Loss) (s : State) : VerdictsKept s (loseOne k s) := .same rfl rfl rfl

theorem failAll_verdicts (d : Dest) (r : FailReason) (s : State) : VerdictsKept s (failAll d r s) :=
  .foldl _ (fun s i => (failCopy_verdicts i d r [] s).trans (settleFile_verdicts i _)) _ s

/-- R89, R91: entries that leave a queue, and the failure of every copy with the record of the destination. -/
theorem failedAll_verdicts {d : Dest} {f : DestPort → DestPort} {gone : List QEntry} {r : FailReason} {cls : FaultClass}
    {code : Option FaultCode} {s : State} :
    VerdictsKept s (logDest cls code d (failAll d r (releaseEntries gone (modDest d f s)))) := by
  have released : VerdictsKept s (releaseEntries gone (modDest d f s)) :=
    (modDest_verdicts d f s).trans (releaseEntries_frame gone _).verdicts
  generalize releaseEntries gone (modDest d f s) = u at released
  exact released.trans ((failAll_verdicts d r u).trans (logFault_verdicts _ _))

theorem downProcedure_verdicts (d : Dest) (s : State) : VerdictsKept s (downProcedure d s) := by
  unfold downProcedure
  exact failedAll_verdicts

theorem enterQuarantine_verdicts (code : FaultCode) (d : Dest) (s : State) :
    VerdictsKept s (enterQuarantine code d s) := by
  unfold enterQuarantine
  exact failedAll_verdicts

theorem autoQuarantine_verdicts (d : Dest) (s : State) : VerdictsKept s (autoQuarantine d s) := by
  unfold autoQuarantine
  split
  · exact enterQuarantine_verdicts _ d s
  · exact .refl s

theorem nullify_verdicts (d : Dest) (s : State) : VerdictsKept s (nullify d s) := (nullify_frame d s).verdicts

theorem loseAlignment_verdicts (d : Dest) (s : State) : VerdictsKept s (loseAlignment d s) := by
  unfold loseAlignment
  split
  · exact (nullify_verdicts d s).trans (modDest_verdicts d _ _)
  · exact (nullify_verdicts d s).trans (modDest_verdicts d _ _)
  all_goals exact .refl s

theorem resetDest_verdicts (d : Dest) (s : State) : VerdictsKept s (resetDest d s) := by
  unfold resetDest
  split
  · exact (downProcedure_verdicts d s).trans (modDest_verdicts d _ _)
  · exact (downProcedure_verdicts d s).trans (modDest_verdicts d _ _)
  · exact modDest_verdicts d _ s
  · exact modDest_verdicts d _ s
  · exact (nullify_verdicts d s).trans (modDest_verdicts d _ _)

theorem checkStall_verdicts (d : Dest) (s : State) : VerdictsKept s (checkStall d s) := (checkStall_frame d s).verdicts

theorem sentGood_verdicts (d : Dest) (e : QEntry) (s : State) : VerdictsKept s (sentGood d e s) := by
  unfold sentGood
  split
  · unfold advanceCopy
    split
    · exact (setCopy_verdicts _ d _ s).trans (modDest_verdicts d _ _)
    · exact modDest_verdicts d _ s
  · exact (dropRef_verdicts _ _).after rfl rfl rfl
  · split
    · exact (setCopy_verdicts _ d _ s).trans (modDest_verdicts d _ _)
    · exact .refl s
  · exact modDest_verdicts d _ s
  · exact modDest_verdicts d _ s

theorem endTransmission_verdicts (d : Dest) (s : State) : VerdictsKept s (endTransmission d s) := by
  unfold endTransmission
  split
  · exact (modDest_verdicts d _ s).trans ((sentGood_verdicts d _ _).trans (checkStall_verdicts d _))
  · exact .refl s

theorem takeInbound_verdicts (k : Nat) (d : Dest) (wire : Bytes) (f : InMessage → State → State) (s : State)
    (h : ∀ m, VerdictsKept s (f m s)) : VerdictsKept s (takeInbound k d wire f s) := by
  unfold takeInbound
  split
  · exact .refl s
  · split
    · exact h _
    · exact .refl s

theorem takeCreditMessage_verdicts (d : Dest) (m : InMessage) (s : State) :
    VerdictsKept s (takeCreditMessage d m s) := by
  unfold takeCreditMessage
  split <;> exact .same rfl rfl rfl

theorem countFailure_verdicts (d : Dest) (s : State) : VerdictsKept s (countFailure d s) := .same rfl rfl rfl

theorem failClosed_verdicts (i : FileIx) (d : Dest) (r : FailReason) (s : State) :
    VerdictsKept s (failClosed i d r s) :=
  (modDest_verdicts d _ s).trans ((failCopy_verdicts i d r [] _).trans
    ((countFailure_verdicts d _).trans ((settleFile_verdicts i _).trans (autoQuarantine_verdicts d _))))

theorem proveCopy_verdicts (i : FileIx) (d : Dest) (s : State) : VerdictsKept s (proveCopy i d s) :=
  (setCopy_verdicts i d .verified s).trans ((settleFile_verdicts i _).after rfl rfl rfl)

theorem takeVerify_verdicts (d : Dest) (m : InMessage) (s : State) : VerdictsKept s (takeVerify d m s) := by
  unfold takeVerify
  split
  · split
    · unfold verifyCopy
      split
      · split
        · exact proveCopy_verdicts _ d s
        · exact failClosed_verdicts _ d _ s
      all_goals exact loseOne_verdicts _ s
    · exact loseOne_verdicts _ s
  · exact loseOne_verdicts _ s

theorem takeWriteError_verdicts (d : Dest) (m : InMessage) (s : State) : VerdictsKept s (takeWriteError d m s) := by
  unfold takeWriteError
  split
  · split
    · split
      · exact (failCopy_verdicts _ d _ _ s).trans ((countFailure_verdicts d _).trans ((withdraw_verdicts d _ _).trans
          ((settleFile_verdicts _ _).trans ((autoQuarantine_verdicts d _).trans (checkStall_verdicts d _)))))
      · exact loseOne_verdicts _ s
    · exact loseOne_verdicts _ s
  · exact loseOne_verdicts _ s

theorem expireTimer_verdicts (i : FileIx) (d : Dest) (s : State) : VerdictsKept s (expireTimer i d s) := by
  unfold expireTimer
  split
  · exact failClosed_verdicts i d _ s
  · exact .refl s

end Sys2Proof.Machine
end

