-- ==== Sys2Proof/Proofs/SegmentVerdicts.lean ====
section
/-! PROOF. The taking of each kind of segment keeps the verdicts (R24). -/

namespace Sys2Proof.Machine

open Sys2Proof

/-! ### Segments and files (chapters 1 and 2) -/

theorem endProcessing_verdicts (l : SrcLink) (s : State) : VerdictsKept s (endProcessing l s) :=
  (endProcessing_frame l s).verdicts

theorem logCardFile_verdicts (cls : FaultClass) (c : CardIx) (number : Nat) (values : List Nat) (s : State) :
    VerdictsKept s (logCardFile cls c number values s) := logFault_verdicts _ s

theorem refuseHeader_verdicts (l : SrcLink) (g : Segment) (s : State) : VerdictsKept s (refuseHeader l g s) := by
  unfold refuseHeader
  split
  · unfold refuseData
    split
    · exact loseOne_verdicts _ s
    split
    · exact .refl s
    split
    · exact loseOne_verdicts _ s
    split
    · exact (breakFile_verdicts _ _ s).trans (checkStalls_verdicts _)
    · exact logCardFile_verdicts _ _ _ _ s
  · exact loseOne_verdicts _ s

theorem takeHead_verdicts (l : SrcLink) (kind : Segment → Bool) (f : Segment → State → State) (s : State)
    (h : ∀ g, VerdictsKept s (f g s)) : VerdictsKept s (takeHead l kind f s) := by
  unfold takeHead
  split
  · exact .refl s
  split
  · refine VerdictsKept.trans ?_ (endProcessing_verdicts l _)
    split
    · exact h _
    · exact refuseHeader_verdicts l _ s
  · exact .refl s

/-- R23: no card record has a label under which none is found. -/
theorem cardByLabel_none {label : Bytes} {s : State} (h : cardByLabel label s = none) (c : CardIx) (k : Card)
    (hk : s.cards[c] = some k) : k.label ≠ label := by
  have no := firstIx_none.mp h c
  rw [hk] at no
  exact beq_eq_false_iff_ne.mp no

/-- R41: a card record of a new label, which has not ended, joins with the verdict PENDING. -/
theorem putCard_verdicts {c : CardIx} {k : Card} {s : State} (hc : s.cards[c] = none) (he : k.ended = false)
    (hv : k.verdict = .pending) (hl : ∀ (x : CardIx) (y : Card), s.cards[x] = some y → y.label ≠ k.label) :
    VerdictsKept s (putCard c (some k) s) := fun p v => by
  have cases : ∀ (x : CardIx) (y : Card), (putCard c (some k) s).cards[x] = some y →
      (x = c ∧ y = k) ∨ s.cards[x] = some y :=
    fun x y hy => by
      rw [putCard_cards, vmod_get] at hy
      split at hy
      · next e => exact .inl ⟨e, (Option.some.inj hy).symm⟩
      · exact .inr hy
  refine ⟨fun x y hx hy => ?_, fun x x' y y' hy hy' e => ?_⟩
  · obtain ⟨rfl, rfl⟩ | old := cases x y hy
    · rw [hv, verdictOf_rule, he]
      rfl
    · exact (v.1 x y hx old).trans (verdictOf_same rfl rfl rfl).symm
  · obtain ⟨rfl, rfl⟩ | old := cases x y hy
    · obtain ⟨rfl, -⟩ | old' := cases x' y' hy'
      · rfl
      · exact absurd e.symm (hl x' y' old')
    · obtain ⟨rfl, rfl⟩ | old' := cases x' y' hy'
      · exact absurd e (hl x y old)
      · exact v.2 x x' y y' old old' e

theorem takeMount_verdicts (l : SrcLink) (g : Segment) (s : State) : VerdictsKept s (takeMount l g s) := by
  have refused : ∀ cls h, VerdictsKept s (refuseMount cls h s) := fun _ _ => logFault_verdicts _ s
  unfold takeMount
  dsimp only
  split
  · split
    · exact refused _ _
    split
    · exact refused _ _
    split
    · exact modCard_verdicts _ (Card.reattach _) s fun _ => rfl
    · next new =>
      split
      · exact refused _ _
      · next c free =>
        exact putCard_verdicts (by simpa using firstIx_sound free) rfl rfl (cardByLabel_none new)
  · exact loseOne_verdicts _ s

theorem takeCardEnd_verdicts (l : SrcLink) (g : Segment) (s : State) : VerdictsKept s (takeCardEnd l g s) := by
  unfold takeCardEnd
  split
  · exact loseOne_verdicts _ s
  next c _ =>
  split
  · exact .refl s
  split
  · have ended : VerdictsKeptBut c s (modCard c (fun k => { k with ended := true, mount := .ended }) s) :=
      modCard_verdictsBut c _ s fun _ => rfl
    refine VerdictsKeptBut.reeval ?_
    dsimp only
    split
    · exact ended.then (logFault_verdicts _ _)
    · exact ended
  · exact .refl s

theorem pullCard_verdicts (c : CardIx) (s : State) : VerdictsKept s (pullCard c s) :=
  (modCard_verdicts c (fun k => { k with pulled := true }) s fun _ => rfl).trans (logFault_verdicts _ _)

theorem takeUnmount_verdicts (l : SrcLink) (g : Segment) (s : State) : VerdictsKept s (takeUnmount l g s) := by
  unfold takeUnmount
  split
  · exact .refl s
  next c _ =>
  have aborted := (abortStreaming_verdicts (filesOf s c fun f => f.state == .streaming) s).trans (checkStalls_verdicts _)
  dsimp only
  refine VerdictsKept.trans ?_ ((modCard_verdicts c Card.detach _ fun _ => rfl).trans (reeval_verdicts c _))
  split
  · exact aborted.trans (pullCard_verdicts c _)
  · exact aborted

theorem assignChannel_verdicts (i : FileIx) (s : State) : VerdictsKept s (assignChannel i s) := by
  unfold assignChannel
  split
  · exact .refl s
  split
  · split
    · exact logFault_verdicts _ s
    · exact (modChannel_verdicts _ _ s).trans (modFile_verdicts i _ _ fun _ => rfl)
  · exact .refl s

theorem enqueue_verdicts (d : Dest) (e : QEntry) (s : State) : VerdictsKept s (enqueue d e s) :=
  modDest_verdicts d _ s

theorem queueOpens_verdicts (i : FileIx) (f : FileRec) (s : State) : VerdictsKept s (queueOpens i f s) :=
  .foldl _ (fun s d => enqueue_verdicts d _ s) _ s

theorem startAssembly_verdicts (i : FileIx) (s : State) : VerdictsKept s (startAssembly i s) :=
  modFile_verdicts i _ s fun _ => rfl

/-- R33, R34: a record made or reused for the card can change that card's verdict alone, which is then evaluated. -/
theorem startFile_verdicts {i : FileIx} {f : FileRec} {s : State} (countIt : Bool)
    (h : ∀ x, s.files[i].file = some x → x.card = f.card) : VerdictsKept s (startFile i f countIt s) := by
  have written : VerdictsKeptBut f.card s (writeRecord i f s) :=
    files_verdictsBut i rfl rfl (fun j hj => vmod_other _ _ _ _ hj) h fun x hx => by
      unfold writeRecord at hx
      dsimp only at hx
      rw [vmod_self] at hx
      cases hx
      rfl
  have queued := written.then (queueOpens_verdicts i f _)
  unfold startFile
  dsimp only
  generalize queueOpens i f (writeRecord i f s) = u at queued ⊢
  have assigned := (queued.then (startAssembly_verdicts i u)).then (assignChannel_verdicts i _)
  generalize assignChannel i (startAssembly i u) = v at assigned ⊢
  have counted := assigned.then (modCard_verdicts f.card (fun k => { k with
    opened := if countIt then satInc k.opened else k.opened, refused := none }) v fun _ => rfl)
  exact ((counted.then (checkStalls_verdicts _)).reeval).trans (reportOpen_verdicts i _)

theorem refuseOpen_verdicts (cls : FaultClass) (c : CardIx) (number : Nat) (s : State) :
    VerdictsKept s (refuseOpen cls c number s) :=
  (logCardFile_verdicts cls c number [] s).trans
    (modCard_verdicts c (fun k => { k with refused := some number }) _ fun _ => rfl)

/-- R25: the record found under a card's file number is of the card. -/
theorem fileByNumber_card {c : CardIx} {number : Nat} {s : State} {i : FileIx} (h : fileByNumber c number s = some i)
    (f : FileRec) (hf : s.files[i].file = some f) : f.card = c := by
  have found := firstIx_sound h
  unfold isFileOf at found
  rw [hf, Option.map_some, Option.getD_some, Bool.and_eq_true] at found
  exact eq_of_beq found.1

theorem takeOpen_verdicts (l : SrcLink) (g : Segment) (s : State) : VerdictsKept s (takeOpen l g s) := by
  unfold takeOpen
  split
  · exact loseOne_verdicts _ s
  split
  · split
    · exact .refl s
    · unfold decideOpen
      dsimp only
      split
      · exact refuseOpen_verdicts _ _ _ s
      split
      · exact refuseOpen_verdicts _ _ _ s
      split
      · next found =>
        split
        · exact .refl s
        · next old hold =>
          refine startFile_verdicts false fun x hx => ?_
          rw [hold] at hx
          cases hx
          rfl
      · split
        · exact refuseOpen_verdicts _ _ _ s
        · next i free =>
          have none : s.files[i].file = none := by simpa using firstIx_sound free
          exact startFile_verdicts _ fun x hx => absurd (none.symm.trans hx) (Option.some_ne_none x).symm
  · exact refuseOpen_verdicts _ _ _ s

theorem checkSize_verdicts (i : FileIx) (s : State) : VerdictsKept s (checkSize i s) := by
  unfold checkSize
  split
  · exact .refl s
  split
  · split
    · exact logFault_verdicts _ s
    · exact .refl s
  · exact .refl s

theorem queueCloses_verdicts (i : FileIx) (s : State) : VerdictsKept s (queueCloses i s) := by
  unfold queueCloses
  split
  · exact .refl s
  · exact .foldl _ (fun s d => enqueue_verdicts d _ s) _ s

/-- R38: after a file has left STREAMING, and its follows have been told, its card's verdict is evaluated. -/
theorem leftStreaming_verdicts (i : FileIx) (next : FileState) {s t : State}
    (h : EnginesOnly (leaveStreaming i next s) t) : VerdictsKept s (reevalFile i t) := by
  unfold reevalFile
  rw [h.files]
  cases hf : s.files[i].file with
  | none =>
    have kept : leaveStreaming i next s = modFile i (fun f => { f with state := next, assembly := none }) s := by
      unfold leaveStreaming releaseChannel
      rw [hf]
      rfl
    have still : (leaveStreaming i next s).files[i].file = none := by rw [kept, modFile_files, vmod_self, hf]; rfl
    rw [still]
    refine VerdictsKept.trans (.of_standing (fun _ => by rw [kept, modFile_cards]) (fun j => ?_) fun _ => by
      rw [kept, modFile_log]) h.verdicts
    rw [kept, modFile_files, vmod_get]
    split
    · next e => rw [e, hf]; rfl
    · rfl
  | some f =>
    have left : (leaveStreaming i next s).files[i].file =
        some { f with state := next, assembly := none, channel := none } := by
      rw [leaveStreaming_eq next hf]
      exact congrArg FilePos.file (vmod_self _ _ _)
    rw [left]
    exact ((leaveStreaming_verdictsBut next hf).then h.verdicts).reeval

theorem endFollowLast_frame (tid : Tid) (e : Engine) (s : State) : EnginesOnly s (endFollowLast tid e s) := rfl

theorem lastSegment_verdicts (i : FileIx) (s : State) : VerdictsKept s (lastSegment i s) := by
  have finalised : VerdictsKept s (modFile i FileRec.finalise (closeAtLast i s)) :=
    (closeAtLast_verdicts i s).trans (modFile_verdicts i _ _ fun _ => rfl)
  have closed := finalised.trans ((checkSize_verdicts i _).trans (queueCloses_verdicts i _))
  unfold lastSegment
  exact (closed.trans (leftStreaming_verdicts i .settling
    ((endFollowLast_frame _ 0 _).trans (endFollowLast_frame _ 1 _)))).trans (settleFile_verdicts i _)

theorem readSegment_verdicts (l : SrcLink) (i : FileIx) (slot : SlotIx) (f : FileRec) (g : Segment) (s : State) :
    VerdictsKept s (readSegment l i slot f g s) := by
  unfold readSegment
  split
  · exact .refl s
  split
  · exact (readPreview_verdicts i l _ g s).trans
      ((offerLookTo_verdicts _ _ _ _ _ _ 0 _).trans (offerLookTo_verdicts _ _ _ _ _ _ 1 _))
  split
  · exact readMeta_verdicts i l _ g s
  · exact .refl s

theorem addRef_verdicts (i : SlotIx) (s : State) : VerdictsKept s (addRef i s) := .same rfl rfl rfl

theorem acceptData_verdicts (l : SrcLink) (i : FileIx) (slot : SlotIx) (f : FileRec) (g : Segment) (s : State) :
    VerdictsKept s (acceptData l i slot f g s) := by
  have accepted : VerdictsKept s (if g.payload = [] then s else acceptBytes l i slot f g s) := by
    split
    · exact .refl s
    · have advanced := modFile_verdicts i (fun f => { f with
        sums := f.sums.advance g.payload, nextOffset := f.nextOffset + g.payload.length }) s fun _ => rfl
      exact advanced.trans ((VerdictsKept.foldl _ (fun s d =>
        (enqueue_verdicts d (.data (tidOf i s) slot) s).trans (addRef_verdicts slot _)) _ _).trans
          (readSegment_verdicts l i slot f g _))
  unfold acceptData
  dsimp only
  split
  · exact accepted.trans (lastSegment_verdicts i _)
  · exact accepted

theorem takeData_verdicts (l : SrcLink) (g : Segment) (s : State) : VerdictsKept s (takeData l g s) := by
  unfold takeData
  split
  · exact loseOne_verdicts _ s
  split
  · exact .refl s
  split
  · exact logCardFile_verdicts _ _ _ _ s
  split
  · split
    · refine VerdictsKept.trans ?_ (checkStalls_verdicts _)
      split
      · exact acceptData_verdicts l _ _ _ g s
      · exact breakFile_verdicts _ _ s
    · exact logCardFile_verdicts _ _ _ _ s
  · exact .refl s

end Sys2Proof.Machine
end

