-- ==== Sys2Proof/Proofs/VerdictLaw.lean ====
section
/-! PROOF. The commands, the source links and the resets keep the verdicts (R24), so every step does. Settles O5. -/

namespace Sys2Proof.Machine

open Sys2Proof

/-! ### Commands (chapter 10) -/

theorem guardBody_verdicts (shape : BodyShape) (s : State) (go : Answer) (h : VerdictsKept s go.after) :
    VerdictsKept s (guardBody shape s go).after := by
  unfold guardBody
  split
  · split
    · exact .refl s
    · split
      · exact .refl s
      · exact h
  · exact .same rfl rfl rfl

theorem answerHead_verdicts (l : SrcLink) (g : Segment) (a : Answer) (s : State) (h : VerdictsKept s a.after) :
    VerdictsKept s (answerHead l g a) := h.trans (answerHead_frame l g a).verdicts

theorem takeControl_verdicts {l : SrcLink} {mine : Segment → Bool} {f : Segment → State → State} {s : State}
    (h : ∀ g, VerdictsKept s (f g s)) : VerdictsKept s (takeControl l mine f s) := by
  unfold takeControl
  split
  · exact .refl s
  split
  · split
    · split
      · unfold takeCommand
        split
        · exact .refl s
        split
        · split
          · exact h _
          · exact .refl s
        · exact answerHead_verdicts l _ _ s (.refl s)
      · exact (loseOne_verdicts _ s).trans (endProcessing_verdicts l _)
    · exact (refuseHeader_verdicts l _ s).trans (endProcessing_verdicts l _)
  · exact .refl s

theorem writeEntry_verdicts (t : TableName) (k : Nat) (b : Bytes) (s : State) :
    VerdictsKept s (writeEntry t k b s) := by
  unfold writeEntry
  split
  case h_6 => split <;> exact .same rfl rfl rfl
  all_goals exact .same rfl rfl rfl

theorem cmdWriteTable_verdicts (b : Bytes) (s : State) : VerdictsKept s (cmdWriteTable b s).after := by
  unfold cmdWriteTable
  split
  · exact guardBody_verdicts _ s _ (.refl s)
  · refine guardBody_verdicts _ s _ (.foldl _ (fun s k => ?_) _ s)
    split
    · exact writeEntry_verdicts _ _ _ s
    · exact .refl s

theorem readForm_verdicts (b : Bytes) (s : State) : VerdictsKept s (readForm b s).after := by
  unfold readForm
  split
  case h_2 => unfold readFiles; split <;> exact .refl s
  case h_6 =>
    refine ((progressEngine_verdicts 0 s).trans (progressEngine_verdicts 1 _)).trans ?_
    unfold readEngines Answer.done
    dsimp only
    split <;> exact .same rfl rfl rfl
  all_goals exact .refl s

theorem cmdAckFaults_verdicts (b : Bytes) (s : State) : VerdictsKept s (cmdAckFaults b s).after := by
  unfold cmdAckFaults
  split
  · refine guardBody_verdicts _ s _ ?_
    unfold ackByKeys
    dsimp only
    split
    · exact ackRecords_verdicts _ s
    · exact .refl s
  · refine guardBody_verdicts _ s _ ?_
    unfold ackByLabel
    dsimp only
    split
    · exact ackRecords_verdicts _ s
    · exact .refl s
  · exact guardBody_verdicts _ s _ (.refl s)

theorem onCard_verdicts {label : Bytes} {s : State} {f : CardIx → Card → Answer}
    (h : ∀ c k, VerdictsKept s (f c k).after) : VerdictsKept s (onCard label s f).after := by
  unfold onCard
  split
  · exact .refl s
  · split
    · exact .refl s
    · exact h _ _

theorem waiveMark_verdicts (c : CardIx) (s : State) : VerdictsKept s (waiveMark c s) :=
  (modCard_verdictsBut c (fun k => { k with lostMark := false }) s fun _ => rfl).reeval

theorem releaseEffect_verdicts (c : CardIx) (k : Card) (s : State) : VerdictsKept s (releaseEffect c k s) := by
  have out : VerdictsKept s (putCard c none s) := (VerdictsKept.refl s).but.putNone
  unfold releaseEffect
  dsimp only
  split
  · exact out
  · exact out.trans (offerNotice_verdicts _ _)

theorem cmdReleaseCard_verdicts (b : Bytes) (s : State) : VerdictsKept s (cmdReleaseCard b s).after := by
  refine guardBody_verdicts _ s _ (onCard_verdicts fun c k => ?_)
  split
  · exact releaseEffect_verdicts c k s
  · exact .refl s

/-- R47: the positions that a cleared file leaves. -/
theorem clearFile_files (i : FileIx) (s : State) :
    (clearFile i s).files = vmod s.files i fun p => { p with file := none } := by
  have withdrawn : (discardCopies i s).files = s.files := by
    unfold discardCopies
    split
    · rfl
    · exact foldl_keeps (fun s t => t.files = s.files) (fun _ => rfl) (fun _ _ _ h k => k.trans h)
        (fun s d => withdraw d (tidOf i s) s) (fun s d => by
          have frame := withdraw_frame d (tidOf i s) s
          unfold DestOnly at frame
          rw [frame]) _ s
  unfold clearFile
  rw [freeFile_files, ← withdrawn]
  unfold releaseChannel
  split
  · rfl
  · rw [modFile_files, modChannel_files, vmod_vmod]

/-- R47: what clearing a file reaches. -/
theorem clearFile_frame (i : FileIx) (s : State) : clearFile i s = { s with
    src := (clearFile i s).src, slots := (clearFile i s).slots, dest := (clearFile i s).dest
    files := (clearFile i s).files, channels := (clearFile i s).channels } := by
  have withdrawn : DestOnly s (discardCopies i s) := by
    unfold discardCopies
    split
    · rfl
    · exact foldl_keeps DestOnly DestOnly.refl (fun _ _ _ => DestOnly.trans) (fun s d => withdraw d (tidOf i s) s)
        (fun s d => withdraw_frame d _ s) _ s
  unfold DestOnly at withdrawn
  unfold clearFile releaseChannel
  split
  · unfold freeFile; rw [withdrawn]
  · unfold freeFile modFile modChannel; rw [withdrawn]

/-- R47: the files of one card can change that card's verdict alone. -/
theorem clearFiles_verdictsBut {c : CardIx} (is : List FileIx) (s : State)
    (h : ∀ i ∈ is, ∀ f, s.files[i].file = some f → f.card = c) :
    VerdictsKeptBut c s (is.foldl (fun s i => clearFile i s) s) := by
  induction is generalizing s with
  | nil => exact (VerdictsKept.refl s).but
  | cons i rest ih =>
    have files := clearFile_files i s
    have first : VerdictsKeptBut c s (clearFile i s) := by
      have frame := clearFile_frame i s
      refine files_verdictsBut i (by rw [frame]) (by rw [frame]) (fun j hj => by rw [files, vmod_other _ _ _ _ hj])
        (h i List.mem_cons_self) fun f hf => ?_
      rw [files, vmod_self] at hf
      cases hf
    refine first.trans (ih _ fun j hj f hf => ?_)
    rw [files, vmod_get] at hf
    split at hf
    · cases hf
    · exact h j (List.mem_cons_of_mem _ hj) f hf

theorem clearEffect_verdicts (c : CardIx) (k : Card) (s : State) : VerdictsKept s (clearEffect c k s) := by
  have cleared := clearFiles_verdictsBut (c := c) (filesOf s c fun _ => true) s fun i hi f hf => by
    have of := mem_allIx.mp hi
    unfold isFileOf at of
    rw [hf, Option.map_some, Option.getD_some, Bool.and_true] at of
    exact eq_of_beq of
  exact (((cleared.then (endFollowsAbort_frame _ _).verdicts).then (checkStalls_verdicts _)).then
    (logFault_verdicts _ _)).putNone

theorem waiveFile_verdicts (i : FileIx) (s : State) : VerdictsKept s (waiveFile i s).after := by
  unfold waiveFile
  split
  · exact .refl s
  next f h =>
  split
  · exact freedFile_verdicts (manifestOf i f true s) _ (fun _ => rfl) h
  · exact .refl s

theorem cmdWaiveFile_verdicts (b : Bytes) (s : State) : VerdictsKept s (cmdWaiveFile b s).after := by
  refine guardBody_verdicts _ s _ (onCard_verdicts fun c k => ?_)
  split
  · exact .refl s
  · exact waiveFile_verdicts _ s

theorem cmdDestQuarantine_verdicts (b : Bytes) (s : State) : VerdictsKept s (cmdDestQuarantine b s).after := by
  refine guardBody_verdicts _ s _ ?_
  unfold quarantineCommand
  split
  · exact .refl s
  · dsimp only [Answer.done]
    exact enterQuarantine_verdicts .byCommand (destArg b) s

theorem cmdDestRestore_verdicts (b : Bytes) (s : State) : VerdictsKept s (cmdDestRestore b s).after := by
  refine guardBody_verdicts _ s _ ?_
  unfold restoreCommand
  split
  · exact modDest_verdicts _ _ s
  · exact .refl s

theorem cmdTestFrame_verdicts (b : Bytes) (s : State) : VerdictsKept s (cmdTestFrame b s).after := by
  refine guardBody_verdicts _ s _ ?_
  unfold testCommand
  split
  · exact .same rfl rfl rfl
  · exact .refl s

/-! ### Source links and resets (chapters 1 and 10) -/

theorem modSrc_verdicts (l : SrcLink) (f : SrcPort → SrcPort) (s : State) : VerdictsKept s (modSrc l f s) :=
  .same rfl rfl rfl

theorem resetSource_verdicts (l : SrcLink) (keepHead : Bool) (s : State) :
    VerdictsKept s (resetSource l keepHead s) := by
  have frame := emptied_frame l keepHead s
  have first : VerdictsKept s (emptied l keepHead s) := .same (by rw [frame]) (by rw [frame]) (by rw [frame])
  rw [resetSource_eq]
  exact first.trans ((abortStreaming_verdicts _ _).trans (checkStalls_verdicts _))

theorem cmdLinkReset_verdicts (l : SrcLink) (b : Bytes) (s : State) : VerdictsKept s (cmdLinkReset l b s).after := by
  refine guardBody_verdicts _ s _ ?_
  show VerdictsKept s (linkReset l (fieldAt b 0 1) s)
  unfold linkReset
  split
  · exact resetSource_verdicts _ _ s
  · exact resetDest_verdicts _ s

theorem overrunAt_verdicts (l : SrcLink) (s : State) : VerdictsKept s (overrunAt l s) := by
  unfold overrunAt
  dsimp only
  split
  · exact loseOne_verdicts _ s
  · exact (loseOne_verdicts _ s).trans ((modSrc_verdicts l _ _).trans (logFault_verdicts _ _))

theorem startReturn_verdicts (l : SrcLink) (s : State) : VerdictsKept s (startReturn l s) := by
  unfold startReturn
  dsimp only
  split
  · split
    · exact .same rfl rfl rfl
    split
    · exact .same rfl rfl rfl
    split
    · exact .same rfl rfl rfl
    · exact .refl s
  · exact .refl s

theorem endReturn_verdicts (l : SrcLink) (s : State) : VerdictsKept s (endReturn l s) := by
  cases h : s.src[l].tx with
  | none => unfold endReturn; rw [h]; exact .refl s
  | some x => rw [endReturn_spec h]; exact .same rfl rfl rfl

/-- R209: a soft reset leaves no card record. -/
theorem freeTables_cards (s : State) (x : CardIx) : (freeTables s).cards[x] = none := by
  unfold freeTables
  simp

theorem softReset_verdicts (s : State) : VerdictsKept s (softReset s) := by
  have cleared : ∀ t, VerdictsKept s (checkStalls (freeTables t)) := fun t =>
    (VerdictsKept.of_none (freeTables_cards t)).trans (checkStalls_verdicts _)
  exact cleared _

theorem runSoftReset_verdicts (l : SrcLink) (g : Segment) (s : State) : VerdictsKept s (runSoftReset l g s) := by
  have answered := answerHead_verdicts l g _ s (guardBody_verdicts (emptyShape g.payload) s (.done [] s) (.refl s))
  unfold runSoftReset
  dsimp only
  split
  · exact answered.trans (softReset_verdicts _)
  · exact answered

theorem powerOn_verdicts (adr : BitVec 7) (s : State) : VerdictsKept s (powerOn adr s) :=
  .of_none fun x => by simp [powerOn, State.reset]

/-! ### The step -/

/-- A step of the live part keeps the verdicts where what it does to a part that is not held in reset does. -/
theorem live_verdicts {s t : State} {f : State → Host.Outcome State Fault Refusal}
    (h : ∀ u, f s = .next u → VerdictsKept s u) (e : live s f = .next t) : VerdictsKept s t := by
  unfold live at e
  split at e
  · cases e; exact .refl s
  · exact h t e

theorem live_next_verdicts {s t : State} {f : State → State} (h : VerdictsKept s (f s))
    (e : (live s fun s => .next (f s)) = .next t) : VerdictsKept s t :=
  live_verdicts (fun u k => by cases k; exact h) e

theorem runCommand_verdicts {l : SrcLink} {mine : Segment → Bool} {cmd : Bytes → State → Answer} {s t : State}
    (h : ∀ b, VerdictsKept s (cmd b s).after) (e : runCommand l mine cmd s = .next t) : VerdictsKept s t :=
  live_next_verdicts (f := takeControl l mine fun g s => answerHead l g (cmd g.payload s))
    (takeControl_verdicts fun g => answerHead_verdicts l g _ s (h _)) e

theorem execSegmentArrival_verdicts {l : SrcLink} {wire : Bytes} {s t : State}
    (e : execSegmentArrival l wire s = .next t) : VerdictsKept s t := by
  refine live_verdicts (fun t e => ?_) e
  split at e
  · cases e; exact .refl s
  split at e
  · split at e
    · cases e; exact overrunAt_verdicts l s
    · split at e
      · cases e
      · next i _ =>
        cases e
        rw [acceptSegment_spec]
        exact .same rfl rfl rfl
  · cases e; exact .refl s

theorem exec_verdicts (c : Instr) (s t : State) (e : exec c s = .next t) : VerdictsKept s t := by
  have setState : ∀ l st, VerdictsKept s (setSrcState l st s) := fun l st => modSrc_verdicts l _ s
  cases c with
  | powerOnReset adr => cases e; exact powerOn_verdicts adr s
  | resetNHeldLow => cases e; exact .same rfl rfl rfl
  | sourcePartnerDetected l =>
    refine live_next_verdicts ?_ e
    split
    · exact setState _ _
    · exact .refl s
  | sourceAlignmentAchieved l =>
    refine live_next_verdicts ?_ e
    split
    · exact modSrc_verdicts l _ s
    · exact .refl s
  | sourceLossOfAlignment l =>
    refine live_next_verdicts ?_ e
    split
    · exact resetSource_verdicts l _ s
    · exact .refl s
  | sourcePartnerLost l =>
    unfold exec execSourcePartnerLost at e
    refine live_verdicts (fun u k => ?_) e
    cases k
    split
    · exact .refl s
    · exact setState _ _
    · exact (resetSource_verdicts l _ s).trans (modSrc_verdicts l _ _)
  | segmentArrival l wire => exact execSegmentArrival_verdicts e
  | returnItemStart l => exact live_next_verdicts (startReturn_verdicts l s) e
  | returnItemEndGood l => exact live_next_verdicts (endReturn_verdicts l s) e
  | mount l => exact live_next_verdicts (takeHead_verdicts l _ _ s fun g => takeMount_verdicts l g s) e
  | unmount l => exact live_next_verdicts (takeHead_verdicts l _ _ s fun g => takeUnmount_verdicts l g s) e
  | cardEnd l => exact live_next_verdicts (takeHead_verdicts l _ _ s fun g => takeCardEnd_verdicts l g s) e
  | openFile l => exact live_next_verdicts (takeHead_verdicts l _ _ s fun g => takeOpen_verdicts l g s) e
  | essence l => exact live_next_verdicts (takeHead_verdicts l _ _ s fun g => takeData_verdicts l g s) e
  | preview l => exact live_next_verdicts (takeHead_verdicts l _ _ s fun g => takeData_verdicts l g s) e
  | metaRecord l => exact live_next_verdicts (takeHead_verdicts l _ _ s fun g => takeData_verdicts l g s) e
  | unknownKindSegment l => exact live_next_verdicts (takeHead_verdicts l _ _ s fun _ => .refl s) e
  | entryStart x => exact live_next_verdicts (startEntry_verdicts x s) e
  | entryCompletion x => exact live_next_verdicts (completeEntry_verdicts x s) e
  | destPartnerDetected d =>
    unfold exec execDestPartnerDetected at e
    refine live_verdicts (fun u k => ?_) e
    cases k
    exact modDest_verdicts d _ s
  | announce d wire =>
    unfold exec execAnnounce at e
    refine live_verdicts (fun u k => ?_) e
    cases k
    split
    · exact .refl s
    split
    · exact (modDest_verdicts d _ s).trans (checkStall_verdicts d _)
    · exact .refl s
  | destLossOfAlignment d => exact live_next_verdicts (loseAlignment_verdicts d s) e
  | destPartnerLost d =>
    unfold exec execDestPartnerLost at e
    refine live_verdicts (fun u k => ?_) e
    cases k
    exact (loseAlignment_verdicts d s).trans (modDest_verdicts d _ _)
  | retrainTimerExpiry d =>
    refine live_next_verdicts ?_ e
    split
    · exact (downProcedure_verdicts d s).trans (modDest_verdicts d _ _)
    · exact .refl s
  | destTransmissionStart d =>
    unfold exec execDestTransmissionStart at e
    refine live_verdicts (fun u k => ?_) e
    cases k
    split
    · exact .refl s
    split
    · exact modDest_verdicts d _ s
    · exact checkStall_verdicts d s
  | destTransmissionEndGood d => exact live_next_verdicts (endTransmission_verdicts d s) e
  | credit d wire =>
    exact live_next_verdicts (takeInbound_verdicts _ d wire _ s fun m => takeCreditMessage_verdicts d m s) e
  | verify d wire => exact live_next_verdicts (takeInbound_verdicts _ d wire _ s fun m => takeVerify_verdicts d m s) e
  | writeError d wire =>
    exact live_next_verdicts (takeInbound_verdicts _ d wire _ s fun m => takeWriteError_verdicts d m s) e
  | unknownDestMessage d wire => exact live_next_verdicts (f := id) (.refl s) e
  | verifyTimerExpiry d f => exact live_next_verdicts (expireTimer_verdicts f d s) e
  | identify l => exact runCommand_verdicts (fun b => guardBody_verdicts _ s _ (.refl s)) e
  | writeTable l => exact runCommand_verdicts (fun b => cmdWriteTable_verdicts b s) e
  | readTable l => exact runCommand_verdicts (fun b => guardBody_verdicts _ s _ (.refl s)) e
  | readState l => exact runCommand_verdicts (fun b => guardBody_verdicts _ s _ (readForm_verdicts b s)) e
  | readFaults l => exact runCommand_verdicts (fun b => guardBody_verdicts _ s _ (.refl s)) e
  | ackFaultsKeys l => exact runCommand_verdicts (fun b => cmdAckFaults_verdicts b s) e
  | ackFaultsLabel l => exact runCommand_verdicts (fun b => cmdAckFaults_verdicts b s) e
  | waiveLoss l =>
    exact runCommand_verdicts (fun b => guardBody_verdicts _ s _ (onCard_verdicts fun c _ => waiveMark_verdicts c s)) e
  | releaseCard l => exact runCommand_verdicts (fun b => cmdReleaseCard_verdicts b s) e
  | clearCard l =>
    refine runCommand_verdicts (fun b => guardBody_verdicts _ s _ (onCard_verdicts fun c k => ?_)) e
    dsimp only [Answer.done]
    exact clearEffect_verdicts c k s
  | waiveFile l => exact runCommand_verdicts (fun b => cmdWaiveFile_verdicts b s) e
  | destQuarantine l => exact runCommand_verdicts (fun b => cmdDestQuarantine_verdicts b s) e
  | destRestore l => exact runCommand_verdicts (fun b => cmdDestRestore_verdicts b s) e
  | reviewSelect l =>
    refine runCommand_verdicts (fun b => guardBody_verdicts _ s _ ?_) e
    dsimp only [selectCommand, Answer.done]
    exact (takeSelection_frame _ _ s).verdicts
  | setCounterEvents l => exact runCommand_verdicts (fun b => guardBody_verdicts _ s _ (.same rfl rfl rfl)) e
  | readCounters l => exact runCommand_verdicts (fun b => guardBody_verdicts _ s _ (.same rfl rfl rfl)) e
  | testFrame l => exact runCommand_verdicts (fun b => cmdTestFrame_verdicts b s) e
  | testFrameEvaluation ch => exact live_next_verdicts (evaluateTest_verdicts ch s) e
  | linkResetSource l => exact runCommand_verdicts (fun b => cmdLinkReset_verdicts l b s) e
  | linkResetDest l => exact runCommand_verdicts (fun b => cmdLinkReset_verdicts l b s) e
  | softReset l => exact live_next_verdicts (takeControl_verdicts fun g => runSoftReset_verdicts l g s) e

/-- One step, idle or not, keeps the verdicts. -/
theorem step_verdicts (s t : State) (e : step s = .next t) : VerdictsKept s t := by
  unfold step at e
  split at e
  · cases e; exact .refl s
  · exact (exec_verdicts _ _ t e).after rfl rfl rfl

/-- Settles O5: each operation of a step either leaves what the rule looks at, or evaluates the verdict of each card it
may have changed. -/
theorem verdictLawKept : Obligations.VerdictLawKept := fun s t law e => (step_verdicts s t e).law law

end Sys2Proof.Machine
end

