-- ==== Sys2Proof/Proofs/Cards.lean ====
section
/-! PROOF. The verdict rule (R24), MOUNT (R41, R42, R213) and CARD_END (R43). Settles O14, O15, O17. -/

namespace Sys2Proof.Machine

open Sys2Proof

/-! ### The verdict rule -/

/-- R24: no file record of the card. -/
theorem noFileOf_iff (s : State) (c : CardIx) : (firstIx (isFileOf s c fun _ => true)).isNone = true ↔
    ∀ (i : FileIx) (f : FileRec), s.files[i].file = some f → f.card ≠ c := by
  rw [Option.isNone_iff_eq_none, firstIx_none]
  refine forall_congr' fun i => ?_
  unfold isFileOf
  cases s.files[i].file <;> simp

/-- R24: no file record of the card that is STREAMING or SETTLING. -/
theorem noneMoving_iff (s : State) (c : CardIx) : (firstIx (isFileOf s c FileRec.moving)).isNone = true ↔
    ∀ (i : FileIx) (f : FileRec), s.files[i].file = some f → f.card = c → f.state = .short := by
  have short : ∀ f : FileRec, f.moving = false ↔ f.state = .short := fun f => by
    unfold FileRec.moving
    cases f.state <;> simp
  rw [Option.isNone_iff_eq_none, firstIx_none]
  refine forall_congr' fun i => ?_
  unfold isFileOf
  cases s.files[i].file <;> simp [short]

/-- R24: no OPEN record of severity HOLD has the label. -/
theorem noHold_iff (log : List FaultRec) (label : Bytes) : (!log.any (·.holds label)) = true ↔
    ∀ r ∈ log, ¬ (r.state = .opened ∧ r.severity = .hold ∧ r.label = some label) := by
  simp [FaultRec.holds, and_assoc]

/-- Settles O17: from the rule, by its two tests. -/
theorem verdictRule : Obligations.VerdictRule := by
  intro s c k
  have released : releasable s c k = true ↔ k.ended = true ∧
      (∀ (i : FileIx) (f : FileRec), s.files[i].file = some f → f.card ≠ c) ∧
        (∀ r ∈ s.log, ¬ (r.state = .opened ∧ r.severity = .hold ∧ r.label = some k.label)) ∧ k.lostMark = false := by
    unfold releasable
    rw [Bool.and_eq_true, Bool.and_eq_true, Bool.and_eq_true, noFileOf_iff, noHold_iff, Bool.not_eq_true', and_assoc,
      and_assoc]
  have still : (k.ended && (firstIx (isFileOf s c FileRec.moving)).isNone) = true ↔ k.ended = true ∧
      ∀ (i : FileIx) (f : FileRec), s.files[i].file = some f → f.card = c → f.state = .short := by
    rw [Bool.and_eq_true, noneMoving_iff]
  have rule : verdictOf s c k = if releasable s c k = true then .releasable
      else if (k.ended && (firstIx (isFileOf s c FileRec.moving)).isNone) = true then .held else .pending := rfl
  rw [← released, ← still, rule]
  split
  · next yes => simp [yes]
  · next no => split <;> simp_all

/-! ### What an event at the head reaches -/

/-- R12: after a change of the cards and the log, the end of the head's processing. -/
theorem LogOnly.ended {s t : State} (h : LogOnly s t) (l : SrcLink) : endProcessing l t = { s with
    src := (endProcessing l t).src, slots := (endProcessing l t).slots, cards := (endProcessing l t).cards
    log := (endProcessing l t).log, keyCounter := (endProcessing l t).keyCounter
    notices := (endProcessing l t).notices, loss := (endProcessing l t).loss } := by
  have frame := endProcessing_frame l t
  unfold LogOnly at h
  unfold SlotsOnly at frame
  generalize endProcessing l t = u at *
  cases s; cases t; cases u; simp_all

section
variable {s t : State}

theorem SlotsOnly.cards (h : SlotsOnly s t) : t.cards = s.cards := by unfold SlotsOnly at h; rw [h]
theorem SlotsOnly.log (h : SlotsOnly s t) : t.log = s.log := by unfold SlotsOnly at h; rw [h]
theorem SlotsOnly.channels (h : SlotsOnly s t) : t.channels = s.channels := by unfold SlotsOnly at h; rw [h]

end

/-- R12: after a change of the cards alone. -/
theorem endProcessing_afterCards (l : SrcLink) (s : State) (cards : Vector (Option Card) 16) :
    endProcessing l { s with cards := cards } = { s with
      src := (endProcessing l { s with cards := cards }).src
      slots := (endProcessing l { s with cards := cards }).slots
      cards := (endProcessing l { s with cards := cards }).cards } := by
  have frame := endProcessing_frame l { s with cards := cards }
  unfold SlotsOnly at frame
  generalize endProcessing l { s with cards := cards } = t at *
  cases s; cases t; simp_all

/-- R179: a record that names no card reaches no card. -/
theorem logFault_unnamed_cards {r : FaultRec} (hl : r.label = none) (s : State) : (logFault r s).cards = s.cards := by
  unfold logFault
  split
  · unfold storeRecord announceRecord
    dsimp only
    split
    · next named => rw [show (placed r s).label = none from hl] at named; cases named
    · split
      · exact offerNotice_cards _ _
      · rfl
  · unfold loseRecord
    rw [hl]
    rfl

/-! ### MOUNT -/

theorem mountedAt_of {c : CardIx} {k : Card} {s : State} (h : s.cards[c] = some k) :
    mountedAt c s = (k.mount != .detached) := by
  unfold mountedAt
  rw [h]
  rfl

/-- R197, R211: the label of a label field in form. -/
theorem labelOf_field {b : Bytes} (h : labelFieldOk (bytesAt b 0 17) = true) :
    labelOf (bytesAt b 0 17) = bytesAt b 1 (fieldAt b 0 1) := by
  have len : fieldAt (bytesAt b 0 17) 0 1 = fieldAt b 0 1 := by
    unfold fieldAt bytesAt
    rw [List.drop_zero, List.drop_zero, List.take_take]
    rfl
  have short : fieldAt b 0 1 ≤ 16 := by
    rw [← len]
    simp only [labelFieldOk, Bool.and_eq_true, decide_eq_true_eq] at h
    exact h.1.2
  unfold labelOf
  rw [len]
  unfold bytesAt
  rw [List.drop_zero, List.drop_take, List.take_take, Nat.min_eq_left short]

/-- R213: the label of a MOUNT body that passes its checks. -/
theorem mountLabel_eq {b : Bytes} (h : mountBodyOk b = true) :
    labelOf (bytesAt b 0 17) = bytesAt b 1 (fieldAt b 0 1) := by
  refine labelOf_field ?_
  simp only [mountBodyOk, Bool.and_eq_true] at h
  exact h.1.1.1.1.1

theorem exec_mount_taken {l : SrcLink} {i : SlotIx} {g : Segment} {s : State} (h : AtHead l i g s) (hk : g.kind = 0)
    (hg : g.headerOk = true) : exec (.mount l) s = .next (endProcessing l (takeMount l g s)) := by
  have run : exec (.mount l) s = .next (takeHead l (ofKind 0) (takeMount l) s) :=
    live_running h.1 fun s => .next (takeHead l (ofKind 0) (takeMount l) s)
  rw [run, takeHead_taken h (kind := ofKind 0) _ (beq_iff_eq.mpr hk) hg]

/-- R23: no card, or the one, with a label. -/
theorem cardByLabel_absent {label : Bytes} {s : State} (h : ∀ c : CardIx, (s.cards[c].map Card.label) ≠ some label) :
    cardByLabel label s = none := by
  refine firstIx_none.mpr fun c => ?_
  have ne := h c
  cases hk : s.cards[c] with
  | none => rfl
  | some k =>
    rw [hk] at ne
    exact beq_eq_false_iff_ne.mpr fun e => ne (congrArg some e)

theorem cardByLabel_named {label : Bytes} {c : CardIx} {k : Card} {s : State} (h : NamesCard label c k s) :
    cardByLabel label s = some c := by
  obtain ⟨hk, hl, only⟩ := h
  refine firstIx_unique (by rw [hk]; exact beq_iff_eq.mpr hl) fun c' hc' => only c' ?_
  cases hk' : s.cards[c'] with
  | none => rw [hk'] at hc'; cases hc'
  | some k' =>
    rw [hk'] at hc'
    exact congrArg some (eq_of_beq hc')

/-- R23: the card that holds a handle is found, whatever others do. -/
theorem cardByHandle_isSome {a : Handle} {s : State} (h : ∃ c' : CardIx, (s.cards[c'].bind Card.handle) = some a) :
    (cardByHandle a s).isSome = true := by
  obtain ⟨c, hc⟩ := h
  refine Option.isSome_iff_ne_none.mpr fun none => ?_
  have no := firstIx_none.mp none c
  cases hk : s.cards[c] with
  | none => rw [hk] at hc; cases hc
  | some k =>
    rw [hk] at no hc
    exact beq_eq_false_iff_ne.mp no hc

section
variable {l : SrcLink} {g : Segment} {s : State} (ok : mountBodyOk g.payload = true)
include ok

/-- R41: the rows, for a body that passes its checks. -/
theorem takeMount_eq : takeMount l g s =
    if (cardByLabel (bytesAt g.payload 1 (fieldAt g.payload 0 1)) s).any (mountedAt · s) then
      refuseMount .duplicateLabel ⟨l, g.cardSlot⟩ s
    else if (cardByHandle ⟨l, g.cardSlot⟩ s).isSome then refuseMount .handleBusy ⟨l, g.cardSlot⟩ s
    else match cardByLabel (bytesAt g.payload 1 (fieldAt g.payload 0 1)) s with
      | some c => modCard c (Card.reattach ⟨l, g.cardSlot⟩) s
      | none => match freeCard s with
        | none => refuseMount .cardTableFull ⟨l, g.cardSlot⟩ s
        | some c =>
          putCard c (some (newCard (bytesAt g.payload 1 (fieldAt g.payload 0 1)) ⟨l, g.cardSlot⟩ g.payload)) s := by
  unfold takeMount
  rw [mountLabel_eq ok]
  exact if_pos ok

section
variable (new : ∀ c : CardIx, (s.cards[c].map Card.label) ≠ some (bytesAt g.payload 1 (fieldAt g.payload 0 1)))
include new

/-- R41 row 6. -/
theorem takeMount_new {c : CardIx} (free : ∀ c : CardIx, (s.cards[c].bind Card.handle) ≠ some ⟨l, g.cardSlot⟩)
    (hc : s.cards[c] = none) (low : ∀ c' : CardIx, c' < c → s.cards[c'] ≠ none) : takeMount l g s =
      putCard c (some (newCard (bytesAt g.payload 1 (fieldAt g.payload 0 1)) ⟨l, g.cardSlot⟩ g.payload)) s := by
  have first : freeCard s = some c := firstIx_lowest (by rw [hc]; rfl) fun c' hc' => by
    exact Option.isNone_eq_false_iff.mpr (Option.isSome_iff_ne_none.mpr (low c' hc'))
  rw [takeMount_eq ok, cardByLabel_absent new, cardByHandle_none free, first]
  simp

/-- R41 row 4. -/
theorem takeMount_busy (held : ∃ c : CardIx, (s.cards[c].bind Card.handle) = some ⟨l, g.cardSlot⟩) :
    takeMount l g s = refuseMount .handleBusy ⟨l, g.cardSlot⟩ s := by
  rw [takeMount_eq ok, cardByLabel_absent new]
  simp [cardByHandle_isSome held]

/-- R41 row 5. -/
theorem takeMount_full (full : ∀ c : CardIx, s.cards[c] ≠ none ∧ (s.cards[c].bind Card.handle) ≠ some ⟨l, g.cardSlot⟩) :
    takeMount l g s = refuseMount .cardTableFull ⟨l, g.cardSlot⟩ s := by
  have no : freeCard s = none := firstIx_none.mpr fun c =>
    Option.isNone_eq_false_iff.mpr (Option.isSome_iff_ne_none.mpr (full c).1)
  rw [takeMount_eq ok, cardByLabel_absent new,
    cardByHandle_none fun c => (full c).2, no]
  simp

end

section
variable {c : CardIx} {k : Card} (names : NamesCard (bytesAt g.payload 1 (fieldAt g.payload 0 1)) c k s)
include names

/-- R41 rows 2 and 3. -/
theorem takeMount_duplicate (mounted : k.mount ≠ .detached) :
    takeMount l g s = refuseMount .duplicateLabel ⟨l, g.cardSlot⟩ s := by
  rw [takeMount_eq ok, cardByLabel_named names]
  simp [mountedAt_of names.1, mounted]

variable (detached : k.mount = .detached)
include detached

theorem takeMount_detachedBusy (held : ∃ c : CardIx, (s.cards[c].bind Card.handle) = some ⟨l, g.cardSlot⟩) :
    takeMount l g s = refuseMount .handleBusy ⟨l, g.cardSlot⟩ s := by
  rw [takeMount_eq ok, cardByLabel_named names]
  simp [mountedAt_of names.1, detached, cardByHandle_isSome held]

/-- R42. -/
theorem takeMount_reattaches (free : ∀ c : CardIx, (s.cards[c].bind Card.handle) ≠ some ⟨l, g.cardSlot⟩) :
    takeMount l g s = modCard c (Card.reattach ⟨l, g.cardSlot⟩) s := by
  rw [takeMount_eq ok, cardByLabel_named names, cardByHandle_none free]
  simp [mountedAt_of names.1, detached]

end

end

/-- R41, R176: what a refused MOUNT leaves. -/
theorem refuseMount_spec (cls : FaultClass) (h : Handle) (s : State) : LogOnly s (refuseMount cls h s) ∧
    (refuseMount cls h s).cards = s.cards ∧ (s.log.length < 64 → ∃ r, (refuseMount cls h s).log = s.log ++ [r] ∧
      r.cls = cls ∧ r.severity = .warn ∧ r.label = none ∧ r.values = [h.link.val, h.slot.val]) :=
  ⟨logFault_frame _ s, logFault_unnamed_cards rfl s,
    fun room => ⟨_, logFault_log _ s room, rfl, rfl, rfl, rfl⟩⟩

/-- R12, R41: the segment of a refused MOUNT leaves, and its record stays. -/
theorem AtHead.mountRefused {l : SrcLink} {i : SlotIx} {g : Segment} {s : State} (h : AtHead l i g s)
    (cls : FaultClass) : ∀ t, t = endProcessing l (refuseMount cls ⟨l, g.cardSlot⟩ s) →
      Processed l i s.src[l].replies s t ∧
      t = { s with
        src := t.src, slots := t.slots, cards := t.cards, log := t.log, keyCounter := t.keyCounter
        notices := t.notices, loss := t.loss } ∧ t.cards = s.cards ∧
      (s.log.length < 64 → ∃ r, t.log = s.log ++ [r] ∧ r.cls = cls ∧ r.severity = .warn ∧ r.label = none ∧
        r.values = [l.val, g.cardSlot.val]) := by
  rintro _ rfl
  obtain ⟨only, cards, logged⟩ := refuseMount_spec cls ⟨l, g.cardSlot⟩ s
  have frame := endProcessing_frame l (refuseMount cls ⟨l, g.cardSlot⟩ s)
  refine ⟨h.processed only.src only.slots, only.ended l, frame.cards.trans cards, ?_⟩
  rw [frame.log]
  exact logged

/-- Settles O14: by the row of R41 that the MOUNT meets. -/
theorem mountTaken : Obligations.MountTaken := by
  intro l i g s h hk hg
  rw [exec_mount_taken h hk hg]
  refine ⟨fun bad => ?_, fun ok c new hc low => ?_, fun ok new cls why => ?_, fun ok c k names => ?_⟩
  · rw [takeMount, bad]
    exact ⟨_, rfl, h.malformed⟩
  · rw [takeMount_new ok (fun c => (new c).1) (fun c => (new c).2) hc low]
    exact ⟨_, rfl, endProcessing_afterCards l s _, h.processed rfl rfl, (endProcessing_frame l _).cards⟩
  · have refused : takeMount l g s = refuseMount cls ⟨l, g.cardSlot⟩ s := by
      obtain ⟨rfl, held⟩ | ⟨rfl, full⟩ := why
      · exact takeMount_busy ok new held
      · exact takeMount_full ok new full
    rw [refused]
    exact ⟨_, rfl, h.mountRefused cls _ rfl⟩
  · by_cases hm : k.mount = .detached
    · by_cases held : ∃ c' : CardIx, (s.cards[c'].bind Card.handle) = some ⟨l, g.cardSlot⟩
      · rw [takeMount_detachedBusy ok names hm held]
        obtain ⟨processed, -, same⟩ := h.mountRefused .handleBusy _ rfl
        exact ⟨_, rfl, processed, fun no => absurd hm no, fun _ _ => same,
          fun _ free => absurd held fun ⟨c', hc'⟩ => free c' hc'⟩
      · have free : ∀ c' : CardIx, (s.cards[c'].bind Card.handle) ≠ some ⟨l, g.cardSlot⟩ := fun c' hc' =>
          held ⟨c', hc'⟩
        rw [takeMount_reattaches ok names hm free]
        refine ⟨_, rfl, h.processed rfl rfl, fun no => absurd hm no, fun _ yes => absurd yes held, fun _ _ =>
          ⟨endProcessing_afterCards l s _, (endProcessing_frame l _).cards.trans ?_⟩⟩
        rw [modCard_cards]
        refine vmod_congr _ _ ?_
        rw [names.1]
        rfl
    · rw [takeMount_duplicate ok names hm]
      obtain ⟨processed, -, same⟩ := h.mountRefused .duplicateLabel _ rfl
      exact ⟨_, rfl, processed, fun _ => same, fun yes => absurd yes hm, fun yes => absurd yes hm⟩

/-! ### CARD_END -/

theorem exec_cardEnd_taken {l : SrcLink} {i : SlotIx} {g : Segment} {s : State} (h : AtHead l i g s) (hk : g.kind = 2)
    (hg : g.headerOk = true) : exec (.cardEnd l) s = .next (endProcessing l (takeCardEnd l g s)) := by
  have run : exec (.cardEnd l) s = .next (takeHead l (ofKind 2) (takeCardEnd l) s) :=
    live_running h.1 fun s => .next (takeHead l (ofKind 2) (takeCardEnd l) s)
  rw [run, takeHead_taken h (kind := ofKind 2) _ (beq_iff_eq.mpr hk) hg]

/-- R43: the ended flag. -/
def Card.finish (k : Card) : Card := { k with ended := true, mount := .ended }

section
variable {l : SrcLink} {g : Segment} {c : CardIx} {k : Card} {s : State} (hold : HoldsHandle ⟨l, g.cardSlot⟩ c k s)
include hold

theorem takeCardEnd_inactive (hm : k.mount ≠ .active) : takeCardEnd l g s = s := by
  unfold takeCardEnd
  rw [show g.handle l = ⟨l, g.cardSlot⟩ from rfl, cardByHandle_some hold]
  dsimp only
  rw [hold.1]
  exact if_neg hm

theorem takeCardEnd_agrees (hm : k.mount = .active) (agree : ∀ n, k.expected = some n → n = k.opened) :
    takeCardEnd l g s = reeval c (modCard c Card.finish s) := by
  have none : k.countMismatch = none := Option.filter_eq_none_iff.mpr fun n hn => by simp [agree n hn]
  unfold takeCardEnd
  rw [show g.handle l = ⟨l, g.cardSlot⟩ from rfl, cardByHandle_some hold]
  dsimp only
  rw [hold.1]
  dsimp only
  rw [if_pos hm, none]
  rfl

theorem takeCardEnd_differs (hm : k.mount = .active) {n : Nat} (hn : k.expected = some n) (differ : n ≠ k.opened) :
    takeCardEnd l g s = reeval c (logFault { FaultRec.ofCard .countMismatch .hold k.label with
      values := [n, k.opened] } (modCard c Card.finish s)) := by
  have some : k.countMismatch = some n := by simp [Card.countMismatch, hn, differ]
  unfold takeCardEnd
  rw [show g.handle l = ⟨l, g.cardSlot⟩ from rfl, cardByHandle_some hold]
  dsimp only
  rw [hold.1]
  dsimp only
  rw [if_pos hm, some]
  rfl

end

/-- R24: the card whose verdict was evaluated last. -/
theorem reeval_card {c : CardIx} {k : Card} {s : State} (h : s.cards[c] = some k) :
    (reeval c s).cards[c] = some { k with verdict := verdictOf s c k } := by
  rw [reeval, modCard_cards, vmod_self, h]
  rfl

/-- Settles O15: an ACTIVE card ends, with a record where the counts differ. -/
theorem cardEndEnds : Obligations.CardEndEnds := by
  intro l i g c k s h hk hg hold
  rw [exec_cardEnd_taken h hk hg]
  by_cases hm : k.mount = .active
  swap
  · rw [takeCardEnd_inactive hold hm]
    exact ⟨_, rfl, h.dropped.2, fun yes => absurd yes hm, fun yes => absurd yes hm, fun _ => h.dropped.1⟩
  have finished : (modCard c Card.finish s).cards[c] = some k.finish := by
    rw [modCard_cards, vmod_self, hold.1]
    rfl
  by_cases agree : ∀ n, k.expected = some n → n = k.opened
  · rw [takeCardEnd_agrees hold hm agree]
    have frame := endProcessing_frame l (reeval c (modCard c Card.finish s))
    refine ⟨_, rfl, h.processed rfl rfl, fun _ _ => ⟨endProcessing_afterCards l s _, ?_⟩,
      fun _ n hn differ => absurd (agree n hn) differ, fun no => absurd hm no⟩
    have verdict : verdictOf (endProcessing l (reeval c (modCard c Card.finish s))) c { k with ended := true } =
        verdictOf (modCard c Card.finish s) c k.finish :=
      verdictOf_standing (fun j _ => by rw [frame.files]; rfl) (by rw [frame.log]; rfl) rfl rfl rfl
    rw [verdict, frame.cards, reeval, modCard_cards, modCard_cards, vmod_vmod]
    refine vmod_congr _ _ ?_
    rw [hold.1]
    rfl
  · have differs : ∃ n, k.expected = some n ∧ n ≠ k.opened := by simpa using agree
    obtain ⟨n, hn, differ⟩ := differs
    rw [takeCardEnd_differs hold hm hn differ]
    generalize hr : ({ FaultRec.ofCard .countMismatch .hold k.label with values := [n, k.opened] } : FaultRec) = r
    have only : LogOnly s (reeval c (logFault r (modCard c Card.finish s))) :=
      LogOnly.trans (t := modCard c Card.finish s) rfl ((logFault_frame r _).trans (reeval_frame c _))
    have frame := endProcessing_frame l (reeval c (logFault r (modCard c Card.finish s)))
    refine ⟨_, rfl, h.processed only.src only.slots, fun _ yes => absurd yes agree, fun _ m hm' _ room => ⟨?_, ?_⟩,
      fun no => absurd hm no⟩
    · obtain rfl : n = m := Option.some.inj (hn.symm.trans hm')
      refine ⟨_, frame.log.trans (logFault_log r _ room), ?_⟩
      rw [← hr]
      exact ⟨rfl, rfl, rfl, rfl⟩
    · obtain ⟨v, hv⟩ := (logFault_judged (r := r) (s := modCard c Card.finish s) room).some finished
      rw [frame.cards, reeval_card hv]
      have verdict : verdictOf (endProcessing l (reeval c (logFault r (modCard c Card.finish s)))) c
          { k with ended := true } = verdictOf (logFault r (modCard c Card.finish s)) c { k.finish with verdict := v } :=
        verdictOf_standing (fun j _ => by rw [frame.files]; rfl) (by rw [frame.log]; rfl) rfl rfl rfl
      rw [verdict]
      rfl

end Sys2Proof.Machine
end

