-- ==== Sys2Proof/Proofs/OpenRefusals.lean ====
section
/-! PROOF. How an OPEN is decided (R22, R30, R31) and what a refused one leaves (R32). Settles O20. -/

namespace Sys2Proof.Machine

open Sys2Proof

/-! ### The decision -/

theorem OpensOn.holds {l : SrcLink} {i : SlotIx} {g : Segment} {c : CardIx} {k : Card} {s : State}
    (h : OpensOn l i g c k s) : HoldsHandle ⟨l, g.cardSlot⟩ c k s := h.2.2.2

theorem exec_open_taken {l : SrcLink} {i : SlotIx} {g : Segment} {c : CardIx} {k : Card} {s : State}
    (h : OpensOn l i g c k s) : exec (.openFile l) s = .next (endProcessing l (takeOpen l g s)) := by
  obtain ⟨head, hk, hg, -⟩ := h
  have run : exec (.openFile l) s = .next (takeHead l (ofKind 3) (takeOpen l) s) :=
    live_running head.1 fun s => .next (takeHead l (ofKind 3) (takeOpen l) s)
  rw [run, takeHead_taken head (kind := ofKind 3) _ (beq_iff_eq.mpr hk) hg]

section
variable {l : SrcLink} {i : SlotIx} {g : Segment} {c : CardIx} {k : Card} {s : State} (h : OpensOn l i g c k s)
include h

/-- R30: an OPEN whose body fails its checks. -/
theorem takeOpen_badBody (hb : openBodyOk g.payload = false) :
    takeOpen l g s = refuseOpen .sequence c (openNumber g) s := by
  unfold takeOpen
  rw [show g.handle l = ⟨l, g.cardSlot⟩ from rfl, cardByHandle_some (OpensOn.holds h), hb]
  rfl

theorem takeOpen_decides (hb : openBodyOk g.payload = true) :
    takeOpen l g s = decideOpen c k (openRequest g) s := by
  unfold takeOpen
  rw [show g.handle l = ⟨l, g.cardSlot⟩ from rfl, cardByHandle_some (OpensOn.holds h), hb]
  dsimp only
  rw [if_pos rfl, (OpensOn.holds h).1]

end

section
variable {g : Segment} {c : CardIx} {k : Card} {s : State}

/-- R25: what is found under a file number of a card is such a file. -/
theorem fileByNumber_sound {number : Nat} {j : FileIx} {f : FileRec} (h : fileByNumber c number s = some j)
    (hf : s.files[j].file = some f) : f.card = c ∧ f.number = number := by
  have found := firstIx_sound h
  unfold isFileOf at found
  rw [hf, Option.map_some, Option.getD_some, Bool.and_eq_true] at found
  exact ⟨eq_of_beq found.1, eq_of_beq found.2⟩

/-- R31: neither of the first two rows refuses an OPEN that is allowed. -/
theorem earlyRefusal_none (h : OpenAllowed g c k s) :
    earlyRefusal k (openRequest g) ((fileByNumber c (openNumber g) s).bind fun i => s.files[i].file) = none := by
  unfold earlyRefusal
  rw [if_neg (show ¬ (k.mount = .ended ∧ (openRequest g).recopy = false) from h.1)]
  split
  · next f hf =>
    obtain ⟨j, hj, hf⟩ := Option.bind_eq_some_iff.mp hf
    obtain ⟨card, number⟩ := fileByNumber_sound hj hf
    obtain ⟨short, recopy⟩ := h.2 j f hf card number
    exact if_neg fun bad => bad.elim (fun ne => ne short) fun no =>
      Bool.false_ne_true (no.symm.trans recopy)
  · rfl

/-- R31: a row before the routing refuses the OPEN. -/
theorem decideOpen_early {cls : FaultClass}
    (h : earlyRefusal k (openRequest g) ((fileByNumber c (openNumber g) s).bind fun i => s.files[i].file) = some cls) :
    decideOpen c k (openRequest g) s = refuseOpen cls c (openNumber g) s := by
  unfold decideOpen
  dsimp only
  rw [show (openRequest g).number = openNumber g from rfl, h]

section
variable (h : OpenAllowed g c k s)
include h

/-- R31 row 3: no entry matches. -/
theorem decideOpen_unrouted (none : ∀ n : Fin 32, s.routes[n].takes (openKey g k) = false) :
    decideOpen c k (openRequest g) s = refuseOpen .unrouted c (openNumber g) s := by
  have unmatched : matchRoute (routeKey k.camera (openRequest g).typeCode) s = Option.none := by
    unfold matchRoute
    rw [Option.map_eq_none_iff]
    exact firstIx_none.mpr none
  unfold decideOpen
  dsimp only
  rw [show (openRequest g).number = openNumber g from rfl, earlyRefusal_none h, unmatched]

section
variable {r : RouteEntry} (hr : matchRoute (openKey g k) s = some r) (new : fileByNumber c (openNumber g) s = none)
include hr new

/-- R31 row 4: a routed OPEN of a file number that the card has no record of, with no free record. -/
theorem decideOpen_full (full : freeFileIx s = none) :
    decideOpen c k (openRequest g) s = refuseOpen .fileTableFull c (openNumber g) s := by
  have early := earlyRefusal_none h
  rw [new] at early
  unfold decideOpen
  dsimp only
  rw [show (openRequest g).number = openNumber g from rfl, new, early,
    show routeKey k.camera (openRequest g).typeCode = openKey g k from rfl, hr, full]

/-- R33: the same, with one. -/
theorem decideOpen_fresh {i : FileIx} (free : freeFileIx s = some i) : decideOpen c k (openRequest g) s =
    startFile i (freshRecord c (openRequest g) r.latch s) (!(openRequest g).recopy) s := by
  have early := earlyRefusal_none h
  rw [new] at early
  unfold decideOpen
  dsimp only
  rw [show (openRequest g).number = openNumber g from rfl, new, early,
    show routeKey k.camera (openRequest g).typeCode = openKey g k from rfl, hr, free]

end

/-- R34: a routed recopy of a SHORT file. -/
theorem decideOpen_recopy {r : RouteEntry} (hr : matchRoute (openKey g k) s = some r) {j : FileIx} {old : FileRec}
    (hj : fileByNumber c (openNumber g) s = some j) (hold : s.files[j].file = some old) :
    decideOpen c k (openRequest g) s = startFile j (recopyRecord old (openRequest g) r.latch s) false s := by
  have early := earlyRefusal_none h
  rw [hj] at early
  unfold decideOpen
  dsimp only
  rw [show (openRequest g).number = openNumber g from rfl, hj, early,
    show routeKey k.camera (openRequest g).typeCode = openKey g k from rfl, hr]
  dsimp only
  rw [hold]

end

/-- R22: the lowest-numbered entry that matches. -/
theorem matchRoute_of_routes {n : Fin 32} {key : BitVec 24} (h : Routes n key s) :
    matchRoute key s = some s.routes[n] := by
  unfold matchRoute
  rw [firstIx_lowest h.1 h.2]
  rfl

theorem matchRoute_some {key : BitVec 24} (h : ∃ n : Fin 32, s.routes[n].takes key = true) :
    ∃ r, matchRoute key s = some r := by
  unfold matchRoute
  cases hn : firstIx fun n : Fin 32 => s.routes[n].takes key with
  | none =>
    obtain ⟨n, yes⟩ := h
    exact absurd (firstIx_none.mp hn n) (by rw [yes]; exact Bool.noConfusion)
  | some n => exact ⟨_, rfl⟩

end

/-! ### Refusals -/

/-- R31: an OPEN that a row refuses, or whose body fails its checks, is refused with its class. -/
theorem takeOpen_refused {l : SrcLink} {i : SlotIx} {g : Segment} {c : CardIx} {k : Card} {cls : FaultClass} {s : State}
    (h : OpensOn l i g c k s) (why : (cls = .sequence ∧ openBodyOk g.payload = false) ∨
      (openBodyOk g.payload = true ∧
        ((cls = .lateOpen ∧ k.mount = .ended ∧ g.recopy = false) ∨
        (cls = .duplicateOpen ∧ ¬ (k.mount = .ended ∧ g.recopy = false) ∧
          ∃ j f, NamesFile c (openNumber g) j f s ∧ (f.state ≠ .short ∨ g.recopy = false)) ∨
        (cls = .unrouted ∧ OpenAllowed g c k s ∧ ∀ n : Fin 32, s.routes[n].takes (openKey g k) = false) ∨
        (cls = .fileTableFull ∧ OpenAllowed g c k s ∧ (∃ n : Fin 32, s.routes[n].takes (openKey g k) = true) ∧
          (∀ j : FileIx, s.files[j].file ≠ none) ∧
          ∀ (j : FileIx) (f : FileRec), s.files[j].file = some f → f.card = c → f.number ≠ openNumber g)))) :
    takeOpen l g s = refuseOpen cls c (openNumber g) s := by
  obtain ⟨rfl, bad⟩ | ⟨ok, rows⟩ := why
  · exact takeOpen_badBody h bad
  rw [takeOpen_decides h ok]
  obtain ⟨rfl, late⟩ | ⟨rfl, notLate, j, f, names, dup⟩ | ⟨rfl, allowed, none⟩ |
    ⟨rfl, allowed, routed, full, new⟩ := rows
  · exact decideOpen_early (if_pos late)
  · refine decideOpen_early ?_
    unfold earlyRefusal
    rw [if_neg (show ¬ (k.mount = .ended ∧ (openRequest g).recopy = false) from notLate),
      fileByNumber_some names, Option.bind_some, names.1]
    exact if_pos dup
  · exact decideOpen_unrouted allowed none
  · obtain ⟨r, hr⟩ := matchRoute_some routed
    have noFree : freeFileIx s = none := firstIx_none.mpr fun j =>
      Option.isNone_eq_false_iff.mpr (Option.isSome_iff_ne_none.mpr (full j))
    exact decideOpen_full allowed hr (fileByNumber_none new) noFree

/-- Settles O20: every refusal is one record and one mark. -/
theorem openRefused : Obligations.OpenRefused := by
  intro l i g c k cls s h why
  rw [exec_open_taken h, takeOpen_refused h why]
  have hk := (OpensOn.holds h).1
  have label : labelAt c s = k.label := by unfold labelAt; rw [hk]; rfl
  have record : LogOnly s (logCardFile cls c (openNumber g) [] s) := logFault_frame _ s
  have only : LogOnly s (refuseOpen cls c (openNumber g) s) := record.trans rfl
  have frame := endProcessing_frame l (refuseOpen cls c (openNumber g) s)
  refine ⟨_, rfl, only.ended l, h.1.processed only.src only.slots, ?_, fun room => ?_⟩
  · obtain ⟨k', hk', -⟩ := (logFault_marked _ s).some hk
    rw [frame.cards, refuseOpen, modCard_cards, vmod_self, logCardFile, hk']
    rfl
  · rw [frame.log, refuseOpen, modCard_log, logCardFile, logFault_log _ _ room]
    exact ⟨_, rfl, rfl, rfl, congrArg some label, rfl, rfl⟩

end Sys2Proof.Machine
end

