-- ==== Sys2Proof/Proofs/SequenceBreaks.lean ====
section
/-! PROOF. A data segment of a STREAMING file (R35, R36), and one out of place (R37). Settles O23. -/

namespace Sys2Proof.Machine

open Sys2Proof

section
variable {l : SrcLink} {i : SlotIx} {g : Segment} {c : CardIx} {k : Card} {j : FileIx} {f : FileRec} {s : State}
  (h : DataOf l i g c k j f s)
include h

theorem DataOf.holds : HoldsHandle ⟨l, g.cardSlot⟩ c k s := by
  obtain ⟨-, -, -, hk, handle, only, -⟩ := h
  exact ⟨hk, handle, only⟩

theorem DataOf.names : NamesFile c g.fileNumber j f s := by
  obtain ⟨-, -, -, -, -, -, -, hf, card, number, only, -⟩ := h
  exact ⟨hf, card, number, only⟩

/-- R35, R36, R37: the segment of a STREAMING file is taken by the offset check. -/
theorem takeData_streaming : takeData l g s =
    checkStalls (if offsetOk f g = true then acceptData l j i f g s else breakFile j g.offset s) := by
  obtain ⟨head, -, -, hk, -, -, refused, hf, -, -, -, streaming⟩ := id h
  have slot : headSlot l s = some i := head.2.1
  unfold takeData
  rw [show g.handle l = ⟨l, g.cardSlot⟩ from rfl, cardByHandle_some (DataOf.holds h)]
  dsimp only
  rw [if_neg (by rw [hk]; exact refused), fileByNumber_some (DataOf.names h)]
  dsimp only
  rw [hf, slot]
  exact if_pos streaming

theorem exec_dataStep_streaming : exec (dataStep l g.kind) s =
    .next (endProcessing l (checkStalls
      (if offsetOk f g = true then acceptData l j i f g s else breakFile j g.offset s))) := by
  rw [exec_dataStep_taken h.1 h.2.1 h.2.2.1, takeData_streaming h]

end

/-- Settles O23: the offset check fails, and the file breaks. -/
theorem sequenceBreaks : Obligations.SequenceBreaks := by
  intro l i g c k j f s h out
  obtain ⟨hf, rfl, -, -⟩ := DataOf.names h
  rw [exec_dataStep_streaming h, if_neg (by unfold offsetOk; rw [decide_eq_true_eq]; exact out)]
  exact ⟨_, rfl, breakFile_breaks _ hf (DataOf.holds h).1 h.1.queued⟩

end Sys2Proof.Machine
end

