-- ==== Sys2Proof/Proofs/Unmounts.lean ====
section
/-! PROOF. UNMOUNT (R44): the aborts of a card's STREAMING files, the pulled flag and the DETACHED card. Settles O16. -/

namespace Sys2Proof.Machine

open Sys2Proof

/-! ### The cards that a record leaves -/

/-- R23: the card at `c`, and no other, has the label. -/
def OwnsLabel (label : Bytes) (c : CardIx) (s : State) : Prop :=
  (s.cards[c].map Card.label) = some label ∧ ∀ c' : CardIx, (s.cards[c'].map Card.label) = some label → c' = c

/-- No card but that at `c` has changed. -/
def OthersKept (c : CardIx) (s t : State) : Prop := ∀ c' : CardIx, c' ≠ c → t.cards[c'] = s.cards[c']

section
variable {c : CardIx} {s t u : State}

theorem OthersKept.of_eq (h : t.cards = s.cards) : OthersKept c s t := fun c' _ => by rw [h]

theorem OthersKept.trans (h : OthersKept c s t) (k : OthersKept c t u) : OthersKept c s u :=
  fun c' ne => (k c' ne).trans (h c' ne)

theorem modCard_others (c : CardIx) (f : Card → Card) (s : State) : OthersKept c s (modCard c f s) :=
  fun c' ne => by rw [modCard_cards, vmod_get, if_neg ne]

theorem OwnsLabel.marked {label : Bytes} (h : OwnsLabel label c s) (m : CardsMarked s t) : OwnsLabel label c t :=
  ⟨by rw [m.label, h.1], fun c' hc' => h.2 c' (by rw [← m.label, hc'])⟩

theorem OwnsLabel.labelAt {label : Bytes} (h : OwnsLabel label c s) : labelAt c s = label := by
  unfold Machine.labelAt
  rw [h.1]
  rfl

/-- R23: the label finds its card or none. -/
theorem OwnsLabel.found {label : Bytes} (h : OwnsLabel label c s) {c' : CardIx} (hc : cardByLabel label s = some c') :
    c' = c := by
  have yes := firstIx_sound hc
  refine h.2 c' ?_
  cases hk : s.cards[c'] with
  | none => rw [hk] at yes; cases yes
  | some k =>
    rw [hk] at yes
    exact congrArg some (eq_of_beq yes)

/-- R24: an evaluation by label reaches the card of the label alone. -/
theorem reevalLabel_others {label : Bytes} (h : OwnsLabel label c s) : OthersKept c s (reevalLabel label s) := by
  unfold reevalLabel
  split
  · exact .of_eq rfl
  · next c' hc =>
    rw [h.found hc]
    exact modCard_others c _ s

/-- R179, R180: a record reaches the card of its label alone. -/
theorem logFault_others {label : Bytes} {r : FaultRec} (h : OwnsLabel label c s) (hr : r.label = some label) :
    OthersKept c s (logFault r s) := by
  unfold logFault
  split
  · unfold storeRecord announceRecord
    dsimp only
    generalize hb : (if s.part.notices = true then offerNotice (NoticeItem.fault (placed r s))
      { s with log := roomInLog s.log ++ [placed r s], keyCounter := ((placed r s).key + 1) % 65536 } else
      { s with log := roomInLog s.log ++ [placed r s], keyCounter := ((placed r s).key + 1) % 65536 }) = t
    have cards : t.cards = s.cards := by
      rw [← hb]
      split
      · exact offerNotice_cards _ _
      · rfl
    split
    · next label' _ hl =>
      have same : label = label' := Option.some.inj (hr.symm.trans hl)
      rw [← same]
      exact (OthersKept.of_eq cards).trans (reevalLabel_others (h.marked (.of_eq cards)))
    · exact .of_eq cards
  · unfold loseRecord
    rw [hr]
    dsimp only
    split
    · exact .of_eq rfl
    · next c' hc =>
      have same : c' = c := (h.marked (t := loseOne .faultsLost s) (.of_eq rfl)).found hc
      rw [same]
      exact (modCard_others c _ (loseOne .faultsLost s)).trans (modCard_others c _ _)

end

/-- R29: an abort reaches the card of its file alone. -/
theorem abortFile_others {label : Bytes} {i : FileIx} {f : FileRec} {s : State} (h : s.files[i].file = some f)
    (own : OwnsLabel label f.card s) : OthersKept f.card s (abortFile i s) := by
  have cards := (stopFile_aborted h).1
  rw [abortFile_eq h]
  have record : OthersKept f.card (stopFile i .aborted s) (logFault (shortOf f s) (stopFile i .aborted s)) :=
    logFault_others (own.marked (.of_eq cards)) (congrArg some own.labelAt)
  exact ((OthersKept.of_eq cards).trans record).trans (modCard_others _ _ _)

/-- R44: and so do the aborts of its files. -/
theorem abortStreaming_others {label : Bytes} {c : CardIx} (js : List FileIx) (nodup : js.Nodup) (s : State)
    (own : OwnsLabel label c s) (h : ∀ j ∈ js, ∃ f, s.files[j].file = some f ∧ f.card = c) :
    OthersKept c s (abortStreaming js s) := by
  induction js generalizing s with
  | nil => exact .of_eq rfl
  | cons j rest ih =>
    obtain ⟨hj, hrest⟩ := List.nodup_cons.mp nodup
    obtain ⟨f, hf, rfl⟩ := h j List.mem_cons_self
    obtain ⟨k, hk, -⟩ := Option.map_eq_some_iff.mp own.1
    have first := abortFile_aborted hf hk
    refine (abortFile_others hf own).trans (ih hrest _ (own.marked first.marked) fun i hi => ?_)
    obtain ⟨f', hf', card⟩ := h i (List.mem_cons_of_mem _ hi)
    refine ⟨f', ?_, card⟩
    rw [first.stopped.files_apart fun e => hj (List.mem_singleton.mp e ▸ hi)]
    exact hf'

/-! ### The STREAMING files of a card -/

/-- R44: the STREAMING files of a card, as the statement lists them. -/
theorem filesOf_streaming (s : State) (c : CardIx) : filesOf s c (fun f => f.state == .streaming) =
    allIx fun j : FileIx => s.files[j].file.any fun f => f.card == c && f.state == .streaming := by
  have same : (isFileOf s c fun f => f.state == .streaming) =
      fun j : FileIx => s.files[j].file.any fun f => f.card == c && f.state == .streaming := funext fun j => by
    unfold isFileOf
    cases s.files[j].file <;> rfl
  unfold filesOf
  rw [same]

theorem mem_streaming {s : State} {c : CardIx} {js : List FileIx} {j : FileIx}
    (hjs : js = allIx fun j : FileIx => s.files[j].file.any fun f => f.card == c && f.state == .streaming) (h : j ∈ js) :
    ∃ f, s.files[j].file = some f ∧ f.card = c := by
  rw [hjs, mem_allIx, Option.any_eq_true] at h
  obtain ⟨f, hf, yes⟩ := h
  rw [Bool.and_eq_true] at yes
  exact ⟨f, hf, eq_of_beq yes.1⟩

/-- R79: with no destination that starts to stall, the check changes nothing. -/
theorem checkStalls_idle {s : State} (h : ∀ d : Dest, ¬ (s.dest[d].stalled = true ∧ s.dest[d].stall = false)) :
    checkStalls s = s := by
  have each : ∀ ds : List Dest, ds.foldl (fun s d => checkStall d s) s = s := fun ds => by
    induction ds with
    | nil => rfl
    | cons d rest ih => rw [List.foldl_cons, checkStall, if_neg (h d), ih]
  exact each _

/-! ### The pull -/

/-- R44: what the pull of a card, or none, leaves. -/
structure PullTaken (pulls : Bool) (c : CardIx) (k : Card) (s t : State) : Prop where
  frame : LogOnly s t
  skips : t.loss.skipsV0 = s.loss.skipsV0 ∧ t.loss.skipsV1 = s.loss.skipsV1
  none : pulls = false → t = s
  others : OwnsLabel k.label c s → OthersKept c s t
  card : s.log.length < 64 → ∃ v, t.cards[c] = some { k with pulled := k.pulled || pulls, verdict := v }
  record : s.log.length < 64 → pulls = true → ∃ r, t.log = s.log ++ [r] ∧ r.cls = .cardPulled ∧ r.severity = .hold ∧
    r.label = some k.label

theorem pullCard_taken {c : CardIx} {k : Card} {s : State} (hk : s.cards[c] = some k) (pulls : Bool) :
    PullTaken pulls c k s (if pulls = true then pullCard c s else s) := by
  cases pulls with
  | false =>
    rw [if_neg Bool.false_ne_true]
    exact ⟨rfl, ⟨rfl, rfl⟩, fun _ => rfl, fun _ => .of_eq rfl, fun _ => ⟨k.verdict, by rw [hk, Bool.or_false]⟩,
      fun _ no => absurd no Bool.false_ne_true⟩
  | true =>
    rw [if_pos rfl]
    have flagged : (modCard c (fun k => { k with pulled := true }) s).cards[c] =
        some { k with pulled := true } := by
      rw [modCard_cards, vmod_self, hk]
      rfl
    have label : labelAt c (modCard c (fun k => { k with pulled := true }) s) = k.label := by
      unfold labelAt
      rw [flagged]
      rfl
    have noticed := logFault_noticed (FaultRec.ofCard .cardPulled .hold k.label)
      (modCard c (fun k => { k with pulled := true }) s)
    unfold pullCard
    dsimp only
    rw [label]
    refine ⟨LogOnly.trans (t := modCard c (fun k => { k with pulled := true }) s) rfl (logFault_frame _ _), ?_,
      fun no => Bool.noConfusion no, fun own => ?_, fun room => ?_, fun room _ => ?_⟩
    · rw [noticed.loss]
      exact ⟨rfl, rfl⟩
    · have marked : OwnsLabel k.label c (modCard c (fun k => { k with pulled := true }) s) := by
        refine ⟨by rw [flagged]; rfl, fun c' hc' => ?_⟩
        by_cases e : c' = c
        · exact e
        · rw [modCard_others c _ s c' e] at hc'
          exact own.2 c' hc'
      exact (modCard_others c _ s).trans (logFault_others marked rfl)
    · obtain ⟨v', hv⟩ := (logFault_judged (r := FaultRec.ofCard .cardPulled .hold k.label)
        (s := modCard c (fun k => { k with pulled := true }) s) room).some flagged
      exact ⟨v', by rw [hv, Bool.or_true]⟩
    · exact ⟨_, logFault_log _ _ room, rfl, rfl, rfl⟩

/-! ### The whole of an UNMOUNT -/

theorem exec_unmount_taken {l : SrcLink} {i : SlotIx} {g : Segment} {s : State} (h : AtHead l i g s) (hk : g.kind = 1)
    (hg : g.headerOk = true) : exec (.unmount l) s = .next (endProcessing l (takeUnmount l g s)) := by
  have run : exec (.unmount l) s = .next (takeHead l (ofKind 1) (takeUnmount l) s) :=
    live_running h.1 fun s => .next (takeHead l (ofKind 1) (takeUnmount l) s)
  rw [run, takeHead_taken h (kind := ofKind 1) _ (beq_iff_eq.mpr hk) hg]

theorem takeUnmount_absent {l : SrcLink} {g : Segment} {s : State}
    (h : ∀ c' : CardIx, (s.cards[c'].bind Card.handle) ≠ some ⟨l, g.cardSlot⟩) : takeUnmount l g s = s := by
  unfold takeUnmount
  rw [show g.handle l = ⟨l, g.cardSlot⟩ from rfl, cardByHandle_none h]

/-- R44: a card is pulled where a file streamed or CARD_END has not come. -/
def pulls (k : Card) (js : List FileIx) : Bool := !k.ended || decide (js ≠ [])

theorem takeUnmount_eq {l : SrcLink} {g : Segment} {c : CardIx} {k : Card} {s : State}
    (h : HoldsHandle ⟨l, g.cardSlot⟩ c k s) {js : List FileIx}
    (hjs : js = allIx fun j : FileIx => s.files[j].file.any fun f => f.card == c && f.state == .streaming) :
    takeUnmount l g s = reeval c (modCard c Card.detach
      (if pulls k js = true then pullCard c (checkStalls (abortStreaming js s))
        else checkStalls (abortStreaming js s))) := by
  have ended : (s.cards[c].map Card.ended).getD false = k.ended := by rw [h.1]; rfl
  have same : (js ≠ [] ∨ k.ended = false) = (pulls k js = true) := by
    unfold pulls
    cases k.ended <;> simp
  unfold takeUnmount
  rw [show g.handle l = ⟨l, g.cardSlot⟩ from rfl, cardByHandle_some h]
  dsimp only
  rw [filesOf_streaming, ← hjs, ended]
  simp only [same]

/-- R29: what several aborts leave, whatever else becomes of the links, the slots, the cards and the log. -/
theorem AbortedEach.aborted {js : List FileIx} {s t u : State} (h : AbortedEach js s t) (nodup : js.Nodup)
    (rise : StallsRise t u) (files : u.files = t.files) (channels : u.channels = t.channels)
    (engines : u.engines = t.engines) (skips : u.loss.skipsV0 = t.loss.skipsV0 ∧ u.loss.skipsV1 = t.loss.skipsV1) :
    Aborted js s u :=
  ⟨fun j => by rw [files]; exact h.stopped.files j, fun d => h.stopped.withdrawnAll rise nodup d,
    fun ch => by rw [channels]; exact h.stopped.channels ch, h.stopped.followsStopped rise engines skips⟩

/-- R44: the aborts of a card's STREAMING files. -/
structure CardAborted (js : List FileIx) (c : CardIx) (k : Card) (s t : State) : Prop where
  each : AbortedEach js s t
  freed : SlotsFreed s t
  others : OwnsLabel k.label c s → OthersKept c s t

theorem abortStreaming_card {c : CardIx} {k : Card} {s : State} (hk : s.cards[c] = some k) {js : List FileIx}
    (hjs : js = allIx fun j : FileIx => s.files[j].file.any fun f => f.card == c && f.state == .streaming) :
    js.Nodup ∧ CardAborted js c k s (abortStreaming js s) := by
  have nodup : js.Nodup := by rw [hjs]; exact allIx_nodup _
  have ofCard : ∀ j ∈ js, ∃ f, s.files[j].file = some f ∧ f.card = c := fun j hj => mem_streaming hjs hj
  refine ⟨nodup, abortStreaming_aborted js nodup s fun j hj => ?_, abortStreaming_freed js s, fun own =>
    abortStreaming_others js nodup s own ofCard⟩
  obtain ⟨f, hf, rfl⟩ := ofCard j hj
  exact ⟨f, k, hf, hk⟩

/-- R44: the aborts, the pull and the DETACHED card, and the end of the processing of the segment. -/
theorem unmount_taken {l : SrcLink} {i : SlotIx} {g : Segment} {c : CardIx} {k : Card} {js : List FileIx}
    {s a u t : State}
    (h : AtHead l i g s) (hk : s.cards[c] = some k) (nodup : js.Nodup) (aborts : CardAborted js c k s a)
    {k₁ : Card} (hk₁ : (checkStalls a).cards[c] = some k₁) (pulled : PullTaken (pulls k js) c k₁ (checkStalls a) u)
    (ht : t = endProcessing l (reeval c (modCard c Card.detach u))) :
    StopOnly s t ∧ TookHead l s t ∧ Aborted js s t ∧
      (VerdictLaw s → ∀ c' : CardIx, c' ≠ c → t.cards[c'] = s.cards[c']) ∧
      (s.log.length + js.length < 64 →
        (∀ k' : Card, k' = { k with
            handle := none, refused := none, mount := .detached
            pulled := k.pulled || !k.ended || decide (js ≠ []) } →
          t.cards[c] = some { k' with verdict := verdictOf t c k' }) ∧
        (js ≠ [] ∨ k.ended = false → ∃ rs r, t.log = s.log ++ rs ++ [r] ∧ ShortRecords js s rs ∧ r.cls = .cardPulled ∧
          r.severity = .hold ∧ r.label = some k.label)) := by
  have stalls := checkStalls_frame a
  have frame := endProcessing_frame l (reeval c (modCard c Card.detach u))
  have detached : LogOnly u (reeval c (modCard c Card.detach u)) := rfl
  have only := pulled.frame.trans detached
  have marked : CardsMarked s (checkStalls a) := aborts.each.marked.trans (.of_eq stalls.cards)
  have label : k₁.label = k.label := by
    have e := marked.label c
    rw [hk₁, hk] at e
    exact Option.some.inj e
  have moved : s.src[l].CreditsMoved (reeval c (modCard c Card.detach u)).src[l] := by
    rw [only.src, stalls.src]
    exact aborts.freed.ports l
  have took := endProcessing_took l moved h.queued
  have last : ∀ x : Card, u.cards[c] = some x → t.cards[c] =
      some { x.detach with verdict := verdictOf (modCard c Card.detach u) c x.detach } := fun x hx => by
    rw [ht, frame.cards]
    exact reeval_card (by rw [modCard_cards, vmod_self, hx]; rfl)
  have files : t.files = (modCard c Card.detach u).files := by rw [ht, frame.files]; rfl
  have log : t.log = u.log := by rw [ht, frame.log]; rfl
  refine ⟨?_, ?_, ?_, fun law c' ne => ?_, fun room => ?_⟩
  · rw [ht]
    exact ((aborts.each.stopped.frame.trans stalls.toStop).trans only.toStop).trans frame.toStop
  · rw [ht]; exact took
  · rw [ht]
    refine aborts.each.aborted nodup ((checkStalls_rise a).trans (.of_eq ?_ ?_)) ?_ ?_ ?_ ?_
    · rw [frame.dest, only.dest]
    · rw [frame.counters, only.counters]
    · rw [frame.files, only.files, stalls.files]
    · rw [frame.channels, only.channels, stalls.channels]
    · rw [frame.engines, only.engines, stalls.engines]
    · rw [frame.loss, ← stalls.loss]
      exact pulled.skips
  · have own : OwnsLabel k.label c s := by
      refine ⟨by rw [hk]; rfl, fun x hx => ?_⟩
      obtain ⟨y, hy, e⟩ := Option.map_eq_some_iff.mp hx
      exact law.2 x c y k hy hk e
    have ends : OthersKept c u t := by
      rw [ht]
      exact ((modCard_others c _ u).trans (modCard_others c _ _)).trans (.of_eq frame.cards)
    exact (((aborts.others own).trans (.of_eq stalls.cards)).trans
      ((pulled.others (label ▸ own.marked marked)).trans ends)) c' ne
  · obtain ⟨judged, -, rs, eq, short⟩ := aborts.each.records (Nat.le_of_lt room)
    have room' : (checkStalls a).log.length < 64 := by
      rw [stalls.log, eq, List.length_append, short.1]
      exact room
    refine ⟨fun k' hk' => ?_, fun why => ?_⟩
    · obtain ⟨v, hv⟩ := (judged.trans (.of_eq stalls.cards)).some hk
      obtain rfl : k₁ = { k with verdict := v } := Option.some.inj (hk₁.symm.trans hv)
      obtain ⟨w, hw⟩ := pulled.card room'
      have pulledFlag : (k.pulled || !k.ended || decide (js ≠ [])) = (k.pulled || pulls k js) := Bool.or_assoc _ _ _
      rw [pulledFlag] at hk'
      have verdict : verdictOf t c k' = verdictOf (modCard c Card.detach u) c
          (Card.detach { k with verdict := w, pulled := k.pulled || pulls k js }) := by
        rw [hk']
        exact verdictOf_standing (fun j _ => by rw [files]) (by rw [log]; rfl) rfl rfl rfl
      rw [last _ hw, verdict, hk']
      rfl
    · obtain ⟨r, hr, cls, severity, rl⟩ := pulled.record room' (by
        unfold pulls
        rw [Bool.or_eq_true, Bool.not_eq_true', decide_eq_true_eq]
        exact why.symm)
      exact ⟨rs, r, by rw [log, hr, stalls.log, eq], short, cls, severity, by rw [rl, label]⟩

/-- Settles O16: the aborts as for a link reset, then the pull and the DETACHED card. -/
theorem unmountDetaches : Obligations.UnmountDetaches := by
  intro l i g s h hk hg
  rw [exec_unmount_taken h hk hg]
  refine ⟨fun absent => ?_, fun c k js hold hjs => ?_⟩
  · rw [takeUnmount_absent absent]
    exact ⟨_, rfl, h.dropped⟩
  obtain ⟨nodup, aborts⟩ := abortStreaming_card hold.1 hjs
  obtain ⟨k₁, hk₁, -⟩ := (aborts.each.marked.trans (.of_eq (checkStalls_frame _).cards)).some hold.1
  have pulled := pullCard_taken hk₁ (pulls k js)
  rw [takeUnmount_eq hold hjs]
  obtain ⟨only, took, aborted, others, records⟩ := unmount_taken h hold.1 nodup aborts hk₁ pulled rfl
  refine ⟨_, rfl, only, took, aborted, others, records, ?_⟩
  rintro rfl
  have same : abortStreaming [] s = s := rfl
  rw [same] at hk₁ pulled ⊢
  have only : LogOnly (checkStalls s) (reeval c (modCard c Card.detach
      (if pulls k [] = true then pullCard c (checkStalls s) else checkStalls s))) := pulled.frame.trans rfl
  refine ⟨h.processed (only.src.trans (checkStalls_frame s).src) (only.slots.trans (checkStalls_frame s).slots),
    fun ended idle => ?_⟩
  have stays : pulls k [] = false := by unfold pulls; rw [ended]; rfl
  rw [checkStalls_idle idle, stays, if_neg Bool.false_ne_true]
  refine ⟨endProcessing_afterCards l s _, fun c' ne => ?_⟩
  rw [(endProcessing_frame l _).cards]
  exact ((modCard_others c Card.detach s).trans (modCard_others c _ _)) c' ne

end Sys2Proof.Machine
end

