-- ==== Sys2Proof/Proofs/Clears.lean ====
section
/-! PROOF. CLEAR CARD (R47, R200): the files of a card freed one after another, the follows of the card, and the card.
Settles O46. -/

namespace Sys2Proof.Machine

open Sys2Proof

/-! ### The copies of one file withdrawn -/

/-- R85: the copies of file `i` on the destinations `ds` have been withdrawn. -/
structure CopiesWithdrawn (i : FileIx) (ds : List Dest) (s t : State) : Prop where
  frame : DestOnly s t
  dest : ∀ d : Dest, t.dest[d] = if d ∈ ds then s.dest[d].withdraw (tidOf i s) else s.dest[d]
  freed : SlotsFreed s t
  cover : RefsCover s → RefsCover t

theorem withdrawAll_withdrawn (i : FileIx) (ds : List Dest) (nodup : ds.Nodup) (s : State) :
    CopiesWithdrawn i ds s (ds.foldl (fun s d => withdraw d (tidOf i s) s) s) := by
  induction ds generalizing s with
  | nil => exact ⟨.refl s, fun d => by rw [if_neg List.not_mem_nil]; rfl, .refl s, id⟩
  | cons d rest ih =>
    obtain ⟨hd, hrest⟩ := List.nodup_cons.mp nodup
    have one := withdraw_frame d (tidOf i s) s
    have more := ih hrest (withdraw d (tidOf i s) s)
    have tid : tidOf i (withdraw d (tidOf i s) s) = tidOf i s := by
      have files : (withdraw d (tidOf i s) s).files = s.files := by unfold DestOnly at one; rw [one]
      exact congrArg (fun v : Vector FilePos 512 => (⟨i, v[i].gen⟩ : Tid)) files
    refine ⟨one.trans more.frame, fun d' => ?_, (withdraw_freed d _ s).trans more.freed,
      fun h => more.cover (withdraw_cover d _ h)⟩
    rw [List.foldl_cons, more.dest, tid, withdraw_dest]
    by_cases e : d' = d
    · rw [e, if_neg hd, if_pos rfl, if_pos List.mem_cons_self]
    · rw [if_neg e]
      simp [e]

/-! ### The files of a card cleared -/

/-- R47: the file records `js` have been cleared, one after another. -/
structure FilesCleared (js : List FileIx) (s t : State) : Prop where
  frame : t = { s with src := t.src, slots := t.slots, dest := t.dest, files := t.files, channels := t.channels }
  files : ∀ j : FileIx, t.files[j] = if j ∈ js then ⟨s.files[j].gen, none⟩ else s.files[j]
  dest : ∀ d : Dest, t.dest[d] = (unsettledTids d js s).foldl DestPort.withdraw s.dest[d]
  channels : ChannelsFreed js s t
  freed : SlotsFreed s t
  cover : RefsCover s → RefsCover t

theorem clearFile_cleared {i : FileIx} {f : FileRec} {s : State} (h : s.files[i].file = some f) :
    FilesCleared [i] s (clearFile i s) := by
  have withdrawn : CopiesWithdrawn i f.unsettledDests s (discardCopies i s) := by
    unfold discardCopies
    rw [h]
    have nodup : f.unsettledDests.Nodup := List.Nodup.filter _ (List.nodup_finRange 6)
    exact withdrawAll_withdrawn i f.unsettledDests nodup s
  have files : (discardCopies i s).files = s.files := by
    have frame := withdrawn.frame
    unfold DestOnly at frame
    rw [frame]
  have released : (clearFile i s).src = (discardCopies i s).src ∧ (clearFile i s).slots = (discardCopies i s).slots ∧
      (clearFile i s).dest = (discardCopies i s).dest ∧ (clearFile i s).engines = (discardCopies i s).engines := by
    unfold clearFile releaseChannel
    split <;> exact ⟨rfl, rfl, rfl, rfl⟩
  obtain ⟨src, slots, dest, engines⟩ := released
  refine ⟨clearFile_frame i s, fun j => ?_, fun d => ?_, fun ch => ?_,
    withdrawn.freed.trans (.of_eq src slots), fun hc => (withdrawn.cover hc).of_eq dest engines fun x => by rw [slots]⟩
  · rw [clearFile_files, vmod_get]
    by_cases e : j = i
    · rw [if_pos e, if_pos (List.mem_singleton.mpr e), e]
    · rw [if_neg e, if_neg fun m => e (List.mem_singleton.mp m)]
  · have tids : unsettledTids d [i] s = if d ∈ f.unsettledDests then [tidOf i s] else [] := by
      unfold unsettledTids
      rw [List.filter_singleton, h]
      simp only [Option.any_some, FileRec.mem_unsettledDests]
      cases f.copies[d].unsettled <;> rfl
    rw [dest, withdrawn.dest, tids]
    split <;> rfl
  · have held : ([i].any fun j => (s.files[j].file.bind FileRec.channel) == some ch) = (f.channel == some ch) := by
      rw [List.any_cons, List.any_nil, Bool.or_false, h]
      rfl
    have channels : (discardCopies i s).channels = s.channels := by
      have frame := withdrawn.frame
      unfold DestOnly at frame
      rw [frame]
    have bound : (discardCopies i s).files[i].file.bind FileRec.channel = f.channel := by rw [files, h]; rfl
    rw [held, clearFile, freeFile_channels, releaseChannel, bound]
    cases hc : f.channel with
    | none => rw [← channels]; simp
    | some c =>
      dsimp only
      rw [modFile_channels, modChannel_channels, vmod_get, channels]
      by_cases e : ch = c
      · simp [e]
      · simp [e, Ne.symm e]

/-- R47: files that are cleared after others. -/
theorem FilesCleared.append {js ks : List FileIx} {s t u : State} (h : FilesCleared js s t) (k : FilesCleared ks t u)
    (apart : ∀ j ∈ ks, j ∉ js) : FilesCleared (js ++ ks) s u := by
  have gens : ∀ j : FileIx, t.files[j].gen = s.files[j].gen := fun j => by
    rw [h.files]
    split <;> rfl
  have same : ∀ j ∈ ks, t.files[j] = s.files[j] := fun j hj => by rw [h.files, if_neg (apart j hj)]
  refine ⟨by rw [k.frame, h.frame], fun j => ?_, fun d => ?_, fun ch => ?_, h.freed.trans k.freed,
    fun hc => k.cover (h.cover hc)⟩
  · rw [k.files]
    by_cases hk : j ∈ ks
    · rw [if_pos hk, same j hk, if_pos (List.mem_append_right _ hk)]
    · rw [if_neg hk, h.files]
      simp [hk]
  · have tids : unsettledTids d ks t = unsettledTids d ks s := by
      unfold unsettledTids
      rw [List.filter_congr fun j hj => by rw [same j hj]]
      simp only [gens]
    have split : unsettledTids d (js ++ ks) s = unsettledTids d js s ++ unsettledTids d ks s := by
      unfold unsettledTids
      rw [List.filter_append, List.map_append]
    rw [k.dest, h.dest, tids, split, List.foldl_append]
  · have kept : (ks.any fun j => (t.files[j].file.bind FileRec.channel) == some ch) =
        ks.any fun j => (s.files[j].file.bind FileRec.channel) == some ch :=
      Bool.eq_iff_iff.mpr (by
        simp only [List.any_eq_true]
        exact exists_congr fun j => and_congr_right fun hj => by rw [same j hj])
    rw [k.channels, h.channels, kept, List.any_append]
    cases ks.any fun j => (s.files[j].file.bind FileRec.channel) == some ch <;> simp

theorem clearFiles_cleared (js : List FileIx) (nodup : js.Nodup) (s : State) (h : ∀ j ∈ js, s.files[j].file ≠ none) :
    FilesCleared js s (js.foldl (fun s i => clearFile i s) s) := by
  induction js generalizing s with
  | nil =>
    exact ⟨rfl, fun j => by rw [if_neg List.not_mem_nil]; rfl, fun d => rfl, fun ch => rfl, .refl s, id⟩
  | cons j rest ih =>
    obtain ⟨hj, hrest⟩ := List.nodup_cons.mp nodup
    obtain ⟨f, hf⟩ := Option.ne_none_iff_exists'.mp (h j List.mem_cons_self)
    have first := clearFile_cleared hf
    have apart : ∀ i ∈ rest, i ∉ [j] := fun i hi e => hj (List.mem_singleton.mp e ▸ hi)
    refine first.append (ih hrest _ fun i hi => ?_) apart
    rw [first.files, if_neg (apart i hi)]
    exact h i (List.mem_cons_of_mem _ hi)

/-! ### The follows that end -/

/-- R145, R146: the follows of a test end after slots alone were freed. -/
theorem endFollowsAbort_stopped (p : Follow → Bool) {s v t : State} (engines : v.engines = s.engines)
    (counters : v.counters = s.counters) (loss : v.loss = s.loss) (stall : ∀ d : Dest, v.dest[d].stall = s.dest[d].stall)
    (freed : SlotsFreed s v) (cover : RefsCover s → RefsCover v) (rise : StallsRise (endFollowsAbort p v) t)
    (later : t.engines = (endFollowsAbort p v).engines)
    (skips : t.loss.skipsV0 = (endFollowsAbort p v).loss.skipsV0 ∧ t.loss.skipsV1 = (endFollowsAbort p v).loss.skipsV1) :
    FollowsStopped p s t := by
  obtain ⟨v0, v1⟩ := endFollowsAbort_skips p v
  refine ⟨fun e => by rw [later, endFollowsAbort_engines, engines]; rfl, ?_, ?_, fun law same => ?_⟩
  · rw [skips.1, v0, engines, loss]; rfl
  · rw [skips.2, v1, engines, loss]; rfl
  · have covered := cover law.cover
    have stalls : ∀ d : Dest, t.dest[d].stall = (endFollowsAbort p v).dest[d].stall := fun d => by
      rw [same d, (endFollowsAbort_frame p v).dest, stall]
    rw [rise.counters stalls, endFollowsAbort_counters p covered, engines, counters]
    congr 1
    funext c
    refine List.foldl_ext _ _ _ fun a x hx => skipEvent_congr (freed.owner _ ?_) a
    obtain hx | hx := List.mem_append.mp hx
    all_goals
      rw [← engines] at hx
      exact Nat.lt_of_lt_of_le (List.count_pos_iff.mpr (List.mem_map_of_mem hx)) (covered.gone _ _ _)

/-! ### The command -/

/-- R197, R215: the label that a body in form names. -/
theorem labelArg_passes {b : Bytes} (h : (labelShape b).passes) : labelArg b 0 = bytesAt b 1 (fieldAt b 0 1) := by
  refine labelOf_field ?_
  obtain ⟨-, zeros, -⟩ := h
  simpa [labelShape, fixedShape, labelTest, FieldTests.firstBad] using zeros

/-- R47: the files of a card, as the statement lists them. -/
theorem filesOf_card (s : State) (c : CardIx) : filesOf s c (fun _ => true) =
    allIx fun j : FileIx => s.files[j].file.any fun f => f.card == c := by
  have same : (isFileOf s c fun _ => true) = fun j : FileIx => s.files[j].file.any fun f => f.card == c :=
    funext fun j => by
      unfold isFileOf
      cases s.files[j].file <;> simp
  unfold filesOf
  rw [same]

theorem ne_none_of_mem {s : State} {c : CardIx} {js : List FileIx} {j : FileIx}
    (hjs : js = allIx fun j : FileIx => s.files[j].file.any fun f => f.card == c) (h : j ∈ js) :
    s.files[j].file ≠ none := fun none => by
  rw [hjs, mem_allIx, none] at h
  cases h

section
variable {c : CardIx} {k : Card} {js : List FileIx} {s : State} (own : OwnsLabel k.label c s)
  (hjs : js = allIx fun j : FileIx => s.files[j].file.any fun f => f.card == c)
include own hjs

/-- R47: what CLEAR CARD does, whatever becomes of the links and the slots after it. -/
theorem clearEffect_cleared : SlotsFreed s (clearEffect c k s) ∧ StopOnly s (clearEffect c k s) ∧
    ∀ t, SlotsOnly (clearEffect c k s) t → t.cards = (vmod s.cards c fun _ => none) ∧
      (∀ j : FileIx, t.files[j] = if j ∈ js then ⟨s.files[j].gen, none⟩ else s.files[j]) ∧
      (∀ d : Dest, WithdrawnAll d (unsettledTids d js s) s t) ∧ ChannelsFreed js s t ∧
      FollowsStopped (fun h => h.label == k.label) s t ∧
      (s.log.length < 64 → ∃ r, t.log = s.log ++ [r] ∧ r.cls = .cardCleared ∧ r.severity = .note ∧
        r.label = some k.label) := by
  have nodup : js.Nodup := by rw [hjs]; exact allIx_nodup _
  have cleared := clearFiles_cleared js nodup s fun j hj => ne_none_of_mem hjs hj
  have eq : clearEffect c k s = putCard c none (logFault (FaultRec.ofCard .cardCleared .note k.label)
      (checkStalls (endFollowsAbort (fun f => f.label == k.label) (js.foldl (fun s i => clearFile i s) s)))) := by
    unfold clearEffect
    rw [filesOf_card, ← hjs]
  rw [eq]
  generalize js.foldl (fun s i => clearFile i s) s = v at cleared ⊢
  have frame := cleared.frame
  have ended := endFollowsAbort_frame (fun f => f.label == k.label) v
  have endFreed := endFollowsAbort_freed (fun f => f.label == k.label) v
  have stopped := fun t => endFollowsAbort_stopped (fun f => f.label == k.label) (s := s) (v := v) (t := t)
    (by rw [frame]) (by rw [frame]) (by rw [frame])
    (fun d => by rw [cleared.dest, DestPort.foldl_withdraw_stall]) cleared.freed cleared.cover
  generalize endFollowsAbort (fun f => f.label == k.label) v = w at *
  have stalls := checkStalls_frame w
  have rise := checkStalls_rise w
  generalize checkStalls w = x at *
  have cards : x.cards = s.cards := by rw [stalls.cards, ended.cards, frame]
  have log : x.log = s.log := by rw [stalls.log, ended.log, frame]
  have record := logFault_frame (FaultRec.ofCard .cardCleared .note k.label) x
  have noticed := logFault_noticed (FaultRec.ofCard .cardCleared .note k.label) x
  have others : OthersKept c x (logFault (FaultRec.ofCard .cardCleared .note k.label) x) :=
    logFault_others (own.marked (.of_eq cards)) rfl
  have logged := logFault_log (FaultRec.ofCard .cardCleared .note k.label) x
  generalize logFault (FaultRec.ofCard .cardCleared .note k.label) x = y at *
  have all : StopOnly s v := by
    unfold StopOnly
    rw [frame]
  refine ⟨(cleared.freed.trans endFreed).trans (.of_eq (record.src.trans stalls.src) (record.slots.trans stalls.slots)),
    ((all.trans ended.toStop).trans (stalls.toStop.trans record.toStop)).trans rfl, fun t last => ?_⟩
  have dest : t.dest = x.dest := last.dest.trans record.dest
  have rises : StallsRise w t := rise.trans (.of_eq dest (last.counters.trans record.counters))
  refine ⟨?_, fun j => ?_, fun d => ?_, fun ch => ?_, stopped t rises ?_ ?_, fun room => ?_⟩
  · rw [last.cards, putCard_cards]
    refine vector_ext fun c' => ?_
    rw [vmod_get, vmod_get]
    split
    · rfl
    · next ne => rw [others c' ne, cards]
  · rw [last.files, putCard_files, record.files, stalls.files, ended.files]
    exact cleared.files j
  · have indices : ((unsettledTids d js s).map Tid.index).Nodup := by
      unfold unsettledTids
      rw [List.map_map]
      exact (nodup.filter _).map fun _ _ e => e
    unfold WithdrawnAll
    rw [rises.dest d, ended.dest, cleared.dest, foldl_withdraw_eq _ indices]
  · rw [last.channels, putCard_channels, record.channels, stalls.channels, ended.channels]
    exact cleared.channels ch
  · rw [last.engines, putCard_engines, record.engines, stalls.engines]
  · rw [last.loss, putCard_loss, noticed.loss, ← stalls.loss]
    exact ⟨rfl, rfl⟩
  · rw [last.log, putCard_log, logged (by rw [log]; exact room), log]
    exact ⟨_, rfl, rfl, rfl, rfl⟩

end

/-- Settles O46: the command passes its checks, and its effect is followed by one reply. -/
theorem cardCleared : Obligations.CardCleared := by
  intro l i g c k js s h hc hp names hjs
  have own : OwnsLabel k.label c s := by
    obtain ⟨hk, label, only⟩ := names
    exact ⟨by rw [hk]; rfl, fun c' hc' => only c' (by rw [hc', label])⟩
  have files : (filesOf s c fun _ => true).length = js.length := by rw [filesOf_card, ← hjs]
  have run : exec (.clearCard l) s =
      .next (answerHead l g (.done (le 2 js.length ++ [0, 0]) (clearEffect c k s))) := by
    show execClearCard l s = _
    unfold execClearCard runCommand
    rw [live_running h.1.1, takeControl_good l i g _ _ s h (by rw [hasCode, hc]; rfl) (by rw [hc]; rfl), cmdClearCard,
      guardBody_passes _ _ _ hp, labelArg_passes hp, onCard, cardByLabel_named names]
    dsimp only
    rw [names.1]
    dsimp only
    rw [files]
    rfl
  obtain ⟨freed, only, cleared⟩ := clearEffect_cleared own hjs
  have frame := answerHead_frame l g (.done (le 2 js.length ++ [0, 0]) (clearEffect c k s))
  rw [run]
  exact ⟨_, rfl, only.trans frame.toStop, answerHead_replied l g _ (freed.ports l) h.1.queued, cleared _ frame⟩

end Sys2Proof.Machine
end

