-- ==== Sys2Proof/Proofs/FollowChanges.lean ====
section
/-! PROOF. A change of follow on a look engine (R145), and the report of a taken OPEN to both engines (R143, R144). -/

namespace Sys2Proof.Machine

open Sys2Proof

/-! ### A slot whose segment is in processing -/

theorem settleSlot_other {i j : SlotIx} (h : j ≠ i) (s : State) : (settleSlot i s).slots[j] = s.slots[j] := by
  unfold settleSlot
  split
  · rfl
  split
  · exact vmod_other _ _ _ _ h
  · rfl

/-- R54, R55: a slot that is marked and has no reference keeps so when a reference goes. -/
theorem dropRef_marked (i j : SlotIx) {s : State} (mark : s.slots[j].mark = true) (refs : s.slots[j].refs = 0) :
    (dropRef i s).slots[j] = s.slots[j] := by
  by_cases e : j = i
  · subst e
    have same : (modSlot j (fun t => { t with refs := t.refs - 1 }) s).slots[j] = s.slots[j] := by
      rw [modSlot_slots, vmod_self, refs]
      cases hs : s.slots[j]
      rw [hs] at refs
      subst refs
      rfl
    have stays : settleSlot j (modSlot j (fun t => { t with refs := t.refs - 1 }) s) =
        modSlot j (fun t => { t with refs := t.refs - 1 }) s := by
      unfold settleSlot
      split
      · rfl
      · rw [if_neg]
        rw [same, mark]
        exact fun no => Bool.noConfusion no.1
    rw [dropRef, stays, same]
  · have first : (modSlot i (fun t => { t with refs := t.refs - 1 }) s).slots[j] = s.slots[j] := by
      rw [modSlot_slots, vmod_get, if_neg e]
    rw [dropRef, ← first]
    exact settleSlot_other e _

theorem discardAll_marked (e : Engine) (items : List LookItem) (j : SlotIx) {s : State}
    (mark : s.slots[j].mark = true) (refs : s.slots[j].refs = 0) :
    (items.foldl (fun s item => discardCounted e item s) s).slots[j] = s.slots[j] := by
  induction items generalizing s with
  | nil => rfl
  | cons x rest ih =>
    have one : (discardCounted e x s).slots[j] = s.slots[j] := by
      rw [discardCounted_eq]
      exact dropRef_marked x.slot j (s := { s with
        loss := s.loss.inc (.skips e), counters := s.counters.map fun p => skipEvent s p x }) mark refs
    rw [List.foldl_cons, ih (by rw [one]; exact mark) (by rw [one]; exact refs), one]

/-! ### One engine -/

/-- R145: an engine after its follow changes to `x`, or after an OPEN that does not qualify. -/
def EngineState.changedTo (x : Option Follow) (g : EngineState) : EngineState := if x = none then g else g.changed x

/-- R145: the entries that the change discards. -/
def EngineState.goneTo (x : Option Follow) (g : EngineState) : List LookItem := if x = none then [] else g.waiting

/-- R145: the change of follow, or nothing. -/
def followTo (e : Engine) (x : Option Follow) (s : State) : State := if x = none then s else changeFollow e x s

/-- R145: what the steps make of the engine. -/
theorem EngineState.close_discarded (g : EngineState) (new : Option Follow) :
    ({ ({ g with queue := if g.proc.isSome then g.queue.take 1 else [] } : EngineState) with
      pendingGap := false, follow := new } : EngineState).closeOld = g.changed new := by
  obtain ⟨sel, fo, queue, proc, ca, pg, out, wo, fi, fov, fu, sent⟩ := g
  cases proc with
  | none => cases out <;> simp [closeOld, changed, endBroken, brokenEnd]
  | some x => simp [closeOld, changed]

section
variable (e : Engine) (x : Option Follow) (s : State)

/-- R145: the entries discarded, and then the engine as the change leaves it. -/
theorem followTo_eq : followTo e x s = modEngine e (EngineState.changedTo x)
    ((s.engines[e].goneTo x).foldl (fun s item => discardCounted e item s) s) := by
  unfold followTo EngineState.goneTo
  by_cases h : x = none
  · rw [if_pos h, if_pos h, List.foldl_nil, modEngine, vmod_same _ _ _ (by rw [EngineState.changedTo, if_pos h])]
  · rw [if_neg h, if_neg h, changeFollow, discardWaiting]
    have engines := discardAll_engines e s.engines[e].waiting s
    unfold modEngine
    dsimp only
    rw [vmod_vmod]
    congr 1
    refine vmod_congr _ _ ?_
    rw [EngineState.changedTo, if_neg h]
    exact EngineState.close_discarded _ x

theorem followTo_engines : (followTo e x s).engines = vmod s.engines e (EngineState.changedTo x) := by
  rw [followTo_eq, modEngine_engines, discardAll_engines]

theorem followTo_loss : (followTo e x s).loss =
    (fun c => c.inc (.skips e))^[(s.engines[e].goneTo x).length] s.loss := by
  rw [followTo_eq, modEngine_loss, discardAll_loss]

theorem followTo_freed : SlotsFreed s (followTo e x s) := by
  rw [followTo_eq]
  exact (discardAll_freed e _ s).trans (.of_eq rfl rfl)

theorem followTo_frame : EnginesOnly s (followTo e x s) := by
  unfold followTo
  split
  · exact .refl s
  · exact changeFollow_frame e x s

theorem followTo_marked (j : SlotIx) (mark : s.slots[j].mark = true) (refs : s.slots[j].refs = 0) :
    (followTo e x s).slots[j] = s.slots[j] := by
  rw [followTo_eq, modEngine_slots, discardAll_marked e _ j mark refs]

end

/-- R145: what is discarded and what stays are parts of the queue. -/
theorem EngineState.changedTo_slots (x : Option Follow) (g : EngineState) (i : SlotIx) :
    ((g.changedTo x).queue.map LookItem.slot).count i + ((g.goneTo x).map LookItem.slot).count i =
      (g.queue.map LookItem.slot).count i := by
  unfold changedTo goneTo
  split
  · simp
  · unfold changed waiting
    cases hproc : g.proc with
    | none => simp
    | some y =>
      simp only [reduceCtorEq, if_false, Option.isSome_some, if_true]
      rw [← List.count_append, ← List.map_append, List.take_append_drop]

section
variable (e : Engine) (x : Option Follow) {s : State} (h : RefsCover s)
include h

/-- R54: the discarded entries had their references. -/
theorem RefsCover.goneTo (i : SlotIx) : ((s.engines[e].goneTo x).map LookItem.slot).count i ≤ s.slots[i].refs := by
  have parts := EngineState.changedTo_slots x s.engines[e] i
  rw [← lookRefs_eq] at parts
  have one : lookRefs e i s ≤ ∑ e : Engine, lookRefs e i s :=
    Finset.single_le_sum (f := fun e => lookRefs e i s) (fun _ _ => Nat.zero_le _) (Finset.mem_univ e)
  have cover := h i
  omega

theorem followTo_counters : (followTo e x s).counters =
    s.counters.map fun c => (s.engines[e].goneTo x).foldl (skipEvent s) c := by
  rw [followTo_eq, modEngine_counters, discardAll_counters _ _ _ (h.goneTo e x)]

theorem followTo_cover : RefsCover (followTo e x s) := by
  refine h.of_engine e (s.engines[e].goneTo x) (fun i => ?_) (fun i => ?_) (fun e' he' => ?_) ?_
  · rw [followTo_eq, modEngine_slots, discardAll_refs]
  · rw [lookRefs_eq, lookRefs_eq, followTo_engines, vmod_self, EngineState.changedTo_slots]
  · rw [followTo_engines, vmod_get, if_neg he']
  · rw [followTo_eq, modEngine_dest, discardAll_dest]

end

/-! ### Both engines -/

/-- R143: both engines change their follows. -/
def followsTo (x : Engine → Option Follow) (s : State) : State := followTo 1 (x 1) (followTo 0 (x 0) s)

section
variable (x : Engine → Option Follow) (s : State)

theorem followsTo_frame : EnginesOnly s (followsTo x s) := (followTo_frame 0 _ s).trans (followTo_frame 1 _ _)

theorem followsTo_freed : SlotsFreed s (followsTo x s) := (followTo_freed 0 _ s).trans (followTo_freed 1 _ _)

theorem followTo_other {e e' : Engine} (y : Option Follow) (h : e' ≠ e) :
    (followTo e y s).engines[e'] = s.engines[e'] := by
  rw [followTo_engines, vmod_get, if_neg h]

theorem followsTo_engines (e : Engine) : (followsTo x s).engines[e] = s.engines[e].changedTo (x e) := by
  have apart : (0 : Engine) ≠ 1 := by decide
  rw [followsTo, followTo_engines, vmod_get, followTo_engines]
  obtain rfl | rfl : e = 0 ∨ e = 1 := by revert e; decide
  · rw [if_neg apart, vmod_self]
  · rw [if_pos rfl, vmod_get, if_neg apart.symm]

theorem followsTo_marked (j : SlotIx) (mark : s.slots[j].mark = true) (refs : s.slots[j].refs = 0) :
    (followsTo x s).slots[j] = s.slots[j] := by
  have first := followTo_marked 0 (x 0) s j mark refs
  rw [followsTo, followTo_marked 1 _ _ j (by rw [first]; exact mark) (by rw [first]; exact refs), first]

/-- R145: the review skips of each engine. -/
theorem followsTo_skips :
    (followsTo x s).loss.skipsV0 = oneMore^[(s.engines[(0 : Engine)].goneTo (x 0)).length] s.loss.skipsV0 ∧
      (followsTo x s).loss.skipsV1 = oneMore^[(s.engines[(1 : Engine)].goneTo (x 1)).length] s.loss.skipsV1 := by
  have v0 : ∀ (n : Nat) (c : LossCounters), ((fun c => c.inc (.skips 0))^[n] c).skipsV0 = oneMore^[n] c.skipsV0 ∧
      ((fun c => c.inc (.skips 0))^[n] c).skipsV1 = c.skipsV1 := by
    intro n
    induction n with
    | zero => exact fun _ => ⟨rfl, rfl⟩
    | succ n ih => exact fun c => ih _
  have v1 : ∀ (n : Nat) (c : LossCounters), ((fun c => c.inc (.skips 1))^[n] c).skipsV0 = c.skipsV0 ∧
      ((fun c => c.inc (.skips 1))^[n] c).skipsV1 = oneMore^[n] c.skipsV1 := by
    intro n
    induction n with
    | zero => exact fun _ => ⟨rfl, rfl⟩
    | succ n ih => exact fun c => ih _
  have other := followTo_other s (e := 0) (e' := 1) (x 0) (by decide)
  rw [followsTo, followTo_loss, followTo_loss, other]
  exact ⟨by rw [(v1 _ _).1, (v0 _ _).1], by rw [(v1 _ _).2, (v0 _ _).2]⟩

variable {s} (h : RefsCover s)
include h

/-- R145, R204: the REVIEW_SKIPS events of both engines. -/
theorem followsTo_counters : (followsTo x s).counters = s.counters.map fun c =>
    (s.engines[(0 : Engine)].goneTo (x 0) ++ s.engines[(1 : Engine)].goneTo (x 1)).foldl (skipEvent s) c := by
  have other := followTo_other s (e := 0) (e' := 1) (x 0) (by decide)
  have cover := followTo_cover 0 (x 0) h
  rw [followsTo, followTo_counters 1 _ cover, followTo_counters 0 _ h, Vector.map_map, other]
  congr 1
  funext c
  rw [Function.comp, List.foldl_append]
  refine List.foldl_ext _ _ _ fun a y hy => skipEvent_congr ((followTo_freed 0 (x 0) s).owner _ ?_) a
  have count := cover.goneTo 1 (x 1) y.slot
  rw [other] at count
  exact Nat.lt_of_lt_of_le (List.count_pos_iff.mpr (List.mem_map_of_mem hy)) count

end

/-! ### The report of an OPEN -/

/-- R106: the parsing mode is PICTURE under a valid format entry with a packing. -/
theorem parseMode_picture (m : Option FormatEntry) :
    (parseMode m == .picture) = m.any fun m => decide (m.valid = true ∧ m.packing ≠ .none_) := by
  cases m with
  | none => rfl
  | some m =>
    unfold parseMode
    cases hv : m.valid <;> cases hp : m.packing <;> simp [hv, hp]

section
variable {l : SrcLink} {i : FileIx} {f : FileRec} {k : Card} {m : Option FormatEntry} {s : State}
  (streaming : f.state = .streaming) (format : f.assembly.bind Assembly.format = m)
  (hk : s.cards[f.card] = some k) (handle : ∃ n, k.handle = some ⟨l, n⟩)
include streaming format hk handle

/-- R143, R144: the file is one a selection can follow where the OPEN qualifies. -/
theorem selects_opened (sel : Selection) : selects sel f s =
    (m.any (fun m => decide (m.valid = true ∧ m.packing ≠ .none_)) && sel.admits l k.label f.number) := by
  obtain ⟨n, handle⟩ := handle
  have label : labelAt f.card s = k.label := by unfold labelAt; rw [hk]; rfl
  unfold selects FileRec.mode
  rw [streaming, format, parseMode_picture, beq_self_eq_true, Bool.true_and]
  congr 1
  cases sel with
  | off => rfl
  | follow links =>
    unfold onLinks
    rw [hk, Option.bind_some, handle]
    rfl
  | pin pinned number =>
    show (labelAt f.card s == pinned && f.number == number) = (pinned == k.label && number == f.number)
    rw [label, Bool.beq_comm (a := k.label), Bool.beq_comm (a := f.number)]

variable (hf : s.files[i].file = some f)
include hf

/-- R143, R144, R145: one engine hears of the OPEN. -/
theorem reportOpenTo_eq (e : Engine) : reportOpenTo i e s =
    followTo e (followOpened s.engines[e].selection l (tidOf i s) k.label f.number f.route.look m) s := by
  have label : labelAt f.card s = k.label := by unfold labelAt; rw [hk]; rfl
  have latched : followOf i s = m.map fun m =>
      ⟨tidOf i s, k.label, f.number, m.width, m.height, m.packing, f.route.look, false⟩ := by
    unfold followOf
    rw [hf]
    dsimp only
    rw [format, label]
    cases m <;> rfl
  unfold reportOpenTo
  rw [hf]
  dsimp only
  rw [selects_opened streaming format hk handle, latched]
  cases m with
  | none => rfl
  | some m =>
    by_cases q : m.valid = true ∧ m.packing ≠ .none_ ∧ s.engines[e].selection.admits l k.label f.number = true
    · have opened : followOpened s.engines[e].selection l (tidOf i s) k.label f.number f.route.look (some m) =
          some ⟨tidOf i s, k.label, f.number, m.width, m.height, m.packing, f.route.look, false⟩ := if_pos q
      rw [opened, followTo, if_neg (Option.some_ne_none _), if_pos (by rw [q.2.2, Bool.and_true]; simp [q.1, q.2.1])]
      rfl
    · have unqualified : followOpened s.engines[e].selection l (tidOf i s) k.label f.number f.route.look (some m) =
          none := if_neg q
      rw [unqualified, followTo, if_pos rfl, if_neg]
      simpa [and_assoc] using q

/-- R143: both engines hear of it, one after the other. -/
theorem reportOpen_eq : reportOpen i s = followsTo (fun e =>
    followOpened s.engines[e].selection l (tidOf i s) k.label f.number f.route.look m) s := by
  have first := reportOpenTo_eq streaming format hk handle hf 0
  have frame := followTo_frame 0 (followOpened s.engines[(0 : Engine)].selection l (tidOf i s) k.label f.number
    f.route.look m) s
  have other := followTo_other s (e := 0) (e' := 1) (followOpened s.engines[(0 : Engine)].selection l (tidOf i s)
    k.label f.number f.route.look m) (by decide)
  unfold reportOpen followsTo
  rw [first]
  generalize followTo 0 (followOpened s.engines[(0 : Engine)].selection l (tidOf i s) k.label f.number f.route.look m)
    s = t at *
  have tid : tidOf i t = tidOf i s := congrArg (fun v : Vector FilePos 512 => (⟨i, v[i].gen⟩ : Tid)) frame.files
  rw [reportOpenTo_eq streaming format (by rw [frame.cards]; exact hk) handle (by rw [frame.files]; exact hf) 1,
    other, tid]

end

end Sys2Proof.Machine
end

