-- ==== Sys2Proof/Proofs/Opens.lean ====
section
/-! PROOF. A taken OPEN (R33, R34): the record, its OPEN messages, its frame assembly and its channel, the card's counts
and verdict, and the report to the look engines. Settles O18 and O19. -/

namespace Sys2Proof.Machine

open Sys2Proof

/-! ### A message to several destinations -/

section
variable (msg : State → QEntry) (hm : ∀ d e s, msg (enqueue d e s) = msg s) (ds : List Dest) (s : State)

theorem enqueueAll_frame : ds.foldl (fun s d => enqueue d (msg s) s) s =
    { s with dest := (ds.foldl (fun s d => enqueue d (msg s) s) s).dest } :=
  foldl_keeps (fun s t => t = { s with dest := t.dest }) (fun _ => rfl) (fun _ _ _ h k => by rw [k, h]) _
    (fun _ _ => rfl) ds s

include hm

/-- R80: one entry joins the queue of each of them. -/
theorem enqueueAll_dest (nodup : ds.Nodup) (d : Dest) : (ds.foldl (fun s d => enqueue d (msg s) s) s).dest[d] =
    { s.dest[d] with queue := s.dest[d].queue ++ if d ∈ ds then [msg s] else [] } := by
  induction ds generalizing s with
  | nil => rw [if_neg List.not_mem_nil, List.append_nil]; rfl
  | cons x rest ih =>
    obtain ⟨hx, hrest⟩ := List.nodup_cons.mp nodup
    rw [List.foldl_cons, ih _ hrest, hm, enqueue, modDest_dest, vmod_get]
    by_cases e : d = x
    · rw [e, if_pos rfl, if_neg hx, if_pos List.mem_cons_self, List.append_nil]
    · rw [if_neg e]
      simp [e]

end

/-! ### The record -/

/-- R33, R34, R106: the record stands under the next generation, with its assembly; its OPEN messages are queued. -/
structure FileRegistered (i : FileIx) (f : FileRec) (s t : State) : Prop where
  frame : t = { s with files := t.files, openCounter := nextStamp s, dest := t.dest }
  files : t.files = vmod s.files i fun p =>
    ⟨p.gen + 1, some { f with assembly := some (Assembly.start (f.route.format.map fun m => s.formats[m])) }⟩
  dest : ∀ d : Dest, t.dest[d] = { s.dest[d] with
    queue := s.dest[d].queue ++
      if f.copies[d] = .pending then
        [.openMsg ⟨i, s.files[i].gen + 1⟩ (labelAt f.card s) f.number f.name f.declared]
      else [] }

theorem startAssembly_registered (i : FileIx) (f : FileRec) (s : State) :
    FileRegistered i f s (startAssembly i (queueOpens i f (writeRecord i f s))) := by
  have frame := enqueueAll_frame (fun s => .openMsg (tidOf i s) (labelAt f.card s) f.number f.name f.declared)
    (f.destsWith (· == .pending)) (writeRecord i f s)
  have tid : tidOf i (writeRecord i f s) = ⟨i, s.files[i].gen + 1⟩ :=
    congrArg (Tid.mk i) (congrArg FilePos.gen (vmod_self s.files i _))
  have dest := enqueueAll_dest (fun s => .openMsg (tidOf i s) (labelAt f.card s) f.number f.name f.declared)
    (fun _ _ _ => rfl) (f.destsWith (· == .pending)) (writeRecord i f s) (allIx_nodup _)
  have mem : ∀ d : Dest, (d ∈ f.destsWith fun c => c == .pending) ↔ f.copies[d] = .pending := fun d => by
    unfold FileRec.destsWith
    rw [mem_allIx, beq_iff_eq]
  unfold queueOpens
  generalize (f.destsWith fun c => c == .pending).foldl (fun s d =>
    enqueue d (.openMsg (tidOf i s) (labelAt f.card s) f.number f.name f.declared) s) (writeRecord i f s) = u at *
  refine ⟨by unfold startAssembly; rw [frame]; rfl, ?_, fun d => ?_⟩
  · rw [startAssembly, modFile_files, frame]
    dsimp only
    rw [writeRecord, vmod_vmod]
    rfl
  · rw [startAssembly, modFile_dest, dest, tid]
    simp only [mem]
    rfl

/-! ### The channel -/

/-- R152: what becomes of a file's request for a channel. -/
structure ChannelAsked (i : FileIx) (f : FileRec) (ch : Option Channel) (s t : State) : Prop where
  frame : t = { s with
    cards := t.cards, files := t.files, channels := t.channels, log := t.log, keyCounter := t.keyCounter
    notices := t.notices, loss := t.loss }
  files : t.files = vmod s.files i fun p => { p with file := some { f with channel := ch } }
  skips : t.loss.skipsV0 = s.loss.skipsV0 ∧ t.loss.skipsV1 = s.loss.skipsV1
  marked : CardsMarked s t
  cards : s.log.length < 64 → t.cards = s.cards
  unasked : f.route.profile = none ∨ f.assembly.bind Assembly.format = none →
    ch = none ∧ t.channels = s.channels ∧ t.log = s.log
  given : ∀ p m c, f.route.profile = some p → f.assembly.bind Assembly.format = some m → freeChannel s = some c →
    ch = some c ∧ t.log = s.log ∧ t.channels = vmod s.channels c fun _ =>
      latchedChannel (.file ⟨tidOf i s, labelAt f.card s, f.number⟩) p m.width m.height s
  none : ∀ p m, f.route.profile = some p → f.assembly.bind Assembly.format = some m → freeChannel s = none →
    s.log.length < 64 → ch = none ∧ t.channels = s.channels ∧ ∃ q, t.log = s.log ++ [q] ∧ q.cls = .uninspected ∧
      q.severity = .note ∧ q.label = some (labelAt f.card s) ∧ q.file = some f.number

theorem assignChannel_asked {i : FileIx} {f : FileRec} {s : State} (h : s.files[i].file = some f)
    (hc : f.channel = none) :
    ∃ ch, ChannelAsked i f ch s (assignChannel i s) := by
  have same : s.files = vmod s.files i fun p => { p with file := some { f with channel := none } } := by
    refine (vmod_same _ _ _ ?_).symm
    cases hp : s.files[i] with
    | mk gen file =>
      rw [hp] at h
      subst h
      cases f
      subst hc
      rfl
  unfold assignChannel
  rw [h]
  dsimp only
  cases hp : f.route.profile with
  | none =>
    refine ⟨none, rfl, same, ⟨rfl, rfl⟩, .of_eq rfl, fun _ => rfl, fun _ => ⟨rfl, rfl, rfl⟩,
      fun p m c e => ?_, fun p m e => ?_⟩
    all_goals rw [hp] at e; cases e
  | some p =>
    cases hm : f.assembly.bind Assembly.format with
    | none =>
      refine ⟨none, rfl, same, ⟨rfl, rfl⟩, .of_eq rfl, fun _ => rfl, fun _ => ⟨rfl, rfl, rfl⟩, fun p m c _ e => ?_,
        fun p m _ e => ?_⟩
      all_goals rw [hm] at e; cases e
    | some m =>
      have asked : ¬ (f.route.profile = none ∨ f.assembly.bind Assembly.format = none) := by
        rw [hp, hm]
        exact fun no => no.elim (Option.some_ne_none _) (Option.some_ne_none _)
      dsimp only
      cases hf : freeChannel s with
      | none =>
        have record := logFault_frame (FaultRec.ofFile .uninspected .note (labelAt f.card s) f.number) s
        have noticed := logFault_noticed (FaultRec.ofFile .uninspected .note (labelAt f.card s) f.number) s
        have cards := fun room =>
          logFault_cards (FaultRec.ofFile .uninspected .note (labelAt f.card s) f.number) s room Severity.noConfusion
        have log := logFault_log (FaultRec.ofFile .uninspected .note (labelAt f.card s) f.number) s
        have marked := logFault_marked (FaultRec.ofFile .uninspected .note (labelAt f.card s) f.number) s
        dsimp only
        generalize logFault (FaultRec.ofFile .uninspected .note (labelAt f.card s) f.number) s = t at *
        refine ⟨none, ?_, record.files.trans same, by rw [noticed.loss]; exact ⟨rfl, rfl⟩, marked, cards,
          fun no => absurd no asked, fun _ _ _ _ _ e => ?_, fun _ _ _ _ _ room => ⟨rfl, record.channels, ?_⟩⟩
        · unfold LogOnly at record
          rw [record]
        · rw [hf] at e; cases e
        · exact ⟨_, log room, rfl, rfl, rfl, rfl⟩
      | some c =>
        dsimp only
        refine ⟨some c, rfl, ?_, ⟨rfl, rfl⟩, .of_eq rfl, fun _ => rfl, fun no => absurd no asked, ?_,
          fun _ _ _ _ e => ?_⟩
        · rw [modFile_files, modChannel_files]
          refine vmod_congr _ _ ?_
          rw [h]
          rfl
        · rintro p' m' c' e e' e''
          rw [hp] at e
          rw [hm] at e'
          rw [hf] at e''
          cases e; cases e'; cases e''
          exact ⟨rfl, rfl, rfl⟩
        · rw [hf] at e; cases e

/-! ### The whole of a taken OPEN -/

/-- R33, R34: the record of a taken OPEN when the frame assembly and the channel have started. -/
def FileRec.openedAs (f : FileRec) (m : Option FormatEntry) (ch : Option Channel) : FileRec :=
  { f with assembly := some (Assembly.start m), channel := ch }

/-- What a record is that a taken OPEN makes or reuses, before its assembly and its channel start. -/
structure OpenRecord (g : Segment) (c : CardIx) (r : RouteEntry) (f : FileRec) : Prop where
  card : f.card = c
  number : f.number = openNumber g
  name : f.name = openName g.payload
  declared : f.declared = openSize g.payload
  route : f.route = r.latch
  state : f.state = .streaming
  channel : f.channel = none

/-- R33, R34: what a taken OPEN does but for the record itself. -/
structure OpenTaken (l : SrcLink) (i : SlotIx) (g : Segment) (c : CardIx) (k k' : Card) (j : FileIx) (r : RouteEntry)
    (f : FileRec) (s t : State) : Prop where
  frame : StopOnly { s with openCounter := nextStamp s } t
  took : TookHead l s t
  slot : t.slots[i] = Slot.free
  follows : FollowsOpened l ⟨j, s.files[j].gen + 1⟩ k.label (openNumber g) r s t
  file : t.files[j] = ⟨s.files[j].gen + 1, some f⟩
  others : ∀ j' : FileIx, j' ≠ j → t.files[j'] = s.files[j']
  started : OpenStarted g k j r f s t
  cards : s.log.length < 64 → t.cards = vmod s.cards c fun _ => some { k' with verdict := verdictOf t c k' }

/-- R23: the card counts the OPEN. -/
def Card.opens (countIt : Bool) (k : Card) : Card :=
  { k with opened := if countIt then satInc k.opened else k.opened, refused := none }

theorem startFile_eq (i : FileIx) (f : FileRec) (countIt : Bool) (s : State) : startFile i f countIt s =
    reportOpen i (reeval f.card (checkStalls (modCard f.card (Card.opens countIt)
      (assignChannel i (startAssembly i (queueOpens i f (writeRecord i f s))))))) := rfl

/-- R56, R80: an OPEN message takes no reference. -/
theorem RefsCover.of_opens {s t : State} (h : RefsCover s) (dest : ∀ d : Dest, ∃ es : List QEntry,
    t.dest[d].queue = s.dest[d].queue ++ es ∧ ∀ e ∈ es, e.slot = none) (engines : t.engines = s.engines)
    (slots : t.slots = s.slots) : RefsCover t := fun i => by
  have same : ∀ d : Dest, destRefs d i t = destRefs d i s := fun d => by
    obtain ⟨es, queue, free⟩ := dest d
    have zero : queueRefs i es = 0 := by
      unfold queueRefs
      rw [List.length_eq_zero_iff, List.filter_eq_nil_iff]
      intro e he
      rw [free e he]
      exact Bool.false_ne_true
    rw [destRefs_eq, destRefs_eq, queue, queueRefs_append, zero, Nat.add_zero]
  unfold lookRefs
  rw [engines, slots]
  simp only [same]
  exact h i

section
variable {l : SrcLink} {i : SlotIx} {g : Segment} {c : CardIx} {k : Card} {j : FileIx} {r : RouteEntry} {f : FileRec}
  {ch : Option Channel} {s a b : State} (h : OpensOn l i g c k s) (record : OpenRecord g c r f)
  (registered : FileRegistered j f s a)
  (asked : ChannelAsked j { f with assembly := some (Assembly.start (f.route.format.map fun m => s.formats[m])) } ch a b)
include h record registered asked

/-- R33, R34, R106, R152: what has started once the channel is asked for. -/
theorem open_started {t : State} (channels : t.channels = b.channels) (log : t.log = b.log)
    (dest : ∀ d : Dest, t.dest[d] = { b.dest[d] with stall := t.dest[d].stall }) :
    OpenStarted g k j r (f.openedAs (r.format.map fun m => s.formats[m]) ch) s t := by
  have label : labelAt c s = k.label := by unfold labelAt; rw [(OpensOn.holds h).1]; rfl
  have before : a.channels = s.channels ∧ a.log = s.log ∧ a.cards = s.cards ∧ a.profiles = s.profiles := by
    rw [registered.frame]
    exact ⟨rfl, rfl, rfl, rfl⟩
  obtain ⟨channels₀, log₀, cards₀, profiles₀⟩ := before
  have labelled : labelAt f.card a = k.label := by
    rw [record.card, ← label]
    unfold labelAt
    rw [cards₀]
  have tid : tidOf j a = ⟨j, s.files[j].gen + 1⟩ := by
    refine congrArg (Tid.mk j) ?_
    rw [registered.files, vmod_self]
  have format : ∀ m, r.format = some m → (some (Assembly.start (f.route.format.map fun m => s.formats[m]))).bind
      Assembly.format = some s.formats[m] := fun m hm => by
    rw [record.route]
    show (r.format.map fun m => s.formats[m]) = _
    rw [hm]
    rfl
  have free : ∀ c : Channel, s.channels[c].state = .free → (∀ c' : Channel, c' < c → s.channels[c'].state ≠ .free) →
      freeChannel a = some c := fun c yes low => by
    unfold freeChannel
    rw [channels₀]
    exact firstIx_lowest (beq_iff_eq.mpr yes) fun c' hc' => beq_eq_false_iff_ne.mpr (low c' hc')
  have route : (f.openedAs (r.format.map fun m => s.formats[m]) ch).route = r.latch := record.route
  refine ⟨by rw [route]; rfl, by rw [route]; rfl, by rw [route]; rfl, by rw [route]; rfl, by rw [route]; rfl, rfl,
    fun d => ?_, fun no => ?_, fun p m hp hm c' yes low => ?_, fun p m hp hm none room => ?_⟩
  · rw [dest, asked.frame]
    dsimp only
    rw [registered.dest, record.card, label, record.number, record.name, record.declared]
    rfl
  · have unasked := asked.unasked (no.imp (fun e => by rw [record.route]; exact e) fun e => by
      rw [record.route]
      show (r.format.map fun m => s.formats[m]) = Option.none
      rw [e]
      rfl)
    rw [channels, log, ← channels₀, ← log₀]
    exact unasked
  · obtain ⟨taken, log', channels'⟩ := asked.given p s.formats[m] c' (by rw [record.route]; exact hp) (format m hm)
      (free c' yes low)
    refine ⟨taken, by rw [log, log', log₀], ?_⟩
    rw [channels, channels', channels₀]
    refine congrArg (fun x => vmod s.channels c' fun _ => x) ?_
    dsimp only
    rw [labelled, tid, record.number]
    unfold latchedChannel
    rw [profiles₀]
  · have noFree : freeChannel a = Option.none := by
      unfold freeChannel
      rw [channels₀]
      exact firstIx_none.mpr fun c' => beq_eq_false_iff_ne.mpr (none c')
    obtain ⟨missing, channels', q, log', cls, severity, ql, qf⟩ := asked.none p s.formats[m]
      (by rw [record.route]; exact hp) (format m hm) noFree (by rw [log₀]; exact room)
    refine ⟨missing, by rw [channels, channels', channels₀], q, by rw [log, log', log₀], cls, severity, ?_, ?_⟩
    · rw [ql]; exact congrArg some labelled
    · rw [qf]; exact congrArg some record.number

end

/-- R23, R24: the card's counts and its verdict, after a check that reaches no card. -/
theorem counted_cards {c : CardIx} {k : Card} {countIt : Bool} {b v : State} (hk : b.cards[c] = some k)
    (stalls : StallOnly (modCard c (Card.opens countIt) b) v) : (reeval c v).cards = vmod b.cards c fun _ =>
      some { k.opens countIt with verdict := verdictOf v c (k.opens countIt) } := by
  rw [reeval, modCard_cards, stalls.cards, modCard_cards, vmod_vmod]
  refine vmod_congr _ _ ?_
  rw [hk]
  rfl

section
variable {l : SrcLink} {i : SlotIx} {g : Segment} {c : CardIx} {k : Card} {j : FileIx} {r : RouteEntry} {f : FileRec}
  {ch : Option Channel} {s a b v : State} (countIt : Bool) (h : OpensOn l i g c k s) (record : OpenRecord g c r f)
  (registered : FileRegistered j f s a)
  (asked : ChannelAsked j { f with assembly := some (Assembly.start (f.route.format.map fun m => s.formats[m])) } ch a b)
  (stalls : StallOnly (modCard c (Card.opens countIt) b) v) (rise : StallsRise (modCard c (Card.opens countIt) b) v)
include registered asked

/-- R33, R34: the destinations have their OPEN messages. -/
theorem opened_queues (d : Dest) : (modCard c (Card.opens countIt) b).dest[d] = { s.dest[d] with
    queue := s.dest[d].queue ++
      if f.copies[d] = .pending then
        [.openMsg ⟨j, s.files[j].gen + 1⟩ (labelAt f.card s) f.number f.name f.declared]
      else [] } := by
  rw [modCard_dest, asked.frame]
  exact registered.dest d

include stalls

/-- R33, R34: what can have changed before the look engines hear of the OPEN. -/
theorem opened_frame : StopOnly { s with openCounter := nextStamp s } (reeval c v) := by
  have one : StopOnly { s with openCounter := nextStamp s } a := by
    unfold StopOnly
    rw [registered.frame]
  have two : StopOnly a b := by
    unfold StopOnly
    rw [asked.frame]
  have three : StopOnly b (modCard c (Card.opens countIt) b) := rfl
  exact ((one.trans two).trans (three.trans stalls.toStop)).trans rfl

theorem opened_kept : (reeval c v).src = s.src ∧ (reeval c v).slots = s.slots ∧ (reeval c v).engines = s.engines ∧
    (reeval c v).loss.skipsV0 = s.loss.skipsV0 ∧ (reeval c v).loss.skipsV1 = s.loss.skipsV1 := by
  obtain ⟨v0, v1⟩ := asked.skips
  have first : a.src = s.src ∧ a.slots = s.slots ∧ a.engines = s.engines ∧ a.loss = s.loss := by
    rw [registered.frame]
    exact ⟨rfl, rfl, rfl, rfl⟩
  have second : b.src = a.src ∧ b.slots = a.slots ∧ b.engines = a.engines := by
    rw [asked.frame]
    exact ⟨rfl, rfl, rfl⟩
  have loss : (reeval c v).loss = b.loss := stalls.loss
  exact ⟨stalls.src.trans (second.1.trans first.1), stalls.slots.trans (second.2.1.trans first.2.1),
    stalls.engines.trans (second.2.2.trans first.2.2.1), by rw [loss, v0, first.2.2.2], by rw [loss, v1, first.2.2.2]⟩

section
include record

theorem opened_files : (reeval c v).files =
    vmod s.files j fun p => ⟨p.gen + 1, some (f.openedAs (r.format.map fun m => s.formats[m]) ch)⟩ := by
  have format : f.route.format = r.format := by rw [record.route]; rfl
  rw [reeval, modCard_files, stalls.files, modCard_files, asked.files, registered.files, vmod_vmod, format]
  rfl

end

include h

/-- R23, R24: the card keeps its label and its handle, and with room in the log it alone has changed. -/
theorem opened_card : ∃ k', (reeval c v).cards[c] = some k' ∧ k'.label = k.label ∧ k'.handle = k.handle := by
  have cards : a.cards = s.cards := by rw [registered.frame]
  obtain ⟨kb, hkb, same⟩ := asked.marked.some (by rw [cards]; exact (OpensOn.holds h).1)
  have label : kb.unmarked.label = k.unmarked.label := congrArg Card.label same
  have handle : kb.unmarked.handle = k.unmarked.handle := congrArg Card.handle same
  exact ⟨{ kb.opens countIt with verdict := verdictOf v c (kb.opens countIt) },
    by rw [counted_cards hkb stalls, vmod_self], label, handle⟩

theorem opened_cards (room : s.log.length < 64) {t : State} (files : t.files = v.files) (log : t.log = v.log) :
    (reeval c v).cards = vmod s.cards c fun _ =>
      some { k.opens countIt with verdict := verdictOf t c (k.opens countIt) } := by
  have before : a.cards = s.cards ∧ a.log = s.log := by
    rw [registered.frame]
    exact ⟨rfl, rfl⟩
  have kept : b.cards = s.cards := (asked.cards (by rw [before.2]; exact room)).trans before.1
  have verdict : verdictOf v c (k.opens countIt) = verdictOf t c (k.opens countIt) :=
    verdictOf_same files.symm log.symm rfl
  rw [counted_cards (by rw [kept]; exact (OpensOn.holds h).1) stalls, kept, verdict]

include record

/-- R143: the report to the look engines, in the terms of the OPEN. -/
theorem opened_reported : reportOpen j (reeval c v) = followsTo (fun e => followOpened s.engines[e].selection l
    ⟨j, s.files[j].gen + 1⟩ k.label (openNumber g) r.look (r.format.map fun m => s.formats[m])) (reeval c v) := by
  have files := opened_files countIt record registered asked stalls
  obtain ⟨k', hk', label, handle⟩ := opened_card countIt h registered asked stalls
  obtain ⟨-, -, engines, -⟩ := opened_kept countIt registered asked stalls
  have tid : tidOf j (reeval c v) = ⟨j, s.files[j].gen + 1⟩ := by
    refine congrArg (Tid.mk j) ?_
    rw [files, vmod_self]
  have look : f.route.look = r.look := by rw [record.route]; rfl
  have report := reportOpen_eq (l := l) (i := j) (s := reeval c v) (k := k')
    (f := f.openedAs (r.format.map fun m => s.formats[m]) ch) record.state rfl
    (by rw [← hk']; exact congrArg (fun x : CardIx => (reeval c v).cards[x]) record.card)
    ⟨g.cardSlot, by rw [handle]; exact (OpensOn.holds h).2.1⟩ (by rw [files, vmod_self])
  rw [report, tid, engines, label]
  show followsTo (fun e => followOpened s.engines[e].selection l ⟨j, s.files[j].gen + 1⟩ k.label f.number f.route.look
    (r.format.map fun m => s.formats[m])) (reeval c v) = _
  rw [record.number, look]

include rise

/-- R33, R34: everything a taken OPEN does. -/
theorem open_taken {t : State} (ht : t = endProcessing l (reportOpen j (reeval c v))) :
    OpenTaken l i g c k (k.opens countIt) j r (f.openedAs (r.format.map fun m => s.formats[m]) ch) s t := by
  obtain ⟨src, slots, engines, skips⟩ := opened_kept countIt registered asked stalls
  have files := opened_files countIt record registered asked stalls
  have frame := opened_frame countIt registered asked stalls
  have cards := opened_cards countIt h registered asked stalls
  have queues := opened_queues (c := c) countIt registered asked
  have started := @open_started l i g c k j r f ch s a b h record registered asked
  rw [opened_reported countIt h record registered asked stalls] at ht
  have channels : (reeval c v).channels = b.channels := stalls.channels
  have log : (reeval c v).log = b.log := stalls.log
  have rises : StallsRise (modCard c (Card.opens countIt) b) (reeval c v) := rise.trans (.of_eq rfl rfl)
  have counters : (modCard c (Card.opens countIt) b).counters = s.counters := by
    rw [modCard_counters, asked.frame]
    dsimp only
    rw [registered.frame]
  have sameFiles : (reeval c v).files = v.files := rfl
  have sameLog : (reeval c v).log = v.log := rfl
  generalize reeval c v = w at *
  generalize hx : (fun e : Engine => followOpened s.engines[e].selection l ⟨j, s.files[j].gen + 1⟩ k.label (openNumber g)
    r.look (r.format.map fun m => s.formats[m])) = x at ht
  have told := followsTo_frame x w
  have ended := endProcessing_frame l (followsTo x w)
  have freed := followsTo_freed x w
  have head : AtHead l i g s := h.1
  have slot : (followsTo x w).slots[i] = ⟨some l, true, 0, g⟩ := by
    rw [followsTo_marked x w i (by rw [slots, head.2.2]) (by rw [slots, head.2.2]), slots, head.2.2]
  have moved : s.src[l].CreditsMoved (followsTo x w).src[l] := by
    rw [← src]
    exact freed.ports l
  have last : ∀ d : Dest, t.dest[d] = w.dest[d] := fun d => by rw [ht, ended.dest, told.dest]
  have stallsOf : ∀ d : Dest, (modCard c (Card.opens countIt) b).dest[d].stall = s.dest[d].stall := fun d => by
    rw [queues]
  have processed := endProcessing_spec l i g (followsTo x w) (by rw [moved.arrivals]; exact head.2.1) slot
  refine ⟨?_, ?_, ?_, fun x' hx' => ?_, ?_, fun j' ne => ?_, started ?_ ?_ fun d => ?_, fun room => ?_⟩
  · rw [ht]
    exact (frame.trans told.toStop).trans ended.toStop
  · rw [ht]
    exact endProcessing_took l moved head.queued
  · rw [ht, processed.2, vmod_self]
  · obtain rfl : x' = x := by rw [← hx]; exact funext hx'
    obtain ⟨v0, v1⟩ := followsTo_skips x' w
    refine ⟨fun e => ?_, ?_, ?_, fun law still => ?_⟩
    · rw [ht, ended.engines, followsTo_engines, engines]
      rfl
    · rw [ht, ended.loss, v0, engines, skips.1]
      rfl
    · rw [ht, ended.loss, v1, engines, skips.2]
      rfl
    · have cover : RefsCover w := law.cover.of_opens (fun d => ⟨_, by rw [rises.dest d, queues], fun e he => ?_⟩)
        engines slots
      · have none : w.counters = s.counters := by
          rw [rises.counters fun d => by rw [stallsOf, ← still d, last], counters]
        rw [ht, ended.counters, followsTo_counters x' cover, none, engines]
        refine congrArg (fun f => s.counters.map f) (funext fun p => ?_)
        exact List.foldl_ext _ _ _ fun a y _ => skipEvent_congr (by rw [slots]) a
      · split at he
        · rw [List.mem_singleton.mp he]; rfl
        · cases he
  · rw [ht, ended.files, told.files, files, vmod_self]
  · rw [ht, ended.files, told.files, files, vmod_get, if_neg ne]
  · rw [ht, ended.channels, told.channels, channels]
  · rw [ht, ended.log, told.log, log]
  · rw [last, rises.dest d]
    rfl
  · rw [ht, ended.cards, told.cards]
    exact cards room (by rw [ended.files, told.files, sameFiles]) (by rw [ended.log, told.log, sameLog])

end

/-- R33, R34: from the decision to start the file to the end of its segment. -/
theorem exec_open_started {l : SrcLink} {i : SlotIx} {g : Segment} {c : CardIx} {k : Card} {j : FileIx} {r : RouteEntry}
    {f : FileRec} {countIt : Bool} {s : State} (h : OpensOn l i g c k s) (record : OpenRecord g c r f)
    (start : takeOpen l g s = startFile j f countIt s) : ∃ t ch, exec (.openFile l) s = .next t ∧
      OpenTaken l i g c k (k.opens countIt) j r (f.openedAs (r.format.map fun m => s.formats[m]) ch) s t := by
  have registered := startAssembly_registered j f s
  rw [exec_open_taken h, start, startFile_eq, record.card]
  generalize startAssembly j (queueOpens j f (writeRecord j f s)) = a at *
  obtain ⟨ch, asked⟩ := assignChannel_asked (i := j) (s := a)
    (f := { f with assembly := some (Assembly.start (f.route.format.map fun m => s.formats[m])) })
    (by rw [registered.files, vmod_self]) record.channel
  exact ⟨_, ch, rfl, open_taken countIt h record registered asked (checkStalls_frame _) (checkStalls_rise _) rfl⟩

/-! ### Its copies -/

theorem takesFiles_iff (d : Dest) (s : State) :
    takesFiles d s = true ↔ s.dest[d].state = .up ∧ s.destConfig[d].enabled = true := by
  unfold takesFiles
  rw [Bool.and_eq_true, beq_iff_eq]

/-- R27. -/
theorem freshCopy_eq (r : RouteEntry) (d : Dest) (s : State) : freshCopy r.latch d s =
    if r.dests.getLsbD d.val = true then
      if s.dest[d].state = .up ∧ s.destConfig[d].enabled = true then .pending else .failed .link
    else .none_ := by
  unfold freshCopy
  simp only [takesFiles_iff]
  rfl

section
variable {r : RouteEntry} {d : Dest} {old : CopyState} {s : State}

theorem recopyCopy_outside (out : r.dests.getLsbD d.val = false) : recopyCopy r.latch d old s = old := by
  unfold recopyCopy
  rw [show r.latch.dests.getLsbD d.val = false from out]
  rfl

variable (routed : r.dests.getLsbD d.val = true)
include routed

theorem recopyCopy_verified : recopyCopy r.latch d .verified s = .verified :=
  if_pos (c := r.latch.dests.getLsbD d.val = true) routed

theorem recopyCopy_taken (takes : takesFiles d s = true) (left : old = .none_ ∨ ∃ r, old = .failed r) :
    recopyCopy r.latch d old s = .pending := by
  unfold recopyCopy
  rw [if_pos (show r.latch.dests.getLsbD d.val = true from routed)]
  obtain rfl | ⟨why, rfl⟩ := left
  · exact if_pos takes
  · exact if_pos takes

theorem recopyCopy_untaken (no : ¬ takesFiles d s = true) :
    (old = .none_ → recopyCopy r.latch d old s = .failed .link) ∧
    ∀ why, old = .failed why → recopyCopy r.latch d old s = .failed why := by
  unfold recopyCopy
  rw [if_pos (show r.latch.dests.getLsbD d.val = true from routed)]
  refine ⟨?_, ?_⟩
  · rintro rfl
    exact if_neg no
  · rintro why rfl
    exact if_neg no

end

/-! ### A fresh file and a recopy -/

theorem freshRecord_openRecord (g : Segment) (c : CardIx) (r : RouteEntry) (s : State) :
    OpenRecord g c r (freshRecord c (openRequest g) r.latch s) := ⟨rfl, rfl, rfl, rfl, rfl, rfl, rfl⟩

theorem recopyRecord_openRecord {g : Segment} {c : CardIx} {old : FileRec} (card : old.card = c)
    (number : old.number = openNumber g) (r : RouteEntry) (s : State) :
    OpenRecord g c r (recopyRecord old (openRequest g) r.latch s) := ⟨card, number, rfl, rfl, rfl, rfl, rfl⟩

/-- Settles O18: the record is the fresh one, and what it starts is what every taken OPEN starts. -/
theorem openFresh : Obligations.OpenFresh := by
  intro l i g c k j n s h ok allowed new routes free low
  have unused : fileByNumber c (openNumber g) s = none := fileByNumber_none new
  have first : freeFileIx s = some j := firstIx_lowest (by rw [free]; rfl) fun j' hj' =>
    Option.isNone_eq_false_iff.mpr (Option.isSome_iff_ne_none.mpr (low j' hj'))
  obtain ⟨t, ch, run, taken⟩ := exec_open_started h (freshRecord_openRecord g c s.routes[n] s)
    ((takeOpen_decides h ok).trans (decideOpen_fresh allowed (matchRoute_of_routes routes) unused first))
  refine ⟨t, _, run, taken.frame, taken.took, taken.slot, taken.follows, taken.file, taken.others, rfl, rfl, rfl, rfl,
    rfl, rfl, rfl, rfl, rfl, rfl, taken.started, fun d => ?_, fun room k' hk' => ?_⟩
  · exact (Vector.getElem_ofFn _).trans (freshCopy_eq s.routes[n] d s)
  · have same : k' = k.opens (!(openRequest g).recopy) := by
      have counts : (if g.recopy = true then k.opened else if k.opened < 65535 then k.opened + 1 else k.opened) =
          if (!g.recopy) = true then satInc k.opened else k.opened := by
        cases g.recopy <;> rfl
      rw [hk', counts]
      rfl
    rw [same]
    exact taken.cards room

/-- Settles O19: the record is the old one reused, and what it starts is what every taken OPEN starts. -/
theorem openRecopy : Obligations.OpenRecopy := by
  intro l i g c k j old n s h ok recopy names short routes
  have found := fileByNumber_some names
  have allowed : OpenAllowed g c k s := by
    refine ⟨fun no => Bool.noConfusion (recopy.symm.trans no.2), fun j' f' hf' card number => ?_⟩
    obtain rfl : j' = j := names.2.2.2 j' (by rw [hf', Option.map_some, card, number])
    obtain rfl : f' = old := Option.some.inj (hf'.symm.trans names.1)
    exact ⟨short, recopy⟩
  obtain ⟨t, ch, run, taken⟩ := exec_open_started h
    (recopyRecord_openRecord names.2.1 names.2.2.1 s.routes[n] s)
    ((takeOpen_decides h ok).trans (decideOpen_recopy allowed (matchRoute_of_routes routes) found names.1))
  have copies : ∀ d : Dest, ((recopyRecord old (openRequest g) s.routes[n].latch s).openedAs
      (s.routes[n].format.map fun m => s.formats[m]) ch).copies[d] = recopyCopy s.routes[n].latch d old.copies[d] s :=
    fun d => Vector.getElem_ofFn _
  refine ⟨t, _, run, taken.frame, taken.took, taken.slot, taken.file, taken.follows, taken.others, rfl, taken.started,
    fun d out => ?_, fun d routed => ?_, fun room k' hk' => ?_⟩
  · rw [copies, recopyCopy_outside out]
  · rw [copies]
    refine ⟨fun verified => ?_, fun takes left => recopyCopy_taken routed ((takesFiles_iff d s).mpr takes) left,
      fun no => recopyCopy_untaken routed fun yes => no ((takesFiles_iff d s).mp yes)⟩
    rw [verified, recopyCopy_verified routed]
  · rw [hk']
    exact taken.cards room

end Sys2Proof.Machine
end

