-- ==== Sys2Proof/Proofs/Readings.lean ====
section
/-! PROOF. What the reading of an accepted segment reaches (chapters 6 and 8): the frame assembly of its file, the
channels, and the log with what a record reaches; and how many records it can make. -/

namespace Sys2Proof.Machine

open Sys2Proof

/-! ### How many records -/

theorem removeFirst_length (p : FaultRec → Bool) (log : List FaultRec) : (removeFirst p log).length ≤ log.length := by
  induction log with
  | nil => exact le_rfl
  | cons r rest ih =>
    unfold removeFirst
    split
    · exact Nat.le_succ _
    · exact Nat.succ_le_succ ih

theorem roomInLog_length (log : List FaultRec) : (roomInLog log).length ≤ log.length := by
  unfold roomInLog
  split
  · exact le_rfl
  · exact removeFirst_length _ log

theorem loseRecord_log (r : FaultRec) (s : State) : (loseRecord r s).log = s.log := by
  unfold loseRecord
  dsimp only
  split
  · rfl
  split <;> rfl

/-- R178: a record lengthens the log by one at most. -/
theorem logFault_length (r : FaultRec) (s : State) : (logFault r s).log.length ≤ s.log.length + 1 := by
  unfold logFault
  split
  · unfold storeRecord
    rw [announceRecord_log, List.length_append]
    exact Nat.succ_le_succ (roomInLog_length s.log)
  · rw [loseRecord_log]
    exact Nat.le_succ _

/-! ### What a reading reaches -/

/-- R106: what the reading of a segment of the file at `i` reaches, with at most `n` records. -/
structure Reading (i : FileIx) (n : Nat) (s t : State) : Prop where
  frame : t = { s with
    cards := t.cards, files := t.files, log := t.log, keyCounter := t.keyCounter, notices := t.notices, loss := t.loss
    counters := t.counters, channels := t.channels }
  files : ∃ u, t.files = vmod s.files i fun p => { p with file := p.file.map fun f => { f with assembly := u } }
  marked : CardsMarked s t
  records : t.log.length ≤ s.log.length + n

section
variable {i : FileIx} {n : Nat} {s : State}

/-- The files of a reading that does not reach them. -/
theorem sameAssembly (i : FileIx) (s : State) : ∃ u, s.files =
    vmod s.files i fun p => { p with file := p.file.map fun f => { f with assembly := u } } := by
  refine ⟨s.files[i].file.bind FileRec.assembly, (vmod_same _ _ _ ?_).symm⟩
  cases hp : s.files[i] with
  | mk gen file => cases file <;> rfl

theorem Reading.refl (i : FileIx) (n : Nat) (s : State) : Reading i n s s :=
  ⟨rfl, sameAssembly i s, .of_eq rfl, Nat.le_add_right _ _⟩

theorem Reading.trans {m : Nat} {t u : State} (h : Reading i n s t) (k : Reading i m t u) : Reading i (n + m) s u where
  frame := by
    have first := h.frame
    have second := k.frame
    rw [first] at second
    exact second
  files := by
    obtain ⟨_, first⟩ := h.files
    obtain ⟨x, second⟩ := k.files
    refine ⟨x, ?_⟩
    rw [second, first, vmod_vmod]
    refine vmod_congr _ _ ?_
    rw [Option.map_map]
    rfl
  marked := h.marked.trans k.marked
  records := by
    have first := h.records
    have second := k.records
    omega

theorem Reading.mono {m : Nat} {t : State} (h : Reading i n s t) (le : n ≤ m) : Reading i m s t :=
  ⟨h.frame, h.files, h.marked, h.records.trans (Nat.add_le_add_left le _)⟩

theorem Reading.of_channels {t : State} (h : ChannelsOnly s t) (marked : CardsMarked s t)
    (records : t.log.length ≤ s.log.length + n) : Reading i n s t where
  frame := by
    unfold ChannelsOnly at h
    rw [h]
  files := by
    unfold ChannelsOnly at h
    rw [h]
    exact sameAssembly i s
  marked := marked
  records := records

theorem modAssembly_reading (f : Assembly → Assembly) (s : State) : Reading i 0 s (modAssembly i f s) where
  frame := rfl
  files := by
    refine ⟨(s.files[i].file.bind FileRec.assembly).map f, (modFile_files i _ s).trans (vmod_congr _ _ ?_)⟩
    cases s.files[i].file <;> rfl
  marked := .of_eq rfl
  records := le_rfl

theorem modChannel_reading (c : Channel) (f : ChannelRec → ChannelRec) (s : State) : Reading i 0 s (modChannel c f s) :=
  .of_channels rfl (.of_eq rfl) le_rfl

theorem logFault_reading (r : FaultRec) (s : State) : Reading i 1 s (logFault r s) :=
  .of_channels (logFault_frame r s).toChannels (logFault_marked r s) (logFault_length r s)

theorem countEvent_reading (ev : CountEvent) (ag : Against) (amount : Nat) (s : State) :
    Reading i 0 s (countEvent ev ag amount s) := ⟨rfl, sameAssembly i s, .of_eq rfl, le_rfl⟩

/-! ### The probes -/

theorem reportFlip_reading (c : Channel) (p : Fin 8) (dir : FlipDirection) (frame value : Nat) (s : State) :
    Reading i 1 s (reportFlip c p dir frame value s) := by
  unfold reportFlip
  split
  · refine .of_channels rfl (.of_eq rfl) ?_
    unfold mergeInto
    rw [List.length_map]
    exact Nat.le_succ _
  · exact (logFault_reading _ s).trans (modChannel_reading c _ _)

theorem evalProbe_reading (c : Channel) (m : Measures) (frame : Nat) (p : Fin 8) (s : State) :
    Reading i 1 s (evalProbe c m frame p s) := by
  have stored : ∀ x, Reading i 0 s (modProbe c p (fun _ => x) s) := fun _ => modChannel_reading c _ s
  unfold evalProbe
  dsimp only
  split
  · split
    · exact .refl i 1 s
    · split <;> split
      · exact (stored _).trans (reportFlip_reading c p _ frame _ _)
      · exact (stored _).mono (Nat.zero_le 1)
      · exact (stored _).trans (reportFlip_reading c p _ frame _ _)
      · exact (stored _).mono (Nat.zero_le 1)
  · exact .refl i 1 s

/-- R161: each of the probes makes one record at most. -/
theorem evalProbes_reading (c : Channel) (m : Measures) (frame : Nat) (s : State) :
    Reading i 8 s (evalProbes c m frame s) := by
  have each : ∀ (ps : List (Fin 8)) (s : State),
      Reading i ps.length s (ps.foldl (fun s p => evalProbe c m frame p s) s) := by
    intro ps
    induction ps with
    | nil => exact fun s => .refl i 0 s
    | cons p rest ih =>
      exact fun s => ((evalProbe_reading c m frame p s).trans (ih _)).mono (Nat.add_comm 1 rest.length).le
  exact each (List.finRange 8) s

theorem toChannel_reading (f : Channel → State → State) (s : State) (h : ∀ c, Reading i n s (f c s)) :
    Reading i n s (toChannel i f s) := by
  unfold toChannel
  split
  · exact .refl i n s
  · exact h _

theorem evaluatePicture_reading (c : Channel) (frame digest : Nat) (m : MetaMeasures) (s : State) :
    Reading i 8 s (evaluatePicture c frame digest m s) :=
  (evalProbes_reading c _ frame s).trans (modChannel_reading c _ _)

theorem evaluateMeta_reading (c : Channel) (frame : Nat) (m : MetaMeasures) (s : State) :
    Reading i 8 s (evaluateMeta c frame m s) :=
  (evalProbes_reading c _ frame s).trans (modChannel_reading c _ _)

/-! ### Frames -/

theorem logPartial_reading (frame : Nat) (c : PartialCause) (s : State) : Reading i 1 s (logPartial i frame c s) := by
  unfold logPartial
  split
  · exact .refl i 1 s
  · exact logFault_reading _ s

theorem closePartial_reading (s : State) : Reading i 1 s (closePartial i s) := by
  unfold closePartial
  split
  · exact .refl i 1 s
  · exact ((modAssembly_reading _ s).trans (toChannel_reading _ _ fun c => modChannel_reading c _ _)).trans
      (logPartial_reading _ _ _)

/-- R115: a frame that LAST finds in progress is closed. -/
theorem closeAtLast_reading (s : State) : Reading i 1 s (closeAtLast i s) := by
  unfold closeAtLast
  split
  · exact .refl i 1 s
  split
  · exact .refl i 1 s
  · exact closePartial_reading s

theorem completeFrame_reading (l : SrcLink) (frame : Nat) (m : FormatEntry) (s : State) :
    Reading i 8 s (completeFrame i l frame m s) := by
  unfold completeFrame
  split
  · exact .refl i 8 s
  · have evaluated : ∀ digest measures (t : State), Reading i 8 t (toChannel i (fun c s =>
        evaluatePicture c frame digest measures (countEvent .framesInspected (.link l) 1 s)) t) := fun _ _ t =>
      toChannel_reading _ t fun c => (countEvent_reading _ _ _ t).trans (evaluatePicture_reading c frame _ _ _)
    exact (modAssembly_reading _ s).trans (evaluated _ _ _)

theorem parseSegment_reading (l : SrcLink) (m : FormatEntry) (g : Segment) (s : State) :
    Reading i 8 s (parseSegment i l m g s).1 := by
  have parsed : Reading i 0 s (toChannel i (fun c => gather c (pixelsOf m.packing g.payload) g.lineCount)
      (modAssembly i (fun a => { a with
        digest := a.digest.map fun d => d.advance g.payload, nextLine := g.firstLine + g.lineCount }) s)) :=
    (modAssembly_reading _ s).trans (toChannel_reading _ _ fun c => modChannel_reading c _ _)
  unfold parseSegment
  dsimp only
  split
  · exact parsed.trans (completeFrame_reading l _ m _)
  · exact parsed.mono (Nat.zero_le 8)

theorem beginAssembly_reading (g : Segment) (s : State) : Reading i 0 s (beginAssembly i g s) := by
  unfold beginAssembly
  dsimp only
  split
  · exact modAssembly_reading _ s
  · exact (modAssembly_reading _ s).trans (toChannel_reading _ _ fun c => modChannel_reading c _ _)

theorem placeGreater_reading (l : SrcLink) (m : FormatEntry) (g : Segment) (s : State) :
    Reading i 8 s (placeGreater i l m g s).1 := by
  unfold placeGreater
  dsimp only
  split
  · exact (beginAssembly_reading g s).trans (parseSegment_reading l m g _)
  · exact (modAssembly_reading _ s).mono (Nat.zero_le 8)

/-- R111: the frame a PREVIEW segment closes gives one record, and the one it completes eight. -/
theorem readPreview_reading (l : SrcLink) (m : FormatEntry) (g : Segment) (s : State) :
    Reading i 9 s (readPreview i l m g s).1 := by
  have closed : Reading i 9 s (placeGreater i l m g (closePartial i s)).1 :=
    (closePartial_reading s).trans (placeGreater_reading l m g _)
  have broken : ∀ f, Reading i 9 s (modAssembly i f s) := fun f => (modAssembly_reading f s).mono (Nat.zero_le 9)
  unfold readPreview
  split
  · exact .refl i 9 s
  split
  · split
    · exact (placeGreater_reading l m g s).mono (by decide)
    · exact (logPartial_reading _ _ s).mono (by decide)
  · split
    · exact closed
    split
    · exact broken _
    split
    · exact (parseSegment_reading l m g s).mono (by decide)
    · exact broken _
  · split
    · exact closed
    · exact .refl i 9 s

/-! ### Metadata -/

theorem metaParseFailure_reading (m : FormatEntry) (g : Segment) (s : State) :
    Reading i 1 s (metaParseFailure i m g s) := by
  unfold metaParseFailure
  split
  · exact .refl i 1 s
  dsimp only
  split
  · exact (modAssembly_reading _ s).trans (logFault_reading _ _)
  · exact logFault_reading _ s

theorem evaluateMetaOnly_reading (l : SrcLink) (m : FormatEntry) (r : MetaRec) (s : State) :
    Reading i 8 s (evaluateMetaOnly i l m r s) := by
  unfold evaluateMetaOnly
  split
  · exact .refl i 8 s
  · have evaluated : ∀ measures (t : State), Reading i 8 t (toChannel i (fun c s =>
        evaluateMeta c r.frame measures (countEvent .framesInspected (.link l) 1 s)) t) := fun _ t =>
      toChannel_reading _ t fun c => (countEvent_reading _ _ _ t).trans (evaluateMeta_reading c r.frame _ _)
    exact (modAssembly_reading _ s).trans (evaluated _ _)

theorem readMeta_reading (l : SrcLink) (m : FormatEntry) (g : Segment) (s : State) :
    Reading i 9 s (readMeta i l m g s) := by
  unfold readMeta
  split
  · exact (metaParseFailure_reading m g s).mono (by decide)
  dsimp only
  split
  · exact (evaluateMetaOnly_reading l m _ s).mono (by decide)
  · exact (modAssembly_reading _ s).mono (Nat.zero_le 9)

end

end Sys2Proof.Machine
end

