-- ==== Sys2Proof/Proofs/DataSegments.lean ====
section
/-! PROOF. An accepted data segment (R36): its digest, its DATA entries (R56), its reading (R106) and its offer to the
look queues (R134). Settles O21. -/

namespace Sys2Proof.Machine

open Sys2Proof

/-! ### The DATA entries -/

/-- R36, R56: one DATA entry joins the queue of each of the destinations, each with its reference. -/
structure DataQueued (i : FileIx) (slot : SlotIx) (ds : List Dest) (s t : State) : Prop where
  frame : t = { s with dest := t.dest, slots := t.slots }
  dest : ∀ d : Dest, t.dest[d] = { s.dest[d] with
    queue := s.dest[d].queue ++ if d ∈ ds then [.data (tidOf i s) slot] else [] }
  slots : t.slots = vmod s.slots slot fun x => { x with refs := x.refs + ds.length }

theorem dataQueued (i : FileIx) (slot : SlotIx) (ds : List Dest) (nodup : ds.Nodup) (s : State) :
    DataQueued i slot ds s (ds.foldl (fun s d => addRef slot (enqueue d (.data (tidOf i s) slot) s)) s) := by
  induction ds generalizing s with
  | nil =>
    refine ⟨rfl, fun d => ?_, (vmod_same _ _ _ rfl).symm⟩
    rw [if_neg List.not_mem_nil, List.append_nil]
    rfl
  | cons x rest ih =>
    obtain ⟨hx, hrest⟩ := List.nodup_cons.mp nodup
    obtain ⟨frame, dest, slots⟩ := ih hrest (addRef slot (enqueue x (.data (tidOf i s) slot) s))
    refine ⟨frame.trans rfl, fun d => ?_, ?_⟩
    · rw [List.foldl_cons, dest, addRef, modSlot_dest, enqueue, modDest_dest, vmod_get]
      by_cases e : d = x
      · rw [e, if_pos rfl, if_neg hx, if_pos List.mem_cons_self, List.append_nil]
      · rw [if_neg e]
        simp only [List.mem_cons, e, false_or]
        rfl
    · rw [List.foldl_cons, slots, addRef, modSlot_slots, vmod_vmod]
      refine vmod_congr _ _ ?_
      dsimp only [enqueue, modDest]
      rw [List.length_cons, Nat.add_assoc, Nat.add_comm 1]

theorem FileRec.mem_receivers {f : FileRec} {d : Dest} :
    d ∈ f.receivers ↔ f.copies[d] = .pending ∨ f.copies[d] = .sending := by
  unfold receivers destsWith
  rw [mem_allIx, Bool.or_eq_true, beq_iff_eq, beq_iff_eq]

theorem queueData_queued (i : FileIx) (slot : SlotIx) (f : FileRec) (s : State) :
    DataQueued i slot f.receivers s (queueData i slot f s) :=
  dataQueued i slot f.receivers (allIx_nodup _) s

/-! ### The offer to a look engine -/

/-- R134: what an accepted segment of the file makes of an engine: the entries `more` have joined the queue of one that
follows the file. -/
structure Offered (g : Segment) (tid : Tid) (x y : EngineState) : Prop where
  other : x.follow.map Follow.tid ≠ some tid → y = x
  joined : ∃ more, y = { x with queue := x.queue ++ more, pendingGap := y.pendingGap } ∧
    (g.kind ≠ 5 → more = [] ∧ y.pendingGap = x.pendingGap)

theorem Offered.refl (g : Segment) (tid : Tid) (x : EngineState) : Offered g tid x x :=
  ⟨fun _ => rfl, [], by rw [List.append_nil], fun _ => ⟨rfl, rfl⟩⟩

section
variable (l : SrcLink) (tid : Tid) (i : SlotIx) (g : Segment) (place : Placement) (complete : Bool) (e : Engine)
  (s : State)

theorem offerLookTo_frame : offerLookTo l tid i g place complete e s = { s with
    slots := (offerLookTo l tid i g place complete e s).slots
    engines := (offerLookTo l tid i g place complete e s).engines
    loss := (offerLookTo l tid i g place complete e s).loss
    counters := (offerLookTo l tid i g place complete e s).counters } := by
  unfold offerLookTo
  split
  · split <;> rfl
  · rfl

theorem offerLookTo_engines (preview : g.kind = 5) : ∃ h : EngineState → EngineState,
    (offerLookTo l tid i g place complete e s).engines = vmod s.engines e h ∧
      Offered g tid s.engines[e] (h s.engines[e]) := by
  unfold offerLookTo
  split
  · next followed =>
    split
    · refine ⟨_, (modSlot_engines i _ _).trans (modEngine_engines e _ _), ?_⟩
      exact ⟨fun no => absurd followed no, _, rfl, fun no => absurd preview no⟩
    · refine ⟨_, modEngine_engines e _ _, ?_⟩
      exact ⟨fun no => absurd followed no, [], by rw [List.append_nil], fun no => absurd preview no⟩
  · exact ⟨id, (vmod_same _ _ _ rfl).symm, .refl g tid _⟩

end

/-! ### The reading -/

/-- R36, R106, R134: what the reading of an accepted segment and its offer reach. -/
structure SegmentRead (g : Segment) (i : FileIx) (s t : State) : Prop where
  frame : StopOnly s t
  src : t.src = s.src
  dest : t.dest = s.dest
  files : ∃ u, t.files = vmod s.files i fun p => { p with file := p.file.map fun f => { f with assembly := u } }
  marked : CardsMarked s t
  records : t.log.length ≤ s.log.length + 9
  engines : ∀ e : Engine, Offered g (tidOf i s) s.engines[e] t.engines[e]

theorem Reading.read {i : FileIx} {s t : State} (h : Reading i 9 s t) (g : Segment) : SegmentRead g i s t where
  frame := by
    unfold StopOnly
    rw [h.frame]
  src := by rw [h.frame]
  dest := by rw [h.frame]
  files := h.files
  marked := h.marked
  records := h.records
  engines e := by
    rw [h.frame]
    exact .refl g _ _

theorem previewSegment_read (l : SrcLink) (i : FileIx) (slot : SlotIx) (m : FormatEntry) {g : Segment} (s : State)
    (preview : g.kind = 5) : SegmentRead g i s (previewSegment l i slot m g s) := by
  have read := (readPreview_reading (i := i) l m g s).read g
  have engines : (readPreview i l m g s).1.engines = s.engines := by rw [(readPreview_reading l m g s).frame]
  unfold previewSegment
  dsimp only
  generalize (readPreview i l m g s).2.1 = place
  generalize (readPreview i l m g s).2.2 = complete
  generalize (readPreview i l m g s).1 = t at *
  have zero := offerLookTo_frame l (tidOf i s) slot g place complete 0 t
  obtain ⟨x, first, offered⟩ := offerLookTo_engines l (tidOf i s) slot g place complete 0 t preview
  generalize offerLookTo l (tidOf i s) slot g place complete 0 t = v at *
  have one := offerLookTo_frame l (tidOf i s) slot g place complete 1 v
  obtain ⟨y, second, offered'⟩ := offerLookTo_engines l (tidOf i s) slot g place complete 1 v preview
  generalize offerLookTo l (tidOf i s) slot g place complete 1 v = w at *
  have last : StopOnly t w := by
    unfold StopOnly
    rw [one]
    dsimp only
    rw [zero]
  have same : w.src = t.src ∧ w.dest = t.dest ∧ w.files = t.files ∧ w.cards = t.cards ∧ w.log = t.log := by
    rw [one]
    dsimp only
    rw [zero]
    exact ⟨rfl, rfl, rfl, rfl, rfl⟩
  obtain ⟨src, dest, files, cards, log⟩ := same
  refine ⟨read.frame.trans last, src.trans read.src, dest.trans read.dest, ?_, read.marked.trans (.of_eq cards),
    by rw [log]; exact read.records, fun e => ?_⟩
  · rw [files]
    exact read.files
  · obtain rfl | rfl : e = 0 ∨ e = 1 := by revert e; decide
    · rw [second, vmod_get, if_neg (by decide), first, vmod_self, ← engines]
      exact offered
    · have kept : v.engines[(1 : Engine)] = s.engines[(1 : Engine)] := by
        rw [first, vmod_get, if_neg (by decide), engines]
      rw [second, vmod_self, ← kept]
      exact offered'

/-- R106: the segment is read by its kind and by the mode of its file. -/
theorem readSegment_read (l : SrcLink) (i : FileIx) (slot : SlotIx) (f : FileRec) (g : Segment) (s : State) :
    SegmentRead g i s (readSegment l i slot f g s) := by
  unfold readSegment
  split
  · exact (Reading.refl i 9 s).read g
  split
  · next preview => exact previewSegment_read l i slot _ s preview.1
  split
  · exact (readMeta_reading l _ g s).read g
  · exact (Reading.refl i 9 s).read g

/-- R36: an ESSENCE is not read. -/
theorem readSegment_essence (l : SrcLink) (i : FileIx) (slot : SlotIx) (f : FileRec) {g : Segment} (s : State)
    (essence : g.kind = 4) : readSegment l i slot f g s = s := by
  have preview : g.kind ≠ 5 := by rw [essence]; decide
  have meta_ : g.kind ≠ 6 := by rw [essence]; decide
  unfold readSegment
  split
  · rfl
  · rw [if_neg fun h => preview h.1, if_neg fun h => meta_ h.1]

/-! ### The accepted segment -/

/-- R36, R66: a file record once it has taken the bytes of a segment, with `u` as its frame assembly. -/
def FileRec.taking (g : Segment) (u : Option Assembly) (f : FileRec) : FileRec :=
  { f with
    sums := if g.payload = [] then f.sums else f.sums.advance g.payload
    nextOffset := f.nextOffset + g.payload.length, assembly := u }

/-- R36: what an accepted segment in the slot does before its LAST is looked at. -/
structure SegmentTaken (slot : SlotIx) (g : Segment) (j : FileIx) (f : FileRec) (u : Option Assembly) (s t : State) :
    Prop where
  frame : StopOnly s t
  src : t.src = s.src
  files : t.files = vmod s.files j fun p => { p with file := some (f.taking g u) }
  dest : ∀ d : Dest, t.dest[d] = { s.dest[d] with
    queue := s.dest[d].queue ++
      if g.payload ≠ [] ∧ (f.copies[d] = .pending ∨ f.copies[d] = .sending) then
        [.data ⟨j, s.files[j].gen⟩ slot] else [] }
  marked : CardsMarked s t
  records : t.log.length ≤ s.log.length + 9
  engines : ∀ e : Engine, Offered g ⟨j, s.files[j].gen⟩ s.engines[e] t.engines[e]
  unread : g.kind = 4 ∨ g.payload = [] →
    u = f.assembly ∧ t = { s with slots := t.slots, files := t.files, dest := t.dest }
  slots : g.kind = 4 → g.payload ≠ [] →
    t.slots = vmod s.slots slot fun x => { x with refs := x.refs + f.receivers.length }

section
variable {l : SrcLink} {slot : SlotIx} {g : Segment} {j : FileIx} {f : FileRec} {s : State}
  (hf : s.files[j].file = some f)
include hf

/-- R36: a segment without bytes moves nothing. -/
theorem noBytes_taken (empty : g.payload = []) : SegmentTaken slot g j f f.assembly s s where
  frame := .refl s
  src := rfl
  files := by
    have same : f.taking g f.assembly = f := by
      unfold FileRec.taking
      rw [if_pos empty, empty]
      rfl
    refine (vmod_same _ _ _ ?_).symm
    rw [same, ← hf]
  dest d := by
    rw [if_neg fun h => h.1 empty, List.append_nil]
  marked := .of_eq rfl
  records := Nat.le_add_right _ _
  engines e := .refl g _ _
  unread _ := ⟨rfl, rfl⟩
  slots _ no := absurd empty no

/-- R36, R56: the bytes are digested and queued. -/
theorem queuedBytes (bytes : g.payload ≠ []) (a : State) (ha : a = queueData j slot f (modFile j (fun f => { f with
    sums := f.sums.advance g.payload, nextOffset := f.nextOffset + g.payload.length }) s)) :
    (a = { s with files := a.files, dest := a.dest, slots := a.slots } ∧
      a.files = vmod s.files j fun p => { p with file := some (f.taking g f.assembly) }) ∧
    (∀ d : Dest, a.dest[d] = { s.dest[d] with
      queue := s.dest[d].queue ++ if g.payload ≠ [] ∧ (f.copies[d] = .pending ∨ f.copies[d] = .sending) then
        [.data ⟨j, s.files[j].gen⟩ slot] else [] }) ∧
    a.slots = vmod s.slots slot fun x => { x with refs := x.refs + f.receivers.length } := by
  have advanced : vmod s.files j (fun p => { p with file := p.file.map fun f => { f with
      sums := f.sums.advance g.payload, nextOffset := f.nextOffset + g.payload.length } }) =
      vmod s.files j fun p => { p with file := some (f.taking g f.assembly) } := by
    refine vmod_congr _ _ ?_
    rw [hf, FileRec.taking, if_neg bytes, Option.map_some]
  have queued := queueData_queued j slot f (modFile j (fun f => { f with
    sums := f.sums.advance g.payload, nextOffset := f.nextOffset + g.payload.length }) s)
  rw [← ha] at queued
  have tid : tidOf j (modFile j (fun f => { f with
      sums := f.sums.advance g.payload, nextOffset := f.nextOffset + g.payload.length }) s) = ⟨j, s.files[j].gen⟩ := by
    refine congrArg (Tid.mk j) ?_
    rw [modFile_files, vmod_self]
  have frame := queued.frame
  refine ⟨⟨?_, ?_⟩, fun d => ?_, queued.slots⟩
  · rw [frame]
    rfl
  · rw [frame]
    exact advanced
  · rw [queued.dest, tid]
    simp only [FileRec.mem_receivers, ne_eq, bytes, not_false_eq_true, true_and]
    rfl

theorem acceptBytes_taken (bytes : g.payload ≠ []) : ∃ u, SegmentTaken slot g j f u s (acceptBytes l j slot f g s) := by
  unfold acceptBytes
  dsimp only
  generalize ha : queueData j slot f (modFile j (fun f => { f with
    sums := f.sums.advance g.payload, nextOffset := f.nextOffset + g.payload.length }) s) = a
  obtain ⟨⟨still, files⟩, dest, slots⟩ := queuedBytes hf bytes a ha.symm
  have tid : tidOf j a = ⟨j, s.files[j].gen⟩ := by
    refine congrArg (Tid.mk j) ?_
    rw [files, vmod_self]
  have read := readSegment_read l j slot f g a
  have essence := readSegment_essence l j slot f (g := g) a
  have before : StopOnly s a := by
    unfold StopOnly
    rw [still]
  have kept : a.src = s.src ∧ a.cards = s.cards ∧ a.log = s.log ∧ a.engines = s.engines := by
    rw [still]
    exact ⟨rfl, rfl, rfl, rfl⟩
  obtain ⟨src, cards, log, engines⟩ := kept
  generalize readSegment l j slot f g a = t at *
  have taken : ∃ u, t.files = vmod s.files j (fun p => { p with file := some (f.taking g u) }) ∧
      (g.kind = 4 → u = f.assembly) := by
    by_cases is : g.kind = 4
    · exact ⟨f.assembly, by rw [essence is, files], fun _ => rfl⟩
    · obtain ⟨u, last⟩ := read.files
      refine ⟨u, ?_, fun yes => absurd yes is⟩
      rw [last, files, vmod_vmod]
      rfl
  obtain ⟨u, files', same⟩ := taken
  refine ⟨u, before.trans read.frame, read.src.trans src, files', fun d => ?_,
    (CardsMarked.of_eq cards).trans read.marked,
    by rw [← log]; exact read.records, fun e => ?_, fun quiet => ?_, fun is _ => ?_⟩
  · rw [read.dest]
    exact dest d
  · rw [← engines, ← tid]
    exact read.engines e
  · obtain is | empty := quiet
    · exact ⟨same is, by rw [essence is]; exact still⟩
    · exact absurd empty bytes
  · rw [essence is]
    exact slots

end

/-- R36: the segment with or without bytes. -/
theorem segment_taken (l : SrcLink) (slot : SlotIx) (g : Segment) {j : FileIx} {f : FileRec} {s : State}
    (hf : s.files[j].file = some f) :
    ∃ u, SegmentTaken slot g j f u s (if g.payload = [] then s else acceptBytes l j slot f g s) := by
  by_cases empty : g.payload = []
  · rw [if_pos empty]
    exact ⟨_, noBytes_taken hf empty⟩
  · rw [if_neg empty]
    exact acceptBytes_taken hf empty

/-! ### The end of its processing -/

/-- R12: the reply queue does not change at the end of a segment's processing. -/
theorem endProcessing_ended (l : SrcLink) {s : State} (h : s.src[l].arrivals ≠ []) :
    (endProcessing l s).src[l].arrivals = s.src[l].arrivals.tail ∧
      (endProcessing l s).src[l].replies = s.src[l].replies := by
  have moved := endProcessing_src l s h l
  rw [if_pos rfl] at moved
  exact ⟨moved.arrivals, moved.replies⟩

/-- R55: a slot that is referred to keeps its segment at the end of its processing. -/
theorem endProcessing_held {l : SrcLink} {i : SlotIx} {s : State} (h : s.src[l].arrivals.head? = some i)
    (refs : s.slots[i].refs ≠ 0) :
    (endProcessing l s).slots = vmod s.slots i fun x => { x with mark := false } := by
  obtain ⟨rest, hr⟩ := List.head?_eq_some_iff.mp h
  have held : ∀ t : State, t.slots[i].refs ≠ 0 → (settleSlot i t).slots = t.slots := fun t ht => by
    unfold settleSlot
    split
    · rfl
    · rw [if_neg fun no => ht no.2]
  have marked : (modSlot i (fun t => { t with mark := false }) (modSrc l (fun p => { p with arrivals := rest })
      s)).slots = vmod s.slots i fun x => { x with mark := false } := rfl
  unfold endProcessing
  rw [hr]
  refine (held _ ?_).trans marked
  rw [marked, vmod_self]
  exact refs

/-- Settles O21: the segment is taken, and its processing ends. -/
theorem dataSegmentAccepted : Obligations.DataSegmentAccepted := by
  intro l i g c k j f s h place bytes last
  obtain ⟨hf, -, -, -⟩ := DataOf.names h
  have head : AtHead l i g s := h.1
  have run : exec (dataStep l g.kind) s = .next (endProcessing l (checkStalls
      (if g.payload = [] then s else acceptBytes l j i f g s))) := by
    rw [exec_dataStep_streaming h, if_pos (by unfold offsetOk; rw [decide_eq_true_eq]; exact place)]
    unfold acceptData
    dsimp only
    rw [last]
    rfl
  obtain ⟨u, taken⟩ := segment_taken l i g hf
  rw [run]
  generalize (if g.payload = [] then s else acceptBytes l j i f g s) = a at *
  have stalls := checkStalls_frame a
  have rise := checkStalls_rise a
  generalize checkStalls a = v at *
  have src : v.src = s.src := stalls.src.trans taken.src
  have ended := endProcessing_ended l (s := v) (by rw [src]; exact head.queued)
  have frame := endProcessing_frame l v
  have files : (endProcessing l v).files = vmod s.files j fun p => { p with file := some (f.taking g u) } := by
    rw [frame.files, stalls.files, taken.files]
  refine ⟨_, f.taking g u, rfl, (taken.frame.trans stalls.toStop).trans frame.toStop, by rw [files, vmod_self],
    fun j' ne => by rw [files, vmod_get, if_neg ne], ?_, fun d => ?_, by rw [ended.1, src], by rw [ended.2, src],
    fun essence => ?_⟩
  · unfold FileRec.taking
    rw [if_neg bytes]
  · have port := rise.dest d
    rw [taken.dest] at port
    rw [frame.dest, port]
    simp only [ne_eq, bytes, not_false_eq_true, true_and]
  · obtain ⟨same, still⟩ := taken.unread (.inl essence)
    have slots : v.slots = vmod s.slots i fun x => { x with refs := x.refs + f.receivers.length } :=
      stalls.slots.trans (taken.slots essence bytes)
    have slot : s.slots[i] = ⟨some l, true, 0, g⟩ := head.2.2
    have first : v.src[l].arrivals.head? = some i := by rw [src]; exact head.2.1
    refine ⟨?_, same, ?_⟩
    · unfold SlotsOnly at frame
      unfold StallOnly at stalls
      generalize endProcessing l v = t at *
      rw [frame]
      dsimp only
      rw [stalls]
      dsimp only
      rw [still]
    · by_cases none : f.receivers = []
      · have now : v.slots[i] = ⟨some l, true, 0, g⟩ := by rw [slots, vmod_self, slot, none]; rfl
        rw [(endProcessing_spec l i g v first now).2, slots, vmod_vmod, if_pos none]
      · have refs : v.slots[i].refs ≠ 0 := by
          rw [slots, vmod_self, slot]
          have some := List.length_pos_iff.mpr none
          dsimp only
          omega
        rw [endProcessing_held first refs, slots, vmod_vmod, if_neg none]
        refine vmod_congr _ _ ?_
        rw [slot, Nat.zero_add]

end Sys2Proof.Machine
end

