-- ==== Sys2Proof/Proofs/LastSegments.lean ====
section
/-! PROOF. The segment that carries LAST (R38, R39, R68, R115, R146). Settles O22. -/

namespace Sys2Proof.Machine

open Sys2Proof

/-! ### The records of LAST -/

section
variable {i : FileIx} {f : FileRec} {s : State} (h : s.files[i].file = some f)
include h

/-- R115: no frame is in progress. -/
theorem closeAtLast_idle (idle : f.assembly = none ∨ f.assembly.map Assembly.state = some .idle) :
    closeAtLast i s = s := by
  unfold closeAtLast
  rw [h, Option.bind_some]
  cases ha : f.assembly with
  | none => rfl
  | some a =>
    rw [ha, Option.map_some, Option.some.injEq] at idle
    exact if_pos (idle.resolve_left (Option.some_ne_none a))

/-- R38: the declared size is the size received, or there is none. -/
theorem checkSize_agrees (agree : ∀ n, f.declared = some n → n = f.nextOffset) : checkSize i s = s := by
  unfold checkSize
  rw [h]
  dsimp only
  cases hd : f.declared with
  | none => rfl
  | some n => exact if_neg fun no => no (agree n hd)

theorem checkSize_differs {n : Nat} (hn : f.declared = some n) (differ : n ≠ f.nextOffset) :
    checkSize i s = logFault { FaultRec.ofFile .sizeMismatch .hold (labelAt f.card s) f.number with
      values := [n, f.nextOffset] } s := by
  unfold checkSize
  rw [h]
  dsimp only
  rw [hn]
  exact if_pos differ

theorem checkSize_reach : LogOnly s (checkSize i s) ∧ CardsMarked s (checkSize i s) ∧
    (checkSize i s).log.length ≤ s.log.length + 1 := by
  by_cases agree : ∀ n, f.declared = some n → n = f.nextOffset
  · rw [checkSize_agrees h agree]
    exact ⟨.refl s, .of_eq rfl, Nat.le_succ _⟩
  · obtain ⟨n, hn, differ⟩ : ∃ n, f.declared = some n ∧ n ≠ f.nextOffset := by simpa using agree
    rw [checkSize_differs h hn differ]
    exact ⟨logFault_frame _ s, logFault_marked _ s, logFault_length _ s⟩

/-! ### The CLOSE entries -/

/-- R38: a CLOSE joins the queue of each destination with an unsettled copy. -/
theorem queueCloses_queued : queueCloses i s = { s with dest := (queueCloses i s).dest } ∧
    ∀ d : Dest, (queueCloses i s).dest[d] = { s.dest[d] with
      queue := s.dest[d].queue ++
        if f.copies[d].unsettled = true then [.close (tidOf i s) (f.finalDigest.getD 0) f.nextOffset] else [] } := by
  unfold queueCloses
  rw [h]
  dsimp only
  refine ⟨enqueueAll_frame (fun s => .close (tidOf i s) (f.finalDigest.getD 0) f.nextOffset) _ s, fun d => ?_⟩
  have dest := enqueueAll_dest (fun s => .close (tidOf i s) (f.finalDigest.getD 0) f.nextOffset) (fun _ _ _ => rfl)
    f.unsettledDests s (allIx_nodup _) d
  simp only [FileRec.mem_unsettledDests] at dest
  exact dest

end

/-! ### The look engines -/

/-- R146: an engine when the LAST of the file `tid` is accepted. -/
def EngineState.lastOf (tid : Tid) (g : EngineState) : EngineState :=
  if g.follow.map Follow.tid = some tid then g.setEnded.finishFollow else g

theorem endFollowsLast_engines (tid : Tid) (s : State) (e : Engine) :
    (endFollowLast tid 1 (endFollowLast tid 0 s)).engines[e] = s.engines[e].lastOf tid := by
  have first : (endFollowLast tid 0 s).engines = vmod s.engines 0 (EngineState.lastOf tid) := rfl
  have second : (endFollowLast tid 1 (endFollowLast tid 0 s)).engines =
      vmod (endFollowLast tid 0 s).engines 1 (EngineState.lastOf tid) := rfl
  rw [second, first, vmod_get]
  obtain rfl | rfl : e = 0 ∨ e = 1 := by revert e; decide
  · rw [if_neg (by decide), vmod_self]
  · rw [if_pos rfl, vmod_get, if_neg (by decide)]

section
variable {tid : Tid} {g : EngineState}

theorem EngineState.lastOf_other (h : ∀ f, g.follow = some f → f.tid ≠ tid) : g.lastOf tid = g := by
  refine if_neg fun followed => ?_
  obtain ⟨f, hf, same⟩ := Option.map_eq_some_iff.mp followed
  exact h f hf same

section
variable {f : Follow} (hf : g.follow = some f) (same : f.tid = tid)
include hf same

/-- R146: the follow takes the ended flag, and ends where nothing is left. -/
theorem EngineState.lastOf_followed : g.lastOf tid =
    ({ g with follow := some { f with ended := true } } : EngineState).finishFollow := by
  have yes : g.follow.map Follow.tid = some tid := by rw [hf, ← same]; rfl
  unfold lastOf setEnded
  rw [if_pos yes, hf, Option.map_some]

theorem EngineState.lastOf_ends (queue : g.queue = []) (proc : g.proc = none) : g.lastOf tid =
    { g with follow := none, out := .none_, sent := g.sent ++ brokenEnd g.out } := by
  rw [lastOf_followed hf same]
  refine (if_pos ⟨rfl, queue, proc⟩).trans ?_
  unfold endBroken
  cases g.out <;> simp [brokenEnd]

theorem EngineState.lastOf_waits (busy : g.queue ≠ [] ∨ g.proc ≠ none) : g.lastOf tid =
    { g with follow := some { f with ended := true } } := by
  rw [lastOf_followed hf same]
  exact if_neg fun ⟨_, queue, proc⟩ => busy.elim (fun no => no queue) fun no => no proc

end

end

/-- R134, R146: what the LAST segment makes of an engine, its offer before its end. -/
theorem Offered.lastOf {g : Segment} {tid : Tid} {x y z : EngineState} (h : Offered g tid x y) (hz : z = y.lastOf tid) :
    ((∀ f, x.follow = some f → f.tid ≠ tid) → z = x) ∧
    ∀ f, x.follow = some f → f.tid = tid → ∃ more, (g.kind ≠ 5 → more = [] ∧ z.pendingGap = x.pendingGap) ∧
      (x.queue ++ more = [] ∧ x.proc = none → z = { x with
        queue := [], pendingGap := z.pendingGap, follow := none, out := .none_, sent := x.sent ++ brokenEnd x.out }) ∧
      (x.queue ++ more ≠ [] ∨ x.proc ≠ none → z = { x with
        queue := x.queue ++ more, pendingGap := z.pendingGap, follow := some { f with ended := true } }) := by
  refine ⟨fun other => ?_, fun f hf same => ?_⟩
  · have apart : x.follow.map Follow.tid ≠ some tid := fun followed => by
      obtain ⟨f, hf, same⟩ := Option.map_eq_some_iff.mp followed
      exact other f hf same
    rw [hz, h.other apart]
    exact EngineState.lastOf_other other
  · obtain ⟨more, joined, unread⟩ := h.joined
    have follow : y.follow = some f := by rw [joined]; exact hf
    have queue : y.queue = x.queue ++ more := by rw [joined]
    have proc : y.proc = x.proc := by rw [joined]
    have gap : z.pendingGap = y.pendingGap := by
      by_cases busy : y.queue ≠ [] ∨ y.proc ≠ none
      · rw [hz, EngineState.lastOf_waits follow same busy]
      · obtain ⟨empty, idle⟩ := not_or.mp busy
        rw [hz, EngineState.lastOf_ends follow same (not_not.mp empty) (not_not.mp idle)]
    refine ⟨more, fun other => ⟨(unread other).1, gap.trans (unread other).2⟩, fun ⟨empty, idle⟩ => ?_, fun busy => ?_⟩
    · rw [gap, hz, EngineState.lastOf_ends follow same (queue.trans empty) (proc.trans idle), joined, empty]
    · rw [gap, hz, EngineState.lastOf_waits follow same (by rw [queue, proc]; exact busy), joined]

/-! ### The file before it settles -/

/-- R38, R68, R115: a file record after its LAST segment. -/
def FileRec.closed (f : FileRec) : FileRec :=
  { f with
    sums := f.sums.finalise, finalDigest := some f.sums.finalise.value, state := .settling, assembly := none
    channel := none }

/-- R38: the records a LAST makes before its file settles: a PARTIAL_FRAME of an unfinished frame, and a
SIZE_MISMATCH. -/
structure LastLogged (f : FileRec) (s t : State) : Prop where
  marked : CardsMarked s t
  records : t.log.length ≤ s.log.length + 2
  mismatch : ∀ n, f.declared = some n → n ≠ f.nextOffset → s.log.length < 60 → ∃ rs r, t.log = rs ++ [r] ∧
    r.cls = .sizeMismatch ∧ r.severity = .hold ∧ r.label = some (labelAt f.card s) ∧ r.file = some f.number ∧
    r.values = [n, f.nextOffset] ∧ (f.assembly = none ∨ f.assembly.map Assembly.state = some .idle → rs = s.log)
  agrees : (∀ n, f.declared = some n → n = f.nextOffset) →
    f.assembly = none ∨ f.assembly.map Assembly.state = some .idle → t.log = s.log

/-- The records stand, and no card's label has changed. -/
theorem LastLogged.then {f : FileRec} {s t u : State} (h : LastLogged f s t) (marked : CardsMarked t u)
    (log : u.log = t.log) : LastLogged f s u where
  marked := h.marked.trans marked
  records := by rw [log]; exact h.records
  mismatch := by rw [log]; exact h.mismatch
  agrees := by rw [log]; exact h.agrees

/-- R38: the file `f` at index `j` has taken its LAST, and waits to settle. -/
structure LastClosed (j : FileIx) (f : FileRec) (s t : State) : Prop where
  files : t.files = vmod s.files j fun p => { p with file := some f.closed }
  queues : ∀ d : Dest, t.dest[d].queue = s.dest[d].queue ++
    if f.copies[d].unsettled = true then [.close ⟨j, s.files[j].gen⟩ f.sums.finalise.value f.nextOffset] else []
  channels : ∀ ch : Channel, f.channel = some ch → t.channels[ch] = ChannelRec.initial
  engines : ∀ e : Engine, t.engines[e] = s.engines[e].lastOf ⟨j, s.files[j].gen⟩
  logged : LastLogged f s t

/-- R38: the steps of the LAST but for the settling. -/
def closeFile (i : FileIx) (s : State) : State :=
  let s := modFile i FileRec.finalise (closeAtLast i s)
  let s := leaveStreaming i .settling (queueCloses i (checkSize i s))
  reevalFile i (endFollowLast (tidOf i s) 1 (endFollowLast (tidOf i s) 0 s))

theorem lastSegment_eq (i : FileIx) (s : State) : lastSegment i s = settleFile i (closeFile i s) := rfl

theorem reevalFile_judged (i : FileIx) (s : State) : LogOnly s (reevalFile i s) ∧ CardsMarked s (reevalFile i s) ∧
    (reevalFile i s).log = s.log := by
  unfold reevalFile
  split
  · exact ⟨.refl s, .of_eq rfl, rfl⟩
  · exact ⟨reeval_frame _ s, (reeval_judged _ s).marked, rfl⟩

section
variable {j : FileIx} {f : FileRec} {s : State} (h : s.files[j].file = some f)
include h

/-- R68, R115: the frame in progress is closed, and the digest finalised. -/
theorem finalised_files : ∃ u, (modFile j FileRec.finalise (closeAtLast j s)).files = vmod s.files j fun p =>
    { p with file := some ({ f with assembly := u } : FileRec).finalise } := by
  obtain ⟨u, files⟩ := (closeAtLast_reading (i := j) s).files
  refine ⟨u, ?_⟩
  rw [modFile_files, files, vmod_vmod]
  refine vmod_congr _ _ ?_
  rw [h]
  rfl

/-- R38: what stands when the size has been checked. -/
theorem sizeChecked {c : State} (hc : c = checkSize j (modFile j FileRec.finalise (closeAtLast j s))) :
    (∃ u, c.files = vmod s.files j fun p => { p with file := some ({ f with assembly := u } : FileRec).finalise }) ∧
      c.dest = s.dest ∧ c.engines = s.engines ∧ LastLogged f s c := by
  have reading := closeAtLast_reading (i := j) s
  have idle := closeAtLast_idle h
  obtain ⟨u, files⟩ := finalised_files h
  have log : (modFile j FileRec.finalise (closeAtLast j s)).log = (closeAtLast j s).log := rfl
  have marked : CardsMarked s (modFile j FileRec.finalise (closeAtLast j s)) := reading.marked.trans (.of_eq rfl)
  have kept : (modFile j FileRec.finalise (closeAtLast j s)).dest = s.dest ∧
      (modFile j FileRec.finalise (closeAtLast j s)).engines = s.engines := by
    rw [modFile_dest, modFile_engines, reading.frame]
    exact ⟨rfl, rfl⟩
  have records : (modFile j FileRec.finalise (closeAtLast j s)).log.length ≤ s.log.length + 1 := reading.records
  generalize modFile j FileRec.finalise (closeAtLast j s) = b at *
  have hb : b.files[j].file = some ({ f with assembly := u } : FileRec).finalise := by rw [files, vmod_self]
  obtain ⟨only, marked', records'⟩ := checkSize_reach hb
  rw [← hc] at only marked' records'
  refine ⟨⟨u, by rw [only.files, files]⟩, by rw [only.dest, kept.1], by rw [only.engines, kept.2],
    marked.trans marked', by omega, fun n hn differ room => ?_, fun agree still => ?_⟩
  · rw [hc, checkSize_differs hb hn differ, logFault_log _ _ (by omega)]
    refine ⟨_, _, rfl, rfl, rfl, congrArg some (marked.labelAt f.card), rfl, rfl, fun still => ?_⟩
    rw [log, idle still]
  · rw [hc, checkSize_agrees hb agree, log, idle still]

theorem closeFile_closed : LastClosed j f s (closeFile j s) := by
  unfold closeFile
  dsimp only
  obtain ⟨⟨u, files⟩, dest, engines, logged⟩ := sizeChecked h rfl
  generalize checkSize j (modFile j FileRec.finalise (closeAtLast j s)) = c at *
  have hc : c.files[j].file = some ({ f with assembly := u } : FileRec).finalise := by rw [files, vmod_self]
  have tid : tidOf j c = ⟨j, s.files[j].gen⟩ := by
    refine congrArg (Tid.mk j) ?_
    rw [files, vmod_self]
  obtain ⟨queued, queues⟩ := queueCloses_queued hc
  rw [tid] at queues
  generalize queueCloses j c = d at *
  have kept : d.files = c.files ∧ d.engines = c.engines ∧ d.cards = c.cards ∧ d.log = c.log := by
    rw [queued]
    exact ⟨rfl, rfl, rfl, rfl⟩
  have left := leaveStreaming_eq .settling (i := j) (s := d) (by rw [kept.1]; exact hc)
  have channels := leaveStreaming_channels .settling (i := j) (s := d) (by rw [kept.1]; exact hc)
  have leftFiles : (leaveStreaming j .settling d).files = vmod s.files j fun p => { p with file := some f.closed } := by
    rw [left]
    dsimp only
    rw [kept.1, files, vmod_vmod]
    rfl
  have leftKept : (leaveStreaming j .settling d).dest = d.dest ∧ (leaveStreaming j .settling d).engines = d.engines ∧
      (leaveStreaming j .settling d).cards = d.cards ∧ (leaveStreaming j .settling d).log = d.log := by
    rw [left]
    exact ⟨rfl, rfl, rfl, rfl⟩
  clear left
  generalize leaveStreaming j .settling d = e at *
  have tid' : tidOf j e = ⟨j, s.files[j].gen⟩ := by
    refine congrArg (Tid.mk j) ?_
    rw [leftFiles, vmod_self]
  rw [tid']
  have ended := endFollowsLast_engines ⟨j, s.files[j].gen⟩ e
  have frame : EnginesOnly e (endFollowLast ⟨j, s.files[j].gen⟩ 1 (endFollowLast ⟨j, s.files[j].gen⟩ 0 e)) :=
    (endFollowLast_frame _ 0 e).trans (endFollowLast_frame _ 1 _)
  generalize endFollowLast ⟨j, s.files[j].gen⟩ 1 (endFollowLast ⟨j, s.files[j].gen⟩ 0 e) = m at *
  obtain ⟨only, marked, log⟩ := reevalFile_judged j m
  refine ⟨?_, fun x => ?_, fun ch hch => ?_, fun x => ?_, logged.then ?_ ?_⟩
  · rw [only.files, frame.files, leftFiles]
  · rw [only.dest, frame.dest, leftKept.1, queues, dest]
    rfl
  · rw [only.channels, frame.channels, channels]
    exact if_pos hch
  · rw [only.engines, ended, leftKept.2.1, kept.2.1, engines]
  · exact (CardsMarked.of_eq (frame.cards.trans (leftKept.2.2.1.trans kept.2.2.1))).trans marked
  · rw [log, frame.log, leftKept.2.2.2, kept.2.2.2]

end

/-! ### Its settling -/

theorem FilesOnly.channels {s t : State} (h : FilesOnly s t) : t.channels = s.channels := by
  unfold FilesOnly at h
  rw [h]

section
variable {j : FileIx} {f : FileRec} {s : State} (h : s.files[j].file = some f)
include h

/-- R39: a file with an unsettled copy does not settle. -/
theorem settleFile_unsettled (some : ∃ d : Dest, f.copies[d].unsettled = true) : settleFile j s = s := by
  obtain ⟨d, hd⟩ := some
  unfold settleFile
  rw [h]
  exact if_neg fun settled => by
    have no := FileRec.unsettledDests_nil.mp settled.2 d
    rw [hd] at no
    cases no

/-- R39: the record of a file that settles SHORT. -/
theorem settleFile_short (settled : f.AllSettled) (short : f.verifiedCount < f.route.required)
    (room : s.log.length < 64) : ∃ q, (settleFile j s).log = s.log ++ [q] ∧ q.cls = .fileShort ∧ q.severity = .hold ∧
      q.code = some .shortSettled ∧ q.label = some (labelAt f.card s) ∧ q.file = some f.number ∧
      q.values = [f.verifiedCount, f.route.required] := by
  have settles : settleFile j s = settleShort j f s := by
    unfold settleFile
    rw [h]
    dsimp only
    rw [if_pos ⟨settled.1, FileRec.unsettledDests_nil.mpr settled.2⟩, if_neg (Nat.not_le.mpr short)]
  rw [settles, settleShort]
  dsimp only
  rw [reeval, modCard_log, logFault_log _ _ (by rw [modFile_log]; exact room), modFile_log]
  exact ⟨_, rfl, rfl, rfl, rfl, rfl, rfl, rfl⟩

end

/-- R36, R38: what stands when the LAST segment has been taken, `u` the frame assembly its reading left. -/
structure LastTaken (i : SlotIx) (g : Segment) (j : FileIx) (f : FileRec) (u : Option Assembly) (s t : State) :
    Prop where
  files : t.files = vmod s.files j fun p => { p with file := (f.taking g u).closed.afterSettling }
  queues : ∀ d : Dest, t.dest[d].queue = s.dest[d].queue ++
    (if g.payload ≠ [] ∧ (f.copies[d] = .pending ∨ f.copies[d] = .sending) then [.data ⟨j, s.files[j].gen⟩ i] else []) ++
    if f.copies[d].unsettled = true then
      [.close ⟨j, s.files[j].gen⟩ (f.taking g u).sums.finalise.value (f.nextOffset + g.payload.length)] else []
  channels : ∀ ch : Channel, f.channel = some ch → t.channels[ch] = ChannelRec.initial
  engines : ∀ e : Engine, ∃ y, Offered g ⟨j, s.files[j].gen⟩ s.engines[e] y ∧
    t.engines[e] = y.lastOf ⟨j, s.files[j].gen⟩
  unsettled : (∃ d : Dest, f.copies[d].unsettled = true) → ∃ a, CardsMarked s a ∧ a.log.length ≤ s.log.length + 9 ∧
    (g.kind = 4 ∨ g.payload = [] → u = f.assembly ∧ a.log = s.log) ∧ LastLogged (f.taking g u) a t
  short : (∀ d : Dest, f.copies[d].unsettled = false) → f.verifiedCount < f.route.required → s.log.length < 50 →
    ∃ rs q, t.log = rs ++ [q] ∧ q.cls = .fileShort ∧ q.severity = .hold ∧ q.code = some .shortSettled ∧
      q.label = some (labelAt f.card s) ∧ q.file = some f.number ∧ q.values = [f.verifiedCount, f.route.required]

theorem lastSegment_taken (l : SrcLink) (i : SlotIx) (g : Segment) {j : FileIx} {f : FileRec} {s : State}
    (hf : s.files[j].file = some f) : ∃ u, LastTaken i g j f u s (endProcessing l (checkStalls (lastSegment j
      (if g.payload = [] then s else acceptBytes l j i f g s)))) := by
  obtain ⟨u, taken⟩ := segment_taken l i g hf
  refine ⟨u, ?_⟩
  rw [lastSegment_eq]
  generalize (if g.payload = [] then s else acceptBytes l j i f g s) = a at *
  have ha : a.files[j].file = some (f.taking g u) := by rw [taken.files, vmod_self]
  have gen : a.files[j].gen = s.files[j].gen := by rw [taken.files, vmod_self]
  have closed := closeFile_closed ha
  generalize closeFile j a = b at *
  have hb : b.files[j].file = some (f.taking g u).closed := by rw [closed.files, vmod_self]
  have files := settleFile_files j b
  have unsettled := settleFile_unsettled hb
  have short := settleFile_short hb
  have only := settleFile_frame j b
  generalize settleFile j b = v at *
  have stalls := checkStalls_frame v
  have rise := checkStalls_rise v
  generalize checkStalls v = w at *
  have frame := endProcessing_frame l w
  generalize endProcessing l w = t at *
  have log : t.log = v.log := frame.log.trans stalls.log
  refine ⟨?_, fun d => ?_, fun ch hch => ?_, fun e => ⟨a.engines[e], taken.engines e, ?_⟩, fun some => ?_,
    fun all less room => ?_⟩
  · rw [frame.files, stalls.files, files, closed.files, taken.files, vmod_vmod, vmod_vmod]
    rfl
  · rw [frame.dest, rise.dest, only.dest]
    dsimp only
    rw [closed.queues, taken.dest, gen]
    rfl
  · rw [frame.channels, stalls.channels, only.channels]
    exact closed.channels ch hch
  · rw [frame.engines, stalls.engines, only.engines, closed.engines, gen]
  · have still : v = b := unsettled some
    refine ⟨a, taken.marked, taken.records, fun quiet => ?_, closed.logged.then (.of_eq ?_) ?_⟩
    · obtain ⟨same, kept⟩ := taken.unread quiet
      exact ⟨same, by rw [kept]⟩
    · rw [frame.cards, stalls.cards, still]
    · rw [log, still]
  · have bound := closed.logged.records
    have first := taken.records
    obtain ⟨q, logged, cls, severity, code, label, file, values⟩ := short ⟨rfl, all⟩ less (by omega)
    refine ⟨_, q, log.trans logged, cls, severity, code, ?_, file, values⟩
    rw [label]
    exact congrArg some ((taken.marked.trans closed.logged.marked).labelAt f.card)

/-- R39: what becomes of the record. -/
theorem FileRec.closed_afterSettling (g : Segment) (u : Option Assembly) (f : FileRec) :
    ((∃ d : Dest, f.copies[d].unsettled = true) →
      (f.taking g u).closed.afterSettling = some (f.taking g u).closed) ∧
    ((∀ d : Dest, f.copies[d].unsettled = false) →
      (f.route.required ≤ f.verifiedCount → (f.taking g u).closed.afterSettling = none) ∧
      (f.verifiedCount < f.route.required →
        (f.taking g u).closed.afterSettling = some { (f.taking g u).closed with state := .short })) := by
  unfold afterSettling
  refine ⟨fun ⟨d, hd⟩ => if_neg fun all => ?_, fun all => ?_⟩
  · have no := all.2 d
    rw [show (f.taking g u).closed.copies[d].unsettled = true from hd] at no
    cases no
  · rw [if_pos ⟨rfl, all⟩]
    exact ⟨fun enough => if_pos enough, fun less => if_neg (Nat.not_le.mpr less)⟩

/-- Settles O22: the segment is taken, its LAST closes the file, and the file settles if it can. -/
theorem lastSegmentSettles : Obligations.LastSegmentSettles := by
  intro l i g c k j f s h place last size digest hsize hdigest
  obtain ⟨hf, rfl, -, -⟩ := DataOf.names h
  have label : labelAt f.card s = k.label := by unfold labelAt; rw [(DataOf.holds h).1]; rfl
  have run : exec (dataStep l g.kind) s = .next (endProcessing l (checkStalls (lastSegment j
      (if g.payload = [] then s else acceptBytes l j i f g s)))) := by
    rw [exec_dataStep_streaming h, if_pos (by unfold offsetOk; rw [decide_eq_true_eq]; exact place)]
    unfold acceptData
    dsimp only
    rw [last]
    rfl
  obtain ⟨u, taken⟩ := lastSegment_taken l i g hf
  generalize endProcessing l (checkStalls (lastSegment j
    (if g.payload = [] then s else acceptBytes l j i f g s))) = t at *
  have digested : (f.taking g u).sums.finalise.value = digest := hdigest.symm
  obtain ⟨stands, settles⟩ := FileRec.closed_afterSettling g u f
  subst hsize
  refine ⟨t, run, by rw [taken.files, vmod_self], fun j' ne => by rw [taken.files, vmod_get, if_neg ne], fun d => ?_,
    fun some => ?_, fun all => ?_, taken.channels, fun e => ?_⟩
  · rw [taken.queues, digested]
  · obtain ⟨a, marked, records, unread, logged⟩ := taken.unsettled some
    refine ⟨⟨(f.taking g u).closed, ?_, rfl, congrArg Option.some digested, rfl, rfl, rfl, rfl⟩,
      fun n hn differ room => ?_, fun agree idle quiet => ?_⟩
    · rw [taken.files, vmod_self, stands some]
    · obtain ⟨rs, r, log, cls, severity, named, file, values, early⟩ := logged.mismatch n hn differ (by omega)
      refine ⟨rs, r, log, cls, severity, ?_, file, values, fun idle quiet => ?_⟩
      · rw [named, ← label]
        exact congrArg Option.some (marked.labelAt f.card)
      · obtain ⟨same, kept⟩ := unread quiet
        rw [← kept]
        exact early (by rw [← same] at idle; exact idle)
    · obtain ⟨same, kept⟩ := unread quiet
      rw [← kept]
      exact logged.agrees agree (by rw [← same] at idle; exact idle)
  · obtain ⟨complete, short⟩ := settles all
    refine ⟨fun enough => ?_, fun less => ⟨?_, fun room => ?_⟩⟩
    · rw [taken.files, vmod_self, complete enough]
    · rw [taken.files, vmod_self, short less]
      rfl
    · have logged := taken.short all less room
      rw [label] at logged
      exact logged
  · obtain ⟨y, offered, ends⟩ := taken.engines e
    exact offered.lastOf ends

end Sys2Proof.Machine
end

