-- ==== Sys2Proof/Proofs/BufferLaw.lean ====
section
/-! PROOF. The law of the Slot Buffer (R54 to R56) while a data segment may be in processing, and the three ways in
which it passes through an operation: entries leave with their references, arrivals lose their marks, and entries join
that point at the segment in processing. -/

namespace Sys2Proof.Machine

open Sys2Proof

/-! ### The law -/

/-- R56: how many entries of the eight queues point at a slot. -/
def slotRefs (i : SlotIx) (s : State) : Nat := (∑ d : Dest, destRefs d i s) + ∑ e : Engine, lookRefs e i s

/-- R54 to R56, while the segment at the head of link `busy` is in processing: entries may point at its slot already,
though it is still marked. -/
structure BufferLaw (busy : Option SrcLink) (s : State) : Prop where
  counted : ∀ i : SlotIx, s.slots[i].refs = slotRefs i s
  destOnce : ∀ (d : Dest) (i : SlotIx), destRefs d i s ≤ 1
  lookOnce : ∀ (e : Engine) (i : SlotIx), lookRefs e i s ≤ 1
  free : ∀ i : SlotIx, s.slots[i].owner = none ↔ s.slots[i].mark = false ∧ s.slots[i].refs = 0
  marked : ∀ i : SlotIx, s.slots[i].mark = true →
    s.slots[i].refs = 0 ∨ ∃ l ∈ busy, s.src[l].arrivals.head? = some i
  nodup : ∀ l : SrcLink, s.src[l].arrivals.Nodup
  arrived : ∀ (l : SrcLink) (i : SlotIx), i ∈ s.src[l].arrivals ↔ s.slots[i].mark = true ∧ s.slots[i].owner = some l

/-- Between the steps no segment is in processing. -/
theorem bufferLaw_none {s : State} : BufferLaw none s ↔ SlotLaw s := by
  constructor
  · intro h
    refine ⟨fun i => ⟨?_, (h.destOnce · i), (h.lookOnce · i), h.free i, fun hm => ?_⟩,
      fun l => ⟨h.nodup l, h.arrived l⟩⟩
    · rw [h.counted, slotRefs, Fin.sum_univ_def, Fin.sum_univ_def]
    · obtain unreferenced | ⟨l, hl, -⟩ := h.marked i hm
      · exact unreferenced
      · cases hl
  · rintro ⟨slots, links⟩
    refine ⟨fun i => ?_, fun d i => ?_, fun e i => ?_, fun i => ?_, fun i hm => ?_, fun l => (links l).1,
      fun l => (links l).2⟩
    all_goals obtain ⟨counted, destOnce, lookOnce, free, marked⟩ := slots i
    · rw [counted, slotRefs, Fin.sum_univ_def, Fin.sum_univ_def]
    · exact destOnce d
    · exact lookOnce e
    · exact free
    · exact .inl (marked hm)

theorem BufferLaw.mono {b b' : Option SrcLink} {s : State} (h : BufferLaw b s) (hb : ∀ l ∈ b, l ∈ b') :
    BufferLaw b' s :=
  { h with marked := fun i hm => (h.marked i hm).imp_right fun ⟨l, hl, head⟩ => ⟨l, hb l hl, head⟩ }

/-- The law passes from one state to another, whatever segment is in processing. -/
def BufferKept (s t : State) : Prop := ∀ b, BufferLaw b s → BufferLaw b t

theorem BufferKept.refl (s : State) : BufferKept s s := fun _ => id

theorem BufferKept.trans {s t u : State} (h : BufferKept s t) (k : BufferKept t u) : BufferKept s u :=
  fun b law => k b (h b law)

/-- A fold of operations that keep the law keeps it. -/
theorem BufferKept.foldl {α : Type} (f : State → α → State) (h : ∀ s a, BufferKept s (f s a)) (as : List α)
    (s : State) : BufferKept s (as.foldl f s) :=
  foldl_keeps BufferKept BufferKept.refl (fun _ _ _ => BufferKept.trans) f h as s

/-! ### What settling makes of the slots -/

theorem settleSlot_mark (i j : SlotIx) (s : State) : (settleSlot i s).slots[j].mark = s.slots[j].mark := by
  unfold settleSlot
  split
  · rfl
  split
  · next hc =>
    simp only [modSrc_slots, modSlot_slots, vmod_get]
    split
    · next e => rw [e, hc.1]; rfl
    · rfl
  · rfl

/-- R54: the slot has lost its owner where its mark is clear and its count zero. -/
theorem settleSlot_owner (i j : SlotIx) (s : State) : (settleSlot i s).slots[j].owner =
    if j = i ∧ s.slots[j].mark = false ∧ s.slots[j].refs = 0 then none else s.slots[j].owner := by
  by_cases e : j = i
  · subst e
    unfold settleSlot
    split
    · next owner => rw [owner, ite_self]
    · by_cases hc : s.slots[j].mark = false ∧ s.slots[j].refs = 0
      · simp only [hc, modSrc_slots, modSlot_slots, vmod_self, and_self, if_true]
        rfl
      · simp only [hc, and_false, if_false]
  · rw [settleSlot_other e, if_neg fun x => e x.1]

/-! ### References given up -/

theorem count_one (i j : SlotIx) : [i].count j = if j = i then 1 else 0 :=
  List.count_singleton.trans (if_congr (by rw [beq_iff_eq, eq_comm]) rfl rfl)

/-- R54, R57: the slots `gone`, named once for each entry that has left a queue, have lost their references. -/
structure RefsDropped (gone : List SlotIx) (s t : State) : Prop where
  refs : ∀ j : SlotIx, t.slots[j].refs = s.slots[j].refs - gone.count j
  mark : ∀ j : SlotIx, t.slots[j].mark = s.slots[j].mark
  owner : ∀ j : SlotIx, t.slots[j].owner =
    if j ∈ gone ∧ s.slots[j].mark = false ∧ t.slots[j].refs = 0 then none else s.slots[j].owner
  arrivals : ∀ l : SrcLink, t.src[l].arrivals = s.src[l].arrivals

theorem RefsDropped.nil {s t : State} (slots : t.slots = s.slots)
    (arrivals : ∀ l : SrcLink, t.src[l].arrivals = s.src[l].arrivals) : RefsDropped [] s t where
  refs j := by rw [slots]; rfl
  mark j := by rw [slots]
  owner j := by rw [slots, if_neg fun x => List.not_mem_nil x.1]
  arrivals := arrivals

theorem RefsDropped.append {a b : List SlotIx} {s t u : State} (h : RefsDropped a s t) (k : RefsDropped b t u) :
    RefsDropped (a ++ b) s u where
  refs j := by rw [k.refs, h.refs, List.count_append, Nat.sub_sub]
  mark j := (k.mark j).trans (h.mark j)
  owner j := by
    have fewer : t.slots[j].refs = 0 → u.slots[j].refs = 0 := fun z => by rw [k.refs, z, Nat.zero_sub]
    have same : j ∉ b → u.slots[j].refs = t.slots[j].refs := fun hb => by
      rw [k.refs, List.count_eq_zero_of_not_mem hb, Nat.sub_zero]
    rw [k.owner, h.owner, h.mark]
    generalize s.slots[j].owner = owner, s.slots[j].mark = mark, t.slots[j].refs = n, u.slots[j].refs = m at *
    grind
  arrivals l := (k.arrivals l).trans (h.arrivals l)

/-- The same, after what leaves the slots and the links. -/
theorem RefsDropped.after {gone : List SlotIx} {s t u : State} (k : RefsDropped gone t u) (slots : t.slots = s.slots)
    (src : t.src = s.src) : RefsDropped gone s u := (RefsDropped.nil slots fun l => by rw [src]).append k

theorem dropRef_released (i : SlotIx) (s : State) : RefsDropped [i] s (dropRef i s) where
  refs j := by rw [dropRef_refs, count_one]
  mark j := by
    rw [dropRef, settleSlot_mark, modSlot_slots, vmod_get]
    split
    · next e => rw [e]
    · rfl
  owner j := by
    rw [dropRef_refs, dropRef, settleSlot_owner, modSlot_slots, vmod_get]
    by_cases e : j = i
    · subst e; simp
    · simp [e]
  arrivals l := ((dropRef_freed i s).ports l).arrivals

/-- R57, R59: references given up one after another. -/
theorem RefsDropped.foldl {α : Type} (f : State → α → State) (slot : α → SlotIx)
    (h : ∀ s a, RefsDropped [slot a] s (f s a)) (as : List α) (s : State) :
    RefsDropped (as.map slot) s (as.foldl f s) := by
  induction as generalizing s with
  | nil => exact .nil rfl fun _ => rfl
  | cons a rest ih => exact (h s a).append (ih _)

theorem releaseEntries_released (es : List QEntry) (s : State) :
    RefsDropped (es.filterMap QEntry.slot) s (releaseEntries es s) := by
  have all := RefsDropped.foldl (fun s i => dropRef i s) id (fun s i => dropRef_released i s)
    (es.filterMap QEntry.slot) s
  rwa [List.map_id] at all

/-- R54, R57: the law passes where each entry that leaves a queue takes its reference with it. -/
theorem BufferLaw.released {b : Option SrcLink} {gone : List SlotIx} {s t : State} (h : BufferLaw b s)
    (slots : RefsDropped gone s t) (total : ∀ i, slotRefs i t + gone.count i = slotRefs i s)
    (dest : ∀ d i, destRefs d i t ≤ destRefs d i s) (look : ∀ e i, lookRefs e i t ≤ lookRefs e i s) :
    BufferLaw b t where
  counted i := by
    have before := h.counted i
    have after := total i
    rw [slots.refs]
    omega
  destOnce d i := (dest d i).trans (h.destOnce d i)
  lookOnce e i := (look e i).trans (h.lookOnce e i)
  free i := by
    have free := h.free i
    have refs := slots.refs i
    have same : i ∉ gone → t.slots[i].refs = s.slots[i].refs := fun hi => by
      rw [refs, List.count_eq_zero_of_not_mem hi, Nat.sub_zero]
    rw [slots.owner, slots.mark]
    split
    · next left => exact ⟨fun _ => left.2, fun _ => rfl⟩
    · next stays =>
      rw [free]
      refine and_congr_right fun unmarked => ?_
      by_cases hi : i ∈ gone
      · exact ⟨fun z => by omega, fun z => absurd ⟨hi, unmarked, z⟩ stays⟩
      · rw [same hi]
  marked i hm := by
    rw [slots.mark] at hm
    refine (h.marked i hm).imp (fun z => ?_) fun ⟨l, hl, head⟩ => ⟨l, hl, ?_⟩
    · rw [slots.refs, z, Nat.zero_sub]
    · rw [slots.arrivals]; exact head
  nodup l := by rw [slots.arrivals]; exact h.nodup l
  arrived l i := by
    rw [slots.arrivals, h.arrived, slots.mark, slots.owner]
    refine and_congr_right fun hm => ?_
    rw [if_neg fun x => by rw [hm] at x; cases x.2.1]

/-! ### Marks cleared -/

/-- R54, R55: the slots `gone` have lost their marks. -/
structure Unmarked (gone : List SlotIx) (s t : State) : Prop where
  refs : ∀ j : SlotIx, t.slots[j].refs = s.slots[j].refs
  mark : ∀ j : SlotIx, t.slots[j].mark = if j ∈ gone then false else s.slots[j].mark
  owner : ∀ j : SlotIx, t.slots[j].owner =
    if j ∈ gone ∧ s.slots[j].refs = 0 then none else s.slots[j].owner
  arrivals : ∀ l : SrcLink, t.src[l].arrivals = s.src[l].arrivals

theorem clearMark_unmarked (i : SlotIx) (s : State) : Unmarked [i] s (clearMark i s) where
  refs j := clearMark_refs i j s
  mark j := by
    rw [clearMark, settleSlot_mark, modSlot_slots, vmod_get]
    by_cases e : j = i
    · subst e; simp
    · simp [e]
  owner j := by
    rw [clearMark, settleSlot_owner, modSlot_slots, vmod_get]
    by_cases e : j = i
    · subst e; simp
    · simp [e]
  arrivals l := ((clearMark_freed i s).ports l).arrivals

theorem Unmarked.foldl (gone : List SlotIx) (s : State) :
    Unmarked gone s (gone.foldl (fun s i => clearMark i s) s) := by
  induction gone generalizing s with
  | nil => exact ⟨fun _ => rfl, fun _ => by simp, fun _ => by simp, fun _ => rfl⟩
  | cons i rest ih =>
    have first := clearMark_unmarked i s
    have others := ih (clearMark i s)
    refine ⟨fun j => (others.refs j).trans (first.refs j), fun j => ?_, fun j => ?_,
      fun l => (others.arrivals l).trans (first.arrivals l)⟩
    · rw [List.foldl_cons, others.mark, first.mark]
      by_cases e : j = i <;> simp [e]
    · rw [List.foldl_cons, others.owner, first.owner, first.refs]
      generalize s.slots[j].owner = owner, s.slots[j].refs = refs
      grind

/-- R55: the law passes where the segments that leave an arrival queue lose their marks. -/
theorem BufferLaw.unmarked {b b' : Option SrcLink} {s r t : State} (h : BufferLaw b s) (l : SrcLink)
    (gone : List SlotIx) (slots : Unmarked gone r t) (before : r.slots = s.slots)
    (parted : (r.src[l].arrivals ++ gone).Perm s.src[l].arrivals)
    (others : ∀ m, m ≠ l → r.src[m].arrivals = s.src[m].arrivals)
    (busy : ∀ m ∈ b, ∀ i, s.src[m].arrivals.head? = some i → i ∈ gone ∨ m ∈ b' ∧ r.src[m].arrivals.head? = some i)
    (dest : t.dest = s.dest) (engines : t.engines = s.engines) : BufferLaw b' t := by
  have refs : ∀ i : SlotIx, t.slots[i].refs = s.slots[i].refs := fun i => by rw [slots.refs, before]
  have inDest : ∀ d i, destRefs d i t = destRefs d i s := fun d i => by unfold destRefs; rw [dest]
  have inLook : ∀ e i, lookRefs e i t = lookRefs e i s := fun e i => by unfold lookRefs; rw [engines]
  have left : ∀ i ∈ gone, s.slots[i].mark = true ∧ s.slots[i].owner = some l := fun i hi =>
    (h.arrived l i).mp (parted.mem_iff.mp (List.mem_append_right _ hi))
  have apart := parted.nodup_iff.mpr (h.nodup l)
  have mark := slots.mark
  have owner := slots.owner
  rw [before] at mark owner
  refine ⟨fun i => ?_, fun d i => ?_, fun e i => ?_, fun i => ?_, fun i hm => ?_, fun m => ?_, fun m i => ?_⟩
  · rw [refs, h.counted, slotRefs, slotRefs]
    simp only [inDest, inLook]
  · rw [inDest]; exact h.destOnce d i
  · rw [inLook]; exact h.lookOnce e i
  · rw [owner, mark, refs]
    by_cases hi : i ∈ gone
    · rw [(left i hi).2, if_pos hi]
      simp only [hi, true_and, ite_eq_left_iff, reduceCtorEq, imp_false, not_not]
    · rw [if_neg hi, if_neg fun x => hi x.1]
      exact h.free i
  · rw [mark] at hm
    split at hm
    · cases hm
    · next stays =>
      rw [refs]
      refine (h.marked i hm).imp_right fun ⟨m, hb, head⟩ => ?_
      obtain ⟨hb', head'⟩ := (busy m hb i head).resolve_left stays
      exact ⟨m, hb', by rw [slots.arrivals]; exact head'⟩
  · rw [slots.arrivals]
    by_cases e : m = l
    · subst e; exact (List.nodup_append.mp apart).1
    · rw [others m e]; exact h.nodup m
  · rw [slots.arrivals, mark, owner]
    by_cases hi : i ∈ gone
    · simp only [hi, if_true, Bool.false_eq_true, false_and, iff_false]
      by_cases e : m = l
      · subst e; exact fun hk => List.disjoint_of_nodup_append apart hk hi
      · rw [others m e, h.arrived, (left i hi).2]
        exact fun x => e (Option.some.inj x.2).symm
    · simp only [hi, if_false, false_and]
      rw [← h.arrived]
      by_cases e : m = l
      · subst e; rw [← parted.mem_iff, List.mem_append]; simp [hi]
      · rw [others m e]

/-! ### Entries that join -/

/-- R56: the law passes where `n` entries that point at the segment in processing join with their references. -/
theorem BufferLaw.joined {l : SrcLink} {i : SlotIx} {s t : State} (h : BufferLaw (some l) s)
    (head : s.src[l].arrivals.head? = some i) (n : Nat)
    (slots : t.slots = vmod s.slots i fun x => { x with refs := x.refs + n }) (src : t.src = s.src)
    (total : ∀ j, slotRefs j t = slotRefs j s + if j = i then n else 0)
    (dest : ∀ d j, destRefs d j t ≤ 1) (look : ∀ e j, lookRefs e j t ≤ 1) : BufferLaw (some l) t := by
  obtain ⟨mark, owner⟩ := (h.arrived l i).mp (List.mem_of_head? head)
  have slot : ∀ j : SlotIx, t.slots[j] =
      if j = i then { s.slots[i] with refs := s.slots[i].refs + n } else s.slots[j] := fun j => by
    rw [slots, vmod_get]
  refine ⟨fun j => ?_, dest, look, fun j => ?_, fun j hm => ?_, fun m => ?_, fun m j => ?_⟩
  · rw [slot, total]
    split
    · next e => subst e; exact congrArg (· + n) (h.counted j)
    · exact h.counted j
  · rw [slot]
    split
    · dsimp only
      rw [mark, owner]
      exact ⟨fun x => (by cases x), fun x => (by cases x.1)⟩
    · exact h.free j
  · rw [slot] at hm ⊢
    rw [src]
    split at hm
    · next e => subst e; exact .inr ⟨l, rfl, head⟩
    · next e => rw [if_neg e]; exact h.marked j hm
  · rw [src]; exact h.nodup m
  · rw [src, h.arrived, slot]
    split
    · next e => subst e; exact Iff.rfl
    · exact Iff.rfl

/-- R55: while a segment waits to be processed, no entry points at its slot. -/
theorem BufferLaw.head_unreferenced {l : SrcLink} {i : SlotIx} {s : State} (h : BufferLaw none s)
    (head : s.src[l].arrivals.head? = some i) : (∀ d, destRefs d i s = 0) ∧ ∀ e, lookRefs e i s = 0 := by
  have zero : slotRefs i s = 0 := by
    rw [← h.counted]
    exact ((bufferLaw_none.mp h).1 i).2.2.2.2 ((h.arrived l i).mp (List.mem_of_head? head)).1
  obtain ⟨dests, looks⟩ := Nat.add_eq_zero_iff.mp zero
  exact ⟨fun d => Finset.sum_eq_zero_iff.mp dests d (Finset.mem_univ d),
    fun e => Finset.sum_eq_zero_iff.mp looks e (Finset.mem_univ e)⟩

/-! ### One queue -/

/-- The references of a slot, where one destination queue alone has changed. -/
theorem slotRefs_dest {s t : State} (d : Dest) (dest : ∀ d', d' ≠ d → t.dest[d'] = s.dest[d'])
    (engines : t.engines = s.engines) (i : SlotIx) :
    slotRefs i t + destRefs d i s = slotRefs i s + destRefs d i t := by
  have change : (∑ d, destRefs d i t) + destRefs d i s = (∑ d, destRefs d i s) + destRefs d i t :=
    sum_change (f := fun d => destRefs d i s) (g := fun d => destRefs d i t) d fun d' hd' => by
      rw [destRefs_eq, destRefs_eq, dest d' hd']
  have looks : ∀ e, lookRefs e i t = lookRefs e i s := fun e => by unfold lookRefs; rw [engines]
  simp only [slotRefs, looks]
  omega

/-- The same for a look queue. -/
theorem slotRefs_engine {s t : State} (e : Engine) (engines : ∀ e', e' ≠ e → t.engines[e'] = s.engines[e'])
    (dest : t.dest = s.dest) (i : SlotIx) : slotRefs i t + lookRefs e i s = slotRefs i s + lookRefs e i t := by
  have change : (∑ e, lookRefs e i t) + lookRefs e i s = (∑ e, lookRefs e i s) + lookRefs e i t :=
    sum_change (f := fun e => lookRefs e i s) (g := fun e => lookRefs e i t) e fun e' he' => by
      unfold lookRefs; rw [engines e' he']
  have dests : ∀ d, destRefs d i t = destRefs d i s := fun d => by unfold destRefs; rw [dest]
  simp only [slotRefs, dests]
  omega

/-- R57, R59: entries leave one destination queue with their references. -/
theorem BufferKept.leaveDest {gone : List SlotIx} {s t : State} (d : Dest) (f : DestPort → DestPort)
    (dest : t.dest = vmod s.dest d f) (engines : t.engines = s.engines) (slots : RefsDropped gone s t)
    (queue : ∀ i, queueRefs i (f s.dest[d]).queue + gone.count i = queueRefs i s.dest[d].queue) : BufferKept s t := by
  have this : ∀ i, destRefs d i t + gone.count i = destRefs d i s := fun i => by
    rw [destRefs_eq, destRefs_eq, dest, vmod_self]; exact queue i
  have other : ∀ d', d' ≠ d → t.dest[d'] = s.dest[d'] := fun d' hd' => by rw [dest, vmod_other _ _ _ _ hd']
  refine fun b law => law.released slots (fun i => ?_) (fun d' i => ?_) (fun e i => ?_)
  · have whole := slotRefs_dest d other engines i
    have one := this i
    omega
  · by_cases e : d' = d
    · subst e; exact Nat.le.intro (this i)
    · rw [destRefs_eq, destRefs_eq, other d' e]
  · unfold lookRefs; rw [engines]

/-- R57: entries leave one look queue with their references. -/
theorem BufferKept.leaveEngine {gone : List SlotIx} {s t : State} (e : Engine) (f : EngineState → EngineState)
    (engines : t.engines = vmod s.engines e f) (dest : t.dest = s.dest) (slots : RefsDropped gone s t)
    (queue : ∀ i, ((f s.engines[e]).queue.map LookItem.slot).count i + gone.count i =
      (s.engines[e].queue.map LookItem.slot).count i) : BufferKept s t := by
  have this : ∀ i, lookRefs e i t + gone.count i = lookRefs e i s := fun i => by
    rw [lookRefs_eq, lookRefs_eq, engines, vmod_self]; exact queue i
  have other : ∀ e', e' ≠ e → t.engines[e'] = s.engines[e'] := fun e' he' => by rw [engines, vmod_other _ _ _ _ he']
  refine fun b law => law.released slots (fun i => ?_) (fun d i => ?_) (fun e' i => ?_)
  · have whole := slotRefs_engine e other dest i
    have one := this i
    omega
  · unfold destRefs; rw [dest]
  · by_cases he : e' = e
    · subst he; exact Nat.le.intro (this i)
    · rw [lookRefs_eq, lookRefs_eq, other e' he]

/-! ### Operations that move no entry -/

/-- What leaves the slots, the arrivals and the queues keeps the law. -/
theorem BufferKept.same {s t : State} (slots : t.slots = s.slots)
    (arrivals : ∀ l : SrcLink, t.src[l].arrivals = s.src[l].arrivals)
    (dest : ∀ d : Dest, t.dest[d].queue = s.dest[d].queue)
    (engines : ∀ e : Engine, t.engines[e].queue = s.engines[e].queue) : BufferKept s t := by
  have dests : ∀ d i, destRefs d i t = destRefs d i s := fun d i => by unfold destRefs; rw [dest]
  have looks : ∀ e i, lookRefs e i t = lookRefs e i s := fun e i => by unfold lookRefs; rw [engines]
  refine fun b law => law.released (.nil slots arrivals) (fun i => ?_) (fun d i => (dests d i).le)
    fun e i => (looks e i).le
  simp only [slotRefs, dests, looks, List.count_nil, Nat.add_zero]

/-- What leaves the links, the slots, the destinations and the engines keeps the law. -/
theorem BufferKept.of_eq {s t : State} (src : t.src = s.src) (slots : t.slots = s.slots) (dest : t.dest = s.dest)
    (engines : t.engines = s.engines) : BufferKept s t :=
  .same slots (fun l => by rw [src]) (fun d => by rw [dest]) fun e => by rw [engines]

/-- The same, ahead of what keeps the law. -/
theorem BufferKept.after {s t u : State} (k : BufferKept t u) (src : t.src = s.src) (slots : t.slots = s.slots)
    (dest : t.dest = s.dest) (engines : t.engines = s.engines) : BufferKept s u :=
  (BufferKept.of_eq src slots dest engines).trans k

theorem LogOnly.buffer {s t : State} (h : LogOnly s t) : BufferKept s t := .of_eq h.src h.slots h.dest h.engines

theorem FilesOnly.buffer {s t : State} (h : FilesOnly s t) : BufferKept s t := .of_eq h.src h.slots h.dest h.engines

theorem ChannelsOnly.buffer {s t : State} (h : ChannelsOnly s t) : BufferKept s t := by
  unfold ChannelsOnly at h
  refine .of_eq ?_ ?_ ?_ ?_ <;> rw [h]

theorem Reading.buffer {i : FileIx} {n : Nat} {s t : State} (h : Reading i n s t) : BufferKept s t := by
  refine .of_eq ?_ ?_ ?_ ?_ <;> rw [h.frame]

theorem loseOne_buffer (k : Loss) (s : State) : BufferKept s (loseOne k s) := .of_eq rfl rfl rfl rfl

theorem countEvent_buffer (ev : CountEvent) (ag : Against) (n : Nat) (s : State) :
    BufferKept s (countEvent ev ag n s) := .of_eq rfl rfl rfl rfl

theorem modSrc_buffer (l : SrcLink) (f : SrcPort → SrcPort) (s : State)
    (h : (f s.src[l]).arrivals = s.src[l].arrivals) : BufferKept s (modSrc l f s) :=
  .same rfl (fun m => by
    rw [modSrc_src, vmod_get]
    split
    · next e => rw [h, e]
    · rfl) (fun _ => rfl) fun _ => rfl

theorem modDest_buffer (d : Dest) (f : DestPort → DestPort) (s : State)
    (h : ∀ i, queueRefs i (f s.dest[d]).queue = queueRefs i s.dest[d].queue) : BufferKept s (modDest d f s) :=
  .leaveDest (gone := []) d f rfl rfl (.nil rfl fun _ => rfl) h

theorem modEngine_buffer (e : Engine) (f : EngineState → EngineState) (s : State)
    (h : (f s.engines[e]).queue = s.engines[e].queue) : BufferKept s (modEngine e f s) :=
  .leaveEngine (gone := []) e f rfl rfl (.nil rfl fun _ => rfl) fun i => by rw [h]; rfl

end Sys2Proof.Machine
end

