-- ==== Sys2Proof/Proofs/BufferQueues.lean ====
section
/-! PROOF. The operations on the look engines, the destinations and the file records keep the law of the Slot Buffer
(R54 to R59), in the order of their definitions: an entry that leaves a queue gives up its reference. -/

namespace Sys2Proof.Machine

open Sys2Proof

/-! ### Look queues (chapter 7) -/

section
variable (g : EngineState)

@[simp] theorem EngineState.endBroken_queue : g.endBroken.queue = g.queue := by
  unfold endBroken; split <;> rfl

@[simp] theorem EngineState.endComplete_queue : g.endComplete.queue = g.queue := by
  unfold endComplete; split
  · rfl
  · exact g.endBroken_queue

@[simp] theorem EngineState.gradeTo_queue (item : LookItem) (payload : Bytes) (n : Nat) :
    (g.gradeTo item payload n).queue = g.queue := by
  unfold gradeTo; split <;> rfl

@[simp] theorem EngineState.finishFollow_queue : g.finishFollow.queue = g.queue := by
  unfold finishFollow; split
  · split
    · exact g.endBroken_queue
    · rfl
  · rfl

@[simp] theorem EngineState.setEnded_queue : g.setEnded.queue = g.queue := rfl

@[simp] theorem EngineState.closeOld_queue : g.closeOld.queue = g.queue := by
  unfold closeOld; split
  · rfl
  · exact g.endBroken_queue

/-- R145: the entry in processing and those that wait are the queue. -/
theorem EngineState.processing_append_waiting :
    (if g.proc.isSome then g.queue.take 1 else []) ++ g.waiting = g.queue := by
  unfold waiting; split
  · exact List.take_append_drop 1 g.queue
  · rfl

end

/-- R57, R145: the entries that wait leave with their references. -/
theorem discardWaiting_buffer (e : Engine) (s : State) : BufferKept s (discardWaiting e s) := by
  have one : ∀ u item, RefsDropped [LookItem.slot item] u (discardCounted e item u) := fun u item => by
    rw [discardCounted_eq]
    exact (dropRef_released item.slot _).after rfl rfl
  have all := RefsDropped.foldl (fun s item => discardCounted e item s) LookItem.slot one s.engines[e].waiting s
  refine .leaveEngine e (fun g => { g with queue := if g.proc.isSome then g.queue.take 1 else [] }) ?_ ?_
    (all.append (.nil rfl fun _ => rfl)) fun i => ?_
  · rw [discardWaiting, modEngine_engines, discardAll_engines]
  · rw [discardWaiting, modEngine_dest, discardAll_dest]
  · rw [List.append_nil, ← List.count_append, ← List.map_append, EngineState.processing_append_waiting]

theorem changeFollow_buffer (e : Engine) (new : Option Follow) (s : State) : BufferKept s (changeFollow e new s) :=
  (discardWaiting_buffer e s).trans (modEngine_buffer e _ _ (EngineState.closeOld_queue _))

theorem takeSelection_buffer (e : Engine) (sel : Selection) (s : State) : BufferKept s (takeSelection e sel s) := by
  have stored : BufferKept s (modEngine e (fun g => { g with selection := sel }) s) := modEngine_buffer e _ s rfl
  unfold takeSelection
  dsimp only
  split
  · exact stored
  · exact stored.trans (changeFollow_buffer _ _ _)

theorem reportOpenTo_buffer (i : FileIx) (e : Engine) (s : State) : BufferKept s (reportOpenTo i e s) := by
  unfold reportOpenTo
  split
  · exact .refl s
  · split
    · exact changeFollow_buffer _ _ _
    · exact .refl s

theorem reportOpen_buffer (i : FileIx) (s : State) : BufferKept s (reportOpen i s) :=
  (reportOpenTo_buffer i 0 s).trans (reportOpenTo_buffer i 1 _)

theorem endFollowLast_buffer (tid : Tid) (e : Engine) (s : State) : BufferKept s (endFollowLast tid e s) :=
  modEngine_buffer e _ s (by split <;> simp)

theorem endFollowAbort_buffer (p : Follow → Bool) (e : Engine) (s : State) : BufferKept s (endFollowAbort p e s) := by
  unfold endFollowAbort
  split
  · exact (discardWaiting_buffer e s).trans (modEngine_buffer e _ _ (by simp))
  · exact .refl s

theorem endFollowsAbort_buffer (p : Follow → Bool) (s : State) : BufferKept s (endFollowsAbort p s) :=
  (endFollowAbort_buffer p 0 s).trans (endFollowAbort_buffer p 1 _)

/-- R57, R136: the head entry leaves with its reference. -/
theorem leaveQueue_buffer (e : Engine) (s : State) : BufferKept s (leaveQueue e s) := by
  unfold leaveQueue
  split
  · exact .refl s
  · next item rest h =>
    refine .leaveEngine e (fun g => { g with queue := rest, proc := none }.finishFollow) (dropRef_frame _ _).engines
      (dropRef_frame _ _).dest ((dropRef_released item.slot _).after rfl rfl) fun i => ?_
    rw [h, EngineState.finishFollow_queue, ← List.count_append, List.map_cons]
    exact (List.perm_append_singleton _ _).count_eq i

theorem startEntry_buffer (e : Engine) (s : State) : BufferKept s (startEntry e s) := by
  have leaves : ∀ f, (∀ g, (f g).queue = g.queue) → BufferKept s (leaveQueue e (modEngine e f s)) := fun f h =>
    (modEngine_buffer e f s (h _)).trans (leaveQueue_buffer e _)
  unfold startEntry
  split
  · split
    · exact modEngine_buffer e _ s (EngineState.endBroken_queue _)
    · unfold startOther
      split
      · exact leaveQueue_buffer e s
      · split
        · exact leaves _ EngineState.endBroken_queue
        split
        · exact leaves _ fun _ => rfl
        · exact modEngine_buffer e _ s rfl
      · split
        · exact leaves _ EngineState.endBroken_queue
        split
        · exact leaveQueue_buffer e s
        · exact modEngine_buffer e _ s rfl
  · exact .refl s

theorem completeEntry_buffer (e : Engine) (s : State) : BufferKept s (completeEntry e s) := by
  have keeps : ∀ f, (∀ g, (f g).queue = g.queue) → ∀ u, BufferKept u (modEngine e f u) := fun f h u =>
    modEngine_buffer e f u (h _)
  unfold completeEntry
  split
  · refine (keeps _ (fun g => g.gradeTo_queue _ _ _) s).trans
      ((keeps _ (fun g => ?_) _).trans ((keeps _ (fun g => ?_) _).trans (leaveQueue_buffer e _)))
    · split <;> simp
    · split <;> simp
  · exact .refl s

theorem progressEngine_buffer (e : Engine) (s : State) : BufferKept s (progressEngine e s) := by
  unfold progressEngine
  split
  · split
    · refine .leaveEngine (gone := []) e (fun g => g.gradeTo _ _ _) rfl rfl (.nil rfl fun _ => rfl) fun i => ?_
      rw [EngineState.gradeTo_queue]
      rfl
    · exact .refl s
  · exact .refl s

/-- R147: every entry leaves with its reference. -/
theorem softResetEngine_buffer (e : Engine) (s : State) : BufferKept s (softResetEngine e s) := by
  refine (progressEngine_buffer e s).trans ?_
  show BufferKept (progressEngine e s) (modEngine e _ _)
  generalize progressEngine e s = u
  have all := RefsDropped.foldl (fun s item => dropRef (LookItem.slot item) s) LookItem.slot
    (fun s item => dropRef_released (LookItem.slot item) s) u.engines[e].queue u
  have frame : SlotsOnly u (u.engines[e].queue.foldl (fun s item => dropRef (LookItem.slot item) s) u) :=
    foldl_keeps SlotsOnly SlotsOnly.refl (fun _ _ _ => SlotsOnly.trans) _
      (fun s item => dropRef_frame (LookItem.slot item) s) _ u
  refine .leaveEngine e (fun g => { g.endBroken with
      queue := [], proc := none, closeAfter := false, follow := none, pendingGap := false, working := none }) ?_
    frame.dest (all.append (.nil rfl fun _ => rfl)) fun i => ?_
  · rw [modEngine_engines, frame.engines]
  · rw [List.append_nil]
    exact Nat.zero_add _

/-! ### Destination queues (chapter 5) -/

/-- R80: an entry of a queue that is not DATA points at no slot. -/
theorem queueRefs_noSlots {i : SlotIx} {q : List QEntry} (h : ∀ e ∈ q, e.slot = none) : queueRefs i q = 0 := by
  unfold queueRefs
  rw [List.length_eq_zero_iff, List.filter_eq_nil_iff]
  intro e he
  rw [h e he]
  exact Bool.false_ne_true

/-- R57, R59: a destination's record changes, and what leaves its queue gives up its references. -/
theorem releasing_buffer (d : Dest) (f : DestPort → DestPort) (gone : List QEntry) (s : State)
    (h : ∀ i, queueRefs i (f s.dest[d]).queue + queueRefs i gone = queueRefs i s.dest[d].queue) :
    BufferKept s (releaseEntries gone (modDest d f s)) :=
  .leaveDest d f (releaseEntries_frame _ _).dest (releaseEntries_frame _ _).engines
    ((releaseEntries_released gone (modDest d f s)).after rfl rfl) fun i => by
      rw [count_slots]
      exact h i

theorem checkStall_buffer (d : Dest) (s : State) : BufferKept s (checkStall d s) := by
  unfold checkStall
  split
  · exact (modDest_buffer d _ s fun _ => rfl).trans (countEvent_buffer _ _ _ _)
  · exact .refl s

theorem checkStalls_buffer (s : State) : BufferKept s (checkStalls s) := .foldl _ (fun s d => checkStall_buffer d s) _ s

/-- R80: an entry joins that points at no slot. -/
theorem enqueue_buffer (d : Dest) (e : QEntry) (s : State) (h : e.slot = none) : BufferKept s (enqueue d e s) :=
  modDest_buffer d _ s fun i => by
    rw [queueRefs_append, queueRefs_noSlots (q := [e]) (by simpa using h), Nat.add_zero]

/-- R81: ABORTs come and go without references. -/
theorem afterWithdrawal_refs (i : SlotIx) (t : Tid) (w : List QEntry) :
    queueRefs i (afterWithdrawal t w) = queueRefs i (w.filter fun e => !e.belongs t) := by
  unfold afterWithdrawal
  dsimp only
  split
  · rfl
  · have stale := queueRefs_parted i (QEntry.isStaleAbort t) (w.filter fun e => !e.belongs t)
    rw [queueRefs_noSlots (q := (w.filter _).filter (QEntry.isStaleAbort t)) fun e he => ?_] at stale
    · rw [queueRefs_append, queueRefs_noSlots (q := [.abort t]) (by simp [QEntry.slot])]
      exact stale
    · have abort := (List.mem_filter.mp he).2
      cases e <;> first | rfl | cases abort

theorem queueRefs_waiting (i : SlotIx) (p : DestPort) :
    queueRefs i p.sending + queueRefs i p.waiting = queueRefs i p.queue := by
  rw [← queueRefs_append, DestPort.sending_append_waiting]

theorem withdraw_buffer (d : Dest) (t : Tid) (s : State) : BufferKept s (withdraw d t s) :=
  releasing_buffer d _ _ s fun i => by
    have parted := queueRefs_parted i (QEntry.belongs t) s.dest[d].waiting
    have whole := queueRefs_waiting i s.dest[d]
    rw [DestPort.withdraw_eq, queueRefs_append, afterWithdrawal_refs]
    omega

theorem purgeWaiting_buffer (d : Dest) (keep : QEntry → Bool) (s : State) : BufferKept s (purgeWaiting d keep s) :=
  releasing_buffer d _ _ s fun i => by
    have parted := queueRefs_parted i keep s.dest[d].waiting
    have whole := queueRefs_waiting i s.dest[d]
    rw [queueRefs_append]
    omega

theorem nullify_buffer (d : Dest) (s : State) : BufferKept s (nullify d s) := by
  unfold nullify
  split
  · exact .refl s
  next x tx =>
  split
  · refine releasing_buffer d _ _ s fun i => ?_
    have sending : s.dest[d].sending = s.dest[d].queue.take 1 := by rw [DestPort.sending, tx]; rfl
    rw [sending, Nat.add_comm, ← queueRefs_append, List.take_append_drop]
  · exact modDest_buffer d _ s fun _ => rfl

/-! ### Files (chapter 2) -/

theorem withdrawUnsettled_buffer (i : FileIx) (r : FailReason) (s : State) :
    BufferKept s (withdrawUnsettled i r s) := by
  unfold withdrawUnsettled
  split
  · exact .refl s
  · exact .foldl _ (fun s d => (failCopy_frame i d r [] s).buffer.trans (withdraw_buffer d _ _)) _ s

theorem releaseChannel_buffer (i : FileIx) (s : State) : BufferKept s (releaseChannel i s) := by
  unfold releaseChannel
  split <;> exact .of_eq rfl rfl rfl rfl

theorem leaveStreaming_buffer (i : FileIx) (next : FileState) (s : State) : BufferKept s (leaveStreaming i next s) :=
  (releaseChannel_buffer i s).trans (.of_eq rfl rfl rfl rfl)

theorem stopFile_buffer (i : FileIx) (r : FailReason) (s : State) : BufferKept s (stopFile i r s) :=
  (withdrawUnsettled_buffer i r s).trans ((leaveStreaming_buffer i .short _).trans (endFollowsAbort_buffer _ _))

theorem abortFile_buffer (i : FileIx) (s : State) : BufferKept s (abortFile i s) := by
  unfold abortFile
  split
  · exact .refl s
  · exact (stopFile_buffer i _ s).trans ((logFault_frame _ _).trans (reeval_frame _ _)).buffer

theorem breakFile_buffer (i : FileIx) (received : Nat) (s : State) : BufferKept s (breakFile i received s) := by
  unfold breakFile
  split
  · exact .refl s
  · exact (stopFile_buffer i _ s).trans ((logFault_frame _ _).trans (reeval_frame _ _)).buffer

theorem abortStreaming_buffer (is : List FileIx) (s : State) : BufferKept s (abortStreaming is s) :=
  .foldl _ (fun s i => abortFile_buffer i s) is s

theorem discardCopies_buffer (i : FileIx) (s : State) : BufferKept s (discardCopies i s) := by
  unfold discardCopies
  split
  · exact .refl s
  · exact .foldl _ (fun s d => withdraw_buffer d _ s) _ s

/-! ### Destination links (chapter 5) -/

/-- R89, R91: the copies of a destination fail, and a record is logged. -/
theorem failAll_logged_buffer (d : Dest) (r : FailReason) (cls : FaultClass) (code : Option FaultCode) (s : State) :
    BufferKept s (logDest cls code d (failAll d r s)) :=
  (failAll_frame d r s).buffer.trans (logFault_frame _ _).buffer

theorem downProcedure_buffer (d : Dest) (s : State) : BufferKept s (downProcedure d s) :=
  (releasing_buffer d DestPort.down s.dest[d].queue s fun _ => Nat.zero_add _).trans
    (failAll_logged_buffer d _ _ _ _)

theorem loseAlignment_buffer (d : Dest) (s : State) : BufferKept s (loseAlignment d s) := by
  unfold loseAlignment
  split
  · exact (nullify_buffer d s).trans (modDest_buffer d _ _ fun _ => rfl)
  · exact (nullify_buffer d s).trans (modDest_buffer d _ _ fun _ => rfl)
  all_goals exact .refl s

theorem DestPort.achieve_queue (p : DestPort) (n : Nat) : (p.achieve n).queue = p.queue := by
  unfold achieve
  split
  · rfl
  · rfl
  · split <;> rfl
  all_goals rfl

theorem DestPort.takeCredit_queue (p : DestPort) (e : QEntry) : (p.takeCredit e).queue = p.queue := by
  unfold takeCredit
  split
  · split <;> rfl
  all_goals rfl

theorem startTransmission_buffer (d : Dest) (e : QEntry) (s : State) : BufferKept s (startTransmission d e s) :=
  modDest_buffer d _ s fun i => congrArg (queueRefs i) (DestPort.takeCredit_queue _ e)

/-- R83: the head entry has been sent; a DATA entry leaves with its reference. -/
theorem endTransmission_buffer (d : Dest) (s : State) : BufferKept s (endTransmission d s) := by
  unfold endTransmission
  split
  next x e rest tx queue =>
    refine BufferKept.trans ?_ (checkStall_buffer d _)
    have leaves (bare : e.slot = none) : BufferKept s (modDest d (fun p => { p with tx := none, queue := rest }) s) :=
      modDest_buffer d _ s fun i => by
        have head : queueRefs i [e] = 0 := queueRefs_noSlots (by simpa using bare)
        rw [queue, ← List.singleton_append, queueRefs_append, head, Nat.zero_add]
    have moves : ∀ f u, (∀ p : DestPort, (f p).queue = p.queue) → BufferKept u (modDest d f u) := fun f u h =>
      modDest_buffer d f u fun i => congrArg (queueRefs i) (h _)
    unfold sentGood
    split
    · refine (leaves rfl).trans (BufferKept.trans ?_ (moves _ _ fun _ => rfl))
      unfold advanceCopy
      split <;> exact .of_eq rfl rfl rfl rfl
    · next t slot =>
      refine .leaveDest d (fun p => { p with tx := none, queue := rest }) (dropRef_frame _ _).dest
        (dropRef_frame _ _).engines ((dropRef_released slot _).after rfl rfl) fun i => ?_
      have head : queueRefs i [.data t slot] = [slot].count i := (count_slots i [.data t slot]).symm
      rw [queue, ← head, Nat.add_comm, ← queueRefs_append, List.singleton_append]
    · split
      · exact (leaves rfl).trans (BufferKept.after (moves _ _ fun _ => rfl) rfl rfl rfl rfl)
      · exact leaves rfl
    · exact (leaves rfl).trans (moves _ _ fun _ => rfl)
    · exact (leaves rfl).trans (moves _ _ fun _ => rfl)
  · exact .refl s

theorem takeInbound_buffer (k : Nat) (d : Dest) (wire : Bytes) (f : InMessage → State → State) (s : State)
    (h : ∀ m, BufferKept s (f m s)) : BufferKept s (takeInbound k d wire f s) := by
  unfold takeInbound
  split
  · exact .refl s
  · split
    · exact h _
    · exact .refl s

theorem takeCreditMessage_buffer (d : Dest) (m : InMessage) (s : State) : BufferKept s (takeCreditMessage d m s) := by
  unfold takeCreditMessage
  split
  · exact modDest_buffer d _ s fun _ => rfl
  · exact loseOne_buffer _ s

/-- R91: what is purged on entry to QUARANTINED and what stays are the queue, but for a HALT. -/
theorem DestPort.enterQuarantine_refs (i : SlotIx) (p : DestPort) :
    queueRefs i p.enterQuarantine.queue + queueRefs i p.quarantinePurge = queueRefs i p.queue := by
  have halt : queueRefs i [.halt] = 0 := rfl
  have haltFor : ∀ q o, queueRefs i (haltFor q o) = queueRefs i q := fun q o => by
    unfold Machine.haltFor
    split
    · rw [queueRefs_append, halt, Nat.add_zero]
    · rfl
  unfold enterQuarantine quarantinePurge
  cases p.state with
  | up =>
    show queueRefs i (p.sending ++ [.halt]) + queueRefs i p.waiting = _
    rw [queueRefs_append, halt, Nat.add_zero, queueRefs_waiting]
  | retraining => exact (congrArg (· + _) (haltFor _ _)).trans (Nat.zero_add _)
  | training => exact haltFor _ _
  | down => exact haltFor _ _
  | quarantined => exact haltFor _ _

theorem enterQuarantine_buffer (code : FaultCode) (d : Dest) (s : State) : BufferKept s (enterQuarantine code d s) :=
  (releasing_buffer d _ _ s fun i => DestPort.enterQuarantine_refs i _).trans (failAll_logged_buffer d _ _ _ _)

theorem autoQuarantine_buffer (d : Dest) (s : State) : BufferKept s (autoQuarantine d s) := by
  unfold autoQuarantine
  split
  · exact enterQuarantine_buffer _ d s
  · exact .refl s

theorem countFailure_buffer (d : Dest) (s : State) : BufferKept s (countFailure d s) :=
  (modDest_buffer d _ s fun _ => rfl).trans (countEvent_buffer _ _ _ _)

theorem cancelTimer_buffer (i : FileIx) (d : Dest) (s : State) : BufferKept s (cancelTimer i d s) :=
  modDest_buffer d _ s fun _ => rfl

theorem proveCopy_buffer (i : FileIx) (d : Dest) (s : State) : BufferKept s (proveCopy i d s) :=
  (setCopy_frame i d .verified s).buffer.trans ((cancelTimer_buffer i d _).trans
    ((modDest_buffer d _ _ fun _ => rfl).trans ((countEvent_buffer _ _ _ _).trans (settleFile_frame i _).buffer)))

theorem failClosed_buffer (i : FileIx) (d : Dest) (r : FailReason) (s : State) : BufferKept s (failClosed i d r s) :=
  (cancelTimer_buffer i d s).trans ((failCopy_frame i d r [] _).buffer.trans
    ((countFailure_buffer d _).trans ((settleFile_frame i _).buffer.trans (autoQuarantine_buffer d _))))

theorem takeVerify_buffer (d : Dest) (m : InMessage) (s : State) : BufferKept s (takeVerify d m s) := by
  unfold takeVerify
  split
  · split
    · unfold verifyCopy
      split
      · split
        · exact proveCopy_buffer _ d s
        · exact failClosed_buffer _ d _ s
      all_goals exact loseOne_buffer _ s
    · exact loseOne_buffer _ s
  · exact loseOne_buffer _ s

theorem takeWriteError_buffer (d : Dest) (m : InMessage) (s : State) : BufferKept s (takeWriteError d m s) := by
  unfold takeWriteError
  split
  · split
    · next i _ =>
      split
      · exact (failCopy_frame i d _ _ s).buffer.trans ((countFailure_buffer d _).trans ((withdraw_buffer d _ _).trans
          ((settleFile_frame i _).buffer.trans ((autoQuarantine_buffer d _).trans (checkStall_buffer d _)))))
      · exact loseOne_buffer _ s
    · exact loseOne_buffer _ s
  · exact loseOne_buffer _ s

theorem expireTimer_buffer (i : FileIx) (d : Dest) (s : State) : BufferKept s (expireTimer i d s) := by
  unfold expireTimer
  split
  · exact failClosed_buffer i d _ s
  · exact .refl s

theorem resetDest_buffer (d : Dest) (s : State) : BufferKept s (resetDest d s) := by
  have train : ∀ u, BufferKept u (modDest d DestPort.train u) := fun u => modDest_buffer d _ u fun _ => rfl
  unfold resetDest
  split
  · exact (downProcedure_buffer d s).trans (train _)
  · exact (downProcedure_buffer d s).trans (train _)
  · exact modDest_buffer d _ s fun _ => rfl
  · exact train s
  · exact (nullify_buffer d s).trans (modDest_buffer d _ _ fun _ => rfl)

end Sys2Proof.Machine
end

