-- ==== Sys2Proof/Proofs/BufferSegments.lean ====
section
/-! PROOF. The law of the Slot Buffer through the arrival of a segment, its processing and the discarding of arrivals
(R36, R52, R54 to R56). -/

namespace Sys2Proof.Machine

open Sys2Proof

/-! ### Arrival queues (chapter 1) -/

theorem decideHead_buffer (l : SrcLink) (s : State) : BufferKept s (decideHead l s) := modSrc_buffer l _ s rfl

theorem queueReply_buffer (l : SrcLink) (r : Reply) (s : State) : BufferKept s (queueReply l r s) :=
  modSrc_buffer l _ s rfl

/-- R12, R55: the head leaves its arrival queue and loses its mark; it is no longer in processing. -/
theorem endProcessing_law {b : Option SrcLink} {l : SrcLink} {s : State} (h : BufferLaw b s) :
    BufferLaw (b.filter (· ≠ l)) (endProcessing l s) := by
  unfold endProcessing
  split
  · next empty =>
    refine { h with marked := fun i hm => (h.marked i hm).imp_right fun ⟨m, hb, head⟩ => ⟨m, ?_, head⟩ }
    rw [Option.mem_filter_iff]
    refine ⟨hb, ?_⟩
    rw [decide_eq_true_iff]
    rintro rfl
    rw [empty] at head
    cases head
  · next i rest arrivals =>
    refine decideHead_buffer l _ _ ?_
    have self : (modSrc l (fun p => { p with arrivals := rest }) s).src[l].arrivals = rest := by
      rw [modSrc_src, vmod_self]
    have other : ∀ m, m ≠ l → (modSrc l (fun p => { p with arrivals := rest }) s).src[m].arrivals = s.src[m].arrivals :=
      fun m hm => by rw [modSrc_src, vmod_other _ _ _ _ hm]
    refine h.unmarked l [i] (clearMark_unmarked i _) rfl ?_ other (fun m hb j head => ?_) (clearMark_frame i _).dest
      (clearMark_frame i _).engines
    · rw [self, arrivals]
      exact List.perm_append_singleton i rest
    · by_cases e : m = l
      · rw [e, arrivals, List.head?_cons, Option.some_inj] at head
        exact .inl (List.mem_singleton.mpr head.symm)
      · exact .inr ⟨Option.mem_filter_iff.mpr ⟨hb, decide_eq_true e⟩, by rw [other m e]; exact head⟩

theorem endProcessing_buffer (l : SrcLink) (s : State) : BufferKept s (endProcessing l s) := fun _ h =>
  (endProcessing_law h).mono fun _ hb => (Option.mem_filter_iff.mp hb).1

/-- R55: with the end of its processing the segment is out of the way of the law. -/
theorem endProcessing_ends {l : SrcLink} {s : State} (h : BufferLaw (some l) s) : BufferLaw none (endProcessing l s) :=
  (endProcessing_law h).mono fun m hb => by
    obtain ⟨same, ne⟩ := Option.mem_filter_iff.mp hb
    exact absurd (Option.some.inj same).symm (of_decide_eq_true ne)

/-- R18, R55: discarded arrivals lose their marks. -/
theorem discardArrivals_buffer (l : SrcLink) (keepHead : Bool) (s : State) :
    BufferKept s (discardArrivals l keepHead s) := fun b h => by
  have frame := discardArrivals_frame l keepHead s
  have self : (modSrc l (fun p => { p with
      arrivals := if keepHead then p.arrivals.take 1 else []
      headAddressed := if keepHead then p.headAddressed else none }) s).src[l].arrivals =
        if keepHead then s.src[l].arrivals.take 1 else [] := by rw [modSrc_src, vmod_self]
  have other : ∀ m, m ≠ l → (modSrc l (fun p => { p with
      arrivals := if keepHead then p.arrivals.take 1 else []
      headAddressed := if keepHead then p.headAddressed else none }) s).src[m].arrivals = s.src[m].arrivals :=
    fun m hm => by rw [modSrc_src, vmod_other _ _ _ _ hm]
  refine h.unmarked l (discardedArrivals keepHead s.src[l].arrivals) (.foldl _ _) rfl ?_ other (fun m hb i head => ?_)
    frame.dest frame.engines
  · rw [self, discardedArrivals]
    cases keepHead with
    | true => exact .of_eq (List.take_append_drop 1 _)
    | false => exact .refl _
  · by_cases e : m = l
    · subst e
      rw [self]
      cases keepHead with
      | true =>
        refine .inr ⟨hb, ?_⟩
        rw [if_pos rfl, List.head?_take, if_neg Nat.one_ne_zero]
        exact head
      | false => exact .inl (List.mem_of_head? head)
    · exact .inr ⟨hb, by rw [other m e]; exact head⟩

/-- R19, R55: the same for the arrivals that a soft reset discards. -/
theorem dropArrivals_buffer (l : SrcLink) (s : State) : BufferKept s (dropArrivals l s) := fun b h => by
  unfold dropArrivals
  dsimp only
  generalize hr : (if (s.src[l].arrivals.filter (isControl s)).head? = s.src[l].arrivals.head? then
    modSrc l (fun p => { p with arrivals := s.src[l].arrivals.filter (isControl s) }) s else
    decideHead l (modSrc l (fun p => { p with arrivals := s.src[l].arrivals.filter (isControl s) }) s)) = r
  have dropped : SlotsOnly s r ∧ r.slots = s.slots ∧ r.src[l].arrivals = s.src[l].arrivals.filter (isControl s) ∧
      ∀ m, m ≠ l → r.src[m].arrivals = s.src[m].arrivals := by
    split at hr
    · subst hr
      exact ⟨rfl, rfl, by rw [modSrc_src, vmod_self], fun m hm => by rw [modSrc_src, vmod_other _ _ _ _ hm]⟩
    · rw [decideHead_spec] at hr
      subst hr
      refine ⟨rfl, rfl, by rw [modSrc_src, vmod_self, modSrc_src, vmod_self], fun m hm => ?_⟩
      rw [modSrc_src, vmod_other _ _ _ _ hm, modSrc_src, vmod_other _ _ _ _ hm]
  obtain ⟨first, slots, self, other⟩ := dropped
  have frame := first.trans (foldl_keeps SlotsOnly SlotsOnly.refl (fun _ _ _ => SlotsOnly.trans)
    (fun s i => clearMark i s) (fun s i => clearMark_frame i s) (s.src[l].arrivals.filter fun i => !isControl s i) r)
  refine h.unmarked l _ (.foldl _ r) slots ?_ other (fun m hb i head => ?_) frame.dest frame.engines
  · rw [self]
    exact List.filter_append_perm _ _
  · by_cases e : m = l
    · subst e
      obtain ⟨rest, arrivals⟩ := List.head?_eq_some_iff.mp head
      rw [self, arrivals]
      cases control : isControl s i with
      | true => exact .inr ⟨hb, by rw [List.filter_cons_of_pos control]; rfl⟩
      | false => exact .inl (List.mem_filter.mpr ⟨List.mem_cons_self, by rw [control]; rfl⟩)
    · exact .inr ⟨hb, by rw [other m e]; exact head⟩

/-- R52: a segment takes a FREE slot, to which no entry points. -/
theorem takeSlot_buffer (l : SrcLink) (i : SlotIx) (g : Segment) (s : State) (free : s.slots[i].owner = none) :
    BufferKept s (modSrc l (SrcPort.accept i) (modSlot i (fun _ => ⟨some l, true, 0, g⟩) s)) := fun b h => by
  obtain ⟨unmarked, refs⟩ := (h.free i).mp free
  have absent : ∀ m : SrcLink, i ∉ s.src[m].arrivals := fun m hi => by
    have marked := ((h.arrived m i).mp hi).1
    rw [unmarked] at marked
    cases marked
  refine ⟨fun j => ?_, h.destOnce, h.lookOnce, fun j => ?_, fun j hm => ?_, fun m => ?_, fun m j => ?_⟩
  · rw [modSrc_slots, modSlot_slots, vmod_get]
    split
    · next e => subst e; exact refs.symm.trans (h.counted j)
    · exact h.counted j
  · rw [modSrc_slots, modSlot_slots, vmod_get]
    split
    · exact ⟨fun x => (by cases x), fun x => (by cases x.1)⟩
    · exact h.free j
  · rw [modSrc_slots, modSlot_slots, vmod_get] at hm ⊢
    split at hm
    · next e => exact .inl (by rw [if_pos e])
    · next e =>
      rw [if_neg e]
      refine (h.marked j hm).imp_right fun ⟨m, hb, head⟩ => ⟨m, hb, ?_⟩
      rw [modSrc_src, vmod_get]
      split
      · next em =>
        subst em
        exact List.head?_append_of_ne_nil _ (List.ne_nil_of_mem (List.mem_of_head? head)) ▸ head
      · exact head
  · rw [modSrc_src, vmod_get]
    split
    · exact List.nodup_append.mpr ⟨h.nodup l, List.nodup_singleton i,
        fun x hx y hy e => absent l (List.mem_singleton.mp hy ▸ e ▸ hx)⟩
    · exact h.nodup m
  · have arrived := h.arrived m j
    have none := absent m
    rw [modSrc_src, vmod_get, modSrc_slots, modSlot_slots, vmod_get, modSlot_src]
    by_cases em : m = l <;> by_cases ej : j = i
    · subst em ej; simp [SrcPort.accept]
    · subst em
      rw [if_pos rfl, if_neg ej, ← arrived]
      simp [SrcPort.accept, ej]
    · subst ej
      rw [if_neg em, if_pos rfl]
      exact ⟨fun x => absurd x none, fun x => absurd (Option.some.inj x.2).symm em⟩
    · rw [if_neg em, if_neg ej]
      exact arrived

theorem acceptSegment_buffer (l : SrcLink) (i : SlotIx) (g : Segment) (s : State) (free : s.slots[i].owner = none) :
    BufferKept s (acceptSegment l i g s) := by
  have counted : BufferKept s (countEvent .bytesIn (.link l) g.len (countEvent .segIn (.link l) 1
      (modSrc l (SrcPort.accept i) (modSlot i (fun _ => ⟨some l, true, 0, g⟩) s)))) :=
    (takeSlot_buffer l i g s free).trans ((countEvent_buffer _ _ _ _).trans (countEvent_buffer _ _ _ _))
  unfold acceptSegment
  dsimp only
  split
  · exact counted.trans (decideHead_buffer l _)
  · exact counted

/-! ### The entries of an accepted segment (chapters 2, 5 and 7) -/

/-- R36, R56: the DATA entries of the segment in processing join with their references. -/
theorem queueData_law {l : SrcLink} {slot : SlotIx} {s : State} (h : BufferLaw (some l) s)
    (head : s.src[l].arrivals.head? = some slot) (unreferenced : ∀ d, destRefs d slot s = 0) (i : FileIx)
    (f : FileRec) : BufferLaw (some l) (queueData i slot f s) := by
  obtain ⟨frame, dest, slots⟩ := queueData_queued i slot f s
  generalize queueData i slot f s = t at frame dest slots
  have refs : ∀ d j, destRefs d j t = destRefs d j s + if j = slot then (if d ∈ f.receivers then 1 else 0) else 0 :=
    fun d j => by
      have entry : queueRefs j [.data (tidOf i s) slot] = if j = slot then 1 else 0 := by
        rw [← count_slots]
        exact count_one slot j
      rw [destRefs_eq, destRefs_eq, dest, queueRefs_append]
      by_cases hd : d ∈ f.receivers
      · rw [if_pos hd, if_pos hd, entry]
      · rw [if_neg hd, if_neg hd, ite_self]
        rfl
  have looks : ∀ e j, lookRefs e j t = lookRefs e j s := fun e j => by rw [frame]; rfl
  have count : (∑ d : Dest, if d ∈ f.receivers then 1 else 0) = f.receivers.length := by
    rw [Finset.sum_boole, Nat.cast_id, ← List.toFinset_card_of_nodup (l := f.receivers) (allIx_nodup _)]
    congr 1
    ext d
    simp
  refine h.joined head f.receivers.length slots (by rw [frame]) (fun j => ?_) (fun d j => ?_) fun e j => ?_
  · simp only [slotRefs, refs, looks, Finset.sum_add_distrib]
    by_cases e : j = slot
    · simp only [e, if_true, count]
      omega
    · simp only [e, if_false, Finset.sum_const_zero]
      omega
  · rw [refs]
    by_cases e : j = slot
    · rw [e, unreferenced, if_pos rfl, Nat.zero_add]
      split <;> omega
    · rw [if_neg e]
      exact h.destOnce d j
  · rw [looks]
    exact h.lookOnce e j

/-- R56: a look-queue entry of the segment in processing joins with its reference. -/
theorem BufferLaw.joinEngine {l : SrcLink} {slot : SlotIx} {e : Engine} {s : State} (h : BufferLaw (some l) s)
    (head : s.src[l].arrivals.head? = some slot) (unreferenced : lookRefs e slot s = 0) (f : EngineState → EngineState)
    (queue : (f s.engines[e]).queue.map LookItem.slot = s.engines[e].queue.map LookItem.slot ++ [slot]) :
    BufferLaw (some l) (addRef slot (modEngine e f s)) := by
  have engines : (addRef slot (modEngine e f s)).engines = vmod s.engines e f := rfl
  have dest : (addRef slot (modEngine e f s)).dest = s.dest := rfl
  have src : (addRef slot (modEngine e f s)).src = s.src := rfl
  have slots : (addRef slot (modEngine e f s)).slots = vmod s.slots slot fun x => { x with refs := x.refs + 1 } := rfl
  generalize addRef slot (modEngine e f s) = t at engines dest src slots
  have self : ∀ j, lookRefs e j t = lookRefs e j s + if j = slot then 1 else 0 := fun j => by
    rw [lookRefs_eq, lookRefs_eq, engines, vmod_self, queue, List.count_append, count_one]
  have other : ∀ e', e' ≠ e → t.engines[e'] = s.engines[e'] := fun e' he' => by rw [engines, vmod_other _ _ _ _ he']
  refine h.joined head 1 slots src (fun j => ?_) (fun d j => ?_) fun e' j => ?_
  · have whole := slotRefs_engine e other dest j
    have one := self j
    omega
  · rw [destRefs_eq, dest]
    exact h.destOnce d j
  · by_cases he : e' = e
    · subst he
      rw [self]
      split
      · next ej => rw [ej, unreferenced]
      · exact h.lookOnce e' j
    · rw [lookRefs_eq, other e' he, ← lookRefs_eq]
      exact h.lookOnce e' j

/-- R134: the segment in processing is offered to a look queue. -/
theorem offerLookTo_law {l m : SrcLink} {slot : SlotIx} {e : Engine} {s : State} (h : BufferLaw (some l) s)
    (head : s.src[l].arrivals.head? = some slot) (unreferenced : lookRefs e slot s = 0) (tid : Tid) (g : Segment)
    (place : Placement) (complete : Bool) : BufferLaw (some l) (offerLookTo m tid slot g place complete e s) := by
  unfold offerLookTo
  split
  · split
    · exact h.joinEngine head unreferenced _ List.map_append
    · have lost : BufferKept s (countEvent .reviewSkips (.link m) 1 (loseOne (.skips e) s)) := .of_eq rfl rfl rfl rfl
      exact (lost.trans (modEngine_buffer e _ _ rfl)) _ h
  · exact h

/-- An offer to one look queue leaves the other one. -/
theorem offerLookTo_other {e e' : Engine} (he : e' ≠ e) (l : SrcLink) (tid : Tid) (i : SlotIx) (g : Segment)
    (place : Placement) (complete : Bool) (s : State) :
    (offerLookTo l tid i g place complete e s).engines[e'] = s.engines[e'] := by
  unfold offerLookTo
  split
  · split
    · exact vmod_other _ _ _ _ he
    · exact vmod_other _ _ _ _ he
  · rfl

/-- R106, R134: the segment in processing is read, and offered to the look queues. -/
theorem readSegment_law {l : SrcLink} {slot : SlotIx} {s : State} (h : BufferLaw (some l) s)
    (head : s.src[l].arrivals.head? = some slot) (unreferenced : ∀ e, lookRefs e slot s = 0) (i : FileIx) (f : FileRec)
    (g : Segment) : BufferLaw (some l) (readSegment l i slot f g s) := by
  unfold readSegment
  split
  · exact h
  next m _ =>
  split
  · have reading := readPreview_reading (i := i) l m g s
    have read := reading.buffer _ h
    have frame := reading.frame
    unfold previewSegment
    generalize readPreview i l m g s = r at read frame
    have headR : r.1.src[l].arrivals.head? = some slot := by rw [frame]; exact head
    have noLook : ∀ e, lookRefs e slot r.1 = 0 := fun e => by rw [frame]; exact unreferenced e
    refine offerLookTo_law (offerLookTo_law read headR (noLook 0) _ g _ _) ?_ ?_ _ g _ _
    · rw [offerLookTo_frame]; exact headR
    · rw [lookRefs_eq, offerLookTo_other (by decide), ← lookRefs_eq]; exact noLook 1
  split
  · exact (readMeta_reading l m g s).buffer _ h
  · exact h

/-- R36: the entries of an accepted segment join, in the destination queues and then in the look queues. -/
theorem acceptBytes_law {l : SrcLink} {slot : SlotIx} {s : State} (h : BufferLaw none s)
    (head : s.src[l].arrivals.head? = some slot) (i : FileIx) (f : FileRec) (g : Segment) :
    BufferLaw (some l) (acceptBytes l i slot f g s) := by
  obtain ⟨noDest, noLook⟩ := h.head_unreferenced head
  have busy : BufferLaw (some l) s := h.mono fun _ hb => by cases hb
  have same : ∀ m, BufferKept s (modFile i m s) := fun m => .of_eq rfl rfl rfl rfl
  have queued := fun m => queueData_law (same m _ busy) head noDest i f
  have frame := fun m => (queueData_queued i slot f (modFile i m s)).frame
  refine readSegment_law (queued _) ?_ (fun e => ?_) i f g
  · rw [frame]; exact head
  · rw [frame]; exact noLook e

end Sys2Proof.Machine
end

