-- ==== Sys2Proof/Proofs/SlotLaw.lean ====
section
/-! PROOF. R54 to R56: the law of the Slot Buffer through the taking of segments, the commands and the resets, and so
through every step. Settles O6. -/

namespace Sys2Proof.Machine

open Sys2Proof

/-! ### Segments and files (chapters 1 and 2) -/

theorem logCardFile_buffer (cls : FaultClass) (c : CardIx) (number : Nat) (values : List Nat) (s : State) :
    BufferKept s (logCardFile cls c number values s) := (logFault_frame _ s).buffer

theorem modCard_buffer (c : CardIx) (f : Card → Card) (s : State) : BufferKept s (modCard c f s) :=
  .of_eq rfl rfl rfl rfl

theorem modChannel_buffer (c : Channel) (f : ChannelRec → ChannelRec) (s : State) : BufferKept s (modChannel c f s) :=
  .of_eq rfl rfl rfl rfl

theorem refuseHeader_buffer (l : SrcLink) (g : Segment) (s : State) : BufferKept s (refuseHeader l g s) := by
  unfold refuseHeader
  split
  · unfold refuseData
    split
    · exact loseOne_buffer _ s
    split
    · exact .refl s
    split
    · exact loseOne_buffer _ s
    split
    · exact (breakFile_buffer _ _ s).trans (checkStalls_buffer _)
    · exact logCardFile_buffer _ _ _ _ s
  · exact loseOne_buffer _ s

theorem takeMount_buffer (l : SrcLink) (g : Segment) (s : State) : BufferKept s (takeMount l g s) := by
  have refused : ∀ cls h, BufferKept s (refuseMount cls h s) := fun _ _ => (logFault_frame _ s).buffer
  unfold takeMount
  dsimp only
  split
  · split
    · exact refused _ _
    split
    · exact refused _ _
    split
    · exact modCard_buffer _ _ s
    · split
      · exact refused _ _
      · exact .of_eq rfl rfl rfl rfl
  · exact loseOne_buffer _ s

theorem takeCardEnd_buffer (l : SrcLink) (g : Segment) (s : State) : BufferKept s (takeCardEnd l g s) := by
  unfold takeCardEnd
  split
  · exact loseOne_buffer _ s
  split
  · exact .refl s
  split
  · refine BufferKept.trans ?_ (reeval_frame _ _).buffer
    split
    · exact (modCard_buffer _ _ s).trans (logFault_frame _ _).buffer
    · exact modCard_buffer _ _ s
  · exact .refl s

theorem takeUnmount_buffer (l : SrcLink) (g : Segment) (s : State) : BufferKept s (takeUnmount l g s) := by
  unfold takeUnmount
  split
  · exact .refl s
  · have stopped := fun is => (abortStreaming_buffer is s).trans (checkStalls_buffer _)
    refine BufferKept.trans ?_ ((modCard_buffer _ _ _).trans (reeval_frame _ _).buffer)
    split
    · exact (stopped _).trans ((modCard_buffer _ _ _).trans (logFault_frame _ _).buffer)
    · exact stopped _

theorem assignChannel_buffer (i : FileIx) (s : State) : BufferKept s (assignChannel i s) := by
  unfold assignChannel
  split
  · exact .refl s
  split
  · split
    · exact (logFault_frame _ s).buffer
    · exact .of_eq rfl rfl rfl rfl
  · exact .refl s

theorem startFile_buffer (i : FileIx) (f : FileRec) (countIt : Bool) (s : State) :
    BufferKept s (startFile i f countIt s) := by
  have queued : BufferKept s (queueOpens i f (writeRecord i f s)) :=
    BufferKept.after (t := writeRecord i f s) (.foldl _ (fun s d => enqueue_buffer d _ s rfl) _ _) rfl rfl rfl rfl
  have assembled : ∀ u, BufferKept u (startAssembly i u) := fun u => .of_eq rfl rfl rfl rfl
  exact queued.trans ((assembled _).trans ((assignChannel_buffer i _).trans ((modCard_buffer _ _ _).trans
    ((checkStalls_buffer _).trans ((reeval_frame _ _).buffer.trans (reportOpen_buffer i _))))))

theorem refuseOpen_buffer (cls : FaultClass) (c : CardIx) (number : Nat) (s : State) :
    BufferKept s (refuseOpen cls c number s) := (logCardFile_buffer _ _ _ _ s).trans (modCard_buffer _ _ _)

theorem takeOpen_buffer (l : SrcLink) (g : Segment) (s : State) : BufferKept s (takeOpen l g s) := by
  unfold takeOpen
  split
  · exact loseOne_buffer _ s
  split
  · split
    · exact .refl s
    · unfold decideOpen
      dsimp only
      split
      · exact refuseOpen_buffer _ _ _ s
      split
      · exact refuseOpen_buffer _ _ _ s
      split
      · split
        · exact .refl s
        · exact startFile_buffer _ _ _ s
      · split
        · exact refuseOpen_buffer _ _ _ s
        · exact startFile_buffer _ _ _ s
  · exact refuseOpen_buffer _ _ _ s

theorem checkSize_buffer (i : FileIx) (s : State) : BufferKept s (checkSize i s) := by
  unfold checkSize
  split
  · exact .refl s
  split
  · split
    · exact (logFault_frame _ s).buffer
    · exact .refl s
  · exact .refl s

theorem queueCloses_buffer (i : FileIx) (s : State) : BufferKept s (queueCloses i s) := by
  unfold queueCloses
  split
  · exact .refl s
  · exact .foldl _ (fun s d => enqueue_buffer d _ s rfl) _ s

theorem reevalFile_buffer (i : FileIx) (s : State) : BufferKept s (reevalFile i s) := by
  unfold reevalFile
  split
  · exact .refl s
  · exact (reeval_frame _ s).buffer

theorem lastSegment_buffer (i : FileIx) (s : State) : BufferKept s (lastSegment i s) := by
  have closed : BufferKept s (modFile i FileRec.finalise (closeAtLast i s)) :=
    (closeAtLast_reading s).buffer.trans (.of_eq rfl rfl rfl rfl)
  exact closed.trans ((checkSize_buffer i _).trans ((queueCloses_buffer i _).trans
    ((leaveStreaming_buffer i _ _).trans ((endFollowLast_buffer _ 0 _).trans ((endFollowLast_buffer _ 1 _).trans
      ((reevalFile_buffer i _).trans (settleFile_frame i _).buffer))))))

/-- R35, R36: a data segment is taken; entries may point at its slot until its processing ends. -/
theorem takeData_law (l : SrcLink) (g : Segment) {s : State} (h : BufferLaw none s) :
    BufferLaw (some l) (takeData l g s) := by
  have busy : BufferLaw (some l) s := h.mono fun _ hb => by cases hb
  unfold takeData
  split
  · exact loseOne_buffer _ s _ busy
  split
  · exact busy
  split
  · exact logCardFile_buffer _ _ _ _ s _ busy
  next i _ =>
  split
  · next f slot _ head =>
    split
    · refine checkStalls_buffer _ _ ?_
      split
      · have bytes : BufferLaw (some l) (if g.payload = [] then s else acceptBytes l i slot f g s) := by
          split
          · exact busy
          · exact acceptBytes_law h head i f g
        unfold acceptData
        dsimp only
        split
        · exact lastSegment_buffer i _ _ bytes
        · exact bytes
      · exact breakFile_buffer _ _ s _ busy
    · exact logCardFile_buffer _ _ _ _ s _ busy
  · exact busy

/-- R12: the head of a link is taken, and its processing ends. -/
theorem takeHead_law {l : SrcLink} {kind : Segment → Bool} {f : Segment → State → State} {s : State}
    (h : BufferLaw none s) (taken : ∀ g, BufferLaw (some l) (f g s)) : BufferLaw none (takeHead l kind f s) := by
  unfold takeHead
  split
  · exact h
  split
  · refine endProcessing_ends ?_
    split
    · exact taken _
    · exact refuseHeader_buffer l _ s _ (h.mono fun _ hb => by cases hb)
  · exact h

/-- R12: the same, where what is done with the segment adds no entry. -/
theorem takeHead_kept_law {l : SrcLink} {kind : Segment → Bool} {f : Segment → State → State} {s : State}
    (kept : ∀ g, BufferKept s (f g s)) (h : BufferLaw none s) : BufferLaw none (takeHead l kind f s) :=
  takeHead_law h fun g => kept g _ (h.mono fun _ hb => by cases hb)

/-! ### Commands (chapter 10) -/

theorem guardBody_buffer (shape : BodyShape) (s : State) (go : Answer) (h : BufferKept s go.after) :
    BufferKept s (guardBody shape s go).after := by
  unfold guardBody
  split
  · split
    · exact .refl s
    · split
      · exact .refl s
      · exact h
  · exact .of_eq rfl rfl rfl rfl

theorem answerHead_buffer (l : SrcLink) (g : Segment) (a : Answer) {s : State} (h : BufferKept s a.after) :
    BufferKept s (answerHead l g a) := h.trans ((queueReply_buffer l _ _).trans (endProcessing_buffer l _))

theorem takeControl_buffer (l : SrcLink) (mine : Segment → Bool) (f : Segment → State → State) (s : State)
    (h : ∀ g, BufferKept s (f g s)) : BufferKept s (takeControl l mine f s) := by
  unfold takeControl
  split
  · exact .refl s
  split
  · split
    · split
      · unfold takeCommand
        split
        · exact .refl s
        split
        · split
          · exact h _
          · exact .refl s
        · exact answerHead_buffer l _ _ (.refl s)
      · exact (loseOne_buffer _ s).trans (endProcessing_buffer l _)
    · exact (refuseHeader_buffer l _ s).trans (endProcessing_buffer l _)
  · exact .refl s

theorem writeEntry_buffer (t : TableName) (k : Nat) (b : Bytes) (s : State) : BufferKept s (writeEntry t k b s) := by
  cases t with
  | partConfig =>
    unfold writeEntry
    dsimp only
    split <;> exact .of_eq rfl rfl rfl rfl
  | _ => exact .of_eq rfl rfl rfl rfl

theorem cmdWriteTable_buffer (b : Bytes) (s : State) : BufferKept s (cmdWriteTable b s).after := by
  unfold cmdWriteTable
  split
  · exact guardBody_buffer _ s _ (.refl s)
  · refine guardBody_buffer _ s _ (.foldl _ (fun s k => ?_) _ s)
    split
    · exact writeEntry_buffer _ _ _ s
    · exact .refl s

theorem readForm_buffer (b : Bytes) (s : State) : BufferKept s (readForm b s).after := by
  unfold readForm
  split
  case h_2 => unfold readFiles; split <;> exact .refl s
  case h_6 =>
    refine ((progressEngine_buffer 0 s).trans (progressEngine_buffer 1 _)).trans ?_
    unfold readEngines Answer.done
    dsimp only
    split
    · exact .same rfl (fun _ => rfl) (fun _ => rfl) fun e => by
        simp only [Fin.getElem_fin, Vector.getElem_map, EngineState.clearSticky]
    · exact .refl _
  all_goals exact .refl s

theorem cmdAckFaults_buffer (b : Bytes) (s : State) : BufferKept s (cmdAckFaults b s).after := by
  unfold cmdAckFaults
  split
  · refine guardBody_buffer _ s _ ?_
    unfold ackByKeys
    dsimp only
    split
    · exact (ackRecords_frame _ s).buffer
    · exact .refl s
  · refine guardBody_buffer _ s _ ?_
    unfold ackByLabel
    dsimp only
    split
    · exact (ackRecords_frame _ s).buffer
    · exact .refl s
  · exact guardBody_buffer _ s _ (.refl s)

theorem onCard_buffer (label : Bytes) (s : State) (f : CardIx → Card → Answer) (h : ∀ c k, BufferKept s (f c k).after) :
    BufferKept s (onCard label s f).after := by
  unfold onCard
  split
  · exact .refl s
  · split
    · exact .refl s
    · exact h _ _

theorem cmdReleaseCard_buffer (b : Bytes) (s : State) : BufferKept s (cmdReleaseCard b s).after := by
  refine guardBody_buffer _ s _ (onCard_buffer _ s _ fun c k => ?_)
  split
  · show BufferKept s (releaseEffect c k s)
    unfold releaseEffect
    dsimp only
    split
    · exact .of_eq rfl rfl rfl rfl
    · exact (offerNotice_frame _ _).buffer.after rfl rfl rfl rfl
  · exact .refl s

theorem clearFile_buffer (i : FileIx) (s : State) : BufferKept s (clearFile i s) :=
  (discardCopies_buffer i s).trans ((releaseChannel_buffer i _).trans (.of_eq rfl rfl rfl rfl))

theorem clearEffect_buffer (c : CardIx) (k : Card) (s : State) : BufferKept s (clearEffect c k s) := by
  have cleared : BufferKept s ((filesOf s c fun _ => true).foldl (fun s i => clearFile i s) s) :=
    .foldl _ (fun s i => clearFile_buffer i s) _ s
  have put : ∀ u, BufferKept u (putCard c none u) := fun _ => .of_eq rfl rfl rfl rfl
  exact cleared.trans ((endFollowsAbort_buffer _ _).trans ((checkStalls_buffer _).trans
    ((logFault_frame _ _).buffer.trans (put _))))

theorem cmdWaiveFile_buffer (b : Bytes) (s : State) : BufferKept s (cmdWaiveFile b s).after := by
  refine guardBody_buffer _ s _ (onCard_buffer _ s _ fun c k => ?_)
  split
  · exact .refl s
  · next i _ =>
    unfold waiveFile
    split
    · exact .refl s
    · next f _ =>
      split
      · have issued : BufferKept s (issueManifest (manifestOf i f true s) s) := by
          unfold issueManifest
          split
          · exact (offerNotice_frame _ s).buffer
          · exact .refl s
        exact issued.trans (.of_eq rfl rfl rfl rfl)
      · exact .refl s

theorem cmdDestQuarantine_buffer (b : Bytes) (s : State) : BufferKept s (cmdDestQuarantine b s).after := by
  refine guardBody_buffer _ s _ ?_
  unfold quarantineCommand
  split
  · exact .refl s
  · dsimp only [Answer.done]
    exact enterQuarantine_buffer .byCommand (destArg b) s

theorem cmdDestRestore_buffer (b : Bytes) (s : State) : BufferKept s (cmdDestRestore b s).after := by
  refine guardBody_buffer _ s _ ?_
  unfold restoreCommand
  split
  · exact modDest_buffer _ _ s fun _ => rfl
  · exact .refl s

theorem cmdTestFrame_buffer (b : Bytes) (s : State) : BufferKept s (cmdTestFrame b s).after := by
  refine guardBody_buffer _ s _ ?_
  unfold testCommand
  split
  · exact .of_eq rfl rfl rfl rfl
  · exact .refl s

theorem evaluateTest_buffer (c : Channel) (s : State) : BufferKept s (evaluateTest c s) := by
  unfold evaluateTest
  split
  · dsimp only
    split
    · exact (evalProbes_frame _ _ _ s).buffer.trans (modChannel_buffer _ _ _)
    · exact (evalProbes_frame _ _ _ s).buffer.trans (modChannel_buffer _ _ _)
  · exact .refl s

/-! ### Source links and resets (chapters 1 and 10) -/

theorem resetSource_buffer (l : SrcLink) (keepHead : Bool) (s : State) : BufferKept s (resetSource l keepHead s) := by
  have notices : ∀ u, BufferKept u (dropNotices l u) := fun u => by
    rw [dropNotices_eq]
    exact .of_eq rfl rfl rfl rfl
  have cleared : BufferKept s (emptied l keepHead s) := by
    unfold emptied
    exact ((modSrc_buffer l SrcPort.reset s rfl).trans (notices _)).trans (discardArrivals_buffer l keepHead _)
  rw [resetSource_eq]
  exact cleared.trans ((abortStreaming_buffer _ _).trans (checkStalls_buffer _))

theorem cmdLinkReset_buffer (l : SrcLink) (b : Bytes) (s : State) : BufferKept s (cmdLinkReset l b s).after := by
  refine guardBody_buffer _ s _ ?_
  show BufferKept s (linkReset l (fieldAt b 0 1) s)
  unfold linkReset
  split
  · exact resetSource_buffer _ _ s
  · exact resetDest_buffer _ s

theorem overrunAt_buffer (l : SrcLink) (s : State) : BufferKept s (overrunAt l s) := by
  unfold overrunAt
  dsimp only
  split
  · exact loseOne_buffer _ s
  · exact (loseOne_buffer _ s).trans ((modSrc_buffer l _ _ rfl).trans (logFault_frame _ _).buffer)

theorem startReturn_buffer (l : SrcLink) (s : State) : BufferKept s (startReturn l s) := by
  have begins : ∀ k wire t, BufferKept t (beginReturn l k wire t) := fun _ _ t => modSrc_buffer l _ t rfl
  unfold startReturn
  dsimp only
  split
  · split
    · exact (modSrc_buffer l _ s rfl).trans (begins _ _ _)
    split
    · exact begins _ _ s
    split
    · exact (begins _ _ _).after rfl rfl rfl rfl
    · exact .refl s
  · exact .refl s

theorem endReturn_buffer (l : SrcLink) (s : State) : BufferKept s (endReturn l s) := by
  unfold endReturn
  split
  · exact .refl s
  · refine BufferKept.trans ?_ (modSrc_buffer l _ _ rfl)
    unfold returnSent
    split
    · exact .refl s
    · exact modSrc_buffer l _ s rfl
    · exact .of_eq rfl rfl rfl rfl

theorem softStopFile_buffer (i : FileIx) (s : State) : BufferKept s (softStopFile i s) := by
  unfold softStopFile
  split
  · exact .refl s
  split
  · exact discardCopies_buffer i s
  · exact .foldl _ (fun s d => cancelTimer_buffer i d s) _ s
  · exact .refl s

theorem softEmpty_buffer (d : Dest) (s : State) : BufferKept s (softEmpty d s) := by
  have queue : ∀ p : DestPort, p.noResendUnlessHalt.queue = p.queue := fun p => by
    unfold DestPort.noResendUnlessHalt
    split <;> rfl
  exact (purgeWaiting_buffer d _ s).trans (modDest_buffer d _ _ fun i => congrArg (queueRefs i) (queue _))

/-- R103: the ABORTs that join point at no slot. -/
theorem softAborts_buffer (d : Dest) (s : State) : BufferKept s (softAborts d s) := by
  refine modDest_buffer d _ s fun i => ?_
  split
  · rw [queueRefs_append, queueRefs_noSlots (q := s.dest[d].openSet.map .abort), Nat.add_zero]
    intro e he
    obtain ⟨t, -, rfl⟩ := List.mem_map.mp he
    rfl
  · rfl

theorem softReset_buffer (s : State) : BufferKept s (softReset s) := by
  unfold softReset
  dsimp only
  have arrivals := BufferKept.foldl (fun s l => dropArrivals l s) (fun s l => dropArrivals_buffer l s) (List.finRange 4)
  have files := BufferKept.foldl (fun s i => softStopFile i s) (fun s i => softStopFile_buffer i s) (List.finRange 512)
  have queues := BufferKept.foldl (fun s d => softEmpty d s) (fun s d => softEmpty_buffer d s) (List.finRange 6)
  have aborts := BufferKept.foldl (fun s d => softAborts d s) (fun s d => softAborts_buffer d s) (List.finRange 6)
  have tables : ∀ u, BufferKept u (freeTables (freeChannels u)) := fun u => .of_eq rfl rfl rfl rfl
  exact (arrivals s).trans ((files _).trans ((queues _).trans ((softResetEngine_buffer 0 _).trans
    ((softResetEngine_buffer 1 _).trans ((aborts _).trans ((tables _).trans (checkStalls_buffer _)))))))

theorem runSoftReset_buffer (l : SrcLink) (g : Segment) (s : State) : BufferKept s (runSoftReset l g s) := by
  have answered := answerHead_buffer l g (guardBody (emptyShape g.payload) s (.done [] s))
    (guardBody_buffer _ s _ (.refl s))
  unfold runSoftReset
  dsimp only
  split
  · exact answered.trans (softReset_buffer _)
  · exact answered

theorem powerOn_law (adr : BitVec 7) (s : State) : BufferLaw none (powerOn adr s) :=
  (BufferKept.of_eq (s := State.reset) (t := powerOn adr s) rfl rfl rfl rfl) _ (bufferLaw_none.mpr slotLaw_reset)

/-! ### The step -/

/-- A step of the live part keeps the law where what it does to a part that is not held in reset does. -/
theorem live_law {s t : State} {f : State → Host.Outcome State Fault Refusal} (h : BufferLaw none s)
    (hf : ∀ u, f s = .next u → BufferLaw none u) (e : live s f = .next t) : BufferLaw none t := by
  unfold live at e
  split at e
  · cases e; exact h
  · exact hf t e

/-- The same, for a step that always has a next state. -/
theorem live_next_law {s t : State} {f : State → State} (h : BufferLaw none s) (hf : BufferLaw none (f s))
    (e : (live s fun s => .next (f s)) = .next t) : BufferLaw none t :=
  live_law h (fun u k => by cases k; exact hf) e

theorem runCommand_law {l : SrcLink} {mine : Segment → Bool} {cmd : Bytes → State → Answer} {s t : State}
    (h : BufferLaw none s) (kept : ∀ b, BufferKept s (cmd b s).after) (e : runCommand l mine cmd s = .next t) :
    BufferLaw none t :=
  live_next_law (f := takeControl l mine fun g s => answerHead l g (cmd g.payload s)) h
    (takeControl_buffer l mine _ s (fun g => answerHead_buffer l g _ (kept _)) _ h) e

theorem execSegmentArrival_law {l : SrcLink} {wire : Bytes} {s t : State} (h : BufferLaw none s)
    (e : execSegmentArrival l wire s = .next t) : BufferLaw none t := by
  refine live_law h (fun t e => ?_) e
  split at e
  · cases e; exact h
  split at e
  · split at e
    · cases e; exact overrunAt_buffer l s _ h
    · split at e
      · cases e
      · next i hi =>
        cases e
        exact acceptSegment_buffer l i _ s (by simpa using firstIx_sound hi) _ h
  · cases e; exact h

/-- A live step whose change of state keeps the law. -/
theorem live_kept_law {s t : State} {f : State → State} (h : BufferLaw none s) (kept : BufferKept s (f s))
    (e : (live s fun s => .next (f s)) = .next t) : BufferLaw none t := live_next_law h (kept _ h) e

theorem exec_law (c : Instr) (s t : State) (h : BufferLaw none s) (e : exec c s = .next t) : BufferLaw none t := by
  have setState : ∀ l st u, BufferKept u (setSrcState l st u) := fun l st u => modSrc_buffer l _ u rfl
  cases c with
  | powerOnReset adr => cases e; exact powerOn_law adr s
  | resetNHeldLow => cases e; exact (BufferKept.of_eq (s := s) (t := { s with resetLow := true }) rfl rfl rfl rfl) _ h
  | sourcePartnerDetected l =>
    refine live_kept_law h ?_ e
    split
    · exact setState _ _ s
    · exact .refl s
  | sourceAlignmentAchieved l =>
    refine live_kept_law h ?_ e
    split
    · exact modSrc_buffer l _ s rfl
    · exact .refl s
  | sourceLossOfAlignment l =>
    refine live_kept_law h ?_ e
    split
    · exact resetSource_buffer l _ s
    · exact .refl s
  | sourcePartnerLost l =>
    unfold exec execSourcePartnerLost at e
    refine live_law h (fun u k => ?_) e
    cases k
    split
    · exact h
    · exact setState _ _ s _ h
    · exact ((resetSource_buffer l _ s).trans (setState _ _ _)) _ h
  | segmentArrival l wire => exact execSegmentArrival_law h e
  | returnItemStart l => exact live_kept_law h (startReturn_buffer l s) e
  | returnItemEndGood l => exact live_kept_law h (endReturn_buffer l s) e
  | mount l => exact live_next_law h (takeHead_kept_law (fun g => takeMount_buffer l g s) h) e
  | unmount l => exact live_next_law h (takeHead_kept_law (fun g => takeUnmount_buffer l g s) h) e
  | cardEnd l => exact live_next_law h (takeHead_kept_law (fun g => takeCardEnd_buffer l g s) h) e
  | openFile l => exact live_next_law h (takeHead_kept_law (fun g => takeOpen_buffer l g s) h) e
  | essence l => exact live_next_law h (takeHead_law h fun g => takeData_law l g h) e
  | preview l => exact live_next_law h (takeHead_law h fun g => takeData_law l g h) e
  | metaRecord l => exact live_next_law h (takeHead_law h fun g => takeData_law l g h) e
  | unknownKindSegment l => exact live_next_law h (takeHead_kept_law (fun _ => .refl s) h) e
  | entryStart x => exact live_kept_law h (startEntry_buffer x s) e
  | entryCompletion x => exact live_kept_law h (completeEntry_buffer x s) e
  | destPartnerDetected d =>
    unfold exec execDestPartnerDetected at e
    refine live_law h (fun u k => ?_) e
    cases k
    exact modDest_buffer d _ s (fun _ => rfl) _ h
  | announce d wire =>
    unfold exec execAnnounce at e
    refine live_law h (fun u k => ?_) e
    cases k
    split
    · exact h
    split
    · exact ((modDest_buffer d _ s fun i => congrArg (queueRefs i) (DestPort.achieve_queue _ _)).trans
        (checkStall_buffer d _)) _ h
    · exact h
  | destLossOfAlignment d => exact live_kept_law h (loseAlignment_buffer d s) e
  | destPartnerLost d =>
    unfold exec execDestPartnerLost at e
    refine live_law h (fun u k => ?_) e
    cases k
    exact ((loseAlignment_buffer d s).trans (modDest_buffer d _ _ fun _ => rfl)) _ h
  | retrainTimerExpiry d =>
    have train : ∀ u, BufferKept u (modDest d DestPort.train u) := fun u => modDest_buffer d _ u fun _ => rfl
    refine live_kept_law h ?_ e
    split
    · exact (downProcedure_buffer d s).trans (train _)
    · exact .refl s
  | destTransmissionStart d =>
    unfold exec execDestTransmissionStart at e
    refine live_law h (fun u k => ?_) e
    cases k
    split
    · exact h
    split
    · exact startTransmission_buffer d _ s _ h
    · exact checkStall_buffer d s _ h
  | destTransmissionEndGood d => exact live_kept_law h (endTransmission_buffer d s) e
  | credit d wire => exact live_kept_law h (takeInbound_buffer _ d wire _ s fun m => takeCreditMessage_buffer d m s) e
  | verify d wire => exact live_kept_law h (takeInbound_buffer _ d wire _ s fun m => takeVerify_buffer d m s) e
  | writeError d wire => exact live_kept_law h (takeInbound_buffer _ d wire _ s fun m => takeWriteError_buffer d m s) e
  | unknownDestMessage d wire => exact live_kept_law (f := id) h (.refl s) e
  | verifyTimerExpiry d f => exact live_kept_law h (expireTimer_buffer f d s) e
  | identify l => exact runCommand_law h (fun b => guardBody_buffer _ s _ (.refl s)) e
  | writeTable l => exact runCommand_law h (fun b => cmdWriteTable_buffer b s) e
  | readTable l => exact runCommand_law h (fun b => guardBody_buffer _ s _ (.refl s)) e
  | readState l => exact runCommand_law h (fun b => guardBody_buffer _ s _ (readForm_buffer b s)) e
  | readFaults l => exact runCommand_law h (fun b => guardBody_buffer _ s _ (.refl s)) e
  | ackFaultsKeys l => exact runCommand_law h (fun b => cmdAckFaults_buffer b s) e
  | ackFaultsLabel l => exact runCommand_law h (fun b => cmdAckFaults_buffer b s) e
  | waiveLoss l =>
    exact runCommand_law h (fun b => guardBody_buffer _ s _ (onCard_buffer _ s _ fun c k => .of_eq rfl rfl rfl rfl)) e
  | releaseCard l => exact runCommand_law h (fun b => cmdReleaseCard_buffer b s) e
  | clearCard l =>
    refine runCommand_law h (fun b => guardBody_buffer _ s _ (onCard_buffer _ s _ fun c k => ?_)) e
    exact clearEffect_buffer c k s
  | waiveFile l => exact runCommand_law h (fun b => cmdWaiveFile_buffer b s) e
  | destQuarantine l => exact runCommand_law h (fun b => cmdDestQuarantine_buffer b s) e
  | destRestore l => exact runCommand_law h (fun b => cmdDestRestore_buffer b s) e
  | reviewSelect l =>
    refine runCommand_law h (fun b => guardBody_buffer _ s _ ?_) e
    dsimp only [selectCommand, Answer.done]
    exact takeSelection_buffer _ _ s
  | setCounterEvents l => exact runCommand_law h (fun b => guardBody_buffer _ s _ (.of_eq rfl rfl rfl rfl)) e
  | readCounters l => exact runCommand_law h (fun b => guardBody_buffer _ s _ (.of_eq rfl rfl rfl rfl)) e
  | testFrame l => exact runCommand_law h (fun b => cmdTestFrame_buffer b s) e
  | testFrameEvaluation ch => exact live_kept_law h (evaluateTest_buffer ch s) e
  | linkResetSource l => exact runCommand_law h (fun b => cmdLinkReset_buffer l b s) e
  | linkResetDest l => exact runCommand_law h (fun b => cmdLinkReset_buffer l b s) e
  | softReset l => exact live_kept_law h (takeControl_buffer l _ _ s fun g => runSoftReset_buffer l g s) e

/-- Settles O6: entries leave the queues with their references and join with them while their segment is in processing,
so that the law of the Slot Buffer passes through every command. -/
theorem slotLawKept : Obligations.SlotLawKept := by
  intro s t law e
  have h := bufferLaw_none.mpr law
  refine bufferLaw_none.mp ?_
  unfold step at e
  split at e
  · cases e; exact h
  · next c rest _ =>
    exact exec_law c _ t ((BufferKept.of_eq (s := s) (t := { s with pending := rest }) rfl rfl rfl rfl) _ h) e

end Sys2Proof.Machine
end

