-- ==== Sys2Proof/Proofs/Digest.lean ====
section
/-! PROOF. R64 to R68: the sums of a digest are a run over the bytes, the carried ones first, that can be stopped and
taken up again at every byte. Settles O57. -/

namespace Sys2Proof.Machine

open Sys2Proof

/-! ### The number in bytes (R211) -/

theorem leNat_four (b0 b1 b2 b3 : Byte) :
    leNat [b0, b1, b2, b3] = b0.toNat + 256 * b1.toNat + 65536 * b2.toNat + 16777216 * b3.toNat := by
  simp only [leNat]; omega

/-- Zero bytes in the upper positions do not change a number. -/
theorem leNat_append_zeros (bytes : Bytes) (n : Nat) : leNat (bytes ++ List.replicate n 0) = leNat bytes := by
  induction bytes with
  | nil =>
    induction n with
    | zero => rfl
    | succ n ih => simpa [List.replicate_succ, leNat] using ih
  | cons b rest ih => rw [List.cons_append, leNat, leNat, ih]

/-! ### The run (R66) -/

theorem Sums.run_word (x : Sums) (b0 b1 b2 b3 : Byte) (rest : Bytes) :
    x.run (b0 :: b1 :: b2 :: b3 :: rest) = (x.word (leNat [b0, b1, b2, b3])).run rest := rfl

theorem Sums.run_short (x : Sums) {left : Bytes} (short : left.length < 4) :
    x.run left = { x with carried := left } := by
  match left, short with
  | [], _ | [_], _ | [_, _], _ | [_, _, _], _ => rfl
  | _ :: _ :: _ :: _ :: _, short => simp at short; omega

/-- A run is whole words, and then fewer than four bytes. -/
theorem Sums.run_induction {P : Sums → Bytes → Prop}
    (short : ∀ x (left : Bytes), left.length < 4 → P x left)
    (word : ∀ (x : Sums) b0 b1 b2 b3 rest, P (x.word (leNat [b0, b1, b2, b3])) rest →
      P x (b0 :: b1 :: b2 :: b3 :: rest)) : ∀ x bytes, P x bytes
  | x, b0 :: b1 :: b2 :: b3 :: rest => word x b0 b1 b2 b3 rest (run_induction short word _ rest)
  | x, [] | x, [_] | x, [_, _] | x, [_, _, _] => short x _ (by simp)

theorem Sums.run_carried_length (x : Sums) (bytes : Bytes) : (x.run bytes).carried.length < 4 := by
  induction x, bytes using Sums.run_induction with
  | short x left few => rwa [run_short x few]
  | word x b0 b1 b2 b3 rest ih => rwa [run_word]

/-- What a run starts from is the two sums: the carried bytes enter it as its first bytes alone. -/
theorem Sums.run_with_carried (x : Sums) (carried bytes : Bytes) :
    Sums.run { x with carried := carried } bytes = x.run bytes := by
  induction x, bytes using Sums.run_induction with
  | short x left few => rw [run_short _ few, run_short _ few]
  | word x b0 b1 b2 b3 rest ih => exact ih

/-- A run stopped at any byte and advanced over the rest is the run over all of them. -/
theorem Sums.advance_run (x : Sums) (bytes more : Bytes) : (x.run bytes).advance more = x.run (bytes ++ more) := by
  induction x, bytes using Sums.run_induction with
  | short x left few => rw [run_short x few, advance, run_with_carried]
  | word x b0 b1 b2 b3 rest ih => exact ih

theorem Sums.word_below (x : Sums) (w : Nat) :
    (x.word w).a < Config.modulus ∧ (x.word w).b < Config.modulus :=
  have positive : 0 < Config.modulus := by decide
  ⟨Nat.mod_lt _ positive, Nat.mod_lt _ positive⟩

theorem Sums.run_below (x : Sums) (bytes : Bytes) (below : x.a < Config.modulus ∧ x.b < Config.modulus) :
    (x.run bytes).a < Config.modulus ∧ (x.run bytes).b < Config.modulus := by
  induction x, bytes using Sums.run_induction with
  | short x left few => rwa [run_short x few]
  | word x b0 b1 b2 b3 rest ih => exact ih (x.word_below _)

/-! ### The advance and the finalisation (R66, R68) -/

/-- R64: what four bytes do to sums that carry none. -/
theorem Sums.advance_four (x : Sums) (b0 b1 b2 b3 : Byte) (empty : x.carried = []) :
    x.advance [b0, b1, b2, b3] = x.word (leNat [b0, b1, b2, b3]) := by
  rw [advance, empty, List.nil_append, run_word, run_short _ (by simp)]
  exact congrArg (Sums.mk _ _) empty.symm

/-- A run of exactly one word. -/
theorem Sums.run_one_word (x : Sums) {bytes : Bytes} (four : bytes.length = 4) :
    x.run bytes = { x.word (leNat bytes) with carried := [] } := by
  match bytes, four with
  | [b0, b1, b2, b3], _ => rfl

/-- R68: the carried bytes are completed with zero bytes to one word. -/
theorem Sums.finalise_of_carried (x : Sums) (few : x.carried.length < 4) (held : x.carried ≠ []) :
    x.finalise = x.advance (List.replicate (4 - x.carried.length) 0) := by
  have four : (x.carried ++ List.replicate (4 - x.carried.length) 0).length = 4 := by simp; omega
  rw [finalise, if_neg held, advance, run_one_word x four, leNat_append_zeros]

/-- Settles O57: an advance is a run, and a run can be cut at every byte. -/
theorem digestIgnoresCuts : Obligations.DigestIgnoresCuts := by
  intro x a b few
  refine ⟨?wordStep, fun short => x.run_short short, ?cuts, x.run_carried_length _, fun empty => if_pos empty,
    x.finalise_of_carried few, rfl, fun ha hb => x.run_below _ ⟨ha, hb⟩⟩
  case wordStep =>
    intro w0 w1 w2 w3 sum empty hsum
    rw [← leNat_four] at hsum
    rw [x.advance_four w0 w1 w2 w3 empty, hsum, ← empty]
    rfl
  case cuts =>
    calc (x.advance a).advance b = x.run (x.carried ++ a ++ b) := x.advance_run _ b
      _ = x.advance (a ++ b) := by rw [List.append_assoc]; rfl

end Sys2Proof.Machine
end

