-- ==== Sys2Proof/Proofs/Holdings.lean ====
section
/-! PROOF. What destinations and channels hold (R92, R151): the two laws in the terms of what they look at, the relation
`Unmoved` for what they do not see, and the relation `HoldingsKept`, with the ways to meet it. -/

namespace Sys2Proof.Machine

open Sys2Proof

/-! ### The laws -/

/-- R92: the states in which a destination holds no work. -/
def DestPort.Resting (p : DestPort) : Prop := p.state = .down ∨ p.state = .training ∨ p.state = .quarantined

/-- R92: nothing waits but HALTs, and what is in transmission is a HALT or is not sent again. -/
structure DestPort.Quiet (p : DestPort) : Prop where
  waiting : ∀ e ∈ p.waiting, e = .halt
  sending : ∀ x e, p.tx = some x → p.queue.head? = some e → e = .halt ∨ x.noResend = true

theorem copyAt_some {i : FileIx} {d : Dest} {f : FileRec} {s : State} (h : s.files[i].file = some f) :
    copyAt i d s = f.copies[d] := by
  unfold copyAt
  rw [h]
  rfl

theorem copyAt_none {i : FileIx} {d : Dest} {s : State} (h : s.files[i].file = none) : copyAt i d s = .none_ := by
  unfold copyAt
  rw [h]
  rfl

theorem quietLaw_iff {s : State} : QuietLaw s ↔
    ∀ d : Dest, s.dest[d].Resting → s.dest[d].Quiet ∧ ∀ j, (copyAt j d s).unsettled = false := by
  refine forall_congr' fun d => forall_congr' fun _ => ⟨fun ⟨waits, sends, settled⟩ => ⟨⟨waits, sends⟩, fun j => ?_⟩,
    fun ⟨quiet, settled⟩ => ⟨quiet.waiting, quiet.sending, fun j f hf => ?_⟩⟩
  · cases h : s.files[j].file with
    | none => rw [copyAt_none h]; rfl
    | some f => rw [copyAt_some h]; exact settled j f h
  · rw [← copyAt_some hf]
    exact settled j

/-- R92: a copy is unsettled on a destination that may work alone. -/
theorem QuietLaw.working {s : State} (law : QuietLaw s) {j : FileIx} {d : Dest} (h : (copyAt j d s).unsettled = true) :
    ¬ s.dest[d].Resting := fun rests =>
  Bool.false_ne_true (((quietLaw_iff.mp law d rests).2 j).symm.trans h)

/-- R151: the file a channel serves. -/
def ChannelRec.owner (k : ChannelRec) : Option Owner :=
  match k.state with
  | .file o => some o
  | _ => none

theorem ChannelRec.owner_some {k : ChannelRec} {o : Owner} : k.owner = some o ↔ k.state = .file o := by
  unfold owner
  split
  · next h => rw [h, Option.some.injEq, ChannelState.file.injEq]
  · next h => exact ⟨fun no => absurd no (Option.some_ne_none o).symm, fun e => absurd e (h o)⟩

/-- R151: the channel a file record names. -/
def channelAt (j : FileIx) (s : State) : Option Channel := s.files[j].file.bind FileRec.channel

theorem channelAt_some {j : FileIx} {c : Channel} {s : State} :
    channelAt j s = some c ↔ ∃ f, s.files[j].file = some f ∧ f.channel = some c := Option.bind_eq_some_iff

/-- R151: what the law of the channels looks at in a file record. -/
def FileRec.claim (f : FileRec) : Nat × FileState × Option Channel := (f.number, f.state, f.channel)

theorem channelLaw_iff {s : State} : ChannelLaw s ↔
    (∀ (j : FileIx) (f : FileRec) (c : Channel), s.files[j].file = some f → f.channel = some c → f.state = .streaming ∧
      ∃ o, s.channels[c].owner = some o ∧ o.tid = tidOf j s ∧ o.file = f.number) ∧
    ∀ (c : Channel) (o : Owner), s.channels[c].owner = some o →
      o.tid = tidOf o.tid.index s ∧ channelAt o.tid.index s = some c := by
  simp only [ChannelRec.owner_some]
  refine and_congr Iff.rfl (forall_congr' fun c => forall_congr' fun o => forall_congr' fun _ => ?_)
  rw [channelAt_some]
  constructor
  · rintro ⟨f, hf, hc⟩
    exact ⟨by rw [tidOf, hf], f, by rw [hf], hc⟩
  · rintro ⟨tid, f, hf, hc⟩
    have gen : o.tid.gen = s.files[o.tid.index].gen := congrArg Tid.gen tid
    exact ⟨f, by rw [gen, ← hf], hc⟩

/-- R26, R151: a file that is not STREAMING names no channel. -/
theorem ChannelLaw.none_named {s : State} (law : ChannelLaw s) {j : FileIx} {f : FileRec} (h : s.files[j].file = some f)
    (idle : f.state ≠ .streaming) : channelAt j s = none :=
  Option.eq_none_iff_forall_ne_some.mpr fun c hc => by
    obtain ⟨f', hf', hc'⟩ := channelAt_some.mp hc
    cases h.symm.trans hf'
    exact idle (law.1 j f c h hc').1

/-! ### What the laws do not see -/

/-- R74: what the law of the quiet destinations looks at in a destination's record. -/
def DestPort.traffic (p : DestPort) : DestState × List QEntry × Option DestTx := (p.state, p.queue, p.tx)

/-- Nothing has changed that the two laws look at, but for copies that have settled or moved on. -/
structure Unmoved (s t : State) : Prop where
  traffic : ∀ d : Dest, t.dest[d].traffic = s.dest[d].traffic
  copies : ∀ j d, (copyAt j d t).unsettled = true → (copyAt j d s).unsettled = true
  gen : ∀ j : FileIx, t.files[j].gen = s.files[j].gen
  claim : ∀ j : FileIx, t.files[j].file.map FileRec.claim = s.files[j].file.map FileRec.claim
  owner : ∀ c : Channel, t.channels[c].owner = s.channels[c].owner

section
variable {s t u : State}

theorem Unmoved.refl (s : State) : Unmoved s s :=
  ⟨fun _ => rfl, fun _ _ => id, fun _ => rfl, fun _ => rfl, fun _ => rfl⟩

theorem Unmoved.trans (h : Unmoved s t) (k : Unmoved t u) : Unmoved s u where
  traffic d := (k.traffic d).trans (h.traffic d)
  copies j d := h.copies j d ∘ k.copies j d
  gen j := (k.gen j).trans (h.gen j)
  claim j := (k.claim j).trans (h.claim j)
  owner c := (k.owner c).trans (h.owner c)

theorem Unmoved.same (dest : t.dest = s.dest) (files : t.files = s.files) (channels : t.channels = s.channels) :
    Unmoved s t where
  traffic d := by rw [dest]
  copies j d := by unfold copyAt; rw [files]; exact id
  gen j := by rw [files]
  claim j := by rw [files]
  owner c := by rw [channels]

/-- What leaves the destinations, the files and the channels may come first. -/
theorem Unmoved.after (k : Unmoved t u) (dest : t.dest = s.dest) (files : t.files = s.files)
    (channels : t.channels = s.channels) : Unmoved s u := (Unmoved.same dest files channels).trans k

theorem Unmoved.foldl {α : Type} (f : State → α → State) (h : ∀ s a, Unmoved s (f s a)) (as : List α) (s : State) :
    Unmoved s (as.foldl f s) := foldl_keeps Unmoved Unmoved.refl (fun _ _ _ => Unmoved.trans) f h as s

theorem SlotsOnly.unmoved (h : SlotsOnly s t) : Unmoved s t := .same h.dest h.files h.channels

theorem LogOnly.unmoved (h : LogOnly s t) : Unmoved s t := .same h.dest h.files h.channels

theorem EnginesOnly.unmoved (h : EnginesOnly s t) : Unmoved s t := .same h.dest h.files h.channels

/-- A stall flag holds nothing. -/
theorem StallsRise.unmoved (h : StallsRise s t) (frame : StallOnly s t) : Unmoved s t :=
  { Unmoved.same (s := s) (t := { s with channels := t.channels }) rfl rfl frame.channels with
    traffic := fun d => by rw [h.dest d]; rfl
    copies := fun j d => by unfold copyAt; rw [frame.files]; exact id
    gen := fun j => by rw [frame.files]
    claim := fun j => by rw [frame.files] }

/-- A file record changed in what the laws do not look at. -/
theorem modFile_unmoved (i : FileIx) (f : FileRec → FileRec) (s : State) (claim : ∀ k, (f k).claim = k.claim)
    (copies : ∀ k, s.files[i].file = some k → ∀ d : Dest,
      (f k).copies[d].unsettled = true → k.copies[d].unsettled = true) : Unmoved s (modFile i f s) where
  traffic _ := rfl
  copies j d h := by
    unfold copyAt at h ⊢
    rw [modFile_files, vmod_get] at h
    split at h
    · next e =>
      cases hk : s.files[i].file with
      | none => rw [hk] at h; cases h
      | some k => rw [hk] at h; rw [e, hk]; exact copies k hk d h
    · exact h
  gen j := by
    rw [modFile_files, vmod_get]
    split
    · next e => rw [e]
    · rfl
  claim j := by
    rw [modFile_files, vmod_get]
    split
    · next e => rw [e, Option.map_map]; exact congrArg (fun g => s.files[i].file.map g) (funext claim)
    · rfl
  owner _ := rfl

theorem modAssembly_unmoved (i : FileIx) (f : Assembly → Assembly) (s : State) : Unmoved s (modAssembly i f s) :=
  modFile_unmoved i _ s (fun _ => rfl) fun _ _ _ => id

/-- R27: a copy that was unsettled before, or is not any more. -/
theorem setCopy_unmoved (i : FileIx) (d : Dest) (x : CopyState) (s : State)
    (h : x.unsettled = true → (copyAt i d s).unsettled = true) : Unmoved s (setCopy i d x s) :=
  modFile_unmoved i _ s (fun _ => rfl) fun k hk d' => by
    dsimp only
    rw [vmod_get]
    split
    · next e => rw [e, ← copyAt_some hk]; exact h
    · exact id

theorem failCopy_unmoved (i : FileIx) (d : Dest) (r : FailReason) (vs : List Nat) (s : State) :
    Unmoved s (failCopy i d r vs s) := by
  have failed : Unmoved s (setCopy i d (.failed r) s) := setCopy_unmoved i d _ s fun no => by cases no
  unfold failCopy
  split
  · exact .refl s
  · dsimp only
    split
    · exact failed
    · exact failed.trans (logFault_frame _ _).unmoved

/-- R151: a channel that goes on serving the same file, or none. -/
theorem modChannel_unmoved (c : Channel) (f : ChannelRec → ChannelRec) (s : State)
    (h : (f s.channels[c]).owner = s.channels[c].owner) : Unmoved s (modChannel c f s) :=
  { Unmoved.refl s with
    owner := fun c' => by
      rw [modChannel_channels, vmod_get]
      split
      · next e => rw [h, e]
      · rfl }

/-- R151: the same, of a change that keeps what any channel serves. -/
theorem modChannel_serving (c : Channel) (f : ChannelRec → ChannelRec) (s : State) (h : ∀ k, (f k).owner = k.owner) :
    Unmoved s (modChannel c f s) := modChannel_unmoved c f s (h _)

/-- A destination's record changed in what the laws do not look at. -/
theorem modDest_unmoved (d : Dest) (f : DestPort → DestPort) (s : State)
    (h : (f s.dest[d]).traffic = s.dest[d].traffic) : Unmoved s (modDest d f s) :=
  { Unmoved.refl s with
    traffic := fun d' => by
      rw [modDest_dest, vmod_get]
      split
      · next e => rw [h, e]
      · rfl }

end

/-! ### Keeping the laws -/

/-- R92, R151: both laws hold after, where they held before. -/
structure HoldingsKept (s t : State) : Prop where
  quiet : QuietLaw s → QuietLaw t
  paired : ChannelLaw s → ChannelLaw t

theorem DestPort.Resting.congr {p q : DestPort} (h : p.Resting) (e : q.traffic = p.traffic) : q.Resting := by
  have state : q.state = p.state := congrArg Prod.fst e
  unfold Resting
  rw [state]
  exact h

theorem DestPort.Quiet.congr {p q : DestPort} (h : p.Quiet) (e : q.traffic = p.traffic) : q.Quiet := by
  obtain ⟨state, queue, tx⟩ : q.state = p.state ∧ q.queue = p.queue ∧ q.tx = p.tx := by
    simpa [DestPort.traffic] using e
  refine ⟨?_, ?_⟩
  · unfold DestPort.waiting
    rw [queue, tx]
    exact h.waiting
  · rw [queue, tx]
    exact h.sending

section
variable {s t u : State}

theorem HoldingsKept.refl (s : State) : HoldingsKept s s := ⟨id, id⟩

theorem HoldingsKept.trans (h : HoldingsKept s t) (k : HoldingsKept t u) : HoldingsKept s u :=
  ⟨k.quiet ∘ h.quiet, k.paired ∘ h.paired⟩

theorem HoldingsKept.foldl {α : Type} (f : State → α → State) (h : ∀ s a, HoldingsKept s (f s a)) (as : List α)
    (s : State) : HoldingsKept s (as.foldl f s) :=
  foldl_keeps HoldingsKept HoldingsKept.refl (fun _ _ _ => HoldingsKept.trans) f h as s

theorem Unmoved.kept (h : Unmoved s t) : HoldingsKept s t where
  quiet law := quietLaw_iff.mpr fun d rests => by
    obtain ⟨quiet, settled⟩ := quietLaw_iff.mp law d (rests.congr (h.traffic d).symm)
    exact ⟨quiet.congr (h.traffic d), fun j => Bool.eq_false_iff.mpr fun no =>
      Bool.false_ne_true ((settled j).symm.trans (h.copies j d no))⟩
  paired law := by
    obtain ⟨claims, owners⟩ := channelLaw_iff.mp law
    have tid : ∀ j, tidOf j t = tidOf j s := fun j => congrArg (Tid.mk j) (h.gen j)
    have before : ∀ (j : FileIx) (f : FileRec), t.files[j].file = some f → ∃ f', s.files[j].file = some f' ∧
        f'.claim = f.claim := fun j f hf => by
      have e := h.claim j
      rw [hf] at e
      exact Option.map_eq_some_iff.mp e.symm
    have named : ∀ j, channelAt j t = channelAt j s := fun j => by
      have e := congrArg (Option.bind · fun x : Nat × FileState × Option Channel => x.2.2) (h.claim j)
      simpa [Option.bind_map, Function.comp_def, FileRec.claim, channelAt] using e
    refine channelLaw_iff.mpr ⟨fun j f c hf hc => ?_, fun c o ho => ?_⟩
    · obtain ⟨f', hf', e⟩ := before j f hf
      simp only [FileRec.claim, Prod.mk.injEq] at e
      obtain ⟨number, state, channel⟩ := e
      rw [← number, ← state, h.owner, tid]
      exact claims j f' c hf' (channel.trans hc)
    · rw [h.owner] at ho
      rw [tid, named]
      exact owners c o ho

/-- R92: destinations change, and one that rests has rested before and is quiet. -/
theorem HoldingsKept.of_dest (files : t.files = s.files) (channels : t.channels = s.channels)
    (h : QuietLaw s → ∀ d : Dest, t.dest[d].Resting → s.dest[d].Resting ∧ t.dest[d].Quiet) : HoldingsKept s t where
  quiet law := quietLaw_iff.mpr fun d rests => by
    obtain ⟨rested, quiet⟩ := h law d rests
    refine ⟨quiet, fun j => ?_⟩
    unfold copyAt
    rw [files]
    exact (quietLaw_iff.mp law d rested).2 j
  paired law := by
    unfold ChannelLaw
    rw [files, channels]
    exact law

/-- R92: the same, of one destination. -/
theorem HoldingsKept.of_port (d : Dest) (f : DestPort → DestPort) (files : t.files = s.files)
    (channels : t.channels = s.channels) (dest : ∀ d' : Dest, t.dest[d'] = if d' = d then f s.dest[d] else s.dest[d'])
    (h : QuietLaw s → (f s.dest[d]).Resting → s.dest[d].Resting ∧ (s.dest[d].Quiet → (f s.dest[d]).Quiet)) :
    HoldingsKept s t :=
  .of_dest files channels fun law d' rests => by
    rw [dest] at rests ⊢
    split
    · next e =>
      rw [if_pos e] at rests
      obtain ⟨rested, quiet⟩ := h law rests
      rw [e]
      exact ⟨rested, quiet (quietLaw_iff.mp law d rested).1⟩
    · next e =>
      rw [if_neg e] at rests
      exact ⟨rests, (quietLaw_iff.mp law d' rests).1⟩

theorem modDest_holdings (d : Dest) (f : DestPort → DestPort) (s : State)
    (h : QuietLaw s → (f s.dest[d]).Resting → s.dest[d].Resting ∧ (s.dest[d].Quiet → (f s.dest[d]).Quiet)) :
    HoldingsKept s (modDest d f s) :=
  .of_port d f rfl rfl (fun d' => by rw [modDest_dest, vmod_get]) h

/-- R92: a destination that may work may do so after, whatever its queue. -/
theorem HoldingsKept.of_working (d : Dest) (f : DestPort → DestPort) (files : t.files = s.files)
    (channels : t.channels = s.channels) (dest : ∀ d' : Dest, t.dest[d'] = if d' = d then f s.dest[d] else s.dest[d'])
    (state : (f s.dest[d]).state = s.dest[d].state) (h : QuietLaw s → ¬ s.dest[d].Resting) : HoldingsKept s t :=
  .of_port d f files channels dest fun law rests => by
    unfold DestPort.Resting at rests
    rw [state] at rests
    exact absurd rests (h law)

/-- R26, R151, R154: a file position is left without a channel, and the channel that it named serves no file; it
holds no unsettled copy on a destination that rests. -/
theorem HoldingsKept.of_release (i : FileIx) (dest : t.dest = s.dest)
    (others : ∀ j : FileIx, j ≠ i → t.files[j] = s.files[j]) (none : ChannelLaw s → channelAt i t = none)
    (owner : ChannelLaw s → ∀ c : Channel,
      t.channels[c].owner = if channelAt i s = some c then Option.none else s.channels[c].owner)
    (copies : QuietLaw s → ∀ d : Dest, s.dest[d].Resting → (copyAt i d t).unsettled = false) : HoldingsKept s t where
  quiet law := quietLaw_iff.mpr fun d rests => by
    rw [dest] at rests ⊢
    obtain ⟨quiet, settled⟩ := quietLaw_iff.mp law d rests
    refine ⟨quiet, fun j => ?_⟩
    by_cases e : j = i
    · rw [e]
      exact copies law d rests
    · unfold copyAt
      rw [others j e]
      exact settled j
  paired law := by
    obtain ⟨claims, owners⟩ := channelLaw_iff.mp law
    refine channelLaw_iff.mpr ⟨fun j f c hf hc => ?_, fun c o ho => ?_⟩
    · have ne : j ≠ i := fun e => by
        have named : channelAt i t = some c := e ▸ channelAt_some.mpr ⟨f, hf, hc⟩
        exact Option.some_ne_none c (named.symm.trans (none law))
      rw [others j ne] at hf
      obtain ⟨streaming, o, ho, tid, file⟩ := claims j f c hf hc
      refine ⟨streaming, o, ?_, ?_, file⟩
      · rw [owner law, if_neg fun named => ?_, ho]
        obtain ⟨f', hf', hc'⟩ := channelAt_some.mp named
        obtain ⟨-, o', ho', tid', -⟩ := claims i f' c hf' hc'
        cases ho.symm.trans ho'
        exact ne (congrArg Tid.index (tid.symm.trans tid'))
      · rw [tid, tidOf, tidOf, others j ne]
    · rw [owner law] at ho
      split at ho
      · cases ho
      · next other =>
        obtain ⟨tid, named⟩ := owners c o ho
        have ne : o.tid.index ≠ i := fun e => other (e ▸ named)
        refine ⟨?_, ?_⟩
        · rw [tidOf, others _ ne]
          exact tid
        · rw [channelAt, others _ ne]
          exact named

end

end Sys2Proof.Machine
end

