-- ==== Sys2Proof/Proofs/HoldingsUnmoved.lean ====
section
/-! PROOF. What the laws of the destinations and the channels (R92, R151) do not see: slots and replies, the reading of
pictures and their probes, the look engines, and the stall flags, in the order of their definitions. -/

namespace Sys2Proof.Machine

open Sys2Proof

/-! ### Elementary updates -/

theorem loseOne_unmoved (k : Loss) (s : State) : Unmoved s (loseOne k s) := .same rfl rfl rfl
theorem modCard_unmoved (c : CardIx) (f : Card → Card) (s : State) : Unmoved s (modCard c f s) := .same rfl rfl rfl
theorem modSrc_unmoved (l : SrcLink) (f : SrcPort → SrcPort) (s : State) : Unmoved s (modSrc l f s) := .same rfl rfl rfl
theorem modEngine_unmoved (e : Engine) (f : EngineState → EngineState) (s : State) : Unmoved s (modEngine e f s) :=
  .same rfl rfl rfl

theorem logFault_unmoved (r : FaultRec) (s : State) : Unmoved s (logFault r s) := (logFault_frame r s).unmoved

theorem checkStall_unmoved (d : Dest) (s : State) : Unmoved s (checkStall d s) :=
  (checkStall_rise d s).unmoved (checkStall_frame d s)

theorem checkStalls_unmoved (s : State) : Unmoved s (checkStalls s) :=
  (checkStalls_rise s).unmoved (checkStalls_frame s)

/-! ### Channels and pictures (chapters 6 and 8) -/

theorem reportFlip_unmoved (c : Channel) (p : Fin 8) (dir : FlipDirection) (frame value : Nat) (s : State) :
    Unmoved s (reportFlip c p dir frame value s) := by
  unfold reportFlip
  split
  · exact .same rfl rfl rfl
  · exact (logFault_unmoved _ s).trans (modChannel_serving c _ _ fun _ => rfl)

theorem evalProbe_unmoved (c : Channel) (m : Measures) (frame : Nat) (p : Fin 8) (s : State) :
    Unmoved s (evalProbe c m frame p s) := by
  have stored : ∀ x, Unmoved s (modProbe c p (fun _ => x) s) := fun _ => modChannel_serving c _ s fun _ => rfl
  unfold evalProbe
  dsimp only
  split
  · split
    · exact .refl s
    · split <;> split
      · exact (stored _).trans (reportFlip_unmoved c p _ frame _ _)
      · exact stored _
      · exact (stored _).trans (reportFlip_unmoved c p _ frame _ _)
      · exact stored _
  · exact .refl s

theorem evalProbes_unmoved (c : Channel) (m : Measures) (frame : Nat) (s : State) :
    Unmoved s (evalProbes c m frame s) := .foldl _ (fun s p => evalProbe_unmoved c m frame p s) _ s

/-- R170, R172: a test run serves no file, and neither does a FREE channel. -/
theorem evaluateTest_unmoved (c : Channel) (s : State) : Unmoved s (evaluateTest c s) := by
  unfold evaluateTest
  split
  · next run h =>
    have probed := evalProbes_unmoved c (s.channels[c].flatMeasures run s.looks[0]) run.next s
    have idle : s.channels[c].owner = none := by unfold ChannelRec.owner; rw [h]
    have before := (probed.owner c).trans idle
    dsimp only
    split
    · exact probed.trans (modChannel_unmoved c _ _ before.symm)
    · exact probed.trans (modChannel_unmoved c _ _ before.symm)
  · exact .refl s

/-- R168, R169: a test run takes a FREE channel. -/
theorem startTest_unmoved {c : Channel} {s : State} (free : s.channels[c].state = .free) (profile : Fin 8)
    (width height : Nat) (run : TestRun) : Unmoved s (startTest c profile width height run s) := by
  refine modChannel_unmoved c _ s (Eq.symm ?_)
  unfold ChannelRec.owner
  rw [free]
  rfl

theorem toChannel_unmoved (i : FileIx) (f : Channel → State → State) (s : State) (h : ∀ c, Unmoved s (f c s)) :
    Unmoved s (toChannel i f s) := by
  unfold toChannel
  split
  · exact .refl s
  · exact h _

theorem logPartial_unmoved (i : FileIx) (frame : Nat) (c : PartialCause) (s : State) :
    Unmoved s (logPartial i frame c s) := by
  unfold logPartial
  split
  · exact .refl s
  · exact logFault_unmoved _ s

theorem closePartial_unmoved (i : FileIx) (s : State) : Unmoved s (closePartial i s) := by
  unfold closePartial
  split
  · exact .refl s
  · exact (modAssembly_unmoved i _ s).trans
      ((toChannel_unmoved i discardFrame _ fun c => modChannel_serving c _ _ fun _ => rfl).trans
        (logPartial_unmoved i _ _ _))

theorem evaluatePicture_unmoved (c : Channel) (frame digest : Nat) (m : MetaMeasures) (s : State) :
    Unmoved s (evaluatePicture c frame digest m s) :=
  (evalProbes_unmoved c _ frame s).trans (modChannel_serving c _ _ fun _ => rfl)

theorem evaluateMeta_unmoved (c : Channel) (frame : Nat) (m : MetaMeasures) (s : State) :
    Unmoved s (evaluateMeta c frame m s) :=
  (evalProbes_unmoved c _ frame s).trans (modChannel_serving c _ _ fun _ => rfl)

theorem completeFrame_unmoved (i : FileIx) (l : SrcLink) (frame : Nat) (m : FormatEntry) (s : State) :
    Unmoved s (completeFrame i l frame m s) := by
  unfold completeFrame
  split
  · exact .refl s
  · exact (modAssembly_unmoved i _ s).trans
      (toChannel_unmoved i _ _ fun c => (evaluatePicture_unmoved c _ _ _ _).after rfl rfl rfl)

theorem parseSegment_unmoved (i : FileIx) (l : SrcLink) (m : FormatEntry) (g : Segment) (s : State) :
    Unmoved s (parseSegment i l m g s).1 := by
  have parsed : Unmoved s (toChannel i (fun c => gather c (pixelsOf m.packing g.payload) g.lineCount)
      (modAssembly i (fun a => { a with
        digest := a.digest.map fun d => d.advance g.payload, nextLine := g.firstLine + g.lineCount }) s)) :=
    (modAssembly_unmoved i _ s).trans (toChannel_unmoved i _ _ fun c => modChannel_serving c _ _ fun _ => rfl)
  unfold parseSegment
  dsimp only
  split
  · exact parsed.trans (completeFrame_unmoved i l _ m _)
  · exact parsed

theorem beginAssembly_unmoved (i : FileIx) (g : Segment) (s : State) : Unmoved s (beginAssembly i g s) := by
  unfold beginAssembly
  dsimp only
  split
  · exact modAssembly_unmoved i _ s
  · exact (modAssembly_unmoved i _ s).trans (toChannel_unmoved i _ _ fun c => modChannel_serving c _ _ fun _ => rfl)

theorem placeGreater_unmoved (i : FileIx) (l : SrcLink) (m : FormatEntry) (g : Segment) (s : State) :
    Unmoved s (placeGreater i l m g s).1 := by
  unfold placeGreater
  dsimp only
  split
  · exact (beginAssembly_unmoved i g s).trans (parseSegment_unmoved i l m g _)
  · exact modAssembly_unmoved i _ s

theorem readPreview_unmoved (i : FileIx) (l : SrcLink) (m : FormatEntry) (g : Segment) (s : State) :
    Unmoved s (readPreview i l m g s).1 := by
  have closed : Unmoved s (placeGreater i l m g (closePartial i s)).1 :=
    (closePartial_unmoved i s).trans (placeGreater_unmoved i l m g _)
  unfold readPreview
  split
  · exact .refl s
  split
  · split
    · exact placeGreater_unmoved i l m g s
    · exact logPartial_unmoved i _ _ s
  · split
    · exact closed
    split
    · exact modAssembly_unmoved i _ s
    split
    · exact parseSegment_unmoved i l m g s
    · exact modAssembly_unmoved i _ s
  · split
    · exact closed
    · exact .refl s

theorem closeAtLast_unmoved (i : FileIx) (s : State) : Unmoved s (closeAtLast i s) := by
  unfold closeAtLast
  split
  · exact .refl s
  split
  · exact .refl s
  · exact closePartial_unmoved i s

theorem readMeta_unmoved (i : FileIx) (l : SrcLink) (m : FormatEntry) (g : Segment) (s : State) :
    Unmoved s (readMeta i l m g s) := by
  unfold readMeta
  split
  · unfold metaParseFailure
    split
    · exact .refl s
    dsimp only
    split
    · exact (modAssembly_unmoved i _ s).trans (logFault_unmoved _ _)
    · exact logFault_unmoved _ s
  dsimp only
  split
  · unfold evaluateMetaOnly
    split
    · exact .refl s
    · exact (modAssembly_unmoved i _ s).trans
        (toChannel_unmoved i _ _ fun c => (evaluateMeta_unmoved c _ _ _).after rfl rfl rfl)
  · exact modAssembly_unmoved i _ s

/-! ### Look engines (chapter 7) -/

theorem leaveQueue_unmoved (e : Engine) (s : State) : Unmoved s (leaveQueue e s) := by
  unfold leaveQueue
  split
  · exact .refl s
  · exact (modEngine_unmoved e _ s).trans (dropRef_frame _ _).unmoved

theorem startEntry_unmoved (e : Engine) (s : State) : Unmoved s (startEntry e s) := by
  have left : ∀ f, Unmoved s (leaveQueue e (modEngine e f s)) := fun f =>
    (modEngine_unmoved e f s).trans (leaveQueue_unmoved e _)
  unfold startEntry
  split
  · split
    · exact modEngine_unmoved _ _ s
    unfold startOther
    split
    · exact leaveQueue_unmoved e s
    · split
      · exact left _
      split
      · exact left _
      · exact modEngine_unmoved _ _ s
    · split
      · exact left _
      split
      · exact leaveQueue_unmoved e s
      · exact modEngine_unmoved _ _ s
  · exact .refl s

theorem completeEntry_unmoved (e : Engine) (s : State) : Unmoved s (completeEntry e s) := by
  unfold completeEntry
  split
  · exact (modEngine_unmoved _ _ s).trans ((modEngine_unmoved _ _ _).trans
      ((modEngine_unmoved _ _ _).trans (leaveQueue_unmoved e _)))
  · exact .refl s

theorem reportOpen_unmoved (i : FileIx) (s : State) : Unmoved s (reportOpen i s) := by
  have one : ∀ (e : Engine) (u : State), Unmoved u (reportOpenTo i e u) := fun e u => by
    unfold reportOpenTo
    split
    · exact .refl u
    split
    · exact (changeFollow_frame e _ u).unmoved
    · exact .refl u
  exact (one 0 s).trans (one 1 _)

theorem offerLookTo_unmoved (l : SrcLink) (tid : Tid) (i : SlotIx) (g : Segment) (place : Placement) (complete : Bool)
    (e : Engine) (s : State) : Unmoved s (offerLookTo l tid i g place complete e s) := by
  have frame := offerLookTo_frame l tid i g place complete e s
  exact .same (by rw [frame]) (by rw [frame]) (by rw [frame])

theorem progressEngine_unmoved (e : Engine) (s : State) : Unmoved s (progressEngine e s) := by
  unfold progressEngine
  split
  · split
    · exact .same rfl rfl rfl
    · exact .refl s
  · exact .refl s

theorem softResetEngine_unmoved (e : Engine) (s : State) : Unmoved s (softResetEngine e s) :=
  (progressEngine_unmoved e s).trans ((Unmoved.foldl (fun s (item : LookItem) => dropRef item.slot s)
    (fun _ _ => (dropRef_frame _ _).unmoved) _ _).trans (modEngine_unmoved e _ _))

end Sys2Proof.Machine
end

