-- ==== Sys2Proof/Proofs/HoldingsKept.lean ====
section
/-! PROOF. What destinations and channels hold (R92, R151) through the operations on queues, files and links, in
the order of their definitions. -/

namespace Sys2Proof.Machine

open Sys2Proof

/-! ### Further ways to keep the laws -/

section
variable {s t : State}

theorem HoldingsKept.same (dest : t.dest = s.dest) (files : t.files = s.files) (channels : t.channels = s.channels) :
    HoldingsKept s t := (Unmoved.same dest files channels).kept

theorem ChannelLaw.of_eq (law : ChannelLaw s) (files : t.files = s.files) (channels : t.channels = s.channels) :
    ChannelLaw t := by
  unfold ChannelLaw
  rw [files, channels]
  exact law

/-- R92: queues change on destinations that may work, and no link changes its state. -/
theorem HoldingsKept.of_worked (files : t.files = s.files) (channels : t.channels = s.channels)
    (h : ∀ d : Dest, t.dest[d].traffic = s.dest[d].traffic ∨
      t.dest[d].state = s.dest[d].state ∧ (QuietLaw s → ¬ s.dest[d].Resting)) : HoldingsKept s t :=
  .of_dest files channels fun law d rests => (h d).elim
    (fun same => ⟨rests.congr same.symm, (quietLaw_iff.mp law d (rests.congr same.symm)).1.congr same⟩)
    fun ⟨state, working⟩ => by
      unfold DestPort.Resting at rests
      rw [state] at rests
      exact absurd rests (working law)

/-- R151: a file position that names no channel, before and after. -/
theorem HoldingsKept.of_idle (i : FileIx) (dest : t.dest = s.dest) (channels : t.channels = s.channels)
    (others : ∀ j : FileIx, j ≠ i → t.files[j] = s.files[j]) (before : ChannelLaw s → channelAt i s = none)
    (after : ChannelLaw s → channelAt i t = none)
    (copies : QuietLaw s → ∀ d : Dest, s.dest[d].Resting → (copyAt i d t).unsettled = false) : HoldingsKept s t :=
  .of_release i dest others after
    (fun law c => by rw [before law, channels, if_neg (Option.some_ne_none c).symm]) copies

end

/-- R92: what is queued and what is in transmission have not changed. -/
theorem DestPort.Quiet.moved {p q : DestPort} (h : p.Quiet) (queue : q.queue = p.queue) (tx : q.tx = p.tx) :
    q.Quiet := by
  refine ⟨?_, ?_⟩
  · unfold DestPort.waiting
    rw [queue, tx]
    exact h.waiting
  · rw [queue, tx]
    exact h.sending

/-! ### Queues (chapter 5) -/

/-- R80: the same entry joins the queues of destinations that may work. -/
theorem enqueueAll_holdings (msg : State → QEntry) (same : ∀ d e s, msg (enqueue d e s) = msg s) {ds : List Dest}
    (nodup : ds.Nodup) {s : State} (h : QuietLaw s → ∀ d ∈ ds, ¬ s.dest[d].Resting) :
    HoldingsKept s (ds.foldl (fun s d => enqueue d (msg s) s) s) := by
  have frame := enqueueAll_frame msg ds s
  have dest := enqueueAll_dest msg same ds s nodup
  refine .of_worked (by rw [frame]) (by rw [frame]) fun d => ?_
  rw [dest]
  by_cases hd : d ∈ ds
  · exact .inr ⟨rfl, fun law => h law d hd⟩
  · refine .inl ?_
    rw [if_neg hd, List.append_nil]

theorem QuietLaw.works {i : FileIx} {f : FileRec} {s : State} (law : QuietLaw s) (h : s.files[i].file = some f)
    {d : Dest} (hd : f.copies[d].unsettled = true) : ¬ s.dest[d].Resting :=
  law.working (j := i) ((congrArg CopyState.unsettled (copyAt_some h)).trans hd)

/-- R85: a copy is withdrawn from a destination that may work. -/
theorem withdraw_holdings (d : Dest) (t : Tid) {s : State} (h : QuietLaw s → ¬ s.dest[d].Resting) :
    HoldingsKept s (withdraw d t s) := by
  have frame := withdraw_frame d t s
  unfold DestOnly at frame
  refine .of_working d (fun p => p.withdraw t) (by rw [frame]) (by rw [frame]) (fun d' => withdraw_dest d d' t s) ?_ h
  rw [DestPort.withdraw_eq]

/-- R85: nothing but the queues of destinations that hold an unsettled copy of the file. -/
theorem discardCopies_holdings (i : FileIx) (s : State) : HoldingsKept s (discardCopies i s) := by
  unfold discardCopies
  split
  · exact .refl s
  next f h =>
  have out := withdrawAll_withdrawn i f.unsettledDests (allIx_nodup _) s
  have frame := out.frame
  unfold DestOnly at frame
  refine .of_worked (by rw [frame]) (by rw [frame]) fun d => ?_
  rw [out.dest]
  split
  · next hd => exact .inr ⟨by rw [DestPort.withdraw_eq], fun law => law.works h (FileRec.mem_unsettledDests.mp hd)⟩
  · exact .inl rfl

theorem DestPort.Quiet.cut {p : DestPort} (h : p.Quiet) : p.cut.Quiet := by
  refine ⟨fun e he => ?_, fun x e no => by cases no⟩
  have queued : e ∈ if p.tx.any DestTx.noResend then p.queue.drop 1 else p.queue := he
  cases hx : p.tx with
  | none =>
    rw [hx] at queued
    refine h.waiting e ?_
    unfold DestPort.waiting
    rw [hx]
    exact queued
  | some x =>
    have waits : ∀ e ∈ p.queue.drop 1, e = .halt := fun e he => h.waiting e (by
      unfold DestPort.waiting
      rw [hx]
      exact he)
    rw [hx, Option.any_some] at queued
    split at queued
    · exact waits e queued
    · next again =>
      cases hq : p.queue with
      | nil => rw [hq] at queued; cases queued
      | cons a rest =>
        rw [hq] at queued waits
        rcases List.mem_cons.mp queued with first | later
        · rw [first]
          exact (h.sending x a hx (by rw [hq]; rfl)).resolve_right again
        · exact waits e later

/-- R82, R86: a transmission ends nullified. -/
theorem nullify_holdings (d : Dest) (s : State) : HoldingsKept s (nullify d s) := by
  have frame := nullify_frame d s
  unfold DestOnly at frame
  exact .of_port d DestPort.cut (by rw [frame]) (by rw [frame]) (fun d' => nullify_dest d d' s) fun _ rests =>
    ⟨rests, DestPort.Quiet.cut⟩

/-! ### Files (chapter 2) -/

/-- R39: settling changes a record's state alone. -/
theorem FileRec.afterSettling_kept {f g : FileRec} (h : f.afterSettling = some g) :
    g.channel = f.channel ∧ g.copies = f.copies := by
  unfold FileRec.afterSettling at h
  split at h
  · split at h
    · cases h
    · cases h; exact ⟨rfl, rfl⟩
  · cases h; exact ⟨rfl, rfl⟩

section
variable {i : FileIx} {s : State}

/-- R39, R48: a file record that names no channel is freed. -/
theorem freeFile_holdings (idle : ChannelLaw s → channelAt i s = none) : HoldingsKept s (freeFile i s) := by
  have files : (freeFile i s).files[i].file = none := by rw [freeFile_files, vmod_self]
  refine .of_idle i rfl rfl (fun j hj => ?_) idle (fun _ => ?_) fun _ d _ => ?_
  · rw [freeFile_files, vmod_other _ _ _ _ hj]
  · rw [channelAt, files]
    rfl
  · rw [copyAt_none files]
    rfl

theorem releaseChannel_holdings (i : FileIx) (s : State) : HoldingsKept s (releaseChannel i s) := by
  unfold releaseChannel
  split
  · exact .refl s
  next c h =>
  obtain ⟨f, hf, -⟩ := channelAt_some.mp h
  have file : (modFile i (fun f => { f with channel := none })
      (modChannel c (fun _ => ChannelRec.initial) s)).files[i].file = some { f with channel := none } := by
    rw [modFile_files, vmod_self, modChannel_files, hf]
    rfl
  refine .of_release i rfl (fun j hj => ?_) (fun _ => ?_) (fun _ c' => ?_) fun law d rests => ?_
  · rw [modFile_files, vmod_other _ _ _ _ hj]
    rfl
  · rw [channelAt, file]
    rfl
  · have named : channelAt i s = some c := h
    rw [named, modFile_channels, modChannel_channels, vmod_get]
    by_cases e : c' = c
    · rw [if_pos e, e, if_pos rfl]
      rfl
    · rw [if_neg e, if_neg fun e' => e (Option.some.inj e').symm]
  · rw [copyAt_some file]
    have settled := (quietLaw_iff.mp law d rests).2 i
    rw [copyAt_some hf] at settled
    exact settled

theorem releaseChannel_idle (i : FileIx) (s : State) : channelAt i (releaseChannel i s) = none := by
  unfold releaseChannel
  split
  · next h => exact h
  · unfold channelAt
    rw [modFile_files, vmod_self]
    cases (modChannel _ (fun _ => ChannelRec.initial) s).files[i].file <;> rfl

/-- R26: a file that names no channel changes its state. -/
theorem restate_holdings (f : FileRec → FileRec) (channel : ∀ k, (f k).channel = k.channel)
    (copies : ∀ k, (f k).copies = k.copies) (idle : ChannelLaw s → channelAt i s = none) :
    HoldingsKept s (modFile i f s) := by
  have file : (modFile i f s).files[i].file = s.files[i].file.map f := by rw [modFile_files, vmod_self]
  refine .of_idle i rfl rfl (fun j hj => ?_) idle (fun law => ?_) fun law d rests => ?_
  · rw [modFile_files, vmod_other _ _ _ _ hj]
  · unfold channelAt
    rw [file, Option.bind_map]
    exact (congrArg (s.files[i].file.bind ·) (funext channel)).trans (idle law)
  · have settled := (quietLaw_iff.mp law d rests).2 i
    cases h : s.files[i].file with
    | none => rw [h] at file; rw [copyAt_none file]; rfl
    | some k =>
      rw [h] at file
      rw [copyAt_some h] at settled
      rw [copyAt_some file, copies]
      exact settled

theorem leaveStreaming_holdings (i : FileIx) (next : FileState) (s : State) :
    HoldingsKept s (leaveStreaming i next s) :=
  (releaseChannel_holdings i s).trans (restate_holdings _ (fun _ => rfl) (fun _ => rfl)
    fun _ => releaseChannel_idle i s)

theorem issueManifest_unmoved (m : Manifest) (s : State) : Unmoved s (issueManifest m s) := by
  unfold issueManifest
  split
  · exact (offerNotice_frame _ s).unmoved
  · exact .refl s

/-- R39: a file settles that is no longer STREAMING, and so names no channel. -/
theorem settleFile_holdings (i : FileIx) (s : State) : HoldingsKept s (settleFile i s) := by
  have frame := settleFile_frame i s
  have files := settleFile_files i s
  cases h : s.files[i].file with
  | none =>
    have same : settleFile i s = s := by
      unfold settleFile
      rw [h]
    rw [same]
    exact .refl s
  | some f =>
    by_cases all : f.AllSettled
    · have file : (settleFile i s).files[i].file = f.afterSettling := by rw [files, vmod_self, h, Option.bind_some]
      have idle : ChannelLaw s → channelAt i s = none := fun law => law.none_named h (by rw [all.1]; decide)
      refine .of_idle i frame.dest frame.channels (fun j hj => by rw [files, vmod_other _ _ _ _ hj]) idle
        (fun law => ?_) fun _ d _ => ?_
      · unfold channelAt
        rw [file]
        cases after : f.afterSettling with
        | none => rfl
        | some g =>
          rw [Option.bind_some, (FileRec.afterSettling_kept after).1]
          have named := idle law
          rw [channelAt, h] at named
          exact named
      · cases after : f.afterSettling with
        | none => rw [copyAt_none (file.trans after)]; rfl
        | some g => rw [copyAt_some (file.trans after), (FileRec.afterSettling_kept after).2]; exact all.2 d
    · refine (Unmoved.same frame.dest (files.trans (vmod_same _ _ _ ?_)) frame.channels).kept
      have after : f.afterSettling = some f := by
        unfold FileRec.afterSettling
        exact if_neg all
      rw [h, Option.bind_some, after, ← h]

/-- R28: a file's record when its copies on some destinations have failed. -/
def FileRec.failedOn (ds : List Dest) (r : FailReason) (f : FileRec) : FileRec :=
  { f with copies := Vector.ofFn fun d => if d ∈ ds then .failed r else f.copies[d] }

/-- R29, R37: the unsettled copies of a file fail and are withdrawn from where they were worked on. -/
theorem withdrawUnsettled_holdings (i : FileIx) (r : FailReason) (s : State) :
    HoldingsKept s (withdrawUnsettled i r s) := by
  cases h : s.files[i].file with
  | none =>
    have same : withdrawUnsettled i r s = s := by
      unfold withdrawUnsettled
      rw [h]
    rw [same]
    exact .refl s
  | some f =>
    have failed := withdrawUnsettled_failed r h
    have frame := failed.frame
    have worked : HoldingsKept s { s with dest := (withdrawUnsettled i r s).dest } := .of_worked rfl rfl fun d => by
      dsimp only
      rw [failed.dest]
      split
      · next hd => exact .inr ⟨by rw [DestPort.withdraw_eq], fun law => law.works h (FileRec.mem_unsettledDests.mp hd)⟩
      · exact .inl rfl
    have settled := modFile_unmoved i (FileRec.failedOn f.unsettledDests r) s (fun _ => rfl) fun k _ d hu => by
      simp only [FileRec.failedOn, Fin.getElem_fin, Vector.getElem_ofFn] at hu
      split at hu
      · cases hu
      · exact hu
    have files : (withdrawUnsettled i r s).files = (modFile i (FileRec.failedOn f.unsettledDests r) s).files :=
      failed.files
    refine worked.trans (Unmoved.kept ⟨fun _ => rfl, fun j d => ?_, fun j => ?_, fun j => ?_, fun c => ?_⟩)
    · unfold copyAt
      rw [files]
      exact settled.copies j d
    · rw [files]
      exact settled.gen j
    · rw [files]
      exact settled.claim j
    · rw [frame]

theorem stopFile_holdings (i : FileIx) (r : FailReason) (s : State) : HoldingsKept s (stopFile i r s) :=
  (withdrawUnsettled_holdings i r s).trans ((leaveStreaming_holdings i .short _).trans
    (endFollowsAbort_frame _ _).unmoved.kept)

theorem abortFile_holdings (i : FileIx) (s : State) : HoldingsKept s (abortFile i s) := by
  unfold abortFile
  split
  · exact .refl s
  · exact (stopFile_holdings i _ s).trans ((logFault_unmoved _ _).trans (reeval_frame _ _).unmoved).kept

theorem breakFile_holdings (i : FileIx) (received : Nat) (s : State) : HoldingsKept s (breakFile i received s) := by
  unfold breakFile
  split
  · exact .refl s
  · exact (stopFile_holdings i _ s).trans ((logFault_unmoved _ _).trans (reeval_frame _ _).unmoved).kept

theorem abortStreaming_holdings (is : List FileIx) (s : State) : HoldingsKept s (abortStreaming is s) :=
  .foldl _ (fun s i => abortFile_holdings i s) is s

end

/-! ### Destination links (chapter 5) -/

/-- R89, R91: a copy on a destination that fails leaves the other copies as they are. -/
theorem failSettle_holdings (i : FileIx) (d : Dest) (r : FailReason) (vs : List Nat) (s : State) :
    HoldingsKept s (settleFile i (failCopy i d r vs s)) :=
  (failCopy_unmoved i d r vs s).kept.trans (settleFile_holdings i _)

/-- R89, R91: when all copies on a destination have failed, none is unsettled there, and none is elsewhere that was
not. -/
theorem failAll_copies {d : Dest} {r : FailReason} (hr : r ≠ .aborted) {s : State} {j : FileIx} {d' : Dest}
    (h : (copyAt j d' (failAll d r s)).unsettled = true) : d' ≠ d ∧ (copyAt j d' s).unsettled = true := by
  have each := failAll_each d hr s
  by_cases hj : j ∈ unsettledOn d s
  · obtain ⟨f, hf, -⟩ := mem_unsettledOn.mp hj
    have file := congrArg FilePos.file (each.failed j hj f hf)
    cases after : ({ f with copies := vmod f.copies d fun _ => .failed r } : FileRec).afterSettling with
    | none => rw [copyAt_none (file.trans after)] at h; cases h
    | some g =>
      rw [copyAt_some (file.trans after), (FileRec.afterSettling_kept after).2] at h
      dsimp only at h
      rw [vmod_get] at h
      split at h
      · cases h
      · next ne => exact ⟨ne, by rw [copyAt_some hf]; exact h⟩
  · have same : copyAt j d' (failAll d r s) = copyAt j d' s := by unfold copyAt; rw [each.kept j hj]
    rw [same] at h
    refine ⟨fun e => hj ?_, h⟩
    unfold unsettledOn
    rw [mem_allIx, ← e]
    exact h

/-- R89, R91, R92: a destination goes DOWN or to QUARANTINED: what is left in its queue is quiet, and its copies
fail. -/
theorem failedAll_holdings {d : Dest} {f : DestPort → DestPort} {gone : List QEntry} {r : FailReason} {cls : FaultClass}
    {code : Option FaultCode} {s : State} (hr : r ≠ .aborted) (quiet : QuietLaw s → (f s.dest[d]).Quiet) :
    HoldingsKept s (logDest cls code d (failAll d r (releaseEntries gone (modDest d f s)))) := by
  have freed := releaseEntries_frame gone (modDest d f s)
  have dest : (releaseEntries gone (modDest d f s)).dest = (modDest d f s).dest := freed.dest
  have files : (releaseEntries gone (modDest d f s)).files = s.files := freed.files
  have channels : (releaseEntries gone (modDest d f s)).channels = s.channels := freed.channels
  generalize releaseEntries gone (modDest d f s) = u at *
  have failed := failAll_frame d r u
  have logged : LogOnly (failAll d r u) (logDest cls code d (failAll d r u)) := logFault_frame _ _
  have each : HoldingsKept u (failAll d r u) := .foldl _ (fun s i => failSettle_holdings i d r [] s) _ u
  refine HoldingsKept.trans
    ⟨fun law => quietLaw_iff.mpr fun d' rests => ?_, fun law => each.paired (law.of_eq files channels)⟩
    logged.unmoved.kept
  have settled : (∀ j, (copyAt j d' s).unsettled = true → d' = d) →
      ∀ j, (copyAt j d' (failAll d r u)).unsettled = false :=
    fun only j => Bool.eq_false_iff.mpr fun no => by
      obtain ⟨ne, before⟩ := failAll_copies hr no
      unfold copyAt at before only
      rw [files] at before
      exact ne (only j before)
  rw [failed.dest, dest, modDest_dest, vmod_get] at rests ⊢
  split at rests
  · next e =>
    rw [if_pos e]
    exact ⟨quiet law, settled fun _ _ => e⟩
  · next e =>
    rw [if_neg e]
    obtain ⟨quiet', settled'⟩ := quietLaw_iff.mp law d' rests
    exact ⟨quiet', settled fun j no => absurd ((settled' j).symm.trans no) Bool.false_ne_true⟩

theorem DestPort.quiet_nil {p : DestPort} (queue : p.queue = []) : p.Quiet := by
  refine ⟨fun e he => ?_, fun x e _ he => ?_⟩
  · unfold DestPort.waiting at he
    rw [queue] at he
    split at he <;> cases he
  · rw [queue] at he
    cases he

theorem downProcedure_holdings (d : Dest) (s : State) : HoldingsKept s (downProcedure d s) :=
  failedAll_holdings (by decide) fun _ => DestPort.quiet_nil rfl

/-- R91: the queue of a destination that was quiet and gets a HALT. -/
theorem DestPort.Quiet.haltFor {p q : DestPort} (h : p.Quiet) (set : List Tid) (queue : q.queue = haltFor p.queue set)
    (tx : q.tx = p.tx) : q.Quiet := by
  unfold Machine.haltFor at queue
  split at queue
  · refine ⟨fun e he => ?_, fun x e hx he => ?_⟩
    · unfold DestPort.waiting at he
      rw [queue, tx] at he
      have waits : e ∈ p.waiting ∨ e = .halt := by
        unfold DestPort.waiting
        split at he
        · next sending =>
          rw [if_pos sending]
          cases hq : p.queue with
          | nil => rw [hq] at he; cases he
          | cons a rest =>
            rw [hq] at he
            exact (List.mem_append.mp he).imp id List.mem_singleton.mp
        · next idle =>
          rw [if_neg idle]
          exact (List.mem_append.mp he).imp id List.mem_singleton.mp
      exact waits.elim (h.waiting e) id
    · rw [queue] at he
      rw [tx] at hx
      cases hq : p.queue with
      | nil => rw [hq] at he; exact .inl (Option.some.inj he).symm
      | cons a rest =>
        rw [hq] at he
        exact h.sending x e hx (by rw [hq]; exact he)
  · exact h.moved queue tx

/-- R91: what every entry to QUARANTINED leaves in the queue. -/
theorem DestPort.enterQuarantine_quiet {p : DestPort} (h : p.Resting → p.Quiet) : p.enterQuarantine.Quiet := by
  unfold DestPort.enterQuarantine
  split
  · refine ⟨fun e he => ?_, fun x e hx _ => ?_⟩
    · unfold DestPort.waiting DestPort.sending at he
      dsimp only at he
      rw [Option.isSome_map] at he
      split at he
      · cases hq : p.queue with
        | nil => rw [hq] at he; cases he
        | cons a rest => rw [hq] at he; exact List.mem_singleton.mp he
      · exact List.mem_singleton.mp he
    · obtain ⟨y, -, rfl⟩ := Option.map_eq_some_iff.mp hx
      exact .inr rfl
  · exact (DestPort.quiet_nil (p := { p with queue := [] }) rfl).haltFor p.openSet rfl rfl
  all_goals next state => exact (h (by simp [DestPort.Resting, state])).haltFor p.openSet rfl rfl

theorem enterQuarantine_holdings (code : FaultCode) (d : Dest) (s : State) :
    HoldingsKept s (enterQuarantine code d s) :=
  failedAll_holdings (by decide) fun law => DestPort.enterQuarantine_quiet fun rests =>
    (quietLaw_iff.mp law d rests).1

theorem autoQuarantine_holdings (d : Dest) (s : State) : HoldingsKept s (autoQuarantine d s) := by
  unfold autoQuarantine
  split
  · exact enterQuarantine_holdings _ d s
  · exact .refl s

theorem countFailure_unmoved (d : Dest) (s : State) : Unmoved s (countFailure d s) :=
  (modDest_unmoved d (fun p => { p with failures := min Config.failureMax (p.failures + 1) }) s rfl).trans
    (.same rfl rfl rfl)

theorem cancelTimer_unmoved (i : FileIx) (d : Dest) (s : State) : Unmoved s (cancelTimer i d s) :=
  modDest_unmoved d _ s rfl

/-- R75, R90: a DOWN link that trains was at rest before. -/
theorem train_holdings (d : Dest) (s : State) : HoldingsKept s (modDest d DestPort.train s) := by
  refine modDest_holdings d _ s fun _ rests => ⟨?_, fun quiet => quiet.moved rfl rfl⟩
  by_cases trains : s.dest[d].state = .down ∧ s.dest[d].partner = true
  · exact .inl trains.1
  · have same : s.dest[d].train = s.dest[d] := by
      unfold DestPort.train
      rw [if_neg trains]
    exact same ▸ rests

theorem loseAlignment_holdings (d : Dest) (s : State) : HoldingsKept s (loseAlignment d s) := by
  unfold loseAlignment
  split
  · refine (nullify_holdings d s).trans (modDest_holdings d _ _ fun _ rests => absurd rests ?_)
    simp [DestPort.Resting]
  · exact (nullify_holdings d s).trans (modDest_unmoved d _ _ rfl).kept
  all_goals exact .refl s

/-- R75, R87: a TRAINING link without a partner goes DOWN. -/
theorem losePartner_holdings (d : Dest) (s : State) : HoldingsKept s (modDest d (fun p =>
    { p with partner := false, state := if p.state = .training then .down else p.state }) s) := by
  refine modDest_holdings d _ s fun _ rests => ⟨?_, fun quiet => quiet.moved rfl rfl⟩
  by_cases trains : s.dest[d].state = .training
  · exact .inr (.inl trains)
  · simp only [DestPort.Resting, if_neg trains] at rests
    exact rests

/-- R75, R76, R92: a link that achieves alignment works, or is where it was. -/
theorem achieve_holdings (d : Dest) (n : Nat) (s : State) : HoldingsKept s (modDest d (fun p => p.achieve n) s) := by
  refine modDest_holdings d _ s fun _ rests => ?_
  unfold DestPort.achieve at rests ⊢
  split at rests
  · simp [DestPort.Resting] at rests
  · simp [DestPort.Resting] at rests
  · next state =>
    refine ⟨.inr (.inr state), fun quiet => ?_⟩
    split
    · exact quiet
    · exact quiet.moved rfl rfl
  all_goals exact ⟨rests, id⟩

/-- R82: a link that carries messages and rests is QUARANTINED, and there a HALT alone can start. -/
theorem startTransmission_holdings {d : Dest} {e : QEntry} {rest : List QEntry} {s : State}
    (queue : s.dest[d].queue = e :: rest) (starts : s.dest[d].canStart e = true) :
    HoldingsKept s (startTransmission d e s) := by
  have credit : ∀ p : DestPort, (p.takeCredit e).state = p.state ∧ (p.takeCredit e).queue = p.queue := fun p => by
    unfold DestPort.takeCredit
    split
    · split <;> exact ⟨rfl, rfl⟩
    all_goals exact ⟨rfl, rfl⟩
  obtain ⟨state, same⟩ := credit s.dest[d]
  refine modDest_holdings d _ s fun _ rests => ?_
  have rested : s.dest[d].Resting := by
    unfold DestPort.Resting at rests ⊢
    dsimp only at rests
    rw [state] at rests
    exact rests
  obtain ⟨idle, up⟩ : s.dest[d].tx = none ∧ (s.dest[d].state = .up ∨ e = .halt) := by
    simp only [DestPort.canStart, Bool.and_eq_true, Bool.or_eq_true, beq_iff_eq, Option.isNone_iff_eq_none] at starts
    exact ⟨starts.1.1.2, starts.2⟩
  have halt : e = .halt := up.resolve_left fun up => by
    rw [DestPort.Resting, up] at rested
    simp at rested
  refine ⟨rested, fun quiet => ⟨fun e' he => ?_, fun x e' _ he => .inl ?_⟩⟩
  · refine quiet.waiting e' ?_
    have later : e' ∈ rest := by
      rw [DestPort.waiting] at he
      dsimp only at he
      rw [same, queue] at he
      exact he
    unfold DestPort.waiting
    rw [idle, queue]
    exact List.mem_cons_of_mem _ later
  · dsimp only at he
    rw [same, queue] at he
    exact (Option.some.inj he).symm.trans halt

/-- R83: a copy moves on that was unsettled before. -/
theorem advanceCopy_unmoved (t : Tid) (d : Dest) {old : CopyState} (new : CopyState) (s : State)
    (h : old.unsettled = true) : Unmoved s (advanceCopy t d old new s) := by
  unfold advanceCopy
  split
  · next at_ => exact setCopy_unmoved _ _ _ s fun _ => at_.2 ▸ h
  · exact .refl s

theorem sentGood_unmoved (d : Dest) (e : QEntry) (s : State) : Unmoved s (sentGood d e s) := by
  cases e with
  | openMsg t => exact (advanceCopy_unmoved t d _ s rfl).trans (modDest_unmoved d _ _ rfl)
  | data t i => exact (dropRef_frame i _).unmoved.after rfl rfl rfl
  | close t =>
    unfold sentGood
    dsimp only
    split
    · next at_ => exact (setCopy_unmoved _ _ _ s fun _ => by rw [at_.2]; rfl).trans (modDest_unmoved d _ _ rfl)
    · exact .refl s
  | abort t => exact modDest_unmoved d _ s rfl
  | halt => exact modDest_unmoved d _ s rfl

theorem endTransmission_holdings (d : Dest) (s : State) : HoldingsKept s (endTransmission d s) := by
  unfold endTransmission
  split
  · next x e rest tx queue =>
    refine HoldingsKept.trans (modDest_holdings d _ s fun _ rests => ⟨rests, fun quiet => ⟨fun e' he => ?_,
      fun _ _ no => by cases no⟩⟩) ((sentGood_unmoved d e _).trans (checkStall_unmoved d _)).kept
    refine quiet.waiting e' ?_
    unfold DestPort.waiting
    rw [tx, queue]
    exact he
  · exact .refl s

theorem takeInbound_holdings (k : Nat) (d : Dest) (wire : Bytes) (f : InMessage → State → State) (s : State)
    (h : ∀ m, HoldingsKept s (f m s)) : HoldingsKept s (takeInbound k d wire f s) := by
  unfold takeInbound
  split
  · exact .refl s
  split
  · exact h _
  · exact .refl s

theorem takeCreditMessage_unmoved (d : Dest) (m : InMessage) (s : State) : Unmoved s (takeCreditMessage d m s) := by
  unfold takeCreditMessage
  split
  · exact modDest_unmoved d _ s rfl
  · exact loseOne_unmoved _ s

theorem proveCopy_holdings (i : FileIx) (d : Dest) (s : State) : HoldingsKept s (proveCopy i d s) := by
  have verified : Unmoved s (setCopy i d .verified s) := setCopy_unmoved i d _ s fun no => by cases no
  have counted : ∀ u, Unmoved u (countEvent .verifyOk (.dest d) 1 u) := fun u => .same rfl rfl rfl
  exact (verified.trans ((cancelTimer_unmoved i d _).trans ((modDest_unmoved d _ _ rfl).trans (counted _)))).kept.trans
    (settleFile_holdings i _)

theorem failClosed_holdings (i : FileIx) (d : Dest) (r : FailReason) (s : State) :
    HoldingsKept s (failClosed i d r s) :=
  ((cancelTimer_unmoved i d s).trans ((failCopy_unmoved i d r [] _).trans (countFailure_unmoved d _))).kept.trans
    ((settleFile_holdings i _).trans (autoQuarantine_holdings d _))

theorem takeVerify_holdings (d : Dest) (m : InMessage) (s : State) : HoldingsKept s (takeVerify d m s) := by
  have lost : ∀ k, HoldingsKept s (loseOne k s) := fun k => (loseOne_unmoved k s).kept
  unfold takeVerify
  split
  · split
    · unfold verifyCopy
      split
      · split
        · exact proveCopy_holdings _ d s
        · exact failClosed_holdings _ d _ s
      · exact lost _
      · exact lost _
    · exact lost _
  · exact lost _

/-- R100: the copy that fails was unsettled, so its destination may work. -/
theorem failWrite_holdings {i : FileIx} {d : Dest} {s : State} (h : (copyAt i d s).unsettled = true) (code : Nat) :
    HoldingsKept s (failWrite i d code s) := by
  have counted : Unmoved s (countFailure d (failCopy i d .writeError [code] s)) :=
    (failCopy_unmoved i d _ _ s).trans (countFailure_unmoved d _)
  refine HoldingsKept.trans (t := withdraw d (tidOf i (countFailure d (failCopy i d .writeError [code] s)))
    (countFailure d (failCopy i d .writeError [code] s))) ?_
      ((settleFile_holdings i _).trans (autoQuarantine_holdings d _))
  have frame := withdraw_frame d (tidOf i (countFailure d (failCopy i d .writeError [code] s)))
    (countFailure d (failCopy i d .writeError [code] s))
  unfold DestOnly at frame
  exact ⟨fun law => (withdraw_holdings d _ fun _ rests => law.working h (rests.congr (counted.traffic d).symm)).quiet
    (counted.kept.quiet law), fun law => (counted.kept.paired law).of_eq (by rw [frame]) (by rw [frame])⟩

theorem takeWriteError_holdings (d : Dest) (m : InMessage) (s : State) : HoldingsKept s (takeWriteError d m s) := by
  have lost : HoldingsKept s (loseOne .stray s) := (loseOne_unmoved _ s).kept
  unfold takeWriteError
  split
  · split
    · split
      · next unsettled => exact (failWrite_holdings unsettled _).trans (checkStall_unmoved d _).kept
      · exact lost
    · exact lost
  · exact lost

theorem expireTimer_holdings (i : FileIx) (d : Dest) (s : State) : HoldingsKept s (expireTimer i d s) := by
  unfold expireTimer
  split
  · exact failClosed_holdings i d _ s
  · exact .refl s

theorem resetDest_holdings (d : Dest) (s : State) : HoldingsKept s (resetDest d s) := by
  have down := (downProcedure_holdings d s).trans (train_holdings d _)
  unfold resetDest
  split
  · exact down
  · exact down
  · next state => exact modDest_holdings d _ s fun _ _ => ⟨.inr (.inl state), fun quiet => quiet.moved rfl rfl⟩
  · exact train_holdings d s
  · exact (nullify_holdings d s).trans (modDest_unmoved d _ _ rfl).kept

end Sys2Proof.Machine
end

