-- ==== Sys2Proof/Proofs/QuietAndChannels.lean ====
section
/-! PROOF. What destinations and channels hold (R92, R151) through the taking of segments, the commands and the resets,
and so through every step. Settles O7. -/

namespace Sys2Proof.Machine

open Sys2Proof

/-! ### Opening a file (chapter 2) -/

/-- R27, R34: a copy that an OPEN makes is unsettled where the destination takes files. -/
theorem takesFiles_works {d : Dest} {s : State} (h : takesFiles d s = true) : ¬ s.dest[d].Resting := fun rests => by
  unfold takesFiles at h
  rw [Bool.and_eq_true, beq_iff_eq] at h
  rw [DestPort.Resting, h.1] at rests
  simp at rests

theorem freshCopy_works {r : Route} {d : Dest} {s : State} (h : (freshCopy r d s).unsettled = true) :
    ¬ s.dest[d].Resting := by
  unfold freshCopy at h
  split at h
  · split at h
    · next takes => exact takesFiles_works takes
    · cases h
  · cases h

theorem recopyCopy_works {r : Route} {d : Dest} {old : CopyState} {s : State}
    (h : (recopyCopy r d old s).unsettled = true) : old.unsettled = true ∨ ¬ s.dest[d].Resting := by
  unfold recopyCopy at h
  split at h
  · split at h
    · split at h
      · next takes => exact .inr (takesFiles_works takes)
      · cases h
    · split at h
      · next takes => exact .inr (takesFiles_works takes)
      · cases h
    · exact .inl h
  · exact .inl h

section
variable {i : FileIx} {s : State}

/-- R25, R33, R34: a record is written that names no channel, over one that names none. -/
theorem writeRecord_holdings {f : FileRec} (channel : f.channel = none) (idle : ChannelLaw s → channelAt i s = none)
    (works : QuietLaw s → ∀ d : Dest, f.copies[d].unsettled = true → ¬ s.dest[d].Resting) :
    HoldingsKept s (writeRecord i f s) := by
  have file : (writeRecord i f s).files[i].file = some f := congrArg FilePos.file (vmod_self s.files i _)
  refine .of_idle i rfl rfl (fun j hj => vmod_other _ _ _ _ hj) idle (fun _ => ?_) fun law d rests => ?_
  · unfold channelAt
    rw [file]
    exact channel
  · rw [copyAt_some file]
    exact Bool.eq_false_iff.mpr fun no => works law d no rests

theorem queueOpens_holdings {f : FileRec} (h : s.files[i].file = some f) : HoldingsKept s (queueOpens i f s) := by
  refine enqueueAll_holdings (fun s => .openMsg (tidOf i s) (labelAt f.card s) f.number f.name f.declared)
    (fun _ _ _ => rfl) (allIx_nodup _) fun law d hd => law.works h ?_
  rw [mem_allIx, beq_iff_eq] at hd
  rw [hd]
  rfl

theorem startAssembly_unmoved (i : FileIx) (s : State) : Unmoved s (startAssembly i s) :=
  modFile_unmoved i _ s (fun _ => rfl) fun _ _ _ => id

/-- R151, R152: a channel that served no file serves one that named none. -/
theorem HoldingsKept.of_assign {t : State} {c : Channel} {f : FileRec} {o : Owner} (h : s.files[i].file = some f)
    (state : f.state = .streaming) (channel : f.channel = none) (free : s.channels[c].owner = none)
    (tid : o.tid = tidOf i s) (number : o.file = f.number) (dest : t.dest = s.dest)
    (files : t.files = vmod s.files i fun p => { p with file := some { f with channel := some c } })
    (owner : ∀ c' : Channel, t.channels[c'].owner = if c' = c then some o else s.channels[c'].owner) :
    HoldingsKept s t := by
  have file : t.files[i].file = some { f with channel := some c } := by rw [files, vmod_self]
  have others : ∀ j : FileIx, j ≠ i → t.files[j] = s.files[j] := fun j hj => by rw [files, vmod_other _ _ _ _ hj]
  have tids : ∀ j, tidOf j t = tidOf j s := fun j => by
    unfold tidOf
    rw [files, vmod_get]
    split
    · next e => rw [e]
    · rfl
  have unnamed : channelAt i s = none := by
    rw [channelAt, h]
    exact channel
  refine ⟨fun law => quietLaw_iff.mpr fun d rests => ?_, fun law => ?_⟩
  · rw [dest] at rests ⊢
    obtain ⟨quiet, settled⟩ := quietLaw_iff.mp law d rests
    refine ⟨quiet, fun j => ?_⟩
    by_cases e : j = i
    · have before := settled i
      rw [copyAt_some h] at before
      rw [e, copyAt_some file]
      exact before
    · unfold copyAt
      rw [others j e]
      exact settled j
  · obtain ⟨claims, owners⟩ := channelLaw_iff.mp law
    refine channelLaw_iff.mpr ⟨fun j f' c' hf' hc' => ?_, fun c' o' ho' => ?_⟩
    · by_cases e : j = i
      · rw [e, file] at hf'
        cases hf'
        cases hc'
        exact ⟨state, o, by rw [owner, if_pos rfl], by rw [e, tids, tid], number⟩
      · rw [others j e] at hf'
        obtain ⟨streaming, o', ho', tid', number'⟩ := claims j f' c' hf' hc'
        refine ⟨streaming, o', ?_, by rw [tids, tid'], number'⟩
        rw [owner, if_neg fun same => ?_, ho']
        rw [same, free] at ho'
        cases ho'
    · rw [owner] at ho'
      split at ho'
      · next e =>
        cases ho'
        rw [tid, tids, e]
        exact ⟨rfl, channelAt_some.mpr ⟨_, file, rfl⟩⟩
      · obtain ⟨tid', named⟩ := owners c' o' ho'
        have ne : o'.tid.index ≠ i := fun e => by
          rw [e, unnamed] at named
          cases named
        rw [tids]
        refine ⟨tid', ?_⟩
        rw [channelAt, others _ ne]
        exact named

/-- R152: a STREAMING file without a channel asks for one. -/
theorem assignChannel_holdings {f : FileRec} (h : s.files[i].file = some f) (state : f.state = .streaming)
    (channel : f.channel = none) : HoldingsKept s (assignChannel i s) := by
  unfold assignChannel
  rw [h]
  dsimp only
  split
  · next p m _ _ =>
    split
    · exact (logFault_unmoved _ s).kept
    next c hc =>
    have free : s.channels[c].owner = none := by
      have state := firstIx_sound hc
      unfold ChannelRec.owner
      rw [eq_of_beq state]
    refine .of_assign (o := ⟨tidOf i s, labelAt f.card s, f.number⟩) h state channel free rfl rfl rfl ?_ fun c' => ?_
    · rw [modFile_files, modChannel_files]
      refine vmod_congr _ _ ?_
      rw [h]
      rfl
    · rw [modFile_channels, modChannel_channels, vmod_get]
      split <;> rfl
  · exact .refl s

/-- R33, R34, R143: a record is made or reused, and its copies, assembly and channel start. -/
theorem startFile_holdings {f : FileRec} (state : f.state = .streaming) (channel : f.channel = none)
    (idle : ChannelLaw s → channelAt i s = none)
    (works : QuietLaw s → ∀ d : Dest, f.copies[d].unsettled = true → ¬ s.dest[d].Resting) (countIt : Bool) :
    HoldingsKept s (startFile i f countIt s) := by
  have file : (writeRecord i f s).files[i].file = some f := congrArg FilePos.file (vmod_self s.files i _)
  have started := (startAssembly_registered i f s).files
  have counted : ∀ u, Unmoved u (reportOpen i (reeval f.card (checkStalls (modCard f.card (Card.opens countIt) u)))) :=
    fun u => (modCard_unmoved _ _ u).trans ((checkStalls_unmoved _).trans ((reeval_frame _ _).unmoved.trans
      (reportOpen_unmoved i _)))
  rw [startFile_eq]
  refine (writeRecord_holdings channel idle works).trans ((queueOpens_holdings file).trans
    ((startAssembly_unmoved i _).kept.trans (.trans ?_ (counted _).kept)))
  exact assignChannel_holdings (f :=
    { f with assembly := some (Assembly.start (f.route.format.map fun m => s.formats[m])) })
    (by rw [started, vmod_self]) state channel

end

theorem logCardFile_unmoved (cls : FaultClass) (c : CardIx) (number : Nat) (values : List Nat) (s : State) :
    Unmoved s (logCardFile cls c number values s) := logFault_unmoved _ s

theorem refuseOpen_unmoved (cls : FaultClass) (c : CardIx) (number : Nat) (s : State) :
    Unmoved s (refuseOpen cls c number s) := (logCardFile_unmoved _ _ _ _ s).trans (modCard_unmoved _ _ _)

/-- R31, R34: a record reused was SHORT, and a position taken was free. -/
theorem decideOpen_holdings (c : CardIx) (k : Card) (q : OpenRequest) (s : State) :
    HoldingsKept s (decideOpen c k q s) := by
  have refused : ∀ cls, HoldingsKept s (refuseOpen cls c q.number s) := fun cls => (refuseOpen_unmoved cls _ _ s).kept
  unfold decideOpen
  dsimp only
  split
  · exact refused _
  next accepted =>
  split
  · exact refused _
  next r _ =>
  split
  · next i hi =>
    split
    · exact .refl s
    next f hf =>
    have short : f.state = .short := by
      rw [hi, Option.bind_some, hf] at accepted
      unfold earlyRefusal at accepted
      split at accepted
      · cases accepted
      · dsimp only at accepted
        split at accepted
        · cases accepted
        · next reused => exact of_not_not fun no => reused (.inl no)
    refine startFile_holdings rfl rfl (fun law => law.none_named hf (by rw [short]; decide)) (fun law d hu => ?_) _
    simp only [recopyRecord, Fin.getElem_fin, Vector.getElem_ofFn] at hu
    exact (recopyCopy_works hu).elim (law.works hf) id
  · split
    · exact refused _
    next i hi =>
    have free : s.files[i].file = none := by
      have none := firstIx_sound hi
      exact Option.isNone_iff_eq_none.mp none
    refine startFile_holdings rfl rfl (fun _ => by rw [channelAt, free]; rfl) (fun law d hu => ?_) _
    simp only [freshRecord, Fin.getElem_fin, Vector.getElem_ofFn] at hu
    exact freshCopy_works hu

theorem takeOpen_holdings (l : SrcLink) (g : Segment) (s : State) : HoldingsKept s (takeOpen l g s) := by
  unfold takeOpen
  split
  · exact (loseOne_unmoved _ s).kept
  split
  · split
    · exact .refl s
    · exact decideOpen_holdings _ _ _ s
  · exact (refuseOpen_unmoved _ _ _ s).kept

/-! ### Data segments (chapter 2) -/

theorem checkSize_unmoved (i : FileIx) (s : State) : Unmoved s (checkSize i s) := by
  unfold checkSize
  split
  · exact .refl s
  split
  · split
    · exact logFault_unmoved _ s
    · exact .refl s
  · exact .refl s

theorem queueCloses_holdings (i : FileIx) (s : State) : HoldingsKept s (queueCloses i s) := by
  unfold queueCloses
  split
  · exact .refl s
  · next f h =>
    exact enqueueAll_holdings (fun s => .close (tidOf i s) (f.finalDigest.getD 0) f.nextOffset) (fun _ _ _ => rfl)
      (ds := f.unsettledDests) (allIx_nodup _) fun law d hd => law.works h (FileRec.mem_unsettledDests.mp hd)

theorem reevalFile_unmoved (i : FileIx) (s : State) : Unmoved s (reevalFile i s) := by
  unfold reevalFile
  split
  · exact .refl s
  · exact (reeval_frame _ s).unmoved

theorem lastSegment_holdings (i : FileIx) (s : State) : HoldingsKept s (lastSegment i s) := by
  have closed : Unmoved s (checkSize i (modFile i FileRec.finalise (closeAtLast i s))) :=
    (closeAtLast_unmoved i s).trans ((modFile_unmoved i FileRec.finalise _ (fun _ => rfl) fun _ _ _ => id).trans
      (checkSize_unmoved i _))
  have ended : ∀ u, Unmoved u (reevalFile i (endFollowLast (tidOf i u) 1 (endFollowLast (tidOf i u) 0 u))) := fun u =>
    (endFollowLast_frame _ 0 u).unmoved.trans ((endFollowLast_frame _ 1 _).unmoved.trans (reevalFile_unmoved i _))
  exact closed.kept.trans ((queueCloses_holdings i _).trans ((leaveStreaming_holdings i _ _).trans
    ((ended _).kept.trans (settleFile_holdings i _))))

/-- R36: a DATA entry joins where a copy is PENDING or SENDING. -/
theorem queueData_holdings {i : FileIx} {s : State} {f k : FileRec} (h : s.files[i].file = some k)
    (copies : f.copies = k.copies) (slot : SlotIx) : HoldingsKept s (queueData i slot f s) := by
  have queued := queueData_queued i slot f s
  refine .of_worked (by rw [queued.frame]) (by rw [queued.frame]) fun d => ?_
  rw [queued.dest]
  split
  · next hd =>
    refine .inr ⟨rfl, fun law => law.works h ?_⟩
    rw [← copies]
    rcases FileRec.mem_receivers.mp hd with pending | sending
    · rw [pending]; rfl
    · rw [sending]; rfl
  · refine .inl ?_
    rw [List.append_nil]

theorem readSegment_unmoved (l : SrcLink) (i : FileIx) (slot : SlotIx) (f : FileRec) (g : Segment) (s : State) :
    Unmoved s (readSegment l i slot f g s) := by
  unfold readSegment
  split
  · exact .refl s
  split
  · exact (readPreview_unmoved i l _ g s).trans ((offerLookTo_unmoved l _ slot g _ _ 0 _).trans
      (offerLookTo_unmoved l _ slot g _ _ 1 _))
  split
  · exact readMeta_unmoved i l _ g s
  · exact .refl s

/-- R36, R66: a file's record when an accepted segment's bytes have been counted and summed. -/
def FileRec.summed (g : Segment) (f : FileRec) : FileRec :=
  { f with sums := f.sums.advance g.payload, nextOffset := f.nextOffset + g.payload.length }

theorem acceptBytes_holdings (l : SrcLink) {i : FileIx} (slot : SlotIx) {f : FileRec} (g : Segment) {s : State}
    (h : s.files[i].file = some f) : HoldingsKept s (acceptBytes l i slot f g s) := by
  have summed := modFile_unmoved i (FileRec.summed g) s (fun _ => rfl) fun _ _ _ => id
  have file : (modFile i (FileRec.summed g) s).files[i].file = some (f.summed g) := by
    rw [modFile_files, vmod_self, h]
    rfl
  exact summed.kept.trans ((queueData_holdings file rfl slot).trans (readSegment_unmoved l i slot f g _).kept)

theorem takeData_holdings (l : SrcLink) (g : Segment) (s : State) : HoldingsKept s (takeData l g s) := by
  have logged : ∀ c number, HoldingsKept s (logCardFile .sequence c number [g.offset] s) := fun _ _ =>
    (logCardFile_unmoved _ _ _ _ s).kept
  unfold takeData
  split
  · exact (loseOne_unmoved _ s).kept
  split
  · exact .refl s
  split
  · exact logged _ _
  next i _ =>
  split
  · next f slot file _ =>
    split
    · refine HoldingsKept.trans ?_ (checkStalls_unmoved _).kept
      split
      · have bytes : HoldingsKept s (if g.payload = [] then s else acceptBytes l i slot f g s) := by
          split
          · exact .refl s
          · exact acceptBytes_holdings l slot g file
        unfold acceptData
        dsimp only
        split
        · exact bytes.trans (lastSegment_holdings i _)
        · exact bytes
      · exact breakFile_holdings _ _ s
    · exact logged _ _
  · exact .refl s

theorem refuseHeader_holdings (l : SrcLink) (g : Segment) (s : State) : HoldingsKept s (refuseHeader l g s) := by
  have lost : HoldingsKept s (loseOne .malformed s) := (loseOne_unmoved _ s).kept
  unfold refuseHeader
  split
  · unfold refuseData
    split
    · exact lost
    split
    · exact .refl s
    split
    · exact lost
    split
    · exact (breakFile_holdings _ _ s).trans (checkStalls_unmoved _).kept
    · exact (logCardFile_unmoved _ _ _ _ s).kept
  · exact lost

/-! ### Cards (chapter 1) -/

theorem takeMount_unmoved (l : SrcLink) (g : Segment) (s : State) : Unmoved s (takeMount l g s) := by
  have refused : ∀ cls h, Unmoved s (refuseMount cls h s) := fun _ _ => logFault_unmoved _ s
  unfold takeMount
  dsimp only
  split
  · split
    · exact refused _ _
    split
    · exact refused _ _
    split
    · exact modCard_unmoved _ _ s
    · split
      · exact refused _ _
      · exact .same rfl rfl rfl
  · exact loseOne_unmoved _ s

theorem takeCardEnd_unmoved (l : SrcLink) (g : Segment) (s : State) : Unmoved s (takeCardEnd l g s) := by
  unfold takeCardEnd
  split
  · exact loseOne_unmoved _ s
  split
  · exact .refl s
  split
  · refine Unmoved.trans ?_ (reeval_frame _ _).unmoved
    split
    · exact (modCard_unmoved _ _ s).trans (logFault_unmoved _ _)
    · exact modCard_unmoved _ _ s
  · exact .refl s

theorem takeUnmount_holdings (l : SrcLink) (g : Segment) (s : State) : HoldingsKept s (takeUnmount l g s) := by
  unfold takeUnmount
  split
  · exact .refl s
  · have stopped := fun is => (abortStreaming_holdings is s).trans (checkStalls_unmoved _).kept
    refine HoldingsKept.trans ?_ ((modCard_unmoved _ _ _).trans (reeval_frame _ _).unmoved).kept
    split
    · exact (stopped _).trans ((modCard_unmoved _ _ _).trans (logFault_unmoved _ _)).kept
    · exact stopped _

/-- R12: the head of a link is taken, and its processing ends. -/
theorem takeHead_holdings {l : SrcLink} {kind : Segment → Bool} {f : Segment → State → State} {s : State}
    (taken : ∀ g, HoldingsKept s (f g s)) : HoldingsKept s (takeHead l kind f s) := by
  unfold takeHead
  split
  · exact .refl s
  split
  · refine HoldingsKept.trans ?_ (endProcessing_frame l _).unmoved.kept
    split
    · exact taken _
    · exact refuseHeader_holdings l _ s
  · exact .refl s

/-! ### Commands (chapter 10) -/

theorem guardBody_holdings (shape : BodyShape) (s : State) {go : Answer} (h : HoldingsKept s go.after) :
    HoldingsKept s (guardBody shape s go).after := by
  unfold guardBody
  split
  · split
    · exact .refl s
    · split
      · exact .refl s
      · exact h
  · exact .same rfl rfl rfl

theorem answerHead_holdings (l : SrcLink) (g : Segment) (a : Answer) {s : State} (h : HoldingsKept s a.after) :
    HoldingsKept s (answerHead l g a) :=
  h.trans ((queueReply_frame l _ _).unmoved.trans (endProcessing_frame l _).unmoved).kept

theorem takeControl_holdings (l : SrcLink) (mine : Segment → Bool) (f : Segment → State → State) {s : State}
    (h : ∀ g, HoldingsKept s (f g s)) : HoldingsKept s (takeControl l mine f s) := by
  have ended : ∀ u, Unmoved u (endProcessing l u) := fun u => (endProcessing_frame l u).unmoved
  unfold takeControl
  split
  · exact .refl s
  split
  · split
    · split
      · unfold takeCommand
        split
        · exact .refl s
        split
        · split
          · exact h _
          · exact .refl s
        · exact answerHead_holdings l _ _ (.refl s)
      · exact ((loseOne_unmoved _ s).trans (ended _)).kept
    · exact (refuseHeader_holdings l _ s).trans (ended _).kept
  · exact .refl s

/-- R193: no table holds copies or channels; a destination's entry leaves its link alone. -/
theorem writeEntry_unmoved (t : TableName) (k : Nat) (b : Bytes) (s : State) : Unmoved s (writeEntry t k b s) := by
  cases t with
  | partConfig =>
    unfold writeEntry
    dsimp only
    split <;> exact .same rfl rfl rfl
  | _ => exact .same rfl rfl rfl

theorem cmdWriteTable_holdings (b : Bytes) (s : State) : HoldingsKept s (cmdWriteTable b s).after := by
  unfold cmdWriteTable
  split
  · exact guardBody_holdings _ s (.refl s)
  · refine guardBody_holdings _ s (Unmoved.kept (.foldl _ (fun s k => ?_) _ s))
    split
    · exact writeEntry_unmoved _ _ _ s
    · exact .refl s

theorem readForm_unmoved (b : Bytes) (s : State) : Unmoved s (readForm b s).after := by
  unfold readForm
  split
  case h_2 => unfold readFiles; split <;> exact .refl s
  case h_6 =>
    refine (progressEngine_unmoved 0 s).trans ((progressEngine_unmoved 1 _).trans ?_)
    unfold readEngines Answer.done
    dsimp only
    split
    · exact .same rfl rfl rfl
    · exact .refl _
  all_goals exact .refl s

theorem ackRecords_unmoved (p : FaultRec → Bool) (s : State) : Unmoved s (ackRecords p s) :=
  (ackRecords_frame p s).unmoved

theorem cmdAckFaults_holdings (b : Bytes) (s : State) : HoldingsKept s (cmdAckFaults b s).after := by
  unfold cmdAckFaults
  split
  · refine guardBody_holdings _ s ?_
    unfold ackByKeys
    dsimp only
    split
    · exact (ackRecords_unmoved _ s).kept
    · exact .refl s
  · refine guardBody_holdings _ s ?_
    unfold ackByLabel
    dsimp only
    split
    · exact (ackRecords_unmoved _ s).kept
    · exact .refl s
  · exact guardBody_holdings _ s (.refl s)

theorem onCard_holdings (label : Bytes) {s : State} {f : CardIx → Card → Answer}
    (h : ∀ c k, HoldingsKept s (f c k).after) : HoldingsKept s (onCard label s f).after := by
  unfold onCard
  split
  · exact .refl s
  · split
    · exact .refl s
    · exact h _ _

theorem cmdReleaseCard_holdings (b : Bytes) (s : State) : HoldingsKept s (cmdReleaseCard b s).after := by
  refine guardBody_holdings _ s (onCard_holdings _ fun c k => ?_)
  split
  · show HoldingsKept s (releaseEffect c k s)
    unfold releaseEffect
    dsimp only
    split
    · exact .same rfl rfl rfl
    · exact .trans (t := putCard c none s) (.same rfl rfl rfl) (offerNotice_frame _ _).unmoved.kept
  · exact .refl s

theorem clearFile_holdings (i : FileIx) (s : State) : HoldingsKept s (clearFile i s) :=
  (discardCopies_holdings i s).trans ((releaseChannel_holdings i _).trans
    (freeFile_holdings fun _ => releaseChannel_idle i _))

theorem clearEffect_holdings (c : CardIx) (k : Card) (s : State) : HoldingsKept s (clearEffect c k s) := by
  have cleared : HoldingsKept s ((filesOf s c fun _ => true).foldl (fun s i => clearFile i s) s) :=
    .foldl _ (fun s i => clearFile_holdings i s) _ s
  have put : ∀ u, Unmoved u (putCard c none u) := fun _ => .same rfl rfl rfl
  exact cleared.trans (((endFollowsAbort_frame _ _).unmoved.trans ((checkStalls_unmoved _).trans
    ((logFault_unmoved _ _).trans (put _)))).kept)

/-- R48: a file that is waived is SHORT, and names no channel. -/
theorem waiveFile_holdings (i : FileIx) (s : State) : HoldingsKept s (waiveFile i s).after := by
  unfold waiveFile
  split
  · exact .refl s
  next f h =>
  split
  · next short =>
    have issued := (issueManifest_unmoved (manifestOf i f true s) s).trans
      (modCard_unmoved f.card (fun k => { k with waived := satInc k.waived }) _)
    have file : (modCard f.card (fun k => { k with waived := satInc k.waived })
        (issueManifest (manifestOf i f true s) s)).files[i].file = some f := by
      rw [modCard_files, (issueManifest_kept_records _ s).1]
      exact h
    exact issued.kept.trans ((freeFile_holdings fun law => law.none_named file (by rw [short]; decide)).trans
      (reeval_frame _ _).unmoved.kept)
  · exact .refl s

theorem cmdWaiveFile_holdings (b : Bytes) (s : State) : HoldingsKept s (cmdWaiveFile b s).after := by
  refine guardBody_holdings _ s (onCard_holdings _ fun c k => ?_)
  split
  · exact .refl s
  · exact waiveFile_holdings _ s

theorem cmdDestQuarantine_holdings (b : Bytes) (s : State) : HoldingsKept s (cmdDestQuarantine b s).after := by
  refine guardBody_holdings _ s ?_
  unfold quarantineCommand
  split
  · exact .refl s
  · dsimp only [Answer.done]
    exact enterQuarantine_holdings .byCommand (destArg b) s

/-- R95: a destination restored was QUARANTINED, and so quiet. -/
theorem cmdDestRestore_holdings (b : Bytes) (s : State) : HoldingsKept s (cmdDestRestore b s).after := by
  refine guardBody_holdings _ s ?_
  unfold restoreCommand
  split
  · next state =>
    have rested : s.dest[destArg b].Resting := .inr (.inr state)
    exact modDest_holdings (destArg b) DestPort.restore s fun _ _ => ⟨rested, fun quiet => quiet.moved rfl rfl⟩
  · exact .refl s

theorem cmdTestFrame_holdings (b : Bytes) (s : State) : HoldingsKept s (cmdTestFrame b s).after := by
  refine guardBody_holdings _ s ?_
  unfold testCommand
  split
  · next free => exact (startTest_unmoved free _ _ _ _).kept
  · exact .refl s

/-! ### Source links and resets (chapters 1 and 10) -/

theorem resetSource_holdings (l : SrcLink) (keepHead : Bool) (s : State) :
    HoldingsKept s (resetSource l keepHead s) := by
  have cleared : Unmoved s (emptied l keepHead s) := by
    have frame := emptied_frame l keepHead s
    exact .same (by rw [frame]) (by rw [frame]) (by rw [frame])
  rw [resetSource_eq]
  exact cleared.kept.trans ((abortStreaming_holdings _ _).trans (checkStalls_unmoved _).kept)

theorem cmdLinkReset_holdings (l : SrcLink) (b : Bytes) (s : State) : HoldingsKept s (cmdLinkReset l b s).after := by
  refine guardBody_holdings _ s ?_
  show HoldingsKept s (linkReset l (fieldAt b 0 1) s)
  unfold linkReset
  split
  · exact resetSource_holdings _ _ s
  · exact resetDest_holdings _ s

theorem overrunAt_unmoved (l : SrcLink) (s : State) : Unmoved s (overrunAt l s) := by
  unfold overrunAt
  dsimp only
  split
  · exact loseOne_unmoved _ s
  · exact (loseOne_unmoved _ s).trans ((modSrc_unmoved l _ _).trans (logFault_unmoved _ _))

theorem acceptSegment_unmoved (l : SrcLink) (i : SlotIx) (g : Segment) (s : State) :
    Unmoved s (acceptSegment l i g s) := by
  unfold acceptSegment
  dsimp only
  split
  · exact (decideHead_frame l _).unmoved.after rfl rfl rfl
  · exact .same rfl rfl rfl

theorem startReturn_unmoved (l : SrcLink) (s : State) : Unmoved s (startReturn l s) := by
  unfold startReturn
  dsimp only
  split
  · split
    · exact .same rfl rfl rfl
    split
    · exact .same rfl rfl rfl
    split
    · exact .same rfl rfl rfl
    · exact .refl s
  · exact .refl s

theorem endReturn_unmoved (l : SrcLink) (s : State) : Unmoved s (endReturn l s) := by
  unfold endReturn
  split
  · exact .refl s
  · refine Unmoved.trans ?_ (modSrc_unmoved l _ _)
    unfold returnSent
    split
    · exact .refl s
    · exact modSrc_unmoved l _ s
    · exact .same rfl rfl rfl

theorem dropArrivals_unmoved (l : SrcLink) (s : State) : Unmoved s (dropArrivals l s) := by
  have cleared : ∀ (is : List SlotIx) (u : State), Unmoved u (is.foldl (fun s i => clearMark i s) u) :=
    .foldl _ fun s i => (clearMark_frame i s).unmoved
  unfold dropArrivals
  refine Unmoved.trans ?_ (cleared _ _)
  split
  · exact modSrc_unmoved l _ s
  · exact (modSrc_unmoved l _ s).trans (decideHead_frame l _).unmoved

theorem softStopFile_holdings (i : FileIx) (s : State) : HoldingsKept s (softStopFile i s) := by
  unfold softStopFile
  split
  · exact .refl s
  split
  · exact discardCopies_holdings i s
  · exact (Unmoved.foldl _ (fun s d => cancelTimer_unmoved i d s) _ s).kept
  · exact .refl s

theorem DestPort.Quiet.noResendUnlessHalt {p : DestPort} (h : p.Quiet) : p.noResendUnlessHalt.Quiet := by
  unfold DestPort.noResendUnlessHalt
  split
  · exact h
  · refine ⟨fun e he => h.waiting e ?_, fun x e hx _ => ?_⟩
    · unfold DestPort.waiting at he
      dsimp only at he
      rw [Option.isSome_map] at he
      exact he
    · obtain ⟨y, -, rfl⟩ := Option.map_eq_some_iff.mp hx
      exact .inr rfl

/-- R103: of the entries that wait the HALTs alone are left. -/
theorem DestPort.Quiet.emptied {p : DestPort} (h : p.Quiet) :
    ({ p with queue := p.sending ++ p.waiting.filter (· == .halt) } : DestPort).Quiet := by
  have all : p.waiting.filter (· == .halt) = p.waiting := List.filter_eq_self.mpr fun e he => by
    rw [h.waiting e he]
    rfl
  exact h.moved (by rw [all]; exact DestPort.sending_append_waiting p) rfl

theorem softEmpty_holdings (d : Dest) (s : State) : HoldingsKept s (softEmpty d s) := by
  have purged := releaseEntries_frame (s.dest[d].waiting.filter fun e => !(e == .halt))
    (modDest d (fun p => { p with queue := p.sending ++ p.waiting.filter (· == .halt) }) s)
  refine HoldingsKept.trans (t := purgeWaiting d (· == .halt) s) ?_ (modDest_holdings d _ _ fun _ rests =>
    ⟨?_, DestPort.Quiet.noResendUnlessHalt⟩)
  · exact (modDest_holdings d _ s fun _ rests => ⟨rests, DestPort.Quiet.emptied⟩).trans purged.unmoved.kept
  · unfold DestPort.noResendUnlessHalt at rests
    split at rests <;> exact rests

/-- R103: ABORTs join on a link that is UP. -/
theorem softAborts_holdings (d : Dest) (s : State) : HoldingsKept s (softAborts d s) := by
  refine modDest_holdings d _ s fun _ rests => ?_
  split at rests
  · next up =>
    simp only [DestPort.Resting, up] at rests
    simp at rests
  · next other => exact ⟨rests, fun quiet => by rw [if_neg other]; exact quiet⟩

/-- R49: no file record is left and no channel serves one. -/
theorem freed_holdings (s : State) : HoldingsKept s (freeTables (freeChannels s)) where
  quiet law := quietLaw_iff.mpr fun d rests => ⟨(quietLaw_iff.mp law d rests).1, fun j => by
    rw [copyAt_none (by simp [freeTables])]
    rfl⟩
  paired _ := channelLaw_iff.mpr ⟨fun j f c hf _ => by simp [freeTables] at hf,
    fun c o ho => by simp [freeTables, freeChannels, ChannelRec.owner, ChannelRec.initial] at ho⟩

theorem softReset_holdings (s : State) : HoldingsKept s (softReset s) := by
  unfold softReset
  dsimp only
  have arrivals := Unmoved.foldl (fun s l => dropArrivals l s) (fun s l => dropArrivals_unmoved l s) (List.finRange 4)
  have files := HoldingsKept.foldl (fun s i => softStopFile i s) (fun s i => softStopFile_holdings i s)
    (List.finRange 512)
  have queues := HoldingsKept.foldl (fun s d => softEmpty d s) (fun s d => softEmpty_holdings d s) (List.finRange 6)
  have aborts := HoldingsKept.foldl (fun s d => softAborts d s) (fun s d => softAborts_holdings d s) (List.finRange 6)
  exact (arrivals s).kept.trans ((files _).trans ((queues _).trans
    (((softResetEngine_unmoved 0 _).trans (softResetEngine_unmoved 1 _)).kept.trans ((aborts _).trans
      ((freed_holdings _).trans (checkStalls_unmoved _).kept)))))

theorem runSoftReset_holdings (l : SrcLink) (g : Segment) (s : State) : HoldingsKept s (runSoftReset l g s) := by
  have answered := answerHead_holdings l g (guardBody (emptyShape g.payload) s (.done [] s))
    (guardBody_holdings _ s (.refl s))
  unfold runSoftReset
  dsimp only
  split
  · exact answered.trans (softReset_holdings _)
  · exact answered

/-! ### The step -/

/-- A step of the live part keeps the laws where what it does to a part that is not held in reset does. -/
theorem live_holdings {s t : State} {f : State → Host.Outcome State Fault Refusal}
    (hf : ∀ u, f s = .next u → HoldingsKept s u) (e : live s f = .next t) : HoldingsKept s t := by
  unfold live at e
  split at e
  · cases e; exact .refl s
  · exact hf t e

/-- The same, for a step that always has a next state. -/
theorem live_next_holdings {s t : State} {f : State → State} (hf : HoldingsKept s (f s))
    (e : (live s fun s => .next (f s)) = .next t) : HoldingsKept s t :=
  live_holdings (fun u k => by cases k; exact hf) e

theorem runCommand_holdings {l : SrcLink} {mine : Segment → Bool} {cmd : Bytes → State → Answer} {s t : State}
    (kept : ∀ b, HoldingsKept s (cmd b s).after) (e : runCommand l mine cmd s = .next t) : HoldingsKept s t :=
  live_next_holdings (f := takeControl l mine fun g s => answerHead l g (cmd g.payload s))
    (takeControl_holdings l mine _ fun g => answerHead_holdings l g _ (kept _)) e

theorem execSegmentArrival_holdings {l : SrcLink} {wire : Bytes} {s t : State}
    (e : execSegmentArrival l wire s = .next t) : HoldingsKept s t := by
  refine live_holdings (fun u k => ?_) e
  split at k
  · cases k; exact .refl s
  split at k
  · split at k
    · cases k; exact (overrunAt_unmoved l s).kept
    · split at k
      · cases k
      · cases k; exact (acceptSegment_unmoved l _ _ s).kept
  · cases k; exact .refl s

theorem exec_holdings (c : Instr) (s t : State) (e : exec c s = .next t) : HoldingsKept s t := by
  have src : ∀ l f u, HoldingsKept u (modSrc l f u) := fun l f u => (modSrc_unmoved l f u).kept
  cases c with
  | powerOnReset adr =>
    cases e
    have kept : Unmoved State.reset (powerOn adr s) := .same rfl rfl rfl
    exact ⟨fun _ => kept.kept.quiet quietLaw_reset, fun _ => kept.kept.paired channelLaw_reset⟩
  | resetNHeldLow => cases e; exact .same rfl rfl rfl
  | sourcePartnerDetected l =>
    refine live_next_holdings ?_ e
    split
    · exact src l _ s
    · exact .refl s
  | sourceAlignmentAchieved l =>
    refine live_next_holdings ?_ e
    split
    · exact src l _ s
    · exact .refl s
  | sourceLossOfAlignment l =>
    refine live_next_holdings ?_ e
    split
    · exact resetSource_holdings l _ s
    · exact .refl s
  | sourcePartnerLost l =>
    unfold exec execSourcePartnerLost at e
    refine live_holdings (fun u k => ?_) e
    cases k
    split
    · exact .refl s
    · exact src l _ s
    · exact (resetSource_holdings l _ s).trans (src l _ _)
  | segmentArrival l wire => exact execSegmentArrival_holdings e
  | returnItemStart l => exact live_next_holdings (startReturn_unmoved l s).kept e
  | returnItemEndGood l => exact live_next_holdings (endReturn_unmoved l s).kept e
  | mount l => exact live_next_holdings (takeHead_holdings fun g => (takeMount_unmoved l g s).kept) e
  | unmount l => exact live_next_holdings (takeHead_holdings fun g => takeUnmount_holdings l g s) e
  | cardEnd l => exact live_next_holdings (takeHead_holdings fun g => (takeCardEnd_unmoved l g s).kept) e
  | openFile l => exact live_next_holdings (takeHead_holdings fun g => takeOpen_holdings l g s) e
  | essence l => exact live_next_holdings (takeHead_holdings fun g => takeData_holdings l g s) e
  | preview l => exact live_next_holdings (takeHead_holdings fun g => takeData_holdings l g s) e
  | metaRecord l => exact live_next_holdings (takeHead_holdings fun g => takeData_holdings l g s) e
  | unknownKindSegment l => exact live_next_holdings (takeHead_holdings fun _ => .refl s) e
  | entryStart x => exact live_next_holdings (startEntry_unmoved x s).kept e
  | entryCompletion x => exact live_next_holdings (completeEntry_unmoved x s).kept e
  | destPartnerDetected d =>
    have present := modDest_unmoved d (fun p => { p with partner := true }) s rfl
    refine live_next_holdings (present.kept.trans ?_) e
    have trained := train_holdings d (modDest d (fun p => { p with partner := true }) s)
    unfold modDest at trained ⊢
    dsimp only at trained ⊢
    rw [vmod_vmod] at trained
    exact trained
  | announce d wire =>
    unfold exec execAnnounce at e
    refine live_holdings (fun u k => ?_) e
    cases k
    split
    · exact .refl s
    split
    · exact (achieve_holdings d _ s).trans (checkStall_unmoved d _).kept
    · exact .refl s
  | destLossOfAlignment d => exact live_next_holdings (loseAlignment_holdings d s) e
  | destPartnerLost d =>
    unfold exec execDestPartnerLost at e
    refine live_holdings (fun u k => ?_) e
    cases k
    exact (loseAlignment_holdings d s).trans (losePartner_holdings d _)
  | retrainTimerExpiry d =>
    refine live_next_holdings ?_ e
    split
    · exact (downProcedure_holdings d s).trans (train_holdings d _)
    · exact .refl s
  | destTransmissionStart d =>
    unfold exec execDestTransmissionStart at e
    refine live_holdings (fun u k => ?_) e
    cases k
    split
    · exact .refl s
    next a rest queue =>
    split
    · next starts => exact startTransmission_holdings queue starts
    · exact (checkStall_unmoved d s).kept
  | destTransmissionEndGood d => exact live_next_holdings (endTransmission_holdings d s) e
  | credit d wire =>
    exact live_next_holdings (takeInbound_holdings _ d wire _ s fun m => (takeCreditMessage_unmoved d m s).kept) e
  | verify d wire => exact live_next_holdings (takeInbound_holdings _ d wire _ s fun m => takeVerify_holdings d m s) e
  | writeError d wire =>
    exact live_next_holdings (takeInbound_holdings _ d wire _ s fun m => takeWriteError_holdings d m s) e
  | unknownDestMessage d wire => exact live_next_holdings (f := id) (.refl s) e
  | verifyTimerExpiry d f => exact live_next_holdings (expireTimer_holdings f d s) e
  | identify l => exact runCommand_holdings (fun b => guardBody_holdings _ s (.refl s)) e
  | writeTable l => exact runCommand_holdings (fun b => cmdWriteTable_holdings b s) e
  | readTable l => exact runCommand_holdings (fun b => guardBody_holdings _ s (.refl s)) e
  | readState l => exact runCommand_holdings (fun b => guardBody_holdings _ s (readForm_unmoved b s).kept) e
  | readFaults l => exact runCommand_holdings (fun b => guardBody_holdings _ s (.refl s)) e
  | ackFaultsKeys l => exact runCommand_holdings (fun b => cmdAckFaults_holdings b s) e
  | ackFaultsLabel l => exact runCommand_holdings (fun b => cmdAckFaults_holdings b s) e
  | waiveLoss l =>
    refine runCommand_holdings (fun b => guardBody_holdings _ s (onCard_holdings _ fun c k => ?_)) e
    have waived : Unmoved s (waiveMark c s) := (modCard_unmoved c _ s).trans (reeval_frame c _).unmoved
    exact waived.kept
  | releaseCard l => exact runCommand_holdings (fun b => cmdReleaseCard_holdings b s) e
  | clearCard l =>
    refine runCommand_holdings (fun b => guardBody_holdings _ s (onCard_holdings _ fun c k => ?_)) e
    exact clearEffect_holdings c k s
  | waiveFile l => exact runCommand_holdings (fun b => cmdWaiveFile_holdings b s) e
  | destQuarantine l => exact runCommand_holdings (fun b => cmdDestQuarantine_holdings b s) e
  | destRestore l => exact runCommand_holdings (fun b => cmdDestRestore_holdings b s) e
  | reviewSelect l =>
    refine runCommand_holdings (fun b => guardBody_holdings _ s ?_) e
    dsimp only [selectCommand, Answer.done]
    exact (takeSelection_frame _ _ s).unmoved.kept
  | setCounterEvents l => exact runCommand_holdings (fun b => guardBody_holdings _ s (.same rfl rfl rfl)) e
  | readCounters l => exact runCommand_holdings (fun b => guardBody_holdings _ s (.same rfl rfl rfl)) e
  | testFrame l => exact runCommand_holdings (fun b => cmdTestFrame_holdings b s) e
  | testFrameEvaluation ch => exact live_next_holdings (evaluateTest_unmoved ch s).kept e
  | linkResetSource l => exact runCommand_holdings (fun b => cmdLinkReset_holdings l b s) e
  | linkResetDest l => exact runCommand_holdings (fun b => cmdLinkReset_holdings l b s) e
  | softReset l => exact live_next_holdings (takeControl_holdings l _ _ fun g => runSoftReset_holdings l g s) e

theorem step_holdings {s t : State} (e : step s = .next t) : HoldingsKept s t := by
  unfold step at e
  split at e
  · cases e; exact .refl s
  · next c rest _ =>
    have popped : Unmoved s { s with pending := rest } := .same rfl rfl rfl
    exact popped.kept.trans (exec_holdings c _ t e)

/-- Settles O7: queues and copies change on destinations that may work alone, and a file and its channel name each other
from the assignment to the release, through every command. -/
theorem quietAndChannelLawsKept : Obligations.QuietAndChannelLawsKept :=
  ⟨fun _ _ law e => (step_holdings e).quiet law, fun _ _ law e => (step_holdings e).paired law⟩

end Sys2Proof.Machine
end

