-- ==== Sys2Proof/Proofs/DestLinks.lean ====
section
/-! PROOF. The destination links (R75 to R89, R92, R218): alignment and announcements, the retrain timer, and the start
and the good end of a transmission. Settles O31, O32, O33 and O34. -/

namespace Sys2Proof.Machine

open Sys2Proof

/-! ### The steps of a part that is not held in reset -/

section
variable (d : Dest) (wire : Bytes) {s : State} (h : s.resetLow = false)
include h

theorem exec_destPartnerDetected :
    exec (.destPartnerDetected d) s = .next (modDest d (fun p => ({ p with partner := true } : DestPort).train) s) :=
  live_running h fun s => .next (modDest d (fun p => ({ p with partner := true } : DestPort).train) s)

theorem exec_destLossOfAlignment : exec (.destLossOfAlignment d) s = .next (loseAlignment d s) :=
  live_running h fun s => .next (loseAlignment d s)

theorem exec_destPartnerLost : exec (.destPartnerLost d) s = .next (modDest d (fun p =>
    { p with partner := false, state := if p.state = .training then .down else p.state }) (loseAlignment d s)) :=
  live_running h fun s => .next (modDest d (fun p =>
    { p with partner := false, state := if p.state = .training then .down else p.state }) (loseAlignment d s))

theorem exec_retrainTimerExpiry (runs : s.dest[d].retrain.isSome = true) :
    exec (.retrainTimerExpiry d) s = .next (modDest d DestPort.train (downProcedure d s)) :=
  (live_running h fun s =>
    .next (if s.dest[d].retrain.isSome then modDest d DestPort.train (downProcedure d s) else s)).trans
    (congrArg Host.Outcome.next (if_pos runs))

theorem exec_destTransmissionEndGood : exec (.destTransmissionEndGood d) s = .next (endTransmission d s) :=
  live_running h fun s => .next (endTransmission d s)

theorem exec_destTransmissionStart_empty (queue : s.dest[d].queue = []) :
    exec (.destTransmissionStart d) s = .next s := by
  show execDestTransmissionStart d s = _
  unfold execDestTransmissionStart
  rw [live_running h, queue]

theorem exec_destTransmissionStart {e : QEntry} {rest : List QEntry} (queue : s.dest[d].queue = e :: rest) :
    exec (.destTransmissionStart d) s =
      .next (if s.dest[d].canStart e then startTransmission d e s else checkStall d s) := by
  show execDestTransmissionStart d s = _
  unfold execDestTransmissionStart
  rw [live_running h, queue]

theorem exec_announce {m : InMessage} (hm : InMessage.ofBytes wire = some m) (type : m.type = 3) :
    exec (.announce d wire) s =
      .next (if m.numberOk then checkStall d (modDest d (fun p => p.achieve m.number) s) else s) := by
  have message : inboundOf 3 wire = some m := by
    unfold inboundOf
    rw [hm, Option.filter_some, type]
    rfl
  show execAnnounce d wire s = _
  unfold execAnnounce
  rw [live_running h, message]

end

/-! ### The events of a link (O31) -/

section
variable {d : Dest} {s : State}

theorem nullify_dest_eq (d : Dest) (s : State) : (nullify d s).dest = vmod s.dest d DestPort.cut :=
  vector_ext fun d' => by rw [nullify_dest, vmod_get]

/-- R82: a transmission that is sent again keeps its references. -/
theorem nullify_resent (h : s.dest[d].tx.any DestTx.noResend = false) :
    (nullify d s).src = s.src ∧ (nullify d s).slots = s.slots := by
  unfold nullify
  split
  · exact ⟨rfl, rfl⟩
  · next x hx =>
    rw [hx, Option.any_some] at h
    rw [if_neg (Bool.eq_false_iff.mp h)]
    exact ⟨rfl, rfl⟩

theorem DestPort.cut_partner (p : DestPort) : p.cut.partner = p.partner := rfl

theorem loseAlignment_idle (h : s.dest[d].state = .down ∨ s.dest[d].state = .training ∨ s.dest[d].state = .retraining) :
    loseAlignment d s = s := by
  unfold loseAlignment
  rcases h with state | state | state <;> rw [state]

/-- R87, R92: what is left of a link's record when its alignment is lost. -/
theorem loseAlignment_dest {f : DestPort → DestPort}
    (h : loseAlignment d s = modDest d f (nullify d s)) :
    loseAlignment d s = { s with
      src := (nullify d s).src, slots := (nullify d s).slots, dest := vmod s.dest d fun p => f p.cut } := by
  have frame := nullify_frame d s
  have dest := nullify_dest_eq d s
  unfold DestOnly at frame
  rw [h, modDest, dest, vmod_vmod]
  generalize nullify d s = u at *
  rw [frame]

/-- R87, R92: an UP or a QUARANTINED link loses its alignment, or its partner with it. -/
theorem alignment_lost {f : DestPort → DestPort} {c : Instr} {partner : Bool} (running : s.resetLow = false)
    (event : (c = .destLossOfAlignment d ∧ partner = s.dest[d].partner) ∨ (c = .destPartnerLost d ∧ partner = false))
    (lost : loseAlignment d s = modDest d f (nullify d s)) (same : ∀ p : DestPort, (f p).partner = p.partner)
    (state : (f s.dest[d].cut).state ≠ .training) :
    ∃ t, exec c s = .next t ∧ t = { s with src := t.src, slots := t.slots, dest := t.dest } ∧
      (s.dest[d].tx.any DestTx.noResend = false → t.src = s.src ∧ t.slots = s.slots) ∧
      t.dest = vmod s.dest d fun p => { f p.cut with partner := partner } := by
  have after := loseAlignment_dest lost
  rcases event with ⟨rfl, rfl⟩ | ⟨rfl, rfl⟩
  · refine ⟨_, exec_destLossOfAlignment d running, by rw [after], by rw [after]; exact nullify_resent, ?_⟩
    rw [after]
    show (vmod s.dest d fun p => f p.cut) = _
    refine vmod_congr s.dest d ?_
    have kept := same s.dest[d].cut
    rw [DestPort.cut_partner] at kept
    rw [← kept]
  · refine ⟨_, exec_destPartnerLost d running, by rw [after]; rfl, by rw [after]; exact nullify_resent, ?_⟩
    rw [after, modDest_dest, vmod_vmod]
    refine vmod_congr s.dest d ?_
    dsimp only
    rw [if_neg state]

/-- R75, R76, R88, R92: an announcement in form is a credit exchange, and with no credit in use no link stalls. -/
theorem announce_achieves {wire : Bytes} {m : InMessage} {f : DestPort → DestPort} (running : s.resetLow = false)
    (hm : InMessage.ofBytes wire = some m) (type : m.type = 3) (form : m.numberOk = true)
    (achieves : s.dest[d].achieve m.number = f s.dest[d]) (limit : (f s.dest[d]).limit = announcedLimit m.number)
    (unused : (f s.dest[d]).inUse = 0) :
    exec (.announce d wire) s = .next { s with dest := vmod s.dest d f } := by
  have dest : modDest d (fun p => p.achieve m.number) s = modDest d f s := by
    unfold modDest
    rw [vmod_congr s.dest d (f := fun p => p.achieve m.number) (g := f) achieves]
  have calm : checkStall d (modDest d f s) = modDest d f s := by
    refine (checkStall_checked d (modDest d f s) _ rfl).2 ?_
    rintro ⟨-, -, full, -⟩
    rw [modDest_dest, vmod_self, limit, unused] at full
    unfold announcedLimit at full
    split at full
    · cases full
    · next some => exact some (CreditLimit.number.inj full)
  rw [exec_announce d wire running hm type, if_pos form, dest, calm]
  rfl

end

/-- Settles O31: what an event does follows from the link's state, and a loss of alignment cuts the transmission. -/
theorem destLinkEvents : Obligations.DestLinkEvents := by
  refine ⟨fun d s running => ⟨?_, fun state => ⟨?_, ?_⟩, fun c partner event => ⟨fun up => ?_, fun quarantined => ?_⟩⟩,
    fun d wire m s running hm type => ⟨fun form state => ?_, fun form quarantined unaligned => ?_, fun form => ?_⟩⟩
  · rw [exec_destPartnerDetected d running]
    unfold modDest DestPort.train
    simp only [and_true]
  · rw [exec_destLossOfAlignment d running, loseAlignment_idle state]
  · rw [exec_destPartnerLost d running, loseAlignment_idle state]
    rfl
  · refine alignment_lost running event (f := fun p => { p with
      state := .retraining, retrain := some s.destConfig[d].retrainLimit }) ?_ (fun _ => rfl) DestState.noConfusion
    unfold loseAlignment
    rw [up]
    rfl
  · refine alignment_lost running event (f := fun p => { p with aligned := false, limit := .absent, inUse := 0 }) ?_
      (fun _ => rfl) ?_
    · unfold loseAlignment
      rw [quarantined]
      rfl
    · show s.dest[d].state ≠ .training
      rw [quarantined]
      decide
  · refine announce_achieves running hm type form ?_ ?_ rfl
    · unfold DestPort.achieve DestPort.exchange
      rcases state with state | state <;> rw [state] <;> rfl
    · rfl
  · refine announce_achieves running hm type form ?_ ?_ rfl
    · unfold DestPort.achieve DestPort.exchange
      rw [quarantined]
      dsimp only
      rw [unaligned]
      rfl
    · rfl
  · rw [exec_announce d wire running hm type, form]
    rfl

/-! ### The retrain timer (O32) -/

/-- Settles O32: the timer that expires runs the DOWN procedure, and training begins where a partner is present. -/
theorem retrainExpiryGoesDown : Obligations.RetrainExpiryGoesDown := by
  intro d s running runs
  obtain ⟨-, dest, failed⟩ := downProcedure_spec d s
  rw [exec_retrainTimerExpiry d running (Option.isSome_iff_ne_none.mpr runs)]
  generalize downProcedure d s = u at dest failed
  refine ⟨_, rfl, ?_, failed⟩
  refine vector_ext fun d' => ?_
  rw [modDest_dest, vmod_get, vmod_get, dest, dest, if_pos rfl]
  split
  · unfold DestPort.train DestPort.down
    simp only [true_and]
  · rfl

/-! ### The start of a transmission (O33) -/

theorem QEntry.needsCredit_iff (e : QEntry) : e.needsCredit = true ↔ e ≠ .halt := by
  cases e <;> simp [needsCredit]

theorem DestPort.carries_iff (p : DestPort) :
    p.carries = true ↔ p.state = .up ∨ p.state = .quarantined ∧ p.aligned = true := by
  simp [DestPort.carries]

/-- R77: a HALT needs no credit, and an unlimited destination has always one. -/
theorem DestPort.canTake_iff (p : DestPort) (e : QEntry) : p.canTake e = true ↔
    e = .halt ∨ p.limit = .unlimited ∨ ∃ n, p.limit = .number n ∧ p.inUse < n := by
  unfold DestPort.canTake
  rw [Bool.or_eq_true, Bool.not_eq_true', Bool.eq_false_iff, Ne, QEntry.needsCredit_iff, not_not]
  refine or_congr Iff.rfl ?_
  cases p.limit <;> simp

theorem DestPort.canStart_iff (p : DestPort) (e : QEntry) : p.canStart e = true ↔
    p.carries = true ∧ p.tx = none ∧ p.canTake e = true ∧ (p.state = .up ∨ e = .halt) := by
  simp [DestPort.canStart, and_assoc]

/-- R77: what an entry takes that needs a credit of a number, and what any other takes. -/
theorem DestPort.takeCredit_number {p : DestPort} {e : QEntry} {n : Nat} (needs : e ≠ .halt)
    (limit : p.limit = .number n) : p.takeCredit e = { p with inUse := p.inUse + 1 } := by
  unfold DestPort.takeCredit
  rw [limit]
  exact if_pos (e.needsCredit_iff.mpr needs)

theorem DestPort.takeCredit_none {p : DestPort} {e : QEntry} (free : e = .halt ∨ p.limit = .unlimited) :
    p.takeCredit e = p := by
  unfold DestPort.takeCredit
  split
  · next limit =>
    refine if_neg ?_
    rw [QEntry.needsCredit_iff, not_not]
    exact free.resolve_right fun no => by rw [limit] at no; cases no
  all_goals rfl

section
variable {d : Dest} {e : QEntry} {rest : List QEntry} {s : State} (running : s.resetLow = false)
  (queue : s.dest[d].queue = e :: rest)
include running queue

/-- R77, R82: the head entry starts, and takes the credit that `f` takes. -/
theorem transmission_starts {f : DestPort → DestPort} (starts : s.dest[d].canStart e = true)
    (credit : s.dest[d].takeCredit e = f s.dest[d]) :
    exec (.destTransmissionStart d) s = .next { s with dest := vmod s.dest d fun p => { f p with
      tx := some ⟨false, e.message s⟩, stall := false } } := by
  rw [exec_destTransmissionStart d running queue, if_pos starts]
  unfold startTransmission modDest
  dsimp only
  rw [vmod_congr s.dest d (f := fun p => { p.takeCredit e with tx := some ⟨false, e.message s⟩, stall := false })
    (g := fun p => { f p with tx := some ⟨false, e.message s⟩, stall := false }) (by rw [credit])]

/-- R79, R82: the head entry does not start, and no stall begins. -/
theorem transmission_waits (waits : ¬ s.dest[d].canStart e = true)
    (calm : s.dest[d].state = .up → s.dest[d].tx = none → s.dest[d].limit = .number s.dest[d].inUse →
      s.dest[d].stall = true) : exec (.destTransmissionStart d) s = .next s := by
  rw [exec_destTransmissionStart d running queue, if_neg waits, (checkStall_checked d s _ rfl).2]
  rintro ⟨up, idle, full, clear, -⟩
  rw [calm up idle full] at clear
  cases clear

end

/-- R77, R82: no entry starts on a link that is not UP or QUARANTINED. -/
theorem DestPort.not_canStart {p : DestPort} (state : p.state = .down ∨ p.state = .training ∨ p.state = .retraining)
    (e : QEntry) : ¬ p.canStart e = true := by
  rw [DestPort.canStart_iff, DestPort.carries_iff]
  rcases state with state | state | state <;> simp [state]

/-- R77: with every credit in use an entry that needs one does not start. -/
theorem DestPort.not_canStart_full {p : DestPort} {e : QEntry} (needs : e ≠ .halt) (full : p.limit = .number p.inUse) :
    ¬ p.canStart e = true := by
  rw [DestPort.canStart_iff, DestPort.canTake_iff]
  simp [needs, full]

/-- Settles O33: what starts is decided by the state, the entry's kind and the credits, and its message by its kind. -/
theorem transmissionStarts : Obligations.TransmissionStarts := by
  refine fun d s running => ⟨fun idle => ?_, fun e rest tx queue => ⟨fun up => ⟨fun free => ?_,
    fun n needs limit room => ?_, fun needs full clear => ?_, fun needs full set => ?_⟩, fun quarantined =>
    ⟨fun halt aligned => ?_, fun held => ?_⟩, ?_, ?_, ?_, ?_, ?_⟩⟩
  · cases queue : s.dest[d].queue with
    | nil => exact exec_destTransmissionStart_empty d running queue
    | cons e rest =>
      rcases idle with empty | busy | state
      · rw [queue] at empty
        cases empty
      · refine transmission_waits running queue (fun starts => ?_) fun _ none => absurd none busy
        exact busy ((s.dest[d].canStart_iff e).mp starts).2.1
      · refine transmission_waits running queue (DestPort.not_canStart state e) fun up => ?_
        rw [up] at state
        simp at state
  · refine transmission_starts running queue (f := id) ?_ (DestPort.takeCredit_none free)
    rw [DestPort.canStart_iff, DestPort.carries_iff, DestPort.canTake_iff]
    exact ⟨.inl up, tx, free.imp id .inl, .inl up⟩
  · refine transmission_starts running queue (f := fun p => { p with inUse := p.inUse + 1 }) ?_
      (DestPort.takeCredit_number needs limit)
    rw [DestPort.canStart_iff, DestPort.carries_iff, DestPort.canTake_iff]
    exact ⟨.inl up, tx, .inr (.inr ⟨n, limit, room⟩), .inl up⟩
  · rw [exec_destTransmissionStart d running queue, if_neg (DestPort.not_canStart_full needs full),
      (checkStall_checked d s _ rfl).1 ⟨up, tx, full, clear, e, rest, queue, needs⟩,
      vmod_congr s.dest d (g := fun p => { p with stall := true }) rfl]
  · exact transmission_waits running queue (DestPort.not_canStart_full needs full) fun _ _ _ => set
  · have message : e.message s = [4, 0, 0, 0, 0, 0, 0, 0] := by rw [halt]; rfl
    rw [← message]
    refine transmission_starts running queue (f := id) ?_ (DestPort.takeCredit_none (.inl halt))
    rw [DestPort.canStart_iff, DestPort.carries_iff, DestPort.canTake_iff]
    exact ⟨.inr ⟨quarantined, aligned⟩, tx, .inl halt, .inr halt⟩
  · refine transmission_waits running queue ?_ fun up => by rw [quarantined] at up; cases up
    rw [DestPort.canStart_iff, DestPort.carries_iff, quarantined]
    simp only [reduceCtorEq, false_or, true_and]
    rintro ⟨aligned, -, -, halt⟩
    exact held.elim (· halt) fun no => Bool.false_ne_true (no.symm.trans aligned)
  · rintro tid label file name size rfl
    cases size <;> cases name <;> rfl
  · rintro tid i rfl
    rfl
  · rintro tid digest size rfl
    rfl
  · rintro tid rfl
    rfl
  · rintro rfl
    rfl

/-! ### The good end of a transmission (O34) -/

section
variable {tid : Tid} {d : Dest} {old new : CopyState} {s : State}

theorem isCurrent_iff : isCurrent tid s = true ↔ ∃ f, s.files[tid.index] = ⟨tid.gen, some f⟩ := by
  unfold isCurrent
  rw [Bool.and_eq_true, Option.isSome_iff_exists, beq_iff_eq]
  exact ⟨fun ⟨⟨f, hf⟩, gen⟩ => ⟨f, by rw [← gen, ← hf]⟩, fun ⟨f, h⟩ => ⟨⟨f, by rw [h]⟩, by rw [h]⟩⟩

/-- R83: the transfer id names a file record whose copy is in a state. -/
def Names (tid : Tid) (d : Dest) (c : CopyState) (s : State) : Prop :=
  ∃ f, s.files[tid.index] = ⟨tid.gen, some f⟩ ∧ f.copies[d] = c

theorem names_iff {c : CopyState} : isCurrent tid s = true ∧ copyAt tid.index d s = c ↔ Names tid d c s := by
  rw [isCurrent_iff]
  constructor
  · rintro ⟨⟨f, h⟩, at_⟩
    exact ⟨f, h, by rw [← at_, copyAt_some (congrArg FilePos.file h)]⟩
  · rintro ⟨f, h, at_⟩
    exact ⟨⟨f, h⟩, by rw [copyAt_some (congrArg FilePos.file h), at_]⟩

theorem setCopy_files {i : FileIx} {f : FileRec} (h : s.files[i].file = some f) (c : CopyState) :
    (setCopy i d c s).files =
      vmod s.files i fun p => { p with file := some { f with copies := vmod f.copies d fun _ => c } } := by
  unfold setCopy
  rw [modFile_files]
  refine vmod_congr _ _ ?_
  rw [h]
  rfl

end

/-- R79: what an evaluation of the stall flag leaves of the destinations. -/
theorem checkStall_dest (d : Dest) (s : State) :
    (checkStall d s).dest = vmod s.dest d fun p => { p with stall := (checkStall d s).dest[d].stall } := by
  refine vector_ext fun d' => ?_
  rw [vmod_get]
  split
  · next e =>
    rw [e]
    exact (checkStall_rise d s).dest d
  · next other =>
    unfold checkStall
    split
    · exact vmod_other _ _ _ _ other
    · rfl

/-- R83: what the good end of a transmission can reach, whatever the entry. -/
structure Sent (d : Dest) (s t : State) : Prop where
  frame : t = { s with src := t.src, slots := t.slots, files := t.files, counters := t.counters, dest := t.dest }
  dest : ∃ timers openSet, t.dest = vmod s.dest d fun p => { p with timers := timers, openSet := openSet }

section
variable {d : Dest} {s t : State}

theorem Sent.of_eq (frame : t = { s with src := t.src, slots := t.slots, files := t.files, counters := t.counters }) :
    Sent d s t := by
  have dest : t.dest = s.dest := by rw [frame]
  refine ⟨?_, s.dest[d].timers, s.dest[d].openSet, ?_⟩
  · rw [dest]
    exact frame
  · rw [dest]
    exact (vmod_same _ _ _ rfl).symm

/-- R83, R84, R96: the timers or the open transfer set change. -/
theorem Sent.put {f : DestPort → DestPort} (h : Sent d s t)
    (put : ∀ p : DestPort, f p = { p with timers := (f p).timers, openSet := (f p).openSet }) :
    Sent d s (modDest d f t) := by
  obtain ⟨frame, timers, openSet, dest⟩ := h
  refine ⟨?_, (f t.dest[d]).timers, (f t.dest[d]).openSet, ?_⟩
  · rw [modDest, frame]
  · rw [modDest_dest]
    refine (vmod_congr t.dest d (f := f) (g := fun p => { p with
      timers := (f t.dest[d]).timers, openSet := (f t.dest[d]).openSet }) (put _)).trans ?_
    rw [dest, vmod_vmod]

theorem advanceCopy_sent (tid : Tid) (old new : CopyState) : Sent d s (advanceCopy tid d old new s) := by
  unfold advanceCopy
  split <;> exact .of_eq rfl

theorem sentGood_sent (d : Dest) (e : QEntry) (s : State) : Sent d s (sentGood d e s) := by
  cases e with
  | openMsg tid => exact (advanceCopy_sent tid _ _).put fun _ => rfl
  | data tid i =>
    have frame := dropRef_frame i (countEvent .segOut (.dest d) 1 s)
    unfold SlotsOnly at frame
    refine .of_eq ?_
    unfold sentGood
    dsimp only
    generalize dropRef i (countEvent .segOut (.dest d) 1 s) = u at *
    rw [frame]
    rfl
  | close tid =>
    unfold sentGood
    dsimp only
    split
    · have closed : Sent d s (setCopy tid.index d .closed s) := .of_eq rfl
      exact closed.put fun _ => rfl
    · exact .of_eq rfl
  | abort tid => exact (Sent.of_eq rfl).put fun _ => rfl
  | halt => exact (Sent.of_eq rfl).put fun _ => rfl

end

/-- R83, R79: a transmission has ended good, with `v` as its entry's kind leaves the state. -/
structure Ended (d : Dest) (rest : List QEntry) (v s t : State) : Prop where
  frame : t = { s with src := t.src, slots := t.slots, files := t.files, counters := t.counters, dest := t.dest }
  dest : t.dest = vmod s.dest d fun p => { p with
    tx := none, queue := rest, stall := t.dest[d].stall, timers := t.dest[d].timers, openSet := t.dest[d].openSet }
  kept : t.files = v.files ∧ t.src = v.src ∧ t.slots = v.slots
  timers : t.dest[d].timers = v.dest[d].timers
  openSet : t.dest[d].openSet = v.dest[d].openSet
  counters : t.dest[d].stall = s.dest[d].stall → t.counters = v.counters

/-- R83: the destination after the entry has left. -/
def DestPort.sent (rest : List QEntry) (p : DestPort) : DestPort := { p with tx := none, queue := rest }

section
variable {d : Dest} {e : QEntry} {rest : List QEntry} {x : DestTx} {s : State}

theorem endTransmission_eq (tx : s.dest[d].tx = some x) (queue : s.dest[d].queue = e :: rest) :
    endTransmission d s = checkStall d (sentGood d e (modDest d (DestPort.sent rest) s)) := by
  unfold endTransmission
  rw [tx, queue]
  rfl

theorem endTransmission_ended (tx : s.dest[d].tx = some x) (queue : s.dest[d].queue = e :: rest) :
    Ended d rest (sentGood d e (modDest d (DestPort.sent rest) s)) s (endTransmission d s) := by
  obtain ⟨frame, timers, openSet, dest⟩ := sentGood_sent d e (modDest d (DestPort.sent rest) s)
  rw [endTransmission_eq tx queue]
  generalize sentGood d e (modDest d (DestPort.sent rest) s) = v at *
  have stall := checkStall_frame d v
  have put := checkStall_dest d v
  have rise := checkStall_rise d v
  have others : ∀ d' : Dest, d' ≠ d → (checkStall d v).dest[d'] = v.dest[d'] := fun d' hd' => by
    rw [put, vmod_other _ _ _ _ hd']
  have one := rise.dest d
  have counters := rise.counters
  generalize checkStall d v = t at *
  have port : v.dest[d] = { s.dest[d] with tx := none, queue := rest, timers := timers, openSet := openSet } := by
    rw [dest, vmod_self, modDest_dest, vmod_self]
    rfl
  refine ⟨?_, ?_, ?_, by rw [one], by rw [one], fun same => counters fun d' => ?_⟩
  · unfold StallOnly at stall
    rw [stall, frame]
    rfl
  · refine vector_ext fun d' => ?_
    rw [vmod_get]
    split
    · next e => rw [e, one, port]
    · next other => rw [others d' other, dest, vmod_other _ _ _ _ other, modDest_dest, vmod_other _ _ _ _ other]
  · unfold StallOnly at stall
    rw [stall]
    exact ⟨rfl, rfl, rfl⟩
  · by_cases e : d' = d
    · rw [e, same, port]
    · rw [others d' e]

end

section
variable {tid : Tid} {d : Dest} {old new : CopyState} {s : State}

theorem advanceCopy_dest : (advanceCopy tid d old new s).dest = s.dest := by
  unfold advanceCopy
  split <;> rfl

theorem advanceCopy_files {f : FileRec} (h : s.files[tid.index] = ⟨tid.gen, some f⟩) (at_ : f.copies[d] = old) :
    (advanceCopy tid d old new s).files =
      vmod s.files tid.index fun p => { p with file := some { f with copies := vmod f.copies d fun _ => new } } := by
  unfold advanceCopy
  rw [if_pos (names_iff.mpr ⟨f, h, at_⟩)]
  exact setCopy_files (congrArg FilePos.file h) new

theorem advanceCopy_idle (h : ∀ f, s.files[tid.index] = ⟨tid.gen, some f⟩ → f.copies[d] ≠ old) :
    advanceCopy tid d old new s = s := by
  unfold advanceCopy
  refine if_neg fun current => ?_
  obtain ⟨f, hf, at_⟩ := names_iff.mp current
  exact h f hf at_

/-- R83, R96: a CLOSE whose copy is SENDING, and any other. -/
theorem sentGood_close {digest size : Nat} (h : Names tid d .sending s) :
    sentGood d (.close tid digest size) s = startTimer tid.index d (setCopy tid.index d .closed s) :=
  if_pos (names_iff.mpr h)

theorem sentGood_close_idle {digest size : Nat} (h : ¬ Names tid d .sending s) :
    sentGood d (.close tid digest size) s = s := if_neg fun current => h (names_iff.mp current)

end

/-- Settles O34: the entry leaves, what its kind does follows, and R79 reaches the stall flag alone. -/
theorem transmissionEnds : Obligations.TransmissionEnds := by
  intro d e rest x s running tx queue
  have ended := endTransmission_ended tx queue
  have port : (modDest d (DestPort.sent rest) s).dest[d] = s.dest[d].sent rest := by rw [modDest_dest, vmod_self]
  have files : (modDest d (DestPort.sent rest) s).files = s.files := rfl
  rw [exec_destTransmissionEndGood d running]
  generalize endTransmission d s = t at ended
  refine ⟨t, rfl, ended.frame, ended.dest, ?_, ?_, ?_, ?_, ?_⟩
  · rintro tid label number name size rfl
    have opened : t.files = (advanceCopy tid d .pending .sending (modDest d (DestPort.sent rest) s)).files :=
      ended.kept.1
    have set := ended.openSet
    have timers := ended.timers
    dsimp only [sentGood] at set timers
    rw [modDest_dest, vmod_self, advanceCopy_dest, port] at set timers
    refine ⟨set, timers, fun f hf at_ => opened.trans (advanceCopy_files hf at_), fun other => ?_⟩
    rw [opened, advanceCopy_idle (s := modDest d (DestPort.sent rest) s) other, files]
  · rintro tid i rfl
    have dropped := dropRef_frame i (countEvent .segOut (.dest d) 1 (modDest d (DestPort.sent rest) s))
    have spec := dropRef_spec i (s := countEvent .segOut (.dest d) 1 (modDest d (DestPort.sent rest) s))
    have same : ∀ u : State, u = sentGood d (.data tid i) (modDest d (DestPort.sent rest) s) →
        u.files = s.files ∧ u.dest[d] = s.dest[d].sent rest ∧
          u.counters = s.counters.map fun p => p.take .segOut (.dest d) 1 := fun u hu => by
      have left : u = dropRef i (countEvent .segOut (.dest d) 1 (modDest d (DestPort.sent rest) s)) := hu
      unfold SlotsOnly at dropped
      rw [left, dropped]
      exact ⟨rfl, port, rfl⟩
    obtain ⟨kept, dest, counted⟩ := same _ rfl
    obtain ⟨files', src, slots⟩ := ended.kept
    refine ⟨files'.trans kept, by rw [ended.openSet, dest]; rfl, by rw [ended.timers, dest]; rfl, fun m hm => ?_,
      fun calm => (ended.counters calm).trans counted⟩
    obtain ⟨slots', src'⟩ := spec m hm
    exact ⟨slots.trans slots', src.trans src'⟩
  · rintro tid digest size rfl
    obtain ⟨files', -, -⟩ := ended.kept
    have set := ended.openSet
    have timers := ended.timers
    by_cases named : Names tid d .sending (modDest d (DestPort.sent rest) s)
    · rw [sentGood_close named, startTimer, modDest_dest, vmod_self, setCopy, modFile_dest, port] at set timers
      refine ⟨set, fun f hf _ => ⟨timers, ?_⟩, fun other => ?_⟩
      · rw [files', sentGood_close named]
        exact setCopy_files (s := modDest d (DestPort.sent rest) s) (congrArg FilePos.file hf) .closed
      · obtain ⟨f, hf, at_⟩ := named
        exact absurd at_ (other f hf)
    · rw [sentGood_close_idle named, port] at set timers
      rw [sentGood_close_idle named] at files'
      exact ⟨set, fun f hf at_ => absurd ⟨f, hf, at_⟩ named, fun _ => ⟨files', timers⟩⟩
  · rintro tid rfl
    have set := ended.openSet
    have timers := ended.timers
    dsimp only [sentGood] at set timers
    rw [modDest_dest, vmod_self, port] at set timers
    exact ⟨ended.kept.1, timers, set⟩
  · rintro rfl
    have set := ended.openSet
    have timers := ended.timers
    dsimp only [sentGood] at set timers
    rw [modDest_dest, vmod_self, port] at set timers
    exact ⟨ended.kept.1, timers, set⟩

end Sys2Proof.Machine
end

