-- ==== Sys2Proof/Proofs/Inbound.lean ====
section
/-! PROOF. The messages of a destination's partner (R78, R97, R98, R100, R218): which file record one names, and what is
counted as late or stray. Settles O37. -/

namespace Sys2Proof.Machine

open Sys2Proof

/-! ### A message taken -/

section
variable {k : Nat} {d : Dest} {wire : Bytes} {m : InMessage} {f : InMessage → State → State} {s : State}

/-- R78, R97, R100: a message of its type is taken on a link that carries messages. -/
theorem takeInbound_taken (hm : InMessage.ofBytes wire = some m) (type : m.type = k)
    (carries : s.dest[d].carries = true) : takeInbound k d wire f s = f m s := by
  have message : inboundOf k wire = some m := by
    unfold inboundOf
    rw [hm, Option.filter_some, type, beq_self_eq_true]
    rfl
  unfold takeInbound
  rw [message]
  exact if_pos carries

/-- R87, R218: on another link it is discarded. -/
theorem takeInbound_discarded (carries : s.dest[d].carries = false) : takeInbound k d wire f s = s := by
  unfold takeInbound
  split
  · rfl
  · exact if_neg (Bool.eq_false_iff.mp carries)

end

section
variable (d : Dest) (wire : Bytes) {s : State} (running : s.resetLow = false)
include running

theorem exec_credit : exec (.credit d wire) s = .next (takeInbound 0 d wire (takeCreditMessage d) s) :=
  live_running running fun s => .next (takeInbound 0 d wire (takeCreditMessage d) s)

theorem exec_verify : exec (.verify d wire) s = .next (takeInbound 1 d wire (takeVerify d) s) :=
  live_running running fun s => .next (takeInbound 1 d wire (takeVerify d) s)

theorem exec_writeError : exec (.writeError d wire) s = .next (takeInbound 2 d wire (takeWriteError d) s) :=
  live_running running fun s => .next (takeInbound 2 d wire (takeWriteError d) s)

theorem exec_unknownDestMessage : exec (.unknownDestMessage d wire) s = .next s :=
  live_running running fun s => .next s

variable {m : InMessage} (hm : InMessage.ofBytes wire = some m) (carries : s.dest[d].carries = true)
include hm carries

theorem exec_credit_taken (type : m.type = 0) : exec (.credit d wire) s = .next (takeCreditMessage d m s) := by
  rw [exec_credit d wire running, takeInbound_taken hm type carries]

theorem exec_verify_taken (type : m.type = 1) : exec (.verify d wire) s = .next (takeVerify d m s) := by
  rw [exec_verify d wire running, takeInbound_taken hm type carries]

theorem exec_writeError_taken (type : m.type = 2) : exec (.writeError d wire) s = .next (takeWriteError d m s) := by
  rw [exec_writeError d wire running, takeInbound_taken hm type carries]

end

/-! ### The file record a message names (R97) -/

section
variable {m : InMessage} {j : FileIx} {f : FileRec} {s : State}

theorem resolve_some (index : m.index = j.val) (h : s.files[j] = ⟨m.gen, some f⟩) : resolve m s = some j := by
  have small : m.index < 512 := index ▸ j.isLt
  have same : (⟨m.index, small⟩ : FileIx) = j := Fin.ext index
  unfold resolve
  rw [dif_pos small, same, if_pos (isCurrent_iff.mpr ⟨f, h⟩)]

theorem resolve_none (h : ∀ j : FileIx, m.index = j.val → s.files[j].gen ≠ m.gen ∨ s.files[j].file = none) :
    resolve m s = none := by
  unfold resolve
  split
  · next small =>
    refine if_neg fun current => ?_
    obtain ⟨f, hf⟩ := isCurrent_iff.mp current
    dsimp only at hf
    rcases h ⟨m.index, small⟩ rfl with gen | free
    · exact gen (by rw [hf])
    · rw [hf] at free
      cases free
  · rfl

end

/-! ### What is counted (O37) -/

/-- R78: a CREDIT that can be taken. -/
theorem DestPort.creditOk_iff (p : DestPort) (n : Nat) :
    p.creditOk n = true ↔ (∃ k, p.limit = .number k) ∧ 1 ≤ n ∧ n ≤ p.inUse := by
  unfold DestPort.creditOk
  cases p.limit <;> simp

/-- R97, R98: a VERIFY in form, by the copy it names. -/
theorem takeVerify_named {d : Dest} {m : InMessage} {j : FileIx} {f : FileRec} {s : State} (form : m.verifyOk = true)
    (index : m.index = j.val) (h : s.files[j] = ⟨m.gen, some f⟩) :
    takeVerify d m s = verifyCopy j d (leNat m.body) s := by
  unfold takeVerify
  rw [if_pos form, resolve_some index h]

/-- Settles O37: a message is taken, late, stray or discarded by its form, the record it names and the copy there. -/
theorem inboundMessagesCounted : Obligations.InboundMessagesCounted := by
  intro d wire m s stray late running hm hstray hlate
  have lost : loseOne .stray s = stray := by rw [hstray]; rfl
  have latest : loseOne .lateVerifies s = late := by rw [hlate]; rfl
  refine ⟨exec_unknownDestMessage d wire running, fun idle => ⟨?_, ?_, ?_⟩, fun carries type => ⟨?_, fun refused => ?_⟩,
    fun carries type form => ?_, fun carries type form => ?_, fun carries j f index hf => ⟨?_, ?_, ?_⟩,
    fun carries unnamed => ⟨fun type => ?_, fun type => ?_⟩⟩
  · rw [exec_verify d wire running, takeInbound_discarded idle]
  · rw [exec_writeError d wire running, takeInbound_discarded idle]
  · rw [exec_credit d wire running, takeInbound_discarded idle]
  · intro form limit some few
    have ok : (m.numberOk && s.dest[d].creditOk m.number) = true := by
      rw [form, Bool.true_and, DestPort.creditOk_iff]
      exact ⟨limit, some, few⟩
    rw [exec_credit_taken d wire running hm carries type]
    unfold takeCreditMessage
    rw [if_pos ok]
    rfl
  · have no : ¬ (m.numberOk && s.dest[d].creditOk m.number) = true := by
      rw [Bool.and_eq_true, DestPort.creditOk_iff]
      rintro ⟨form, ⟨n, limit⟩, some, few⟩
      rcases refused with bad | absent | unlimited | zero | more
      · exact Bool.false_ne_true (bad.symm.trans form)
      · rw [limit] at absent; cases absent
      · rw [limit] at unlimited; cases unlimited
      · omega
      · omega
    rw [exec_credit_taken d wire running hm carries type]
    unfold takeCreditMessage
    rw [if_neg no, lost]
  · rw [exec_verify_taken d wire running hm carries type]
    unfold takeVerify
    rw [if_neg (Bool.eq_false_iff.mp form), lost]
  · rw [exec_writeError_taken d wire running hm carries type]
    unfold takeWriteError
    rw [if_neg (Bool.eq_false_iff.mp form), lost]
  · intro type form timeout
    rw [exec_verify_taken d wire running hm carries type, takeVerify_named form index hf]
    unfold verifyCopy
    rw [copyAt_some (congrArg FilePos.file hf), timeout]
    dsimp only
    rw [latest]
  · intro type form other untimed
    rw [exec_verify_taken d wire running hm carries type, takeVerify_named form index hf]
    unfold verifyCopy
    rw [copyAt_some (congrArg FilePos.file hf)]
    split
    · next closed => exact absurd closed other
    · next timeout => exact absurd timeout untimed
    · rw [lost]
  · intro type form settled
    rw [exec_writeError_taken d wire running hm carries type]
    unfold takeWriteError
    rw [if_pos form, resolve_some index hf]
    dsimp only
    rw [copyAt_some (congrArg FilePos.file hf), settled, if_neg Bool.false_ne_true, lost]
  · rw [exec_verify_taken d wire running hm carries type]
    unfold takeVerify
    rw [resolve_none unnamed, lost, ite_self]
  · rw [exec_writeError_taken d wire running hm carries type]
    unfold takeWriteError
    rw [resolve_none unnamed, lost, ite_self]

end Sys2Proof.Machine
end

