-- ==== Sys2Proof/Proofs/Quarantines.lean ====
section
/-! PROOF. The entry to QUARANTINED (R91, R93), by command and at the threshold, and the restore (R95). Settles O47. -/

namespace Sys2Proof.Machine

open Sys2Proof

/-! ### The failure of every copy on a destination (R89, R91) -/

/-- R89, R91: a destination's record has changed and slots were released; then its copies failed, and a record of the
destination followed. -/
theorem failedAll_spec {d : Dest} {f : DestPort → DestPort} {gone : List QEntry} {r : FailReason} {cls : FaultClass}
    {code : Option FaultCode} (hr : r ≠ .aborted) {s t : State}
    (ht : t = logDest cls code d (failAll d r (releaseEntries gone (modDest d f s)))) :
    SlotsFreed s t ∧
    t = { s with
      src := t.src, slots := t.slots, cards := t.cards, files := t.files, dest := t.dest, log := t.log
      keyCounter := t.keyCounter, notices := t.notices, loss := t.loss } ∧
    (t.dest = vmod s.dest d f) ∧ FailedAll d r cls code s t := by
  have first : SlotsFreed s (modDest d f s) := .of_eq rfl rfl
  have freed := first.trans (releaseEntries_freed gone (modDest d f s))
  have slots := releaseEntries_frame gone (modDest d f s)
  generalize releaseEntries gone (modDest d f s) = u at *
  have failed := failAll_frame d r u
  have logged : LogOnly (failAll d r u) (logDest cls code d (failAll d r u)) := logFault_frame _ _
  have same : FailedAll d r cls code u t := failAll_failed hr (by rw [ht, logged.files]) (by rw [ht])
  rw [← ht] at logged
  refine ⟨freed.trans (.of_eq (logged.src.trans failed.src) (logged.slots.trans failed.slots)), ?_, ?_, ?_⟩
  · have all := logged.toFiles
    unfold SlotsOnly at slots
    unfold FilesOnly at all failed
    rw [all, failed, slots]
    rfl
  · rw [logged.dest, failed.dest, slots.dest]
    rfl
  · have hfiles : u.files = s.files := slots.files
    have hlog : u.log = s.log := by unfold SlotsOnly at slots; rw [slots]; rfl
    have hon : unsettledOn d u = unsettledOn d s := by unfold unsettledOn copyAt; rw [hfiles]
    unfold FailedAll at same ⊢
    rw [hon, hlog, hfiles] at same
    exact same

/-! ### The entry to QUARANTINED -/

/-- R91: a HALT joins where the open transfer set is not empty and none waits. -/
theorem haltFor_eq (queue : List QEntry) (set : List Tid) :
    haltFor queue set = if set = [] ∨ .halt ∈ queue then queue else queue ++ [.halt] := by
  unfold haltFor
  by_cases needed : set ≠ [] ∧ QEntry.halt ∉ queue
  · rw [if_pos needed, if_neg fun no => no.elim needed.1 needed.2]
  · rw [if_neg needed, if_pos (by tauto)]

theorem DestPort.enterQuarantine_state (p : DestPort) : p.enterQuarantine.state = .quarantined := by
  unfold DestPort.enterQuarantine
  split <;> rfl

theorem enterQuarantine_port (code : FaultCode) (d : Dest) (s : State) :
    (enterQuarantine code d s).dest[d] = s.dest[d].enterQuarantine := by
  obtain ⟨-, -, dest, -⟩ := failedAll_spec (d := d) (f := DestPort.enterQuarantine) (gone := s.dest[d].quarantinePurge)
    (r := .quarantined) (cls := .destQuarantined) (code := some code) (by decide) (s := s)
    (t := enterQuarantine code d s) rfl
  rw [dest, vmod_self]

/-- R91: whatever the code, the entry follows the state that the destination leaves. -/
theorem enterQuarantine_quarantines (code : FaultCode) (d : Dest) (s : State) :
    SlotsFreed s (enterQuarantine code d s) ∧ Quarantines d code s (enterQuarantine code d s) := by
  obtain ⟨freed, frame, dest, failed⟩ := failedAll_spec (d := d) (f := DestPort.enterQuarantine)
    (gone := s.dest[d].quarantinePurge) (r := .quarantined) (cls := .destQuarantined) (code := some code) (by decide)
    (s := s) (t := enterQuarantine code d s) rfl
  refine ⟨freed, frame, fun d' hd' => by rw [dest, vmod_other _ _ _ _ hd'], ?_, failed⟩
  rintro p rfl
  rw [enterQuarantine_port]
  unfold DestPort.enterQuarantine DestPort.quarantine
  refine ⟨fun up => ?_, fun retraining => ?_, fun idle => ?_⟩
  · rw [up]
    dsimp only [DestPort.sending]
    cases s.dest[d].tx <;> rfl
  · rw [retraining]
    dsimp only
    rw [haltFor_eq]
    simp only [List.not_mem_nil, or_false, List.nil_append]
  · rcases idle with state | state <;> rw [state] <;> dsimp only <;> rw [haltFor_eq]

/-- Nothing of this lies on the links or in the slots. -/
theorem Quarantines.slots {d : Dest} {code : FaultCode} {s t u : State} (h : Quarantines d code s t)
    (k : SlotsOnly t u) : Quarantines d code s u := by
  obtain ⟨frame, others, port, failed⟩ := h
  have dest : u.dest = t.dest := k.dest
  have files : u.files = t.files := k.files
  unfold SlotsOnly at k
  refine ⟨?_, ?_, ?_, ?_⟩
  · rw [k, frame]
  · rw [dest]
    exact others
  · rw [dest]
    exact port
  · have log : u.log = t.log := by rw [k]
    unfold FailedAll at failed ⊢
    rw [files, log]
    exact failed

/-! ### DEST QUARANTINE and DEST RESTORE (O47) -/

section
variable {l : SrcLink} {i : SlotIx} {g : Segment} {d : Dest} {s : State} (h : Serves l i g s)
  (passes : (destShape g.payload).passes) (names : fieldAt g.payload 0 1 = d.val)
include h passes names

omit h passes in
theorem destArg_eq : destArg g.payload = d :=
  Fin.ext ((congrArg (· % 6) names).trans (Nat.mod_eq_of_lt d.isLt))

theorem exec_destQuarantine (code : g.command = 11) :
    exec (.destQuarantine l) s = .next (answerHead l g (quarantineCommand d s)) := by
  have mine : hasCode 11 g = true := by rw [hasCode, code]; rfl
  show execDestQuarantine l s = _
  unfold execDestQuarantine runCommand
  rw [live_running h.1.1, takeControl_good l i g _ _ s h mine (by rw [code]; rfl), cmdDestQuarantine,
    guardBody_passes _ _ _ passes, destArg_eq names]

theorem exec_destRestore (code : g.command = 12) :
    exec (.destRestore l) s = .next (answerHead l g (restoreCommand d s)) := by
  have mine : hasCode 12 g = true := by rw [hasCode, code]; rfl
  show execDestRestore l s = _
  unfold execDestRestore runCommand
  rw [live_running h.1.1, takeControl_good l i g _ _ s h mine (by rw [code]; rfl), cmdDestRestore,
    guardBody_passes _ _ _ passes, destArg_eq names]

end

/-- R189, R190: a command refused in a state changes nothing but what its answer does. -/
theorem answerHead_refused {l : SrcLink} {i : SlotIx} {g : Segment} {s : State} (h : Serves l i g s) (r : CmdResult) :
    SlotsOnly s (answerHead l g (.refuse r s)) ∧ Replied l i g r [] s (answerHead l g (.refuse r s)) :=
  ⟨answerHead_frame l g (.refuse r s), answerHead_spec l i g (.refuse r s) s h.1.2.1 h.1.2.2 rfl rfl⟩

theorem arrivals_queued {l : SrcLink} {i : SlotIx} {g : Segment} {s : State} (h : Serves l i g s) :
    s.src[l].arrivals ≠ [] := fun empty => by
  have head := h.1.2.1
  rw [empty] at head
  cases head

/-- Settles O47: each command is refused in the other state, and else answered after its effect. -/
theorem destQuarantinedAndRestored : Obligations.DestQuarantinedAndRestored := by
  refine ⟨fun l i g d s h code passes names => ⟨fun state => ?_, fun state => ?_⟩,
    fun l i g d s h code passes names => ⟨fun state => ?_, fun state st hst => ?_⟩⟩
  · obtain ⟨frame, replied⟩ := answerHead_refused h .refusedState
    refine ⟨_, (exec_destQuarantine h passes names code).trans ?_, frame, replied⟩
    rw [quarantineCommand, if_pos state]
  · obtain ⟨freed, quarantines⟩ := enterQuarantine_quarantines .byCommand d s
    have now : (enterQuarantine .byCommand d s).dest[d].state = .quarantined := by
      rw [enterQuarantine_port, DestPort.enterQuarantine_state]
    have body : destBody d (unsettledOn d s).length (enterQuarantine .byCommand d s) =
        [4, 0] ++ le 2 (unsettledOn d s).length := by
      rw [destBody, now]
      rfl
    have run : exec (.destQuarantine l) s = .next (answerHead l g
        (.done ([4, 0] ++ le 2 (unsettledOn d s).length) (enterQuarantine .byCommand d s))) := by
      rw [exec_destQuarantine h passes names code, quarantineCommand, if_neg state]
      dsimp only
      rw [body]
    generalize enterQuarantine .byCommand d s = u at *
    refine ⟨_, run, ?_, quarantines.slots (answerHead_frame l g _)⟩
    exact answerHead_replied l g (.done _ _) (freed.ports l) (arrivals_queued h)
  · obtain ⟨frame, replied⟩ := answerHead_refused h .refusedState
    refine ⟨_, (exec_destRestore h passes names code).trans ?_, frame, replied⟩
    rw [restoreCommand, if_neg state]
  · have port : s.dest[d].restore = { s.dest[d] with state := st, failures := 0 } := by
      rw [hst]
      rfl
    have body : destBody d 0 (modDest d DestPort.restore s) =
        [if st = .up then 2 else if st = .training then 1 else 0, 0, 0, 0] := by
      have small : st = .up ∨ st = .training ∨ st = .down := by
        rw [hst]
        split
        · exact .inl rfl
        · split
          · exact .inr (.inl rfl)
          · exact .inr (.inr rfl)
      rw [destBody, modDest_dest, vmod_self, port]
      rcases small with rfl | rfl | rfl <;> rfl
    have run : exec (.destRestore l) s = .next (answerHead l g
        (.done [if st = .up then 2 else if st = .training then 1 else 0, 0, 0, 0] (modDest d DestPort.restore s))) := by
      rw [exec_destRestore h passes names code, restoreCommand, if_pos state]
      dsimp only
      rw [body]
    have frame := answerHead_frame l g (.done [if st = .up then 2 else if st = .training then 1 else 0, 0, 0, 0]
      (modDest d DestPort.restore s))
    refine ⟨_, run, ?_, ?_, answerHead_spec l i g (.done _ _) s h.1.2.1 h.1.2.2 rfl rfl⟩
    · unfold SlotsOnly at frame
      rw [frame]
      rfl
    · rw [frame.dest]
      exact vmod_congr s.dest d port

end Sys2Proof.Machine
end

