-- ==== Sys2Proof/Proofs/Settling.lean ====
section
/-! PROOF. What follows a stored record (R180, R182), and how a file settles whole (R39, R40, R176). -/

namespace Sys2Proof.Machine

open Sys2Proof

/-! ### What a stored record makes known -/

/-- R24: the verdict of an evaluated card is the one R24 gives then. -/
theorem reeval_cards {c : CardIx} {k : Card} {s : State} (h : s.cards[c] = some k) :
    (reeval c s).cards = vmod s.cards c fun _ => some { k with verdict := verdictOf (reeval c s) c k } := by
  have verdict : verdictOf (reeval c s) c k = verdictOf s c k := verdictOf_same rfl rfl rfl
  rw [verdict, reeval, modCard_cards]
  refine vmod_congr _ _ ?_
  rw [h]
  rfl

section
variable {q : FaultRec} {s s' t t' : State}

/-- R180, R182: what is announced lies in the notices, the loss counters and the cards. -/
theorem Announced.of_eq (h : Announced q s t)
    (before : s'.part = s.part ∧ s'.notices = s.notices ∧ s'.loss = s.loss ∧ s'.cards = s.cards)
    (after : t'.notices = t.notices ∧ t'.loss = t.loss ∧ t'.cards = t.cards ∧ t'.files = t.files ∧ t'.log = t.log) :
    Announced q s' t' := by
  obtain ⟨part, notices, loss, cards⟩ := before
  obtain ⟨notices', loss', cards', files', log'⟩ := after
  obtain ⟨room, full, off, verdict, apart⟩ := h
  unfold Announced NamesCard
  rw [part, notices, loss, cards, notices', loss', cards']
  refine ⟨room, full, off, fun label c k hold names card => ?_, apart⟩
  rw [verdict label c k hold names card, verdictOf_same files' log' rfl]

/-- R182: the notice of a record, or of a manifest, is offered. -/
theorem offerNotice_offered (n : NoticeItem) (s : State) :
    (s.notices.length < 16 → (offerNotice n s).notices = s.notices ++ [⟨n, none⟩] ∧ (offerNotice n s).loss = s.loss) ∧
    (16 ≤ s.notices.length → (offerNotice n s).notices = s.notices ∧
      (offerNotice n s).loss = { s.loss with noticesDropped := oneMore s.loss.noticesDropped }) := by
  unfold offerNotice Config.noticeCap
  refine ⟨fun room => ?_, fun full => ?_⟩
  · rw [if_pos room]
    exact ⟨rfl, rfl⟩
  · rw [if_neg (Nat.not_lt.mpr full)]
    exact ⟨rfl, rfl⟩

/-- R180: the verdict that follows a record reaches no notice. -/
theorem reevalLabel_notices (label : Bytes) (s : State) :
    (reevalLabel label s).notices = s.notices ∧ (reevalLabel label s).loss = s.loss := by
  unfold reevalLabel
  split <;> exact ⟨rfl, rfl⟩

/-- R180, R182: a record is announced. -/
theorem announceRecord_announced (q : FaultRec) (s : State) : Announced q s (announceRecord q s) := by
  have offered := offerNotice_offered (.fault q) s
  have cards := offerNotice_cards (.fault q) s
  unfold announceRecord
  dsimp only
  have noticed : ∀ u : State, u = (if s.part.notices = true then offerNotice (.fault q) s else s) →
      u.cards = s.cards ∧
      (s.part.notices = true → s.notices.length < 16 → u.notices = s.notices ++ [⟨.fault q, none⟩] ∧ u.loss = s.loss) ∧
      (s.part.notices = true → 16 ≤ s.notices.length → u.notices = s.notices ∧
        u.loss = { s.loss with noticesDropped := oneMore s.loss.noticesDropped }) ∧
      (s.part.notices = false → u.notices = s.notices ∧ u.loss = s.loss) := by
    rintro u rfl
    split
    · next on =>
      exact ⟨cards, fun _ => offered.1, fun _ => offered.2, fun off => absurd (off.symm.trans on) Bool.false_ne_true⟩
    · next off => exact ⟨rfl, fun on => absurd on off, fun on => absurd on off, fun _ => ⟨rfl, rfl⟩⟩
  have known := noticed _ rfl
  generalize (if s.part.notices = true then offerNotice (.fault q) s else s) = u at *
  obtain ⟨same, room, full, off⟩ := known
  split
  · next label hold hlabel =>
    obtain ⟨notices, loss⟩ := reevalLabel_notices label u
    unfold Announced
    rw [notices, loss]
    refine ⟨room, full, off, fun label' c k _ hl names => ?_, fun apart => ?_⟩
    · cases hlabel.symm.trans hl
      have found : cardByLabel label u = some c := cardByLabel_named (by unfold NamesCard; rw [same]; exact names)
      unfold reevalLabel
      rw [found]
      dsimp only
      rw [reeval_cards (same ▸ names.1), same]
    · have absent : cardByLabel label u = none := cardByLabel_absent fun c => by
        rw [same]
        exact (apart.resolve_left fun no => no hold) label hlabel c
      unfold reevalLabel
      rw [absent]
      exact same
  · next other =>
    exact ⟨room, full, off, fun label c k hold hl => absurd hl (other label hold), fun _ => same⟩

/-- R178, R180, R182: a record with a place in the log is announced. -/
theorem logFault_announced (r : FaultRec) {s : State} (room : s.log.length < 64) :
    Announced (placed r s) s (logFault r s) := by
  rw [logFault_room room]
  exact (announceRecord_announced (placed r s)
    { s with log := s.log ++ [placed r s], keyCounter := ((placed r s).key + 1) % 65536 }).of_eq
      ⟨rfl, rfl, rfl, rfl⟩ ⟨rfl, rfl, rfl, rfl, rfl⟩

end

/-! ### Settling -/

/-- R40: the set of the destinations whose copies are VERIFIED. -/
theorem FileRec.verifiedSet_iff (f : FileRec) (d : Dest) :
    f.verifiedSet.getLsbD d.val = true ↔ f.copies[d] = .verified := by
  have one : ∀ d e : Dest, (1#6 <<< e.val).getLsbD d.val = decide (d = e) := by decide
  have all : ∀ (ds : List Dest) (set : BitVec 6), (ds.foldl (fun acc e => acc ||| (1#6 <<< e.val)) set).getLsbD d.val =
      (set.getLsbD d.val || decide (d ∈ ds)) := fun ds => by
    induction ds with
    | nil => simp
    | cons e rest ih =>
      intro set
      rw [List.foldl_cons, ih, BitVec.getLsbD_or, one, Bool.or_assoc]
      simp
  unfold verifiedSet destsWith
  rw [all, BitVec.getLsbD_zero, Bool.false_or, decide_eq_true_eq, mem_allIx, beq_iff_eq]

section
variable {j : FileIx} {f : FileRec} {s : State} (h : s.files[j].file = some f)
include h

theorem settleFile_waits (waits : ¬ f.AllSettled) : settleFile j s = s := by
  unfold settleFile
  rw [h]
  exact if_neg fun settled => waits ⟨settled.1, FileRec.unsettledDests_nil.mp settled.2⟩

theorem settleFile_enough (all : f.AllSettled) (enough : f.route.required ≤ f.verifiedCount) :
    settleFile j s = completeFile j f s := by
  unfold settleFile
  rw [h]
  dsimp only
  rw [if_pos ⟨all.1, FileRec.unsettledDests_nil.mpr all.2⟩, if_pos enough]

theorem settleFile_few (all : f.AllSettled) (few : f.verifiedCount < f.route.required) :
    settleFile j s = settleShort j f s := by
  unfold settleFile
  rw [h]
  dsimp only
  rw [if_pos ⟨all.1, FileRec.unsettledDests_nil.mpr all.2⟩, if_neg (Nat.not_le.mpr few)]

end

/-- R40: of the state, a manifest reaches the notice queue and its counter. -/
theorem issueManifest_offered (m : Manifest) (s : State) :
    (s.part.manifests = true → issueManifest m s = offerNotice (.manifest m) s) ∧
    (s.part.manifests = false → issueManifest m s = s) := by
  unfold issueManifest
  exact ⟨fun on => if_pos on, fun off => if_neg (Bool.eq_false_iff.mp off)⟩

theorem issueManifest_cards (m : Manifest) (s : State) : (issueManifest m s).cards = s.cards := by
  unfold issueManifest
  split
  · exact offerNotice_cards _ s
  · rfl

theorem issueManifest_keyCounter (m : Manifest) (s : State) : (issueManifest m s).keyCounter = s.keyCounter := by
  unfold issueManifest offerNotice
  split
  · split <;> rfl
  · rfl

/-- R39, R40: a file that is freed behind its manifest. -/
theorem completeFile_kept (j : FileIx) (f : FileRec) (s : State) :
    (completeFile j f s).log = s.log ∧ (completeFile j f s).keyCounter = s.keyCounter ∧
    (completeFile j f s).notices = (issueManifest (manifestOf j f false s) s).notices ∧
    (completeFile j f s).loss = (issueManifest (manifestOf j f false s) s).loss :=
  ⟨(issueManifest_kept_records _ s).2, issueManifest_keyCounter _ s, rfl, rfl⟩

/-- R23, R24, R39: and its card, with one more file completed. -/
theorem completeFile_cards {j : FileIx} {f : FileRec} {k k' : Card} {s : State} (h : s.cards[f.card] = some k)
    (hk : k' = { k with completed := satInc k.completed }) : (completeFile j f s).cards = vmod s.cards f.card fun _ =>
      some { k' with verdict := verdictOf (completeFile j f s) f.card k' } := by
  have counted : (freeFile j (modCard f.card (fun k => { k with completed := satInc k.completed })
      (issueManifest (manifestOf j f false s) s))).cards = vmod s.cards f.card fun _ => some k' := by
    rw [freeFile_cards, modCard_cards, issueManifest_cards]
    refine vmod_congr _ _ ?_
    rw [h, hk]
    rfl
  unfold completeFile
  dsimp only
  rw [reeval_cards (k := k') (by rw [counted, vmod_self]), counted, vmod_vmod]

/-- R39, R176: a file that goes SHORT, with its record. -/
theorem settleShort_logged {j : FileIx} {f : FileRec} {k : Card} {s : State} (hk : s.cards[f.card] = some k)
    (room : s.log.length < 64) : ∃ q, (settleShort j f s).log = s.log ++ [q] ∧ SettledShort f k q ∧
      Announced q s (settleShort j f s) := by
  have label : labelAt f.card s = k.label := by
    unfold labelAt
    rw [hk]
    rfl
  unfold settleShort
  dsimp only
  generalize hs : modFile j (fun f => { f with state := .short }) s = u
  have kept : u.log = s.log ∧ u.cards = s.cards ∧ u.part = s.part ∧ u.notices = s.notices ∧ u.loss = s.loss := by
    rw [← hs]
    exact ⟨rfl, rfl, rfl, rfl, rfl⟩
  obtain ⟨log, cards, part, notices, loss⟩ := kept
  have label' : labelAt f.card u = k.label := by
    unfold labelAt at label ⊢
    rw [cards]
    exact label
  rw [label']
  generalize hr : ({ FaultRec.ofFile .fileShort .hold k.label f.number with
    code := some .shortSettled, values := [f.verifiedCount, f.route.required] } : FaultRec) = r
  have announced := logFault_announced r (s := u) (by rw [log]; exact room)
  have short : SettledShort f k (placed r u) := by
    rw [← hr]
    exact ⟨rfl, rfl, rfl, rfl, rfl, rfl⟩
  refine ⟨placed r u, ?_, short, ?_⟩
  · rw [reeval, modCard_log, logFault_log r u (by rw [log]; exact room), log]
  generalize logFault r u = t at *
  generalize placed r u = q at *
  obtain ⟨-, hold, -, own, -⟩ := short
  obtain ⟨offered, dropped, off, verdict, -⟩ := announced
  rw [part, notices, loss] at offered dropped off
  refine ⟨offered, dropped, off, fun label c k' _ hl names => ?_, fun apart => ?_⟩
  · have same : label = k.label := Option.some.inj (hl.symm.trans own)
    have here : f.card = c := names.2.2 f.card (by rw [hk, same]; rfl)
    have after := verdict label c k' hold hl (by unfold NamesCard; rw [cards]; exact names)
    rw [here, reeval_cards (k := { k' with verdict := verdictOf t c k' }) (by rw [after, vmod_self]),
      after, vmod_vmod, cards,
      verdictOf_same (s := reeval c t) (k := k') (k' := { k' with verdict := verdictOf t c k' }) rfl rfl rfl]
  · rcases apart with no | none
    · exact absurd hold no
    · exact absurd (by rw [hk]; rfl) (none k.label own f.card)

/-- R39, R40, R176: a file settles, if no copy of it is unsettled. -/
theorem settleFile_settles {j : FileIx} {f : FileRec} {s : State} (h : s.files[j].file = some f) :
    Settles j f s (settleFile j s) := by
  refine ⟨settleFile_waits h, fun all => ⟨settleFile_frame j s, ?_, fun enough => ?_, fun few room k hk => ?_⟩⟩
  · rw [settleFile_files]
    refine vmod_congr _ _ ?_
    rw [h]
    rfl
  · rw [settleFile_enough h all enough]
    obtain ⟨log, keyCounter, notices, loss⟩ := completeFile_kept j f s
    obtain ⟨on, off⟩ := issueManifest_offered (manifestOf j f false s) s
    obtain ⟨room, full⟩ := offerNotice_offered (.manifest (manifestOf j f false s)) s
    rw [notices, loss]
    refine ⟨log, keyCounter, fun k k' hk hk' => completeFile_cards hk hk', fun k hk manifests few => ?_,
      fun manifests many => ?_, fun manifests => ?_⟩
    · rw [on manifests]
      obtain ⟨noticed, kept⟩ := room few
      refine ⟨kept, manifestOf j f false s, noticed, ?_, rfl, rfl, rfl, rfl, rfl, rfl, rfl, rfl, f.verifiedSet_iff⟩
      unfold manifestOf labelAt
      rw [hk]
      rfl
    · rw [on manifests]
      exact full many
    · rw [off manifests]
      exact ⟨rfl, rfl⟩
  · rw [settleFile_few h all few]
    exact settleShort_logged hk room

end Sys2Proof.Machine
end

