-- ==== Sys2Proof/Proofs/Verifications.lean ====
section
/-! PROOF. The verification of copies (R93, R96 to R100): a copy is proved, or fails by its digest, its timer or a
write error. Settles O35, O36 and O38. -/

namespace Sys2Proof.Machine

open Sys2Proof

/-! ### A copy proved (O35) -/

section
variable {d : Dest} {j : FileIx} {f : FileRec} {s : State}

/-- R98: what a proof leaves before the file settles. -/
theorem proveCopy_eq {gen : BitVec 8} (h : s.files[j] = ⟨gen, some f⟩) : proveCopy j d s = settleFile j { s with
    dest := vmod s.dest d fun p => { p with
      timers := p.timers.filter fun v => v.file != j
      failures := 0, openSet := p.openSet.filter fun u => u != ⟨j, gen⟩ }
    files := vmod s.files j fun p => { p with file := some { f with copies := vmod f.copies d fun _ => .verified } }
    counters := s.counters.map fun p => p.take .verifyOk (.dest d) 1 } := by
  have tid : tidOf j s = ⟨j, gen⟩ := by
    unfold tidOf
    rw [h]
  have files := setCopy_files (d := d) (s := s) (congrArg FilePos.file h) .verified
  have dest := vmod_vmod s.dest d (fun p : DestPort => { p with timers := p.timers.filter fun v => v.file != j })
    fun p => { p with failures := 0, openSet := p.openSet.filter fun u => u != ⟨j, gen⟩ }
  unfold proveCopy
  dsimp only
  rw [tid, ← files, ← dest]
  rfl

end

/-- Settles O35: the copy is VERIFIED first, and then its file settles. -/
theorem verifyProves : Obligations.VerifyProves := by
  intro d wire m j f f' s running hm type form carries index hf closed digest hf'
  have final : s.files[j].file.bind FileRec.finalDigest = some (leNat m.body) := by
    rw [hf]
    exact digest
  have proves : takeVerify d m s = proveCopy j d s := by
    rw [takeVerify_named form index hf, verifyCopy, copyAt_some (congrArg FilePos.file hf), closed]
    exact if_pos final
  rw [exec_verify_taken d wire running hm carries type, proves, proveCopy_eq hf, ← hf']
  exact ⟨_, _, rfl, rfl, settleFile_settles (congrArg FilePos.file (vmod_self s.files j _))⟩

/-! ### A copy that fails -/

theorem FilesOnly.part {s t : State} (h : FilesOnly s t) : t.part = s.part := by
  unfold FilesOnly at h
  rw [h]

section
variable {d : Dest} {j : FileIx} {f f' : FileRec} {r : FailReason} {s : State}

/-- R28: the record of a failed copy is announced. -/
theorem failCopy_announced (hr : r ≠ .aborted) (h : s.files[j].file = some f) (vs : List Nat)
    (room : s.log.length < 64) : ∃ q, (failCopy j d r vs s).log = s.log ++ [q] ∧ CopyFailed f d r vs q ∧
      Announced q s (failCopy j d r vs s) := by
  unfold failCopy
  rw [h]
  dsimp only
  rw [if_neg hr]
  generalize hq : ({ FaultRec.ofFile .copyFailed .warn (labelAt f.card (setCopy j d (.failed r) s)) f.number with
    dest := some d, code := some (.copyFailed r), values := vs } : FaultRec) = q
  refine ⟨placed q (setCopy j d (.failed r) s), logFault_log q _ room, ?_, ?_⟩
  · rw [← hq]
    exact ⟨rfl, rfl, rfl, rfl, rfl, rfl⟩
  · exact (logFault_announced q (s := setCopy j d (.failed r) s) room).of_eq ⟨rfl, rfl, rfl, rfl⟩
      ⟨rfl, rfl, rfl, rfl, rfl⟩

/-- R28, R93: a failed copy is counted with its record. -/
theorem failCounted_eq (h : s.files[j].file = some f)
    (hf' : f' = { f with copies := vmod f.copies d fun _ => .failed r }) (vs : List Nat) {u : State}
    (hu : u = countFailure d (failCopy j d r vs s)) : u = { s with
      cards := u.cards, log := u.log, keyCounter := u.keyCounter, notices := u.notices, loss := u.loss
      files := vmod s.files j fun p => { p with file := some f' }
      dest := vmod s.dest d fun p => { p with failures := min 15 (p.failures + 1) }
      counters := s.counters.map fun p => p.take .verifyFail (.dest d) 1 } := by
  have files : (failCopy j d r vs s).files = vmod s.files j fun p => { p with file := some f' } := by
    rw [failCopy_files, setCopy_files h, ← hf']
  have frame := failCopy_frame j d r vs s
  unfold FilesOnly at frame
  rw [hu, ← files]
  unfold countFailure countEvent modDest
  generalize failCopy j d r vs s = t at *
  rw [frame]
  rfl

theorem failCounted_announced (hr : r ≠ .aborted) (h : s.files[j].file = some f) (vs : List Nat)
    (room : s.log.length < 64) :
    ∃ q, (countFailure d (failCopy j d r vs s)).log = s.log ++ [q] ∧ CopyFailed f d r vs q ∧
      Announced q s (countFailure d (failCopy j d r vs s)) := by
  obtain ⟨q, log, record, announced⟩ := failCopy_announced (d := d) hr h vs room
  exact ⟨q, log, record, announced.of_eq ⟨rfl, rfl, rfl, rfl⟩ ⟨rfl, rfl, rfl, rfl, rfl⟩⟩

/-- R93: the threshold is compared with the count that the failure left. -/
theorem autoQuarantine_atThreshold {v : State} (part : v.part = s.part)
    (failures : v.dest[d].failures = min 15 (s.dest[d].failures + 1)) (state : v.dest[d].state = s.dest[d].state) :
    QuarantinesAtThreshold d s v (autoQuarantine d v) := by
  have reaches : reachesThreshold d v = true ↔ ¬ BelowThreshold d s ∧ s.dest[d].state ≠ .quarantined := by
    unfold reachesThreshold BelowThreshold
    rw [part, failures, state, Bool.and_eq_true, decide_eq_true_eq, bne_iff_ne]
    refine and_congr ?_ Iff.rfl
    omega
  unfold autoQuarantine
  refine ⟨fun no => if_neg fun yes => ?_, fun above entered => ?_⟩
  · obtain ⟨above, entered⟩ := reaches.mp yes
    exact no.elim above entered
  · rw [if_pos (reaches.mpr ⟨above, entered⟩)]
    exact (enterQuarantine_quarantines .byThreshold d v).2

end

/-! ### By the digest or the timer (O36) -/

theorem exec_verifyTimerExpiry (d : Dest) (j : FileIx) {s : State} (running : s.resetLow = false) :
    exec (.verifyTimerExpiry d j) s = .next (expireTimer j d s) :=
  live_running running fun s => .next (expireTimer j d s)

/-- Settles O36: the copy fails and is counted, its file settles, and then the threshold is looked at. -/
theorem verifyFails : Obligations.VerifyFails := by
  intro d wire m j f f' c r s running hf closed event hf'
  have fails : exec c s = .next (failClosed j d r s) ∧ r ≠ .aborted := by
    rcases event with ⟨rfl, rfl, hm, type, form, carries, index, gen, differs⟩ | ⟨rfl, rfl, v, hv, file⟩
    · have pos : s.files[j] = ⟨m.gen, some f⟩ := by rw [← gen, ← hf]
      have final : ¬ s.files[j].file.bind FileRec.finalDigest = some (leNat m.body) := by
        rw [hf]
        exact differs
      refine ⟨?_, FailReason.noConfusion⟩
      rw [exec_verify_taken d wire running hm carries type, takeVerify_named form index pos, verifyCopy, copyAt_some hf,
        closed]
      dsimp only
      rw [if_neg final]
    · have runs : s.dest[d].timers.any (fun v => v.file == j) = true :=
        List.any_eq_true.mpr ⟨v, hv, beq_iff_eq.mpr file⟩
      refine ⟨?_, FailReason.noConfusion⟩
      rw [exec_verifyTimerExpiry d j running, expireTimer, if_pos ⟨runs, (copyAt_some hf).trans closed⟩]
  obtain ⟨run, reason⟩ := fails
  have failed : failClosed j d r s =
      autoQuarantine d (settleFile j (countFailure d (failCopy j d r [] (cancelTimer j d s)))) := rfl
  have frame := failCounted_eq (d := d) (s := cancelTimer j d s) hf hf' [] rfl
  have announced := failCounted_announced (d := d) (s := cancelTimer j d s) reason hf []
  rw [run, failed]
  generalize countFailure d (failCopy j d r [] (cancelTimer j d s)) = u at *
  have dest : u.dest = vmod s.dest d fun p => { p with
      timers := p.timers.filter fun v => v.file != j, failures := min 15 (p.failures + 1) } := by
    rw [frame]
    exact vmod_vmod s.dest d (fun p : DestPort => { p with timers := p.timers.filter fun v => v.file != j })
      fun p => { p with failures := min 15 (p.failures + 1) }
  have file : u.files[j].file = some f' := by
    rw [frame]
    exact congrArg FilePos.file (vmod_self s.files j _)
  have settling := settleFile_frame j u
  refine ⟨_, u, settleFile j u, rfl, ?_, fun room => ?_, settleFile_settles file, autoQuarantine_atThreshold ?_ ?_ ?_⟩
  · rw [← dest]
    rw [frame]
    rfl
  · obtain ⟨q, log, record, known⟩ := announced room
    exact ⟨q, log, record, known.of_eq ⟨rfl, rfl, rfl, rfl⟩ ⟨rfl, rfl, rfl, rfl, rfl⟩⟩
  · rw [settling.part, frame]
    rfl
  · rw [settling.dest, dest, vmod_self]
  · rw [settling.dest, dest, vmod_self]

/-! ### By a write error (O38) -/

/-- Settles O38: the copy fails and is withdrawn, its file settles, and the threshold and the stall flag follow. -/
theorem writeErrorFails : Obligations.WriteErrorFails := by
  intro d wire m j f f' s running hm type form carries index hf unsettled hf'
  have file := congrArg FilePos.file hf
  have fails : takeWriteError d m s = checkStall d (failWrite j d (leNat (bytesAt m.body 0 2)) s) := by
    rw [takeWriteError, if_pos form, resolve_some index hf]
    dsimp only
    rw [if_pos ((congrArg CopyState.unsettled (copyAt_some file)).trans unsettled)]
    rfl
  have failed : failWrite j d (leNat (bytesAt m.body 0 2)) s = autoQuarantine d (settleFile j
      (withdraw d (tidOf j (countFailure d (failCopy j d .writeError [leNat (bytesAt m.body 0 2)] s)))
        (countFailure d (failCopy j d .writeError [leNat (bytesAt m.body 0 2)] s)))) := rfl
  have frame := failCounted_eq (d := d) file hf' [leNat (bytesAt m.body 0 2)] rfl
  have announced := failCounted_announced (d := d) (r := .writeError) (by decide) file [leNat (bytesAt m.body 0 2)]
  rw [exec_writeError_taken d wire running hm carries type, fails, failed]
  generalize countFailure d (failCopy j d .writeError [leNat (bytesAt m.body 0 2)] s) = c at *
  have pos : c.files[j] = ⟨m.gen, some f'⟩ := by
    rw [frame]
    refine (vmod_self s.files j _).trans ?_
    rw [hf]
  have tid : tidOf j c = ⟨j, m.gen⟩ := by
    unfold tidOf
    rw [pos]
  rw [tid]
  have counted : c.dest = vmod s.dest d fun p => { p with failures := min 15 (p.failures + 1) } := by rw [frame]
  have taken := withdraw_dest d d ⟨j, m.gen⟩ c
  have others := fun d' => withdraw_dest d d' ⟨j, m.gen⟩ c
  have withdrawn := withdraw_frame d ⟨j, m.gen⟩ c
  generalize withdraw d ⟨j, m.gen⟩ c = u at *
  unfold DestOnly at withdrawn
  rw [if_pos rfl, counted, vmod_self, DestPort.withdraw_eq] at taken
  have settling := settleFile_frame j u
  refine ⟨_, u, settleFile j u, _, rfl, ?_, fun d' hd' => ?_, ?_, ?_, ?_, fun room => ?_, settleFile_settles ?_,
    autoQuarantine_atThreshold ?_ ?_ ?_, checkStall_checked d _⟩
  · rw [withdrawn, frame]
  · rw [others, if_neg hd', counted, vmod_other _ _ _ _ hd']
  · unfold Withdrawn
    rw [taken]
    rfl
  · rw [taken]
  · rw [taken]
  · obtain ⟨q, log, record, known⟩ := announced room
    refine ⟨q, ?_, record, known.of_eq ⟨rfl, rfl, rfl, rfl⟩ ?_⟩
    · rw [withdrawn]
      exact log
    · rw [withdrawn]
      exact ⟨rfl, rfl, rfl, rfl, rfl⟩
  · rw [withdrawn]
    exact congrArg FilePos.file pos
  · rw [settling.part, withdrawn, frame]
  · rw [settling.dest, taken]
  · rw [settling.dest, taken]

end Sys2Proof.Machine
end

