-- ==== Sys2Proof/Proofs/Timecodes.lean ====
section
/-! PROOF. Timecodes (R117, R119, R121): the successor in the count of the day's frames, and the four bytes of a valid
one. Settles O60. -/

namespace Sys2Proof.Machine

open Sys2Proof

theorem FrameRate.fps_le (rate : FrameRate) : rate.fps ≤ 60 := by cases rate <;> decide

/-- R117: each field of the timecode is inside its range at the frame rate. -/
def Timecode.Valid (rate : FrameRate) (t : Timecode) : Prop :=
  t.frames < rate.fps ∧ t.seconds < 60 ∧ t.minutes < 60 ∧ t.hours < 24

/-! ### The successor (R121) -/

/-- The second of the day that a timecode names. -/
def Timecode.daySecond (t : Timecode) : Nat := (t.hours * 60 + t.minutes) * 60 + t.seconds

/-- R121: the frame of the day that a timecode names. -/
def Timecode.dayFrame (rate : FrameRate) (t : Timecode) : Nat := t.daySecond * rate.fps + t.frames

section
variable {rate : FrameRate} {t : Timecode} (h : t.Valid rate)
include h

theorem Timecode.Valid.successor : (t.successor rate).Valid rate := by
  obtain ⟨hf, hs, hm, hh⟩ := h
  unfold Timecode.successor Timecode.Valid
  split_ifs <;> dsimp only <;> omega

/-- R121: the last frame of a second is followed by the first one of the next, and the day's last second by its first. -/
theorem Timecode.Valid.successor_second :
    ((t.successor rate).daySecond, (t.successor rate).frames) =
      if t.frames + 1 < rate.fps then (t.daySecond, t.frames + 1) else ((t.daySecond + 1) % 86400, 0) := by
  obtain ⟨-, hs, hm, hh⟩ := h
  unfold Timecode.successor Timecode.daySecond
  split_ifs <;> simp only [Prod.mk.injEq, and_true] <;> omega

theorem Timecode.Valid.dayFrame_successor :
    (t.successor rate).dayFrame rate = (t.dayFrame rate + 1) % (86400 * rate.fps) := by
  have second := h.successor_second
  obtain ⟨hf, hs, hm, hh⟩ := h
  have day : t.daySecond + 1 ≤ 86400 := by unfold Timecode.daySecond; omega
  unfold Timecode.dayFrame
  split_ifs at second with inside
  · obtain ⟨same, next⟩ := Prod.mk.inj second
    have whole : (t.daySecond + 1) * rate.fps ≤ 86400 * rate.fps := Nat.mul_le_mul_right _ day
    rw [Nat.succ_mul] at whole
    rw [same, next, Nat.mod_eq_of_lt (by omega), Nat.add_assoc]
  · obtain ⟨carried, first⟩ := Prod.mk.inj second
    have last : t.daySecond * rate.fps + t.frames + 1 = (t.daySecond + 1) * rate.fps := by
      rw [Nat.succ_mul]
      omega
    rw [carried, first, last, Nat.mul_mod_mul_right, Nat.add_zero]

end

/-! ### The bytes (R117) -/

/-- R117: two decimal digits in one byte. -/
def bcdByte (n : Nat) : Byte := BitVec.ofNat 8 (n / 10 * 16 + n % 10)

theorem bcd_bcdByte {n : Nat} (h : n < 100) : bcd (bcdByte n) = some n := by
  have value : (bcdByte n).toNat = n / 10 * 16 + n % 10 := by
    rw [bcdByte, BitVec.toNat_ofNat, Nat.mod_eq_of_lt (by omega)]
  unfold bcd
  rw [value, if_pos (by omega)]
  congr 1
  omega

/-- R117: a timecode in its four bytes, frames first. -/
def Timecode.bytes (t : Timecode) : Bytes := [bcdByte t.frames, bcdByte t.seconds, bcdByte t.minutes, bcdByte t.hours]

theorem Timecode.Valid.decode_bytes {rate : FrameRate} {t : Timecode} (h : t.Valid rate) :
    decodeTimecode rate t.bytes = .valid t := by
  obtain ⟨hf, hs, hm, hh⟩ := id h
  have fps := rate.fps_le
  unfold decodeTimecode Timecode.bytes
  simp only [List.getD_cons_zero, List.getD_cons_succ]
  rw [bcd_bcdByte (by omega), bcd_bcdByte (by omega), bcd_bcdByte (by omega), bcd_bcdByte (by omega)]
  exact if_pos h

/-- Settles O60: the successor is the next frame of the day, and the bytes of a valid timecode decode to it. -/
theorem timecodeSuccession : Obligations.TimecodeSuccession := by
  intro rate t hf hs hm hh
  have valid : t.Valid rate := ⟨hf, hs, hm, hh⟩
  obtain ⟨hf', hs', hm', hh'⟩ := valid.successor
  exact ⟨⟨hf', hs', hm', hh', valid.dayFrame_successor⟩, ⟨t.bytes, rfl, valid.decode_bytes⟩, fun _ => rfl⟩

end Sys2Proof.Machine
end

