-- ==== Sys2Proof/Proofs/Evaluations.lean ====
section
/-! PROOF. One evaluation of an inspection channel (R158 to R164): what it makes of the channel's record. -/

namespace Sys2Proof.Machine

open Sys2Proof

/-! ### One probe -/

/-- R161 to R164: what a probe makes of its state with what its source measures; its window record may change too. -/
structure LatchedProbe.Took (q : LatchedProbe) (value : Option Nat) (st st' : ProbeState) : Prop where
  idle : q.enabled = false ∨ value = none → st' = st
  next : ∀ n, q.enabled = true → value = some n →
    st'.asserted = (q.next st n).1.asserted ∧ st'.run = (q.next st n).1.run

/-- R161: the evaluation of the probes `ps` of a channel, with what each source measures. -/
structure ProbesDone (c : Channel) (measure : Source → Option Nat) (ps : List (Fin 8)) (s t : State) : Prop where
  others : ∀ c' : Channel, c' ≠ c → t.channels[c'] = s.channels[c']
  channel : t.channels[c] = { s.channels[c] with probeStates := t.channels[c].probeStates }
  waiting : ∀ p ∉ ps, t.channels[c].probeStates[p] = s.channels[c].probeStates[p]
  took : ∀ p ∈ ps, s.channels[c].probes[p].Took (measure s.channels[c].probes[p].source)
    s.channels[c].probeStates[p] t.channels[c].probeStates[p]

theorem ProbesDone.none (c : Channel) (measure : Source → Option Nat) (s : State) : ProbesDone c measure [] s s :=
  ⟨fun _ _ => rfl, rfl, fun _ _ => rfl, fun _ h => absurd h List.not_mem_nil⟩

/-- One probe's state changed is its evaluation. -/
theorem ProbesDone.one {c : Channel} {measure : Source → Option Nat} {p : Fin 8} {s t : State} (st : ProbeState)
    (channels : t.channels = vmod s.channels c fun k => { k with probeStates := vmod k.probeStates p fun _ => st })
    (took : s.channels[c].probes[p].Took (measure s.channels[c].probes[p].source) s.channels[c].probeStates[p] st) :
    ProbesDone c measure [p] s t := by
  refine ⟨fun c' other => ?_, ?_, fun p' other => ?_, fun p' this => ?_⟩
  · rw [channels, vmod_other _ _ _ _ other]
  · rw [channels, vmod_self]
  · rw [channels, vmod_self]
    exact vmod_other _ _ _ _ fun e => other (List.mem_singleton.mpr e)
  · obtain rfl := List.mem_singleton.mp this
    rw [channels, vmod_self]
    dsimp only
    rw [vmod_self]
    exact took

theorem ProbesDone.cons {c : Channel} {measure : Source → Option Nat} {p : Fin 8} {ps : List (Fin 8)} {s t u : State}
    (first : ProbesDone c measure [p] s t) (rest : ProbesDone c measure ps t u) (new : p ∉ ps) :
    ProbesDone c measure (p :: ps) s u := by
  have probes : t.channels[c].probes = s.channels[c].probes := by rw [first.channel]
  refine ⟨fun c' other => (rest.others c' other).trans (first.others c' other), ?_, fun p' other => ?_,
    fun p' this => ?_⟩
  · rw [rest.channel, first.channel]
  · rw [rest.waiting p' fun m => other (List.mem_cons_of_mem p m),
      first.waiting p' fun m => other (List.mem_singleton.mp m ▸ List.mem_cons_self)]
  · by_cases e : p' = p
    · rw [e, rest.waiting p new]
      exact first.took p (List.mem_singleton.mpr rfl)
    · have later := rest.took p' ((List.mem_cons.mp this).resolve_left e)
      rw [probes, first.waiting p' fun m => e (List.mem_singleton.mp m)] at later
      exact later

/-- R166, R167: a report reaches the probe's window record alone. -/
theorem reportFlip_channels (c : Channel) (p : Fin 8) (dir : FlipDirection) (frame value : Nat) (s : State) :
    ∃ w, (reportFlip c p dir frame value s).channels = vmod s.channels c fun k =>
      { k with probeStates := vmod k.probeStates p fun st => { st with window := w } } := by
  unfold reportFlip
  split
  · refine ⟨s.channels[c].probeStates[p].window, (vmod_same _ _ _ ?_).symm⟩
    rw [vmod_same _ _ _ rfl]
  · refine ⟨(faultKey (reportRecord c p dir frame value s) s).map fun k => ⟨k, frame⟩, ?_⟩
    unfold modProbe
    rw [modChannel, (logFault_frame _ s).channels]

section
variable (c : Channel) (m : Measures) (frame : Nat) (p : Fin 8) (s : State)

/-- R163, R164: a probe that reads an available measurement takes it. -/
theorem evalProbe_some {n : Nat} (enabled : s.channels[c].probes[p].enabled = true)
    (available : m.get s.channels[c].probes[p].source = some n) :
    ∃ w, (evalProbe c m frame p s).channels = vmod s.channels c fun k => { k with
      probeStates := vmod k.probeStates p fun _ =>
        { (s.channels[c].probes[p].next s.channels[c].probeStates[p] n).1 with window := w } } := by
  unfold evalProbe
  dsimp only
  rw [if_pos enabled, available]
  dsimp only
  generalize s.channels[c].probes[p].next s.channels[c].probeStates[p] n = next
  generalize (if next.1.asserted = true then FlipDirection.asserted else FlipDirection.cleared) = dir
  split
  · obtain ⟨w, channels⟩ := reportFlip_channels c p dir frame n (modProbe c p (fun _ => next.1) s)
    refine ⟨w, channels.trans ?_⟩
    unfold modProbe modChannel
    dsimp only
    rw [vmod_vmod]
    simp only [vmod_vmod]
  · exact ⟨next.1.window, rfl⟩

/-- R161: a probe that is disabled, or whose source is unavailable, does nothing. -/
theorem evalProbe_none (idle : s.channels[c].probes[p].enabled = false ∨ m.get s.channels[c].probes[p].source = none) :
    evalProbe c m frame p s = s := by
  unfold evalProbe
  dsimp only
  split
  · next enabled =>
    rw [idle.resolve_left fun no => by rw [enabled] at no; cases no]
  · rfl

theorem evalProbe_done : ProbesDone c m.get [p] s (evalProbe c m frame p s) := by
  by_cases idle : s.channels[c].probes[p].enabled = false ∨ m.get s.channels[c].probes[p].source = none
  · rw [evalProbe_none c m frame p s idle]
    refine .one s.channels[c].probeStates[p] (vmod_same _ _ _ ?_).symm ⟨fun _ => rfl, fun n enabled available => ?_⟩
    · rw [vmod_same _ _ _ rfl]
    · rw [enabled, available] at idle
      exact absurd idle (by simp)
  · obtain ⟨enabled, available⟩ := not_or.mp idle
    obtain ⟨n, value⟩ := Option.ne_none_iff_exists'.mp available
    obtain ⟨w, channels⟩ := evalProbe_some c m frame p s (Bool.eq_true_of_not_eq_false enabled) value
    refine .one _ channels ⟨fun no => absurd no idle, fun n' _ value' => ?_⟩
    obtain rfl := Option.some.inj (value.symm.trans value')
    exact ⟨rfl, rfl⟩

/-! ### All eight -/

/-- R161 to R164: what an evaluation makes of the channels. -/
theorem evalProbes_done : ProbesDone c m.get (List.finRange 8) s (evalProbes c m frame s) := by
  have each : ∀ (ps : List (Fin 8)), ps.Nodup → ∀ s : State,
      ProbesDone c m.get ps s (ps.foldl (fun s p => evalProbe c m frame p s) s) := by
    intro ps
    induction ps with
    | nil => exact fun _ s => .none c m.get s
    | cons p rest ih =>
      intro nodup s
      obtain ⟨new, others⟩ := List.nodup_cons.mp nodup
      exact (evalProbe_done c m frame p s).cons (ih others _) new
  exact each _ (List.nodup_finRange 8) s

end

/-! ### The evaluation of a frame -/

section
variable {s t : State}

theorem ChannelsOnly.files (h : ChannelsOnly s t) : t.files = s.files := by unfold ChannelsOnly at h; rw [h]
theorem ChannelsOnly.counters (h : ChannelsOnly s t) : t.counters = s.counters := by unfold ChannelsOnly at h; rw [h]

end

/-- R158 to R162: an evaluation that leaves `digest` as the previous one and `now` as the frame in progress. -/
structure Evaluated (c : Channel) (measure : Source → Option Nat) (digest : Option Nat) (now : Option FrameProgress)
    (s t : State) : Prop where
  frame : ChannelsOnly s t
  others : ∀ c' : Channel, c' ≠ c → t.channels[c'] = s.channels[c']
  channel : t.channels[c] = { s.channels[c] with
    frame := now, prevDigest := digest, evaluated := (s.channels[c].evaluated + 1) % 2 ^ 32
    probeStates := t.channels[c].probeStates }
  probes : ProbesTook c measure s t

/-- R161: the probes, and then the channel's own part of an evaluation. -/
theorem evalProbes_evaluated {c : Channel} {m : Measures} {frame : Nat} {s : State} {g : ChannelRec → ChannelRec}
    {digest : Option Nat} {now : Option FrameProgress}
    (own : ∀ x : Vector ProbeState 8, g { s.channels[c] with probeStates := x } = { s.channels[c] with
      frame := now, prevDigest := digest, evaluated := (s.channels[c].evaluated + 1) % 2 ^ 32, probeStates := x }) :
    Evaluated c m.get digest now s (modChannel c g (evalProbes c m frame s)) := by
  have done := evalProbes_done c m frame s
  have only := evalProbes_frame c m frame s
  generalize evalProbes c m frame s = u at *
  have channel : (modChannel c g u).channels[c] = { s.channels[c] with
      frame := now, prevDigest := digest, evaluated := (s.channels[c].evaluated + 1) % 2 ^ 32
      probeStates := u.channels[c].probeStates } := by
    rw [modChannel_channels, vmod_self, done.channel, own]
  refine ⟨only.trans rfl, fun c' other => ?_, ?_, fun p q hq => ?_⟩
  · rw [modChannel_channels, vmod_other _ _ _ _ other, done.others c' other]
  · rw [channel]
  · obtain ⟨idle, next⟩ := done.took p (List.mem_finRange p)
    rw [channel, hq]
    exact ⟨idle, next⟩

/-- R158, R159: the evaluation of a completed frame of a PICTURE file. -/
theorem evaluatePicture_evaluated (c : Channel) (frame digest : Nat) (m : MetaMeasures) (s : State) :
    Evaluated c (s.channels[c].pictureMeasures digest m).get (some digest) none s
      (evaluatePicture c frame digest m s) := evalProbes_evaluated fun _ => rfl

/-- R160: a META_ONLY evaluation. -/
theorem evaluateMeta_evaluated (c : Channel) (frame : Nat) (m : MetaMeasures) (s : State) :
    Evaluated c (metaOnlyMeasures m).get s.channels[c].prevDigest s.channels[c].frame s
      (evaluateMeta c frame m s) := evalProbes_evaluated fun _ => rfl

end Sys2Proof.Machine
end

