-- ==== Sys2Proof/Proofs/Assemblies.lean ====
section
/-! PROOF. The frame assembly of a file through the operations of the Preview Assembler (chapter 6), and the reading of
an accepted segment inside the whole of its processing (R36, R106). -/

namespace Sys2Proof.Machine

open Sys2Proof

/-! ### The file and its assembly -/

/-- R106, R109: the record at `j` is the file `f`, with the frame assembly `a`. -/
def Assembles (j : FileIx) (f : FileRec) (a : Assembly) (s : State) : Prop :=
  s.files[j].file = some { f with assembly := some a }

section
variable {j : FileIx} {f : FileRec} {a b : Assembly} {s t : State}

theorem Assembles.record (h : Assembles j f a s) : s.files[j].file = some { f with assembly := some a } := h

theorem Assembles.assembly (h : Assembles j f a s) : s.files[j].file.bind FileRec.assembly = some a := by
  rw [h.record]
  rfl

theorem Assembles.channel (h : Assembles j f a s) : s.files[j].file.bind FileRec.channel = f.channel := by
  rw [h.record]
  rfl

theorem Assembles.of_files (h : Assembles j f a s) (files : t.files = s.files) : Assembles j f a t := by
  unfold Assembles
  rw [files]
  exact h

theorem Assembles.unique (h : Assembles j f a s) (k : Assembles j f b s) : a = b :=
  Option.some.inj (h.assembly.symm.trans k.assembly)

theorem Assembles.modAssembly (h : Assembles j f a s) (g : Assembly → Assembly) :
    Assembles j f (g a) (modAssembly j g s) := by
  unfold Assembles Machine.modAssembly
  rw [modFile_files, vmod_self, h.record]
  rfl

/-- A file that holds no channel tells none. -/
theorem Assembles.toChannel_none (h : Assembles j f a s) (idle : f.channel = none) (g : Channel → State → State) :
    toChannel j g s = s := by
  unfold toChannel
  rw [h.channel, idle]

theorem Assembles.toChannel_some (h : Assembles j f a s) {c : Channel} (serves : f.channel = some c)
    (g : Channel → State → State) : toChannel j g s = g c s := by
  unfold toChannel
  rw [h.channel, serves]

/-- R119: the previous values after an evaluation, as the statements write them. -/
theorem Assembly.updatePrevious_eq (a : Assembly) (r : Option MetaRec) :
    a.updatePrevious r = { a with prevTimecode := timecodeAfter a r, prevCounter := counterAfter a r } := by
  unfold updatePrevious timecodeAfter counterAfter
  cases r with
  | none => rfl
  | some r =>
    obtain ⟨-, timecode, counter⟩ := r
    cases timecode <;> cases counter <;> rfl

/-! ### The reading inside the processing of its segment -/

/-- R36: the state in which an accepted segment is read differs from the one it was taken in by the digest, the offset
and the DATA entries alone. -/
structure ReadBefore (s v : State) : Prop where
  log : v.log = s.log
  cards : v.cards = s.cards
  channels : v.channels = s.channels
  counters : v.counters = s.counters
  engines : v.engines = s.engines
  stalls : ∀ d : Dest, v.dest[d].stall = s.dest[d].stall

/-- R12, R79: what the end of a segment's processing keeps of what its reading left. -/
structure ReadAfter (w t : State) : Prop where
  files : t.files = w.files
  log : t.log = w.log
  channels : t.channels = w.channels
  engines : t.engines = w.engines
  stalls : StallsRise w t

/-- R12, R79: the stall flags are looked at, and the segment leaves. -/
theorem endProcessing_after (l : SrcLink) (w : State) : ReadAfter w (endProcessing l (checkStalls w)) := by
  have stalls := checkStalls_frame w
  have rise := checkStalls_rise w
  generalize checkStalls w = u at *
  have frame := endProcessing_frame l u
  have kept : (endProcessing l u).log = u.log ∧ (endProcessing l u).channels = u.channels := by
    unfold SlotsOnly at frame
    rw [frame]
    exact ⟨rfl, rfl⟩
  exact ⟨frame.files.trans stalls.files, kept.1.trans stalls.log, kept.2.trans stalls.channels,
    frame.engines.trans stalls.engines, rise.trans (.of_eq frame.dest frame.counters)⟩

/-- R36, R106: an accepted segment with bytes and without LAST is read, between the queueing of its DATA and the end of
its processing. -/
theorem exec_dataStep_read {l : SrcLink} {i : SlotIx} {g : Segment} {c : CardIx} {k : Card} (h : DataOf l i g c k j f s)
    (place : InPlace f g) (bytes : g.payload ≠ []) (last : g.last = false) (assembly : f.assembly = some a) :
    ∃ v t, exec (dataStep l g.kind) s = .next t ∧ Assembles j (f.taking g none) a v ∧ ReadBefore s v ∧
      labelAt f.card v = k.label ∧ ReadAfter (readSegment l j i f g v) t := by
  obtain ⟨hf, card, -, -⟩ := DataOf.names h
  have hk : s.cards[f.card] = some k := card ▸ (DataOf.holds h).1
  have run : exec (dataStep l g.kind) s = .next (endProcessing l (checkStalls (acceptBytes l j i f g s))) := by
    rw [exec_dataStep_streaming h, if_pos (by unfold offsetOk; rw [decide_eq_true_eq]; exact place)]
    unfold acceptData
    dsimp only
    rw [last, if_neg bytes]
    rfl
  unfold acceptBytes at run
  dsimp only at run
  generalize hv : queueData j i f (modFile j (fun f => { f with
    sums := f.sums.advance g.payload, nextOffset := f.nextOffset + g.payload.length }) s) = v at run
  obtain ⟨⟨still, files⟩, dest, -⟩ := queuedBytes hf bytes v hv.symm
  refine ⟨v, _, run, ?_, ⟨?_, ?_, ?_, ?_, ?_, fun d => by rw [dest]⟩, ?_, endProcessing_after l _⟩
  · unfold Assembles
    rw [files, vmod_self, assembly]
    rfl
  · rw [still]
  · rw [still]
  · rw [still]
  · rw [still]
  · rw [still]
  · unfold labelAt
    rw [still]
    dsimp only
    rw [hk]
    rfl

end

end Sys2Proof.Machine
end

