-- ==== Sys2Proof/Proofs/MetaRecords.lean ====
section
/-! PROOF. A META segment (R116, R118, R120): its record is decoded, measured and stored. Settles O27. -/

namespace Sys2Proof.Machine

open Sys2Proof

/-! ### The metadata store (R118) -/

/-- R118: in a store in ascending order of frame number, a record stands between the lower ones and the higher ones. -/
theorem insertRecord_sorted (r : MetaRec) (store : List MetaRec)
    (sorted : store.Pairwise fun x y => x.frame < y.frame) :
    insertRecord r store = (store.filter fun x => decide (x.frame < r.frame)) ++
      r :: store.filter fun x => decide (r.frame < x.frame) := by
  induction store with
  | nil => rfl
  | cons x rest ih =>
    obtain ⟨above, others⟩ := List.pairwise_cons.mp sorted
    have none_lower : r.frame ≤ x.frame → rest.filter (fun y => decide (y.frame < r.frame)) = [] := fun le =>
      List.filter_eq_nil_iff.mpr fun y hy => by have := above y hy; simp; omega
    have all_higher : r.frame ≤ x.frame → rest.filter (fun y => decide (r.frame < y.frame)) = rest := fun le =>
      List.filter_eq_self.mpr fun y hy => by have := above y hy; simp; omega
    unfold insertRecord
    rw [List.filter_cons, List.filter_cons]
    rcases lt_trichotomy r.frame x.frame with lower | same | higher
    · rw [none_lower lower.le, all_higher lower.le]
      simp [lower, lower.le]
    · rw [none_lower same.le, all_higher same.le]
      simp [same]
    · simp [higher, ih others, higher.not_gt, higher.ne']

/-- R118: a record comes too late once its frame, or a greater one, has ended. -/
theorem Assembly.offer_late {a : Assembly} {r : MetaRec}
    (late : ∃ n, a.lastFrame = some n ∧ (r.frame < n ∨ r.frame = n ∧ a.state = .idle)) : a.offer r = a := by
  obtain ⟨n, last, when_⟩ := late
  unfold offer
  rw [last]
  exact if_pos (by simpa using when_)

/-- R118: any other one joins the store, which then keeps the highest four. -/
theorem Assembly.offer_stored {a : Assembly} {r : MetaRec}
    (early : ∀ n, a.lastFrame = some n → n < r.frame ∨ r.frame = n ∧ a.state ≠ .idle)
    (sorted : a.store.Pairwise fun x y => x.frame < y.frame) {full : List MetaRec}
    (hfull : full = (a.store.filter fun x => decide (x.frame < r.frame)) ++
      r :: a.store.filter fun x => decide (r.frame < x.frame)) :
    a.offer r = { a with store := if 4 < full.length then full.tail else full } := by
  unfold offer
  rw [insertRecord_sorted r a.store sorted, ← hfull]
  dsimp only
  rw [List.drop_one]
  refine if_neg ?_
  cases last : a.lastFrame with
  | none => exact Bool.false_ne_true
  | some n =>
    rcases early n last with newer | ⟨same, inProgress⟩
    · simp [newer.not_gt, newer.ne']
    · simp [same, inProgress]

/-! ### The reading of a META segment -/

/-- R116: a decoded record, as the statement writes it. -/
theorem decodeMeta_eq (m : FormatEntry) (g : Segment) : decodeMeta m g =
    ⟨g.frame, m.timecodeOffset.elim .absent fun o => decodeTimecode m.rate ((g.payload.drop o).take 4),
      m.counterOffset.map fun o => leNat ((g.payload.drop o).take 4)⟩ := by
  unfold decodeMeta
  cases m.timecodeOffset <;> rfl

/-- R106: the parsing mode that a valid format gives. -/
theorem parseMode_valid {m : FormatEntry} (valid : m.valid = true) :
    parseMode (some m) = if m.packing = .none_ then .metaOnly else .picture := by
  unfold parseMode
  dsimp only
  rw [valid]
  rfl

section
variable {j : FileIx} {f : FileRec} {a : Assembly} {m : FormatEntry} {g : Segment} {s : State}
  (h : Assembles j f a s)
include h

/-- R116: a META payload of a wrong length takes the frame's record out of a PICTURE file's store and is logged. -/
theorem metaParseFailure_failed (valid : m.valid = true) :
    Assembles j f (if m.packing = .none_ then a else { a with store := a.store.filter fun x => x.frame != g.frame })
      (metaParseFailure j m g s) ∧
    (metaParseFailure j m g s).channels = s.channels ∧
    (s.log.length < 64 → ∃ r, (metaParseFailure j m g s).log = s.log ++ [r] ∧ r.cls = .metaParse ∧ r.severity = .warn ∧
      r.label = some (labelAt f.card s) ∧ r.file = some f.number ∧ r.frames = some ⟨g.frame, g.frame⟩) := by
  unfold metaParseFailure
  rw [h.record, parseMode_valid valid]
  dsimp only
  by_cases only : m.packing = .none_
  · rw [if_pos only, if_pos only, if_neg ParseMode.noConfusion]
    have frame := logFault_frame { FaultRec.ofFile .metaParse .warn (labelAt f.card s) f.number with
      frames := some ⟨g.frame, g.frame⟩, values := [g.payload.length, m.recordLength] } s
    exact ⟨h.of_files frame.files, frame.channels, fun room => ⟨_, logFault_log _ _ room, rfl, rfl, rfl, rfl, rfl⟩⟩
  · rw [if_neg only, if_neg only, if_pos rfl]
    have removed := h.modAssembly fun a => { a with store := a.store.filter fun r => r.frame != g.frame }
    have frame := logFault_frame { FaultRec.ofFile .metaParse .warn (labelAt f.card s) f.number with
        frames := some ⟨g.frame, g.frame⟩, values := [g.payload.length, m.recordLength] }
      (modAssembly j (fun a => { a with store := a.store.filter fun r => r.frame != g.frame }) s)
    exact ⟨removed.of_files frame.files, frame.channels, fun room =>
      ⟨_, logFault_log _ (modAssembly j _ s) room, rfl, rfl, rfl, rfl, rfl⟩⟩

/-- R120: the evaluation of a META_ONLY file's record, for a file without a channel and for one that holds one. -/
theorem evaluateMetaOnly_evaluated (l : SrcLink) (m : FormatEntry) (r : MetaRec) :
    Assembles j f { a with prevTimecode := timecodeAfter a (some r), prevCounter := counterAfter a (some r) }
      (evaluateMetaOnly j l m r s) ∧
    (f.channel = none →
      (evaluateMetaOnly j l m r s).log = s.log ∧ (evaluateMetaOnly j l m r s).channels = s.channels) ∧
    ∀ c : Channel, f.channel = some c → ∃ u,
      u.channels = s.channels ∧ u.counters = (s.counters.map fun p => p.take .framesInspected (.link l) 1) ∧
      Evaluated c (metaOnlyMeasures (a.measures m.rate (some r))).get u.channels[c].prevDigest u.channels[c].frame u
        (evaluateMetaOnly j l m r s) := by
  have updated := h.modAssembly fun a => a.updatePrevious (some r)
  rw [Assembly.updatePrevious_eq] at updated
  unfold evaluateMetaOnly
  rw [h.assembly]
  dsimp only
  generalize hu : modAssembly j (fun a => a.updatePrevious (some r)) s = u at updated
  have kept : u.log = s.log ∧ u.channels = s.channels ∧ u.counters = s.counters := by
    rw [← hu]
    exact ⟨rfl, rfl, rfl⟩
  obtain ⟨log, channels, counters⟩ := kept
  cases hc : f.channel with
  | none =>
    rw [updated.toChannel_none hc]
    exact ⟨updated, fun _ => ⟨log, channels⟩, nofun⟩
  | some c =>
    rw [updated.toChannel_some hc]
    have evaluated := evaluateMeta_evaluated c r.frame (a.measures m.rate (some r))
      (countEvent .framesInspected (.link l) 1 u)
    refine ⟨updated.of_files ((ChannelsOnly.files evaluated.frame).trans rfl), nofun, fun c' serves => ?_⟩
    obtain rfl := Option.some.inj serves
    refine ⟨countEvent .framesInspected (.link l) 1 u, channels, ?_, evaluated⟩
    rw [countEvent_counters, counters]

/-- R116 to R118, R120: the reading of a META segment, by its length and its file's parsing mode. -/
theorem readMeta_rows (l : SrcLink) (valid : m.valid = true) :
    (g.payload.length ≠ m.recordLength → readMeta j l m g s = metaParseFailure j m g s) ∧
    (g.payload.length = m.recordLength → m.packing = .none_ →
      readMeta j l m g s = evaluateMetaOnly j l m (decodeMeta m g) s) ∧
    (g.payload.length = m.recordLength → m.packing ≠ .none_ →
      readMeta j l m g s = modAssembly j (fun a => a.offer (decodeMeta m g)) s) ∧
    ∃ b, Assembles j f b (readMeta j l m g s) := by
  unfold readMeta
  dsimp only
  rw [parseMode_valid valid]
  by_cases wrong : g.payload.length ≠ m.recordLength
  · rw [if_pos wrong]
    exact ⟨fun _ => rfl, fun right => absurd right wrong, fun right => absurd right wrong, _,
      (metaParseFailure_failed h valid).1⟩
  rw [if_neg wrong]
  by_cases only : m.packing = .none_
  · rw [if_pos only, if_pos rfl]
    exact ⟨fun no => absurd no wrong, fun _ _ => rfl, fun _ no => absurd only no, _,
      (evaluateMetaOnly_evaluated h l m _).1⟩
  · rw [if_neg only, if_neg ParseMode.noConfusion]
    exact ⟨fun no => absurd no wrong, fun _ yes => absurd yes only, fun _ _ => rfl, _, h.modAssembly _⟩

end

/-- R106: a META segment is read where the file's format is valid. -/
theorem readSegment_meta (l : SrcLink) (j : FileIx) (i : SlotIx) {f : FileRec} {a : Assembly} {g : Segment} (s : State)
    (meta_ : g.kind = 6) (assembly : f.assembly = some a) :
    (a.format = none ∨ a.format.map FormatEntry.valid = some false → readSegment l j i f g s = s) ∧
    ∀ m : FormatEntry, a.format = some m → m.valid = true → readSegment l j i f g s = readMeta j l m g s := by
  have preview : ¬ (g.kind = 5 ∧ f.mode = .picture) := fun h => by rw [meta_] at h; exact absurd h.1 (by decide)
  have mode : f.mode = parseMode a.format := by
    unfold FileRec.mode
    rw [assembly, Option.bind_some]
  unfold readSegment
  rw [assembly, Option.bind_some, mode]
  rw [mode] at preview
  cases format : a.format with
  | none => exact ⟨fun _ => rfl, nofun⟩
  | some m =>
    rw [format] at preview
    dsimp only
    rw [if_neg preview]
    refine ⟨fun no => ?_, fun m' hm' valid => ?_⟩
    · have invalid : m.valid = false := by simpa using no
      refine if_neg fun yes => yes.2 ?_
      unfold parseMode
      exact if_pos invalid
    · obtain rfl := Option.some.inj hm'
      refine if_pos ⟨meta_, ?_⟩
      rw [parseMode_valid valid]
      split <;> exact ParseMode.noConfusion

/-! ### O27 -/

/-- Settles O27: by the format, the length of the payload and the packing. -/
theorem metaTaken : Obligations.MetaTaken := by
  intro l i g c k j f a s h meta_ place bytes last assembly
  obtain ⟨v, t, run, file, before, label, after⟩ := exec_dataStep_read h place bytes last assembly
  have step : dataStep l g.kind = .metaRecord l := by rw [meta_]; rfl
  obtain ⟨unread, read⟩ := readSegment_meta l j i v meta_ assembly
  rw [step] at run
  by_cases unparsed : a.format = none ∨ a.format.map FormatEntry.valid = some false
  · rw [unread unparsed] at after
    refine ⟨t, a, run, (file.of_files after.files).assembly, after.engines.trans before.engines,
      fun _ => ⟨rfl, after.log.trans before.log, after.channels.trans before.channels⟩, fun m format valid => ?_⟩
    rw [format, Option.map_some, valid] at unparsed
    exact absurd unparsed (by simp)
  obtain ⟨m, format⟩ := Option.ne_none_iff_exists'.mp fun no => unparsed (.inl no)
  have valid : m.valid = true := by
    rw [format, Option.map_some] at unparsed
    exact Bool.eq_true_of_not_eq_false fun no => unparsed (.inr (congrArg some no))
  rw [read m format valid] at after
  obtain ⟨failed, evaluated, offered, b, hb⟩ := readMeta_rows file (g := g) l valid
  have reading := (readMeta_reading (i := j) l m g v).frame
  have engines : (readMeta j l m g v).engines = v.engines := by rw [reading]
  have dest : (readMeta j l m g v).dest = v.dest := by rw [reading]
  refine ⟨t, b, run, (hb.of_files after.files).assembly, after.engines.trans (engines.trans before.engines),
    fun no => absurd no unparsed, fun m' format' _ => ?_⟩
  obtain rfl : m = m' := Option.some.inj (format.symm.trans format')
  clear reading engines
  refine ⟨fun wrong => ?_, fun right r hr => ⟨fun picture => ?_, fun only => ?_⟩⟩
  · rw [failed wrong] at after hb
    obtain ⟨file', channels, record⟩ := metaParseFailure_failed (g := g) file valid
    refine ⟨after.channels.trans (channels.trans before.channels), hb.unique file', fun room => ?_⟩
    rw [after.log, ← before.log, ← label]
    exact record (by rw [before.log]; exact room)
  · rw [offered right picture] at after hb
    obtain rfl := hb.unique (file.modAssembly _)
    obtain rfl := hr.trans (decodeMeta_eq m g).symm
    exact ⟨after.log.trans before.log, after.channels.trans before.channels, Assembly.offer_late (r := decodeMeta m g),
      fun early sorted full hfull => Assembly.offer_stored (r := decodeMeta m g) early sorted hfull⟩
  · rw [evaluated right only] at after hb dest
    obtain rfl := hr.trans (decodeMeta_eq m g).symm
    obtain ⟨file', silent, measured⟩ := evaluateMetaOnly_evaluated file l m (decodeMeta m g)
    refine ⟨hb.unique file', fun idle => ?_, fun ch serves => ?_⟩
    · obtain ⟨log, channels⟩ := silent idle
      exact ⟨after.log.trans (log.trans before.log), after.channels.trans (channels.trans before.channels)⟩
    · obtain ⟨u, channels, counters, eval⟩ := measured ch serves
      have counted := ChannelsOnly.counters eval.frame
      rw [after.channels, ← before.channels, ← channels]
      refine ⟨eval.others, by rw [eval.channel], by rw [eval.channel], fun stalls => ?_, fun p q v' hq hv' => ?_⟩
      · rw [after.stalls.counters fun d => by rw [stalls, dest, before.stalls], counted, counters, before.counters]
      · obtain ⟨idle, next⟩ := eval.probes p q hq
        have measure : (metaOnlyMeasures (a.measures m.rate (some (decodeMeta m g)))).get q.source = v' := by
          rw [hv']
          cases q.source <;> rfl
        rw [measure] at idle next
        exact ⟨idle, next⟩

end Sys2Proof.Machine
end

