-- ==== Sys2Proof/Proofs/PreviewFrames.lean ====
section
/-! PROOF. Where a PREVIEW segment stands in its frame (R110 to R113). Settles O24. -/

namespace Sys2Proof.Machine

open Sys2Proof

/-! ### What each operation makes of an assembly -/

/-- R112: a frame has begun. -/
def Assembly.begun (n : Nat) (a : Assembly) : Assembly :=
  { a with
    state := .building, lastFrame := some n, nextLine := 0, digest := some Sums.initial
    store := a.store.filter fun r => decide (n ≤ r.frame) }

/-- R112: a segment is parsed. -/
def Assembly.parsed (g : Segment) (a : Assembly) : Assembly :=
  { a with digest := a.digest.map fun d => d.advance g.payload, nextLine := g.firstLine + g.lineCount }

/-- R112, R119: the frame is complete, and its metadata, if any, give the previous values. -/
def Assembly.completed (n : Nat) (a : Assembly) : Assembly :=
  { a with
    state := .idle, digest := none, store := a.store.filter fun r => r.frame != n
    prevTimecode := timecodeAfter a (a.store.find? fun r => r.frame == n)
    prevCounter := counterAfter a (a.store.find? fun r => r.frame == n) }

/-- R111: a frame begins broken. -/
def Assembly.misfitted (m : FormatEntry) (g : Segment) (a : Assembly) : Assembly :=
  { a with
    state := .broken (misfitCause (shapeOk m g)), lastFrame := some g.frame
    store := a.store.filter fun r => decide (g.frame ≤ r.frame) }

/-- R113: the frame in progress is closed. -/
def Assembly.closed (a : Assembly) : Assembly :=
  { a with state := .idle, digest := none, store := a.store.filter fun r => r.frame != a.lastFrame.getD 0 }

/-- R112, R118: the metadata of a frame are still in the store when it begins. -/
theorem Assembly.begun_find (n : Nat) (a : Assembly) :
    (a.begun n).store.find? (fun r => r.frame == n) = a.store.find? fun r => r.frame == n := by
  unfold begun
  rw [List.find?_filter]
  congr 1
  funext r
  by_cases e : r.frame = n <;> simp [e]

/-- R112: a frame that begins and is completed leaves the higher records in the store. -/
theorem Assembly.begun_completed_store (n : Nat) (g : Segment) (a : Assembly) :
    (((a.begun n).parsed g).completed n).store = a.store.filter fun r => decide (n < r.frame) := by
  show (a.store.filter _).filter _ = _
  rw [List.filter_filter]
  refine List.filter_congr fun r _ => ?_
  rw [Bool.eq_iff_iff, Bool.and_eq_true, bne_iff_ne, decide_eq_true_eq, decide_eq_true_eq]
  omega

/-- R113: the record of a frame that is closed as partial, or of a segment of an older one. -/
def PartialLogged (label : Bytes) (f : FileRec) (n : Nat) (cause : PartialCause) (r : FaultRec) : Prop :=
  r.cls = .partialFrame ∧ r.severity = .warn ∧ r.label = some label ∧ r.file = some f.number ∧
    r.frames = some ⟨n, n⟩ ∧ r.code = some (.partialFrame cause)

/-! ### Operations that make no record -/

/-- An operation of the Preview Assembler that makes no record and evaluates nothing, with the assembly it leaves. -/
structure Assembled (j : FileIx) (f : FileRec) (b : Assembly) (s t : State) : Prop where
  file : Assembles j f b t
  log : t.log = s.log
  cards : t.cards = s.cards
  counted : ∀ c : Channel, t.channels[c].evaluated = s.channels[c].evaluated

section
variable {j : FileIx} {f : FileRec} {a b d : Assembly} {s t u : State}

theorem Assembled.trans (h : Assembled j f b s t) (k : Assembled j f d t u) : Assembled j f d s u :=
  ⟨k.file, k.log.trans h.log, k.cards.trans h.cards, fun c => (k.counted c).trans (h.counted c)⟩

variable (h : Assembles j f a s)
include h

theorem Assembles.modAssembled (g : Assembly → Assembly) (left : g a = b) :
    Assembled j f b s (Machine.modAssembly j g s) := ⟨left ▸ h.modAssembly g, rfl, rfl, fun _ => rfl⟩

/-- What the channel is told of a frame in progress leaves its count of evaluations. -/
theorem Assembles.tellChannel {g : Channel → State → State} {k : Channel → State → ChannelRec → ChannelRec}
    (tells : ∀ c t, g c t = modChannel c (k c t) t) (kept : ∀ c t x, (k c t x).evaluated = x.evaluated) :
    Assembled j f a s (toChannel j g s) := by
  cases serves : f.channel with
  | none =>
    rw [h.toChannel_none serves]
    exact ⟨h, rfl, rfl, fun _ => rfl⟩
  | some c =>
    rw [h.toChannel_some serves, tells]
    refine ⟨h, rfl, rfl, fun c' => ?_⟩
    rw [modChannel_channels, vmod_get]
    split
    · next e => rw [e, kept]
    · rfl

theorem beginAssembly_assembled (g : Segment) : Assembled j f (a.begun g.frame) s (beginAssembly j g s) := by
  have begun := h.modAssembled (Assembly.begun g.frame) rfl
  unfold beginAssembly
  dsimp only
  split
  · next no => exact absurd (begun.file.symm.trans no) nofun
  · exact begun.trans (begun.file.tellChannel (fun _ _ => rfl) fun _ _ _ => rfl)

/-! ### A segment parsed into its frame (R112) -/

/-- R112: a segment that does not complete its frame. -/
theorem parseSegment_inside (l : SrcLink) (m : FormatEntry) (g : Segment) (inside : g.firstLine + g.lineCount ≠ m.height) :
    Assembled j f (a.parsed g) s (parseSegment j l m g s).1 := by
  have parsed := h.modAssembled (Assembly.parsed g) rfl
  unfold parseSegment
  dsimp only
  rw [if_neg inside]
  exact parsed.trans (parsed.file.tellChannel (fun _ _ => rfl) fun _ _ _ => rfl)

/-- R112: one that completes it. -/
theorem parseSegment_completes (l : SrcLink) (m : FormatEntry) (g : Segment)
    (whole : g.firstLine + g.lineCount = m.height) :
    ∃ u, Assembled j f (a.parsed g) s u ∧ (parseSegment j l m g s).1 = completeFrame j l g.frame m u := by
  have parsed := h.modAssembled (Assembly.parsed g) rfl
  unfold parseSegment
  dsimp only
  rw [if_pos whole]
  refine ⟨_, ?_, rfl⟩
  exact parsed.trans (parsed.file.tellChannel (fun _ _ => rfl) fun _ _ _ => rfl)

/-- R112, R119, R158: a frame is complete; its channel, if the file holds one, evaluates it. -/
theorem completeFrame_completed (l : SrcLink) (n : Nat) (m : FormatEntry) :
    Assembles j f (a.completed n) (completeFrame j l n m s) ∧
    (f.channel = none → (completeFrame j l n m s).log = s.log) ∧
    ∀ c : Channel, f.channel = some c → ∃ u, u.channels = s.channels ∧
      Evaluated c (u.channels[c].pictureMeasures (a.digest.getD Sums.initial).finalise.value
          (a.measures m.rate (a.store.find? fun r => r.frame == n))).get
        (some (a.digest.getD Sums.initial).finalise.value) none u (completeFrame j l n m s) := by
  unfold completeFrame
  rw [h.assembly]
  dsimp only
  generalize hu : modAssembly j _ s = u
  have completed : Assembles j f (a.completed n) u := by
    rw [← hu]
    exact (h.modAssembled _ (by rw [Assembly.updatePrevious_eq]; rfl)).file
  have kept : u.log = s.log ∧ u.channels = s.channels := by
    rw [← hu]
    exact ⟨rfl, rfl⟩
  cases serves : f.channel with
  | none =>
    rw [completed.toChannel_none serves]
    exact ⟨completed, fun _ => kept.1, nofun⟩
  | some c =>
    rw [completed.toChannel_some serves]
    have evaluated := evaluatePicture_evaluated c n (a.digest.getD Sums.initial).finalise.value
      (a.measures m.rate (a.store.find? fun r => r.frame == n)) (countEvent .framesInspected (.link l) 1 u)
    refine ⟨completed.of_files ((ChannelsOnly.files evaluated.frame).trans rfl), nofun, fun c' this => ?_⟩
    obtain rfl := Option.some.inj this
    exact ⟨countEvent .framesInspected (.link l) 1 u, kept.2, evaluated⟩

/-- R112, R158: a segment that completes its frame, as its channel and the log show it. -/
theorem parseSegment_whole (l : SrcLink) (m : FormatEntry) (g : Segment)
    (whole : g.firstLine + g.lineCount = m.height) :
    Assembles j f ((a.parsed g).completed g.frame) (parseSegment j l m g s).1 ∧
    (f.channel = none → (parseSegment j l m g s).1.log = s.log) ∧
    ∀ c : Channel, f.channel = some c →
      (parseSegment j l m g s).1.channels[c].frame = none ∧
      (parseSegment j l m g s).1.channels[c].prevDigest =
        some ((a.parsed g).digest.getD Sums.initial).finalise.value ∧
      (parseSegment j l m g s).1.channels[c].evaluated = (s.channels[c].evaluated + 1) % 2 ^ 32 := by
  obtain ⟨u, parsed, run⟩ := parseSegment_completes h l m g whole
  obtain ⟨file, silent, evaluated⟩ := completeFrame_completed parsed.file l g.frame m
  rw [run]
  refine ⟨file, fun idle => (silent idle).trans parsed.log, fun c serves => ?_⟩
  obtain ⟨v, before, eval⟩ := evaluated c serves
  rw [eval.channel, before, parsed.counted]
  exact ⟨rfl, rfl, rfl⟩

/-! ### Partial frames (R113) -/

/-- R113: a PARTIAL_FRAME record reaches the log and the cards alone. -/
theorem logPartial_logged (n : Nat) (cause : PartialCause) :
    LogOnly s (logPartial j n cause s) ∧
      (s.log.length < 64 → ∃ r, (logPartial j n cause s).log = s.log ++ [r] ∧
        PartialLogged (labelAt f.card s) f n cause r) := by
  unfold logPartial
  rw [h.record]
  exact ⟨logFault_frame _ s, fun room => ⟨_, logFault_log _ s room, rfl, rfl, rfl, rfl, rfl, rfl⟩⟩

/-- R113: the cause that the record of a frame in progress gives. -/
def Assembly.cause (a : Assembly) : PartialCause :=
  match a.state with
  | .broken c => c
  | _ => .incomplete

/-- R113: the frame in progress is closed, its channel's frame is discarded, and it is logged. -/
theorem closePartial_closed :
    Assembles j f a.closed (closePartial j s) ∧
    (∀ c : Channel, (closePartial j s).channels[c].evaluated = s.channels[c].evaluated) ∧
    (∀ c : Channel, f.channel = some c → (closePartial j s).channels[c].frame = none) ∧
    (s.log.length < 64 → ∃ r, (closePartial j s).log = s.log ++ [r] ∧
      PartialLogged (labelAt f.card s) f (a.lastFrame.getD 0) a.cause r) := by
  unfold closePartial
  rw [h.assembly]
  dsimp only
  generalize hu : modAssembly j _ s = u
  have closed : Assembled j f a.closed s u := by
    rw [← hu]
    exact h.modAssembled _ rfl
  have told : Assembled j f a.closed s (toChannel j discardFrame u) :=
    closed.trans (closed.file.tellChannel (fun _ _ => rfl) fun _ _ _ => rfl)
  have discarded : ∀ c : Channel, f.channel = some c → (toChannel j discardFrame u).channels[c].frame = none :=
    fun c serves => by rw [closed.file.toChannel_some serves, discardFrame, modChannel_channels, vmod_self]
  obtain ⟨frame, record⟩ := logPartial_logged told.file (a.lastFrame.getD 0) a.cause
  have label : labelAt f.card (toChannel j discardFrame u) = labelAt f.card s := by
    unfold labelAt
    rw [told.cards]
  rw [label, told.log] at record
  refine ⟨told.file.of_files frame.files, fun c => ?_, fun c serves => ?_, record⟩
  · exact (congrArg (fun v : Vector ChannelRec 8 => v[c].evaluated) frame.channels).trans (told.counted c)
  · exact (congrArg (fun v : Vector ChannelRec 8 => v[c].frame) frame.channels).trans (discarded c serves)

/-! ### The rows of R111 -/

/-- R111: a segment of a greater frame number that does not begin its frame. -/
theorem placeGreater_misfit (l : SrcLink) (m : FormatEntry) (g : Segment)
    (misfit : ¬ (g.firstLine = 0 ∧ shapeOk m g = true)) :
    Assembled j f (a.misfitted m g) s (placeGreater j l m g s).1 ∧
      (placeGreater j l m g s).1.channels = s.channels := by
  unfold placeGreater
  dsimp only
  rw [if_neg misfit]
  exact ⟨h.modAssembled _ rfl, rfl⟩

omit h in
/-- R111, R112: one that begins it. -/
theorem placeGreater_begin (j : FileIx) (l : SrcLink) (m : FormatEntry) (g : Segment) (s : State)
    (first : g.firstLine = 0) (shape : shapeOk m g = true) :
    (placeGreater j l m g s).1 = (parseSegment j l m g (beginAssembly j g s)).1 := by
  unfold placeGreater
  dsimp only
  rw [if_pos ⟨first, shape⟩]

theorem parseSegment_assembles (l : SrcLink) (m : FormatEntry) (g : Segment) :
    ∃ b, Assembles j f b (parseSegment j l m g s).1 ∧ b.format = a.format := by
  by_cases whole : g.firstLine + g.lineCount = m.height
  · exact ⟨_, (parseSegment_whole h l m g whole).1, rfl⟩
  · exact ⟨_, (parseSegment_inside h l m g whole).file, rfl⟩

theorem placeGreater_assembles (l : SrcLink) (m : FormatEntry) (g : Segment) :
    ∃ b, Assembles j f b (placeGreater j l m g s).1 ∧ b.format = a.format := by
  by_cases fits : g.firstLine = 0 ∧ shapeOk m g = true
  · rw [placeGreater_begin j l m g s fits.1 fits.2]
    exact parseSegment_assembles (beginAssembly_assembled h g).file l m g
  · exact ⟨_, (placeGreater_misfit h l m g fits).1.file, rfl⟩

/-- R111: a segment of a greater frame number is logged for the frame it closes alone, unless its channel evaluates the
frame that it begins and completes. -/
theorem placeGreater_silent (l : SrcLink) (m : FormatEntry) (g : Segment)
    (silent : f.channel = none ∨ ¬ (g.firstLine = 0 ∧ shapeOk m g = true ∧ g.lineCount = m.height)) :
    (placeGreater j l m g s).1.log = s.log := by
  by_cases fits : g.firstLine = 0 ∧ shapeOk m g = true
  · obtain ⟨first, shape⟩ := fits
    have begun := beginAssembly_assembled h g
    rw [placeGreater_begin j l m g s first shape]
    by_cases whole : g.firstLine + g.lineCount = m.height
    · obtain ⟨-, unlogged, -⟩ := parseSegment_whole begun.file l m g whole
      exact (unlogged (silent.resolve_right fun no => no ⟨first, shape, by omega⟩)).trans begun.log
    · exact (parseSegment_inside begun.file l m g whole).log.trans begun.log
  · exact (placeGreater_misfit h l m g fits).1.log

end

/-- R111, R113: the assembly in which a segment of a greater frame number is placed. -/
def Assembly.freed (a : Assembly) : Assembly := if a.state = .idle then a else a.closed

/-- R111, R113: the state in which it is placed. -/
def closedBefore (j : FileIx) (a : Assembly) (s : State) : State := if a.state = .idle then s else closePartial j s

theorem closedBefore_freed {j : FileIx} {f : FileRec} {a : Assembly} {s : State} (h : Assembles j f a s) :
    Assembles j f a.freed (closedBefore j a s) ∧
      ∀ c : Channel, (closedBefore j a s).channels[c].evaluated = s.channels[c].evaluated := by
  unfold Assembly.freed closedBefore
  split
  · exact ⟨h, fun _ => rfl⟩
  · obtain ⟨file, counted, -, -⟩ := closePartial_closed h
    exact ⟨file, counted⟩

theorem Assembly.greater_some {a : Assembly} {n : Nat} (last : a.lastFrame = some n) (frame : Nat) :
    a.greater frame = decide (n < frame) := by
  unfold greater
  rw [last]

section
variable {j : FileIx} {f : FileRec} {a : Assembly} {s : State} (h : Assembles j f a s) (l : SrcLink) (m : FormatEntry)
  (g : Segment)
include h

theorem readPreview_greater (greater : a.greater g.frame = true) :
    (readPreview j l m g s).1 = (placeGreater j l m g (closedBefore j a s)).1 := by
  unfold readPreview closedBefore
  rw [h.assembly]
  dsimp only
  rw [greater]
  cases a.state <;> rfl

/-- R113: a frame in progress that a greater frame number closes. -/
theorem readPreview_closes (greater : a.greater g.frame = true) (inProgress : a.state ≠ .idle) :
    (∀ c : Channel, f.channel = some c → ¬ (g.firstLine = 0 ∧ shapeOk m g = true) →
      (readPreview j l m g s).1.channels[c].frame = none) ∧
    (f.channel = none ∨ ¬ (g.firstLine = 0 ∧ shapeOk m g = true ∧ g.lineCount = m.height) → s.log.length < 64 →
      ∃ r, (readPreview j l m g s).1.log = s.log ++ [r] ∧
        PartialLogged (labelAt f.card s) f (a.lastFrame.getD 0) a.cause r) := by
  obtain ⟨freed, -⟩ := closedBefore_freed h
  obtain ⟨-, -, discarded, record⟩ := closePartial_closed h
  rw [readPreview_greater h l m g greater]
  refine ⟨fun c serves misfit => ?_, fun silent room => ?_⟩
  · rw [(placeGreater_misfit freed l m g misfit).2, closedBefore, if_neg inProgress]
    exact discarded c serves
  · rw [placeGreater_silent freed l m g silent, closedBefore, if_neg inProgress]
    exact record room

theorem readPreview_repeated (idle : a.state = .idle) (lower : a.greater g.frame = false) :
    (readPreview j l m g s).1 = logPartial j g.frame .order s := by
  unfold readPreview
  rw [h.assembly]
  dsimp only
  rw [idle, lower]
  rfl

theorem readPreview_broken {x : PartialCause} (broken : a.state = .broken x) (lower : a.greater g.frame = false) :
    (readPreview j l m g s).1 = s := by
  unfold readPreview
  rw [h.assembly]
  dsimp only
  rw [broken, lower]
  rfl

theorem readPreview_older (building : a.state = .building) {n : Nat} (last : a.lastFrame = some n)
    (older : g.frame < n) :
    (readPreview j l m g s).1 = modAssembly j (fun a => { a with state := .broken .order }) s := by
  have other : a.lastFrame ≠ some g.frame := fun e => by
    rw [last] at e
    exact older.ne' (Option.some.inj e)
  unfold readPreview
  rw [h.assembly]
  dsimp only
  rw [building]
  dsimp only
  rw [if_neg (by rw [Assembly.greater_some last, decide_eq_true_eq]; omega), if_pos other]

theorem readPreview_current (building : a.state = .building) (last : a.lastFrame = some g.frame) :
    (g.firstLine = a.nextLine ∧ shapeOk m g = true →
      (readPreview j l m g s).1 = (parseSegment j l m g s).1) ∧
    (¬ (g.firstLine = a.nextLine ∧ shapeOk m g = true) → (readPreview j l m g s).1 =
      modAssembly j (fun a => { a with state := .broken (misfitCause (shapeOk m g)) }) s) := by
  unfold readPreview
  rw [h.assembly]
  dsimp only
  rw [building]
  dsimp only
  rw [if_neg (by rw [Assembly.greater_some last, decide_eq_true_eq]; omega), if_neg fun no => no last]
  exact ⟨fun fits => by rw [if_pos fits], fun misfit => by rw [if_neg misfit]⟩

/-- R106: the file keeps an assembly, of the same format. -/
theorem readPreview_assembles : ∃ b, Assembles j f b (readPreview j l m g s).1 ∧ b.format = a.format := by
  cases greater : a.greater g.frame with
  | true =>
    obtain ⟨b, file, format⟩ := placeGreater_assembles (closedBefore_freed h).1 l m g
    refine ⟨b, by rw [readPreview_greater h l m g greater]; exact file, format.trans ?_⟩
    unfold Assembly.freed
    split <;> rfl
  | false =>
    cases state : a.state with
    | idle =>
      refine ⟨a, ?_, rfl⟩
      rw [readPreview_repeated h l m g state greater]
      exact h.of_files (logPartial_logged h g.frame .order).1.files
    | broken x => exact ⟨a, by rw [readPreview_broken h l m g state greater]; exact h, rfl⟩
    | building =>
      cases last : a.lastFrame with
      | none =>
        unfold Assembly.greater at greater
        rw [last] at greater
        cases greater
      | some n =>
        rw [Assembly.greater_some last, decide_eq_false_iff_not, Nat.not_lt] at greater
        rcases greater.lt_or_eq with older | rfl
        · rw [readPreview_older h l m g state last older]
          exact ⟨_, h.modAssembly _, rfl⟩
        · obtain ⟨continues, breaks⟩ := readPreview_current h l m g state last
          by_cases fits : g.firstLine = a.nextLine ∧ shapeOk m g = true
          · rw [continues fits]
            exact parseSegment_assembles h l m g
          · rw [breaks fits]
            exact ⟨_, h.modAssembly _, rfl⟩

end

/-! ### The whole segment -/

/-- R106: a PREVIEW segment of a PICTURE file is read, and what it is offered to reaches no file, channel or record. -/
theorem readSegment_preview (l : SrcLink) (j : FileIx) (i : SlotIx) {f : FileRec} {a : Assembly} {m : FormatEntry}
    {g : Segment} (s : State) (preview : g.kind = 5) (assembly : f.assembly = some a) (format : a.format = some m)
    (valid : m.valid = true) (picture : m.packing ≠ .none_) :
    (readSegment l j i f g s).files = (readPreview j l m g s).1.files ∧
      (readSegment l j i f g s).log = (readPreview j l m g s).1.log ∧
      (readSegment l j i f g s).channels = (readPreview j l m g s).1.channels := by
  have latched : f.assembly.bind Assembly.format = some m := by rw [assembly]; exact format
  have mode : f.mode = .picture := by
    unfold FileRec.mode
    rw [latched, parseMode_valid valid, if_neg picture]
  unfold readSegment
  rw [latched]
  dsimp only
  rw [if_pos ⟨preview, mode⟩]
  unfold previewSegment
  dsimp only
  rw [offerLookTo_frame l _ i g _ _ 1]
  dsimp only
  rw [offerLookTo_frame l _ i g _ _ 0]
  exact ⟨rfl, rfl, rfl⟩

/-- R110, R111: a segment that does not fit, as the statement writes it. -/
theorem misfit_iff {g : Segment} {m : FormatEntry} (p : Prop) : (¬ p ∨ shapeOk m g = false) ↔
    ¬ (p ∧ shapeOk m g = true) := by
  rw [← Bool.not_eq_true]
  exact not_and_or.symm

/-- Settles O24: by the row of R111, each of which leaves one assembly. -/
theorem previewPlaced : Obligations.PreviewPlaced := by
  intro l i g c k j f a m s h preview place bytes last assembly format valid picture r hr
  obtain ⟨v, t, run, file, before, label, after⟩ := exec_dataStep_read h place bytes last assembly
  have step : dataStep l g.kind = .preview l := by rw [preview]; rfl
  rw [step] at run
  obtain ⟨files, log, channels⟩ := readSegment_preview l j i v preview assembly format valid picture
  have files := after.files.trans files
  have log := after.log.trans log
  have channels := after.channels.trans channels
  obtain ⟨b, hb, kept⟩ := readPreview_assembles file l m g
  obtain ⟨freed, counted⟩ := closedBefore_freed file
  have same : a.state = .idle → a.freed = a := fun idle => if_pos idle
  rw [before.channels] at counted
  refine ⟨t, b, run, (hb.of_files files).assembly, kept.trans format, ?_, ?_, ?_, ?_, ?_, ?_, ?_, ?_, ?_, ?_⟩
  · intro greater first shape part
    rw [readPreview_greater file l m g greater, placeGreater_begin _ l m g _ first shape] at hb
    have begun := beginAssembly_assembled freed g
    obtain rfl := hb.unique (parseSegment_inside begun.file l m g (by omega)).file
    refine ⟨rfl, rfl, (congrArg (· + g.lineCount) first).trans (Nat.zero_add _), rfl, fun idle => ?_⟩
    rw [same idle]
    rfl
  · intro greater first shape whole
    have begun := beginAssembly_assembled freed g
    obtain ⟨file', -, evaluated⟩ := parseSegment_whole begun.file l m g (by omega)
    rw [readPreview_greater file l m g greater, placeGreater_begin _ l m g _ first shape] at hb channels
    obtain rfl := hb.unique file'
    refine ⟨rfl, rfl, rfl, fun idle => ?_, fun ch serves => ?_⟩
    · rw [same idle, hr, ← a.begun_find g.frame]
      exact ⟨rfl, rfl, a.begun_completed_store g.frame g⟩
    · rw [channels, ← counted, ← begun.counted]
      exact evaluated ch serves
  · intro greater misfit
    rw [readPreview_greater file l m g greater] at hb
    obtain rfl := hb.unique (placeGreater_misfit freed l m g ((misfit_iff _).mp misfit)).1.file
    exact ⟨rfl, rfl⟩
  · intro building current next shape part
    rw [(readPreview_current file l m g building current).1 ⟨next, shape⟩] at hb
    exact hb.unique (parseSegment_inside file l m g (by omega)).file
  · intro building current next shape whole
    obtain ⟨file', -, evaluated⟩ := parseSegment_whole file l m g whole
    rw [(readPreview_current file l m g building current).1 ⟨next, shape⟩] at hb channels
    obtain rfl := hb.unique file'
    refine ⟨by rw [← whole, hr]; rfl, fun ch serves => ?_⟩
    obtain ⟨frame, previous, count⟩ := evaluated ch serves
    rw [channels]
    refine ⟨frame, fun d digest => previous.trans ?_, by rw [count, before.channels]⟩
    unfold Assembly.parsed
    dsimp only
    rw [digest]
    rfl
  · intro building current misfit
    rw [(readPreview_current file l m g building current).2 ((misfit_iff _).mp misfit)] at hb
    exact hb.unique (file.modAssembly _)
  · intro n building current older
    rw [readPreview_older file l m g building current older] at hb
    exact hb.unique (file.modAssembly _)
  · intro x broken lower
    rw [readPreview_broken file l m g broken lower] at hb
    exact hb.unique file
  · intro idle lower
    rw [readPreview_repeated file l m g idle lower] at hb log
    obtain ⟨only, record⟩ := logPartial_logged file g.frame .order
    refine ⟨hb.unique (file.of_files only.files), fun room => ?_⟩
    rw [log, ← before.log, ← label]
    exact record (by rw [before.log]; exact room)
  · intro n cause current newer open_
    have greater : a.greater g.frame = true := by rw [Assembly.greater_some current, decide_eq_true_eq]; exact newer
    have why : a.state ≠ .idle ∧ a.cause = cause := by
      unfold Assembly.cause
      rcases open_ with ⟨building, rfl⟩ | broken
      · rw [building]
        exact ⟨AssemblyState.noConfusion, rfl⟩
      · rw [broken]
        exact ⟨AssemblyState.noConfusion, rfl⟩
    obtain ⟨discarded, record⟩ := readPreview_closes file l m g greater why.1
    rw [current, why.2, before.log] at record
    rw [channels, log, ← label]
    exact ⟨fun ch serves misfit => discarded ch serves ((misfit_iff _).mp misfit), record⟩

end Sys2Proof.Machine
end

