-- ==== Sys2Proof/Proofs/Looks.lean ====
section
/-! PROOF. The arithmetic of a look (chapter 7): the rounding (R126), the pixels of a payload (R107, R108), and the
bounds of the two stages (R125 to R130). Settles O58 and O59. -/

namespace Sys2Proof.Machine

open Sys2Proof

/-! ### The rounding (R126) -/

section
variable {mode : Rounding} {n a d : Int}

/-- R126: every mode takes one of the two integers around the quotient, and the upper one only where the division is not
exact. -/
theorem roundDiv_around (mode : Rounding) (n a : Int) :
    roundDiv mode n a = a / n ∨ a % n ≠ 0 ∧ roundDiv mode n a = a / n + 1 := by
  unfold roundDiv
  dsimp only
  by_cases whole : a % n = 0
  · exact .inl (if_pos whole)
  · rw [if_neg whole]
    cases mode with
    | down => exact .inl rfl
    | up => exact .inr ⟨whole, rfl⟩
    | towardZero => dsimp only; split_ifs <;> simp [whole]
    | nearestEven => dsimp only; split_ifs <;> simp [whole]

/-- R126: a quotient that is not below an integer does not round below it. -/
theorem le_roundDiv (pos : 0 < n) (h : n * d ≤ a) : d ≤ roundDiv mode n a := by
  have floor : d ≤ a / n := (Int.le_ediv_iff_mul_le pos).mpr (by rwa [mul_comm])
  rcases roundDiv_around mode n a with e | ⟨-, e⟩ <;> omega

/-- R126: a quotient that is not above an integer does not round above it. -/
theorem roundDiv_le (pos : 0 < n) (h : a ≤ n * d) : roundDiv mode n a ≤ d := by
  have floor : a / n ≤ d := (Int.ediv_le_ediv pos h).trans (Int.mul_ediv_cancel_left d pos.ne').le
  rcases roundDiv_around mode n a with e | ⟨inexact, e⟩
  · omega
  · have decomposed := Int.mul_ediv_add_emod a n
    have rest := Int.emod_nonneg a pos.ne'
    have ne : a / n ≠ d := fun same => by rw [same] at decomposed; omega
    omega

end

/-- Settles O58: each mode's row, where the decomposition is the floor and its remainder. -/
theorem roundingTable : Obligations.RoundingTable := by
  refine ⟨fun _ _ _ => rfl, fun mode c x => (Int.toNat_eq_max _).trans (max_comm _ _),
    fun n a d r size eq nonneg below => ?_⟩
  obtain ⟨quotient, remainder⟩ : a / n = d ∧ a % n = r := (Int.ediv_emod_unique (nonneg.trans_lt below)).mpr
    ⟨(add_comm r (n * d)).trans eq.symm, nonneg, below⟩
  unfold roundDiv
  dsimp only
  rw [quotient, remainder]
  refine ⟨ite_id d, rfl, ?_, ?_⟩
  · by_cases whole : r = 0 <;> simp [whole]
  · by_cases whole : r = 0
    · rw [if_pos whole, if_pos (by omega)]
    · rw [if_neg whole]

/-! ### Pixels (R107, R108) -/

/-- A number that fits in its bytes reads back from them. -/
theorem leNat_le {n v : Nat} (fits : v < 256 ^ n) : leNat (le n v) = v := by
  induction n generalizing v with
  | zero => simp only [pow_zero, Nat.lt_one_iff] at fits; rw [fits]; rfl
  | succ n ih =>
    have upper : v / 256 < 256 ^ n := Nat.div_lt_of_lt_mul (by rwa [pow_succ'] at fits)
    rw [le, leNat, ih upper, BitVec.toNat_ofNat]
    exact Nat.mod_add_div v 256

theorem pixelsOf_p8 (r g b : Byte) (rest : Bytes) : pixelsOf .p8 (r :: g :: b :: rest) =
    ⟨r.toNat * 16 + r.toNat / 16, g.toNat * 16 + g.toNat / 16, b.toNat * 16 + b.toNat / 16⟩ :: pixelsOf .p8 rest := rfl

theorem pixelsOf_p10w {r g b spare : Nat} (rest : Bytes) (hr : r < 1024) (hg : g < 1024) (hb : b < 1024)
    (hs : spare < 4) :
    pixelsOf .p10w (le 4 (r + 1024 * g + 1048576 * b + 1073741824 * spare) ++ rest) =
      ⟨r * 4 + r / 256, g * 4 + g / 256, b * 4 + b / 256⟩ :: pixelsOf .p10w rest := by
  have unfolded : ∀ v, pixelsOf .p10w (le 4 v ++ rest) =
      ⟨expand10 (leNat (le 4 v) % 1024), expand10 (leNat (le 4 v) / 1024 % 1024),
        expand10 (leNat (le 4 v) / 1048576 % 1024)⟩ :: pixelsOf .p10w rest := fun _ => rfl
  have red : (r + 1024 * g + 1048576 * b + 1073741824 * spare) % 1024 = r := by omega
  have green : (r + 1024 * g + 1048576 * b + 1073741824 * spare) / 1024 % 1024 = g := by omega
  have blue : (r + 1024 * g + 1048576 * b + 1073741824 * spare) / 1048576 % 1024 = b := by omega
  rw [unfolded, leNat_le (by omega), red, green, blue]
  rfl

theorem pixelsOf_p12h {r g b x y z : Nat} (rest : Bytes) (hr : r < 4096) (hg : g < 4096) (hb : b < 4096) (hx : x < 16)
    (hy : y < 16) (hz : z < 16) :
    pixelsOf .p12h (le 2 (r + 4096 * x) ++ le 2 (g + 4096 * y) ++ le 2 (b + 4096 * z) ++ rest) =
      ⟨r, g, b⟩ :: pixelsOf .p12h rest := by
  have unfolded : ∀ u v w, pixelsOf .p12h (le 2 u ++ le 2 v ++ le 2 w ++ rest) =
      ⟨leNat (le 2 u) % 4096, leNat (le 2 v) % 4096, leNat (le 2 w) % 4096⟩ :: pixelsOf .p12h rest := fun _ _ _ => rfl
  have code : ∀ {v spare : Nat}, v < 4096 → spare < 16 → leNat (le 2 (v + 4096 * spare)) % 4096 = v :=
    fun hv hs => by rw [leNat_le (by omega)]; omega
  rw [unfolded, code hr hx, code hg hy, code hb hz]

/-! ### Stage 1 (R125, R127, R128) -/

section
variable {k : LookTableEntry} {x : Pixel}

/-- R125: one product of the accumulation. -/
theorem abs_product_le {m : Int} {v : Nat} (hm : -32768 ≤ m ∧ m ≤ 32767) (hv : v ≤ 4095) :
    |m * (v : Int)| ≤ 32768 * 4095 := by
  rw [abs_mul, Nat.abs_cast]
  exact mul_le_mul (abs_le.mpr ⟨by omega, by omega⟩) (by omega) (by omega) (by omega)

/-- R125: the bound of the accumulation. -/
theorem LookTableEntry.inRange.acc_le (range : k.inRange) (red : x.r ≤ 4095) (green : x.g ≤ 4095) (blue : x.b ≤ 4095)
    (c : Fin 3) : |k.acc c x| ≤ 419332096 := by
  obtain ⟨matrix, offsets, -, -⟩ := range
  have r := abs_le.mp (abs_product_le (matrix c 0) red)
  have g := abs_le.mp (abs_product_le (matrix c 1) green)
  have b := abs_le.mp (abs_product_le (matrix c 2) blue)
  have offset := offsets c
  have sum : k.acc c x = k.matrix[c][(0 : Fin 3)] * (x.r : Int) + k.matrix[c][(1 : Fin 3)] * (x.g : Int) +
    k.matrix[c][(2 : Fin 3)] * (x.b : Int) + k.offsets[c] * 4096 := rfl
  rw [abs_le, sum]
  omega

/-- R127: a range pixel shows OVER or UNDER on one of its channels. -/
theorem LookTableEntry.isRangePixel_iff (k : LookTableEntry) (x : Pixel) :
    k.isRangePixel x = true ↔ ∃ c : Fin 3, k.stage1 c x < 0 ∨ 4095 < k.stage1 c x := by
  have channels : ∀ p : Fin 3 → Prop, (∃ c, p c) ↔ p 0 ∨ p 1 ∨ p 2 := fun p => by simp [Fin.exists_fin_succ]
  unfold isRangePixel conditions1 cond1 Conditions.or
  simp only [Bool.or_eq_true, decide_eq_true_eq, channels]
  tauto

/-- R128: saturation, as the statement writes it. -/
theorem saturate12_eq (q : Int) : saturate12 q = (max 0 (min 4095 q)).toNat := by
  unfold saturate12 clampInt
  split_ifs <;> omega

theorem saturate12_le (q : Int) : saturate12 q ≤ 4095 := by
  rw [saturate12_eq]
  omega

/-! ### Stage 2 (R129, R130) -/

section
variable {curve : Vector Nat 65} {n : Nat}

/-- R130: the weighted sum lies between 64 times the lower and 64 times the higher of the two curve points. -/
theorem curveSum_between (curve : Vector Nat 65) (n : Nat) :
    64 * min (curvePoint curve (n / 64)) (curvePoint curve (n / 64 + 1)) ≤ curveSum curve n ∧
      curveSum curve n ≤ 64 * max (curvePoint curve (n / 64)) (curvePoint curve (n / 64 + 1)) := by
  unfold curveSum
  generalize curvePoint curve (n / 64) = low
  generalize curvePoint curve (n / 64 + 1) = high
  have weights : 64 - n % 64 + n % 64 = 64 := by omega
  generalize 64 - n % 64 = u at *
  generalize n % 64 = v at *
  have whole : ∀ m, 64 * m = m * u + m * v := fun m => by rw [← Nat.mul_add, weights, Nat.mul_comm]
  rw [whole, whole]
  exact ⟨Nat.add_le_add (Nat.mul_le_mul_right u (min_le_left ..)) (Nat.mul_le_mul_right v (min_le_right ..)),
    Nat.add_le_add (Nat.mul_le_mul_right u (le_max_left ..)) (Nat.mul_le_mul_right v (le_max_right ..))⟩

/-- R130: so the result of stage 2 lies between the two points. -/
theorem stage2_between (mode : Rounding) (curve : Vector Nat 65) (n : Nat) :
    min (curvePoint curve (n / 64)) (curvePoint curve (n / 64 + 1)) ≤ stage2 mode curve n ∧
      stage2 mode curve n ≤ max (curvePoint curve (n / 64)) (curvePoint curve (n / 64 + 1)) := by
  obtain ⟨lower, upper⟩ := curveSum_between curve n
  unfold stage2
  generalize min (curvePoint curve (n / 64)) (curvePoint curve (n / 64 + 1)) = low at *
  generalize max (curvePoint curve (n / 64)) (curvePoint curve (n / 64 + 1)) = high at *
  have above : (low : Int) ≤ roundDiv mode 64 (curveSum curve n) := le_roundDiv (by decide) (by exact_mod_cast lower)
  have below : roundDiv mode 64 (curveSum curve n) ≤ high := roundDiv_le (by decide) (by exact_mod_cast upper)
  omega

/-- R130: between equal points stage 2 is exact. -/
theorem cond2_exact (equal : curvePoint curve (n / 64) = curvePoint curve (n / 64 + 1)) :
    (cond2 curve n).inexact = false := by
  obtain ⟨lower, upper⟩ := curveSum_between curve n
  rw [← equal, min_self] at lower
  rw [← equal, max_self] at upper
  have sum : curveSum curve n = 64 * curvePoint curve (n / 64) := le_antisymm upper lower
  unfold cond2
  rw [sum, Nat.mul_mod_right]
  rfl

theorem curvePoint_le (h : ∀ i : Fin 65, curve[i] ≤ 1023) (i : Nat) : curvePoint curve i ≤ 1023 := by
  unfold curvePoint
  rcases Nat.lt_or_ge i 65 with inside | outside
  · rw [List.getD_eq_getElem _ _ (by simpa using inside)]
    exact h ⟨i, inside⟩
  · rw [List.getD_eq_default _ _ (by simpa using outside)]
    exact Nat.zero_le _

/-- R129, R130: an output value fits in 10 bits. -/
theorem stage2_le (mode : Rounding) (h : ∀ i : Fin 65, curve[i] ≤ 1023) (n : Nat) : stage2 mode curve n ≤ 1023 :=
  (stage2_between mode curve n).2.trans (max_le (curvePoint_le h _) (curvePoint_le h _))

end

/-! ### A graded pixel (R124) -/

theorem LookTableEntry.grade_marked (mark : k.policy = .mark) (range : k.isRangePixel x = true) :
    (k.grade x).1 = ⟨k.marker[0], k.marker[1], k.marker[2]⟩ := by
  unfold grade
  rw [if_pos ⟨mark, range⟩]

theorem LookTableEntry.grade_curved (other : ¬ (k.policy = .mark ∧ k.isRangePixel x = true)) : (k.grade x).1 =
    ⟨stage2 k.rounding k.curves[0] (saturate12 (k.stage1 0 x)),
      stage2 k.rounding k.curves[1] (saturate12 (k.stage1 1 x)),
      stage2 k.rounding k.curves[2] (saturate12 (k.stage1 2 x))⟩ := by
  unfold grade
  rw [if_neg other]

/-- R123, R129: the output values of a look in range. -/
theorem LookTableEntry.inRange.grade_le (range : k.inRange) (x : Pixel) :
    (k.grade x).1.r ≤ 1023 ∧ (k.grade x).1.g ≤ 1023 ∧ (k.grade x).1.b ≤ 1023 := by
  obtain ⟨-, -, curves, marker⟩ := range
  by_cases marked : k.policy = .mark ∧ k.isRangePixel x = true
  · rw [grade_marked marked.1 marked.2]
    exact ⟨marker 0, marker 1, marker 2⟩
  · rw [grade_curved marked]
    exact ⟨stage2_le _ (curves 0) _, stage2_le _ (curves 1) _, stage2_le _ (curves 2) _⟩

end

/-- Settles O59: by the packing, and then by the stage. -/
theorem gradedPixels : Obligations.GradedPixels := by
  refine ⟨pixelsOf_p8, fun r g b spare rest => pixelsOf_p10w rest, fun r g b x y z rest => pixelsOf_p12h rest,
    fun k x range red green blue => ?_⟩
  obtain ⟨r, g, b⟩ := range.grade_le x
  refine ⟨fun c => ⟨rfl, range.acc_le red green blue c⟩, k.isRangePixel_iff x, r, g, b,
    LookTableEntry.grade_marked, fun other q y hq hy => ?_, ?_⟩
  · have unmarked : ¬ (k.policy = .mark ∧ k.isRangePixel x = true) := by
      rintro ⟨mark, range⟩
      rcases other with saturate | inside
      · rw [saturate] at mark
        cases mark
      · rw [inside] at range
        cases range
    have value : ∀ c, y c = stage2 k.rounding k.curves[c] (saturate12 (k.stage1 c x)) :=
      fun c => by rw [hy, hq, saturate12_eq]
    rw [LookTableEntry.grade_curved unmarked, value, value, value]
    rfl
  · rintro c n low high - rfl rfl
    obtain ⟨lower, upper⟩ := stage2_between k.rounding k.curves[c] n
    exact ⟨lower, upper, cond2_exact⟩

end Sys2Proof.Machine
end

