-- ==== Sys2Proof/Proofs/LookEntries.lean ====
section
/-! PROOF. The entries of a look queue (R135 to R141): how one starts, how one completes, and how one leaves. Settles
O28 and O29. -/

namespace Sys2Proof.Machine

open Sys2Proof

/-! ### The output frame and the follow -/

section
variable (g : EngineState)

/-- R140: an output frame that is open ends with the broken mark. -/
theorem EngineState.endBroken_eq :
    g.endBroken = { g with out := .none_, sent := g.sent ++ brokenEnd g.out } := by
  unfold endBroken brokenEnd
  cases g with
  | mk sel fo queue proc ca pg out wo fi fov fu sent =>
    cases out with
    | none_ => simp
    | opened n k => rfl
    | broken n k => rfl

/-- R139: the completion of a complete-marked entry ends the output frame, with the broken mark where it is broken. -/
theorem EngineState.endComplete_eq {n k : Nat} {broken : Bool}
    (out : g.out = if broken = true then .broken n k else .opened n k) :
    g.endComplete = { g with out := .none_, sent := g.sent ++ [.frameEnd n k broken] } := by
  unfold endComplete
  cases broken with
  | false => rw [out]; rfl
  | true => rw [endBroken_eq, out]; rfl

/-- R140: what an output sends at the end of an output frame, where that has not been reached before. -/
theorem brokenEnd_unless (before : Prop) [Decidable before] (broken : Bool) (n k : Nat) :
    brokenEnd (if before then .none_ else if broken = true then .broken n k else .opened n k) =
      if before then [] else [.frameEnd n k true] := by
  split_ifs <;> rfl

/-- R146: the follow ends where its file has ended and nothing is left to do. -/
theorem EngineState.finishFollow_eq (idle : g.proc = none) {closes : Bool}
    (ends : closes = true ↔ (∃ f, g.follow = some f ∧ f.ended = true) ∧ g.queue = []) :
    g.finishFollow = if closes = true then
      { g with follow := none, out := .none_, sent := g.sent ++ brokenEnd g.out } else g := by
  unfold finishFollow
  cases hf : g.follow with
  | none =>
    rw [if_neg fun yes => by obtain ⟨⟨f, hf', -⟩, -⟩ := ends.mp yes; rw [hf] at hf'; cases hf']
  | some f =>
    have same : (f.ended = true ∧ g.queue = [] ∧ g.proc = none) ↔ closes = true := by
      rw [ends, hf]
      simp [idle]
    dsimp only
    rw [endBroken_eq]
    exact if_congr same rfl rfl

end

/-! ### An entry that leaves -/

/-- R57, R136: an entry in slot `i`, which `m` owns, has left the look queue of engine `e`, which is then as `G` makes
it. -/
def EntryLeft (e : Engine) (i : SlotIx) (m : SrcLink) (G : EngineState → EngineState) (s t : State) : Prop :=
  t = { s with src := t.src, slots := t.slots, engines := t.engines } ∧ LostRef i m s t ∧
    t.engines = vmod s.engines e G

/-- R136: the head entry leaves the queue once the engine has changed by `F`. -/
theorem leaveQueue_left {e : Engine} {item : LookItem} {rest : List LookItem} {m : SrcLink} {s : State}
    (F : EngineState → EngineState) {G : EngineState → EngineState} (queue : (F s.engines[e]).queue = item :: rest)
    (owner : s.slots[item.slot].owner = some m)
    (left : ({ F s.engines[e] with queue := rest, proc := none } : EngineState).finishFollow = G s.engines[e]) :
    EntryLeft e item.slot m G s (leaveQueue e (modEngine e F s)) := by
  have head : (modEngine e F s).engines[e].queue = item :: rest := by
    rw [modEngine_engines, vmod_self]
    exact queue
  have run : leaveQueue e (modEngine e F s) = dropRef item.slot (modEngine e (fun g =>
      { g with queue := rest, proc := none }.finishFollow) (modEngine e F s)) := by
    unfold leaveQueue
    rw [head]
  rw [run]
  generalize hu : modEngine e _ (modEngine e F s) = u
  have engines : u.engines = vmod s.engines e G := by
    rw [← hu, modEngine_engines, modEngine_engines, vmod_vmod]
    exact vmod_congr _ _ left
  have frame := dropRef_frame item.slot u
  have lost : LostRef item.slot m u (dropRef item.slot u) := dropRef_spec item.slot m u (by rw [← hu]; exact owner)
  refine ⟨?_, by rw [← hu] at lost ⊢; exact lost, by rw [frame.engines, engines]⟩
  unfold SlotsOnly at frame
  rw [frame, ← hu]
  rfl

/-! ### The start of an entry -/

section
variable {e : Engine} {s : State}

theorem exec_entryStart (e : Engine) (running : s.resetLow = false) :
    exec (.entryStart e) s = .next (startEntry e s) := by
  show live s (fun s => .next (startEntry e s)) = _
  rw [live_running running]

/-- R135: with an entry in processing, an empty queue or no follow, nothing starts. -/
theorem startEntry_idle (h : s.engines[e].proc ≠ none ∨ s.engines[e].queue = [] ∨ s.engines[e].follow = none) :
    startEntry e s = s := by
  unfold startEntry
  split
  · next proc queue follow =>
    rw [proc, queue, follow] at h
    simp at h
  · rfl

/-- R137: the start of a BEGIN entry, as the statement writes it. -/
theorem startBegin_eq (e : Engine) (item : LookItem) (f : Follow) (s : State) :
    startBegin e item f s = { s with engines := vmod s.engines e fun g => { g with
      working := some ⟨f.look, s.looks[f.look]⟩
      proc := some ⟨f.width, f.packing, 0⟩
      out := .opened item.frame 0
      sent := g.sent ++ brokenEnd g.out ++
        [.frameStart e f.label f.file f.tid item.frame f.width f.height f.look] } } := by
  unfold startBegin modEngine
  simp only [EngineState.endBroken_eq]
  rfl

section
variable {item : LookItem} {rest : List LookItem} {f : Follow}

section
variable (idle : s.engines[e].proc = none) (queue : s.engines[e].queue = item :: rest)
  (follow : s.engines[e].follow = some f)
include idle queue follow

theorem startEntry_begin (place : item.placement = .begin) : startEntry e s = startBegin e item f s := by
  unfold startEntry
  rw [idle, queue, follow]
  exact if_pos place

theorem startEntry_other (place : item.placement ≠ .begin) : startEntry e s = startOther e item f s := by
  unfold startEntry
  rw [idle, queue, follow]
  exact if_neg place

end

/-- R138: without an output frame, the entry is passed over. -/
theorem startOther_none (out : s.engines[e].out = .none_) :
    startOther e item f s = leaveQueue e (modEngine e id s) := by
  have same : modEngine e id s = s := by rw [modEngine, vmod_same _ _ _ rfl]
  rw [same, startOther, out]

/-- R138: so it is in an output frame of another frame number, which ends. -/
theorem startOther_another {n k : Nat} (out : s.engines[e].out = .opened n k ∨ s.engines[e].out = .broken n k)
    (another : n ≠ item.frame) : startOther e item f s = leaveQueue e (modEngine e EngineState.endBroken s) := by
  unfold startOther
  rcases out with out | out <;> rw [out] <;> exact if_pos another

/-- R138: a MISFIT of the output frame's number is passed over, and the output frame is broken from there on. -/
theorem startOther_misfit {k : Nat} (place : item.placement = .misfit)
    (out : s.engines[e].out = .opened item.frame k ∨ s.engines[e].out = .broken item.frame k) :
    startOther e item f s = leaveQueue e (modEngine e (fun g => { g with out := .broken item.frame k }) s) := by
  have same : item.frame ≠ item.frame → False := fun no => no rfl
  unfold startOther
  rcases out with out | out
  · rw [out]
    dsimp only
    rw [if_neg same, if_pos place]
  · rw [out]
    dsimp only
    rw [if_neg same, if_pos place, modEngine, vmod_same _ _ _ (by rw [← out])]

/-- R138: a CONTINUE of the output frame is graded in it. -/
theorem startOther_continue {k : Nat} (place : item.placement = .continue_) :
    (s.engines[e].out = .opened item.frame k → startOther e item f s = modEngine e (fun g => { g with
      proc := some ⟨f.width, f.packing, 0⟩
      out := if item.gap = true then .broken item.frame k else .opened item.frame k }) s) ∧
    (s.engines[e].out = .broken item.frame k → startOther e item f s = modEngine e (fun g => { g with
      proc := some ⟨f.width, f.packing, 0⟩ }) s) := by
  have same : item.frame ≠ item.frame → False := fun no => no rfl
  have fits : item.placement ≠ .misfit := by rw [place]; exact Placement.noConfusion
  unfold startOther
  constructor <;> intro out <;> rw [out] <;> dsimp only <;> rw [if_neg same, if_neg fits] <;> rfl

/-- R136, R146: what the passing over of its head entry leaves of an engine. -/
def EngineState.passed (rest : List LookItem) (f : Follow) (closes : Bool) (g : EngineState) : EngineState :=
  { g with
    queue := rest, proc := none, follow := if closes = true then none else some f
    out := if closes = true then .none_ else g.out
    sent := g.sent ++ if closes = true then brokenEnd g.out else [] }

/-- R136, R146: the head entry is passed over once the engine has changed by `F`. -/
theorem leaveQueue_passed {m : SrcLink} {closes : Bool} (F : EngineState → EngineState) {G : EngineState → EngineState}
    (queue : (F s.engines[e]).queue = item :: rest) (follow : (F s.engines[e]).follow = some f)
    (owner : s.slots[item.slot].owner = some m) (ends : closes = true ↔ f.ended = true ∧ rest = [])
    (passed : (F s.engines[e]).passed rest f closes = G s.engines[e]) :
    EntryLeft e item.slot m G s (leaveQueue e (modEngine e F s)) := by
  refine leaveQueue_left F queue owner ?_
  rw [← passed]
  generalize F s.engines[e] = g at follow
  have when_ : closes = true ↔ (∃ f, g.follow = some f ∧ f.ended = true) ∧ rest = [] := by
    rw [ends, follow]
    simp
  rw [EngineState.finishFollow_eq _ rfl when_]
  unfold EngineState.passed
  cases closes with
  | true => rfl
  | false => simp [← follow]

end
end

/-- Settles O28: by the placement of the entry and the output frame it meets. -/
theorem entryStartsFrame : Obligations.EntryStartsFrame := by
  intro e s running
  rw [exec_entryStart e running]
  refine ⟨fun h => by rw [startEntry_idle h], fun item rest f idle queue follow => ⟨fun place => ?_,
    fun k place out => ?_, fun k place out => ?_, fun m closes owner ends place => ?_⟩⟩
  · rw [startEntry_begin idle queue follow place, startBegin_eq]
    rfl
  · rw [startEntry_other idle queue follow (by rw [place]; exact Placement.noConfusion),
      (startOther_continue place).1 out]
    rfl
  · rw [startEntry_other idle queue follow (by rw [place]; exact Placement.noConfusion),
      (startOther_continue place).2 out]
    rfl
  rw [startEntry_other idle queue follow place]
  refine ⟨fun out => ?_, fun n k out another => ?_, fun k misfit out => ?_⟩
  · rw [startOther_none out]
    refine ⟨_, rfl, leaveQueue_passed id queue follow owner ends ?_⟩
    unfold EngineState.passed
    rw [id, out, idle]
    cases closes <;> simp [brokenEnd]
  · have ended : brokenEnd s.engines[e].out = [.frameEnd n k true] := by rcases out with out | out <;> rw [out] <;> rfl
    have before : s.engines[e].endBroken =
        { s.engines[e] with out := .none_, sent := s.engines[e].sent ++ [.frameEnd n k true] } := by
      rw [EngineState.endBroken_eq, ended]
    rw [startOther_another out another]
    refine ⟨_, rfl, leaveQueue_passed _ (by rw [before, queue]) (by rw [before, follow]) owner ends ?_⟩
    unfold EngineState.passed
    rw [before, idle]
    cases closes <;> simp [brokenEnd]
  · rw [startOther_misfit misfit out]
    refine ⟨_, rfl, leaveQueue_passed _ queue follow owner ends ?_⟩
    unfold EngineState.passed
    rw [idle]
    cases closes <;> rfl

/-! ### The grading of an entry -/

/-- R131: the conditions gathered over graded pixels. -/
theorem gathered_eq (graded : List (Pixel × Conditions)) (c : Conditions) :
    graded.foldl (fun c q => c.or q.2) c = ⟨c.inexact || graded.any fun q => q.2.inexact,
      c.tooHigh || graded.any fun q => q.2.tooHigh, c.tooLow || graded.any fun q => q.2.tooLow⟩ := by
  induction graded generalizing c with
  | nil => simp
  | cons q rest ih =>
    rw [List.foldl_cons, ih]
    simp [Conditions.or, Bool.or_assoc]

/-- R141: the lines of an entry graded as a whole. -/
theorem linesBetween_whole {width : Nat} (pos : 0 < width) (first count : Nat) (out : List Pixel) :
    linesBetween width first 0 (count * width) out =
      (List.range count).map fun a => .line (first + a) ((out.drop (a * width)).take width) := by
  unfold linesBetween
  rw [Nat.zero_div, Nat.mul_div_cancel _ pos, Nat.sub_zero, ← List.range_eq_range']

/-- R135, R131, R141: the engine once the whole of its entry is graded under the look `w`. -/
def EngineState.graded (item : LookItem) (payload : Bytes) (p : Processing) (w : WorkingLook) (g : EngineState) :
    EngineState :=
  let pixels := (pixelsOf p.packing payload).take (item.lineCount * p.width)
  { g with
    proc := some { p with graded := item.lineCount * p.width }
    flagInexact := g.flagInexact || pixels.any fun x => (w.look.grade x).2.inexact
    flagOver := g.flagOver || pixels.any fun x => (w.look.grade x).2.tooHigh
    flagUnder := g.flagUnder || pixels.any fun x => (w.look.grade x).2.tooLow
    out := g.out.addLines item.lineCount
    sent := g.sent ++ (List.range item.lineCount).map fun a => .line (item.firstLine + a)
      ((((pixelsOf p.packing payload).map fun x => (w.look.grade x).1).drop (a * p.width)).take p.width) }

theorem EngineState.gradeTo_whole {g : EngineState} {p : Processing} {w : WorkingLook} (proc : g.proc = some p)
    (new : p.graded = 0) (pos : 0 < p.width) (working : g.working = some w) (item : LookItem) (payload : Bytes) :
    g.gradeTo item payload (p.total item) = g.graded item payload p w := by
  unfold gradeTo graded Processing.total
  rw [proc, working]
  dsimp only
  rw [new, List.drop_zero, Nat.sub_zero, gathered_eq, linesBetween_whole pos, List.map_map, List.length_map,
    List.length_range, ← List.map_take]
  simp only [List.any_map]
  rfl

/-! ### The completion of an entry -/

/-- R139, R145: the engine once its entry is graded up to pixel `b`: a complete-marked entry ends the output frame, and
so does a change of follow that waits. -/
def EngineState.completing (item : LookItem) (payload : Bytes) (b : Nat) (g : EngineState) : EngineState :=
  let g := g.gradeTo item payload b
  let g := if item.complete then g.endComplete else g
  if g.closeAfter then { g.endBroken with closeAfter := false } else g

theorem completeEntry_eq {e : Engine} {s : State} {item : LookItem} {rest : List LookItem} {p : Processing}
    (queue : s.engines[e].queue = item :: rest) (proc : s.engines[e].proc = some p) : completeEntry e s =
      leaveQueue e (modEngine e (EngineState.completing item s.slots[item.slot].seg.payload (p.total item)) s) := by
  unfold completeEntry
  rw [proc, queue]
  dsimp only [modEngine]
  rw [vmod_vmod, vmod_vmod]
  rfl

section
variable {g : EngineState} {n k : Nat} {broken : Bool}

/-- R139, R145: what ends the output frame, and how. -/
theorem EngineState.completing_eq {item : LookItem} {payload : Bytes} {b : Nat} {changed : Bool}
    (out : (g.gradeTo item payload b).out = if broken = true then .broken n k else .opened n k)
    (closeAfter : (g.gradeTo item payload b).closeAfter = changed) :
    g.completing item payload b = { g.gradeTo item payload b with
      closeAfter := false
      out := if item.complete = true ∨ changed = true then .none_
        else if broken = true then .broken n k else .opened n k
      sent := (g.gradeTo item payload b).sent ++
        if item.complete = true then [.frameEnd n k broken]
        else if changed = true then [.frameEnd n k true] else [] } := by
  have ends : brokenEnd (g.gradeTo item payload b).out = [.frameEnd n k true] := by
    rw [out]
    exact brokenEnd_unless False broken n k
  unfold completing
  dsimp only
  cases complete : item.complete with
  | true =>
    rw [if_pos rfl, endComplete_eq _ out]
    dsimp only
    rw [closeAfter, endBroken_eq]
    cases changed <;> simp [brokenEnd]
  | false =>
    rw [if_neg Bool.false_ne_true, closeAfter, endBroken_eq, ends, ← out]
    cases changed with
    | true => simp
    | false =>
      simp only [Bool.false_eq_true, or_self, if_false, List.append_nil]
      rw [← closeAfter]

end

/-- Settles O29: the entry is graded, its frame ends or goes on, and it leaves the queue. -/
theorem entryCompletes : Obligations.EntryCompletes := by
  intro e item rest p w follow n k broken changed m pixels closes s running queue proc new pos working following out
    closeAfter owner ends hpixels
  have run : exec (.entryCompletion e) s = .next (completeEntry e s) := by
    show live s (fun s => .next (completeEntry e s)) = _
    rw [live_running running]
  rw [run, completeEntry_eq queue proc]
  generalize s.slots[item.slot].seg.payload = payload at *
  have graded := EngineState.gradeTo_whole proc new pos working item payload
  have frame : (s.engines[e].graded item payload p w).out =
      if broken = true then .broken n (k + item.lineCount) else .opened n (k + item.lineCount) := by
    unfold EngineState.graded
    dsimp only
    rw [out]
    cases broken <;> rfl
  have completed := EngineState.completing_eq (changed := changed) (by rw [graded]; exact frame)
    (by rw [graded]; exact closeAfter)
  rw [graded] at completed
  refine ⟨_, rfl, leaveQueue_left (rest := rest) _ (by rw [completed]; exact queue) owner ?_⟩
  have followed : (s.engines[e].graded item payload p w).follow = follow := following
  rw [completed, EngineState.finishFollow_eq _ rfl (closes := closes) (by rw [ends, ← followed]), hpixels]
  unfold EngineState.graded
  dsimp only
  rw [brokenEnd_unless]
  generalize s.engines[e] = g at *
  subst following
  cases closes with
  | false => simp
  | true => cases item.complete <;> cases changed <;> simp

end Sys2Proof.Machine
end

