-- ==== Sys2Proof/Proofs/ReviewSelections.lean ====
section
/-! PROOF. REVIEW SELECT (R142, R145, R202): the file a selection chooses, and the change of follow to it. Settles
O30. -/

namespace Sys2Proof.Machine

open Sys2Proof

/-! ### The files that a selection can choose (R142) -/

/-- A pinned label that is not empty, as every label is (R211). -/
def Selection.LabelOk : Selection → Prop
  | .pin label _ => label ≠ []
  | _ => True

/-- R142: the files that pass the model's test are those of the statement. -/
theorem selects_iff {sel : Selection} (labelOk : sel.LabelOk) {j : FileIx} {f : FileRec} {s : State}
    (hf : s.files[j].file = some f) : selects sel f s = true ↔ ∃ m k, Selectable sel j f m k s := by
  have mode : (f.mode == .picture) = true ↔
      ∃ m, f.assembly.bind Assembly.format = some m ∧ m.valid = true ∧ m.packing ≠ .none_ := by
    unfold FileRec.mode
    rw [parseMode_picture, Option.any_eq_true]
    simp only [decide_eq_true_eq]
  unfold selects Selectable
  rw [Bool.and_eq_true, Bool.and_eq_true, mode, beq_iff_eq]
  simp only [hf, true_and]
  cases hk : s.cards[f.card] with
  | none =>
    cases sel with
    | off => simp
    | follow links => simp [onLinks, hk]
    | pin label n =>
      have named : labelAt f.card s = [] := by unfold labelAt; rw [hk]; rfl
      rw [named]
      simpa using fun _ _ _ _ _ empty => absurd empty labelOk
  | some k =>
    have named : labelAt f.card s = k.label := by unfold labelAt; rw [hk]; rfl
    cases sel with
    | off => simp
    | follow links =>
      cases handle : k.handle <;> simp [onLinks, hk, handle, and_assoc, ← exists_and_right]
    | pin label n =>
      rw [named]
      simp [and_assoc, ← exists_and_right]

/-- R142, R145: what an engine latches of a file that a selection can choose. -/
theorem Selectable.followOf {sel : Selection} {j : FileIx} {f : FileRec} {m : FormatEntry} {k : Card} {s : State}
    (h : Selectable sel j f m k s) : followOf j s =
      some ⟨⟨j, s.files[j].gen⟩, k.label, f.number, m.width, m.height, m.packing, f.route.look, false⟩ := by
  obtain ⟨hf, -, format, -, -, hk, -⟩ := h
  have named : labelAt f.card s = k.label := by unfold labelAt; rw [hk]; rfl
  unfold Machine.followOf
  rw [hf]
  dsimp only
  rw [format, named]
  rfl

/-- R142: the open stamp of a file record. -/
def stampAt (s : State) (i : FileIx) : Nat := (s.files[i].file.map FileRec.stamp).getD 0

/-- R142: the later opened of the files chosen so far and one more. -/
def laterOpened (s : State) (best : Option FileIx) (i : FileIx) : Option FileIx :=
  match best with
  | none => some i
  | some b => if stampAt s b < stampAt s i then some i else best

/-- R142: a file with the highest open stamp is the one that is found, wherever it stands. -/
theorem foldl_laterOpened {s : State} {j : FileIx} (is : List FileIx) (best : Option FileIx)
    (stands : best = some j ∨ j ∈ is) (latest : ∀ i ∈ is, i = j ∨ stampAt s i < stampAt s j)
    (sofar : ∀ b, best = some b → b = j ∨ stampAt s b < stampAt s j) : is.foldl (laterOpened s) best = some j := by
  induction is generalizing best with
  | nil => exact stands.resolve_right List.not_mem_nil
  | cons i rest ih =>
    have first := latest i List.mem_cons_self
    have later : ∀ b, laterOpened s best i = some b → b = j ∨ stampAt s b < stampAt s j := fun b hb => by
      unfold laterOpened at hb
      split at hb
      · exact Option.some.inj hb ▸ first
      · split at hb
        · exact Option.some.inj hb ▸ first
        · exact sofar b hb
    refine ih _ ?_ (fun i hi => latest i (List.mem_cons_of_mem _ hi)) later
    by_cases this : i = j
    · subst this
      left
      cases best with
      | none => rfl
      | some b =>
        unfold laterOpened
        rcases sofar b rfl with rfl | lower
        · exact if_neg (lt_irrefl _)
        · exact if_pos lower
    · rcases stands with rfl | there
      · left
        unfold laterOpened
        exact if_neg (first.resolve_left this).not_gt
      · exact .inr ((List.mem_cons.mp there).resolve_left (Ne.symm this))

/-- R142, R145: the model follows what the statement says is chosen. -/
theorem Chosen.follow {sel : Selection} {new : Option Follow} {s : State} (h : Chosen sel new s)
    (labelOk : sel.LabelOk) : ((chooseFile sel s).bind fun i => followOf i s) = new := by
  have passes : ∀ i : FileIx, i ∈ (allIx fun i : FileIx => (s.files[i].file.map fun f => selects sel f s).getD false) ↔
      ∃ f m k, Selectable sel i f m k s := fun i => by
    rw [mem_allIx]
    cases hf : s.files[i].file with
    | none => exact ⟨fun no => absurd no Bool.false_ne_true, fun ⟨_, _, _, h⟩ => nomatch hf.symm.trans h.1⟩
    | some f =>
      have only : ∀ f' m k, Selectable sel i f' m k s → f' = f := fun f' m k h =>
        Option.some.inj (h.1.symm.trans hf)
      rw [Option.map_some, Option.getD_some, selects_iff labelOk hf]
      exact ⟨fun h => ⟨f, h⟩, fun ⟨f', m, k, h⟩ => only f' m k h ▸ ⟨m, k, h⟩⟩
  have found : chooseFile sel s = (allIx fun i : FileIx =>
      (s.files[i].file.map fun f => selects sel f s).getD false).foldl (laterOpened s) none := rfl
  generalize (allIx fun i : FileIx => (s.files[i].file.map fun f => selects sel f s).getD false) = is at *
  rw [found]
  obtain ⟨rfl, none_⟩ | ⟨j, f, m, k, this, latest, rfl⟩ := h
  · have empty : is = [] := List.eq_nil_iff_forall_not_mem.mpr fun i hi => by
      obtain ⟨f, m, k, h⟩ := (passes i).mp hi
      exact none_ i f m k h
    rw [empty]
    rfl
  · have stamp : ∀ {i f m k}, Selectable sel i f m k s → stampAt s i = f.stamp := fun h => by
      unfold stampAt
      rw [h.1]
      rfl
    have chosen : is.foldl (laterOpened s) none = some j := by
      refine foldl_laterOpened is none (.inr ((passes j).mpr ⟨f, m, k, this⟩)) (fun i hi => ?_) nofun
      obtain ⟨f', m', k', other⟩ := (passes i).mp hi
      rw [stamp this, stamp other]
      exact latest i f' m' k' other
    rw [chosen]
    exact this.followOf

/-! ### The change of follow (R145) -/

theorem engine_cases (e : Engine) : e = 0 ∨ e = 1 := by revert e; decide

section
variable (e : Engine) (new : Option Follow) (s : State)

/-- R145: the entries discarded, and then the engine as the change leaves it. -/
theorem changeFollow_eq : changeFollow e new s = modEngine e (fun g => g.changed new)
    (s.engines[e].waiting.foldl (fun s item => discardCounted e item s) s) := by
  unfold changeFollow discardWaiting modEngine
  dsimp only
  rw [vmod_vmod]
  congr 2
  funext g
  exact EngineState.close_discarded g new

theorem changeFollow_engines : (changeFollow e new s).engines = vmod s.engines e fun g => g.changed new := by
  rw [changeFollow_eq, modEngine_engines, discardAll_engines]

theorem changeFollow_freed : SlotsFreed s (changeFollow e new s) := by
  rw [changeFollow_eq]
  exact (discardAll_freed e _ s).trans (.of_eq rfl rfl)

/-- R206: each discarded entry is a review skip of its engine. -/
theorem inc_skips (n : Nat) (c : LossCounters) :
    ((fun c => c.inc (.skips e))^[n] c).skipsV0 = oneMore^[if e = 0 then n else 0] c.skipsV0 ∧
      ((fun c => c.inc (.skips e))^[n] c).skipsV1 = oneMore^[if e = 1 then n else 0] c.skipsV1 := by
  obtain rfl | rfl : e = 0 ∨ e = 1 := engine_cases e
  all_goals
    induction n generalizing c with
    | zero => exact ⟨rfl, rfl⟩
    | succ n ih => exact ih _

/-- R54: the entries that wait have their references. -/
theorem RefsCover.waiting {s : State} (h : RefsCover s) (i : SlotIx) :
    (s.engines[e].waiting.map LookItem.slot).count i ≤ s.slots[i].refs := by
  have part : s.engines[e].waiting.Sublist s.engines[e].queue := by
    unfold EngineState.waiting
    split
    · exact List.drop_sublist 1 _
    · exact .refl _
  have count := (part.map LookItem.slot).count_le i
  rw [← lookRefs_eq] at count
  have one : lookRefs e i s ≤ ∑ e : Engine, lookRefs e i s :=
    Finset.single_le_sum (f := fun e => lookRefs e i s) (fun _ _ => Nat.zero_le _) (Finset.mem_univ e)
  have cover := h i
  omega

end

/-- R145 step 1: what the change of one engine's follow discards and counts, by what its queue held before. -/
theorem changeFollow_skipped (e : Engine) (new : Option Follow) {s v : State}
    (waiting : v.engines[e].waiting = s.engines[e].waiting) (slots : v.slots = s.slots) (loss : v.loss = s.loss)
    (counters : v.counters = s.counters) :
    Skipped (fun e' => if e' = e then s.engines[e].waiting else []) s (changeFollow e new v) := by
  rw [changeFollow_eq, waiting]
  refine ⟨?_, ?_, fun law _ => ?_⟩
  · rw [modEngine_loss, discardAll_loss, loss, (inc_skips e _ _).1]
    obtain rfl | rfl := engine_cases e <;> rfl
  · rw [modEngine_loss, discardAll_loss, loss, (inc_skips e _ _).2]
    obtain rfl | rfl := engine_cases e <;> rfl
  · have gone : (if 0 = e then s.engines[e].waiting else []) ++ (if 1 = e then s.engines[e].waiting else []) =
        s.engines[e].waiting := by
      obtain rfl | rfl := engine_cases e
      · exact List.append_nil _
      · rfl
    have events : skipEvent v = skipEvent s := by
      funext p x
      exact skipEvent_congr (by rw [slots]) p
    rw [modEngine_counters, discardAll_counters _ _ _ (by rw [slots]; exact law.cover.waiting e), counters, events]
    dsimp only
    rw [gone]

theorem Skipped.slots {gone : Engine → List LookItem} {s u t : State} (h : Skipped gone s u) (only : SlotsOnly u t) :
    Skipped gone s t := by
  obtain ⟨v0, v1, counted⟩ := h
  unfold Skipped
  rw [only.loss, only.counters, only.dest]
  exact ⟨v0, v1, counted⟩

/-! ### The command (R202) -/

/-- R202, R215: the label in a field of a body, wherever the field stands. -/
theorem labelArg_field {b : Bytes} {off : Nat} (h : labelFieldOk (bytesAt b off 17) = true) :
    labelArg b off = bytesAt b (off + 1) (fieldAt b off 1) := by
  have moved := labelOf_field (b := b.drop off) h
  unfold bytesAt fieldAt at moved
  rw [List.drop_zero, List.drop_drop] at moved
  exact moved

/-- R211: a label in form is not empty. -/
theorem label_ne_nil {b : Bytes} {off : Nat} (h : labelFieldOk (bytesAt b off 17) = true)
    (inside : off + 1 < b.length) : bytesAt b (off + 1) (fieldAt b off 1) ≠ [] := by
  have same : fieldAt (bytesAt b off 17) 0 1 = fieldAt b off 1 := by
    unfold fieldAt bytesAt
    rw [List.drop_zero, List.take_take]
    rfl
  have long : 1 ≤ fieldAt b off 1 := by
    rw [← same]
    simp only [labelFieldOk, Bool.and_eq_true, decide_eq_true_eq] at h
    exact h.1.1
  unfold bytesAt
  rw [← List.length_pos_iff, List.length_take, List.length_drop]
  omega

section
variable {b : Bytes} {sel : Selection}

/-- R202: the selection that a body in form carries. -/
theorem selectionArg_passes (passes : (reviewShape b).passes)
    (given : (fieldAt b 1 1 = 0 ∧ sel = .off) ∨
      (fieldAt b 1 1 = 1 ∧ sel = .follow (BitVec.ofNat 4 (fieldAt b 2 1))) ∨
      (fieldAt b 1 1 = 2 ∧ sel = .pin (bytesAt b 5 (fieldAt b 4 1)) (fieldAt b 24 4))) :
    selectionArg b = sel ∧ sel.LabelOk := by
  obtain ⟨length, zeros, -⟩ := passes
  unfold selectionArg
  rcases given with ⟨kind, rfl⟩ | ⟨kind, rfl⟩ | ⟨kind, rfl⟩
  · rw [kind]
    exact ⟨rfl, trivial⟩
  · rw [kind]
    exact ⟨rfl, trivial⟩
  · have size : b.length = 28 := beq_iff_eq.mp length
    have tests : pinTests b = [labelTest b 4, zeroTest b 21 3] := if_pos kind
    have label : labelFieldOk (bytesAt b 4 17) = true := by
      unfold reviewShape fixedShape FieldTests.firstBad at zeros
      dsimp only at zeros
      rw [tests, Option.map_eq_none_iff, List.find?_eq_none] at zeros
      have passed := zeros (labelTest b 4) (by simp)
      simpa [labelTest] using passed
    rw [kind, labelArg_field label]
    exact ⟨rfl, label_ne_nil label (by omega)⟩

end

theorem followBody_eq (f : Option Follow) : followBody f = followBytes f := by
  cases f <;> rfl

section
variable {e : Engine} {sel : Selection} {new : Option Follow} {s : State} (chosen : Chosen sel new s)
  (labelOk : sel.LabelOk)
include chosen labelOk

/-- R142, R145: the selection is stored, and the follow changes to another choice. -/
theorem takeSelection_eq : takeSelection e sel s =
    if new.map Follow.tid = s.engines[e].follow.map Follow.tid then modEngine e (fun g => { g with selection := sel }) s
    else changeFollow e new (modEngine e (fun g => { g with selection := sel }) s) := by
  have follow : ((modEngine e (fun g => { g with selection := sel }) s).engines[e]).follow = s.engines[e].follow := by
    rw [modEngine_engines, vmod_self]
  have choice : ((chooseFile sel (modEngine e (fun g => { g with selection := sel }) s)).bind fun i =>
      followOf i (modEngine e (fun g => { g with selection := sel }) s)) = new := chosen.follow labelOk
  unfold takeSelection
  dsimp only
  rw [choice, follow]

theorem takeSelection_freed : SlotsFreed s (takeSelection e sel s) := by
  have stored : SlotsFreed s (modEngine e (fun g => { g with selection := sel }) s) := .of_eq rfl rfl
  rw [takeSelection_eq chosen labelOk]
  split
  · exact stored
  · exact stored.trans (changeFollow_freed e new _)

end

/-- Settles O30: the body in form gives the engine and the selection, and the choice decides whether the follow
changes. -/
theorem reviewSelected : Obligations.ReviewSelected := by
  intro l i g e sel new s h code passes output given chosen
  obtain ⟨carried, labelOk⟩ := selectionArg_passes passes given
  have engine : engineArg g.payload = e := Fin.ext (by
    show fieldAt g.payload 0 1 % 2 = e.val
    rw [output]
    exact Nat.mod_eq_of_lt e.isLt)
  have run : exec (.reviewSelect l) s = .next (answerHead l g
      (.done (followBody (takeSelection e sel s).engines[e].follow) (takeSelection e sel s))) := by
    show execReviewSelect l s = _
    unfold execReviewSelect runCommand
    rw [live_running h.1.1, takeControl_good l i g _ _ s h (by rw [hasCode, code]; rfl) (by rw [code]; rfl),
      cmdReviewSelect, guardBody_passes _ _ _ passes, engine, carried]
    rfl
  have taken := takeSelection_eq (e := e) chosen labelOk
  have freed := takeSelection_freed (e := e) chosen labelOk
  have kept := takeSelection_frame e sel s
  rw [run]
  generalize takeSelection e sel s = u at *
  have replied := answerHead_replied l g (.done (followBody u.engines[e].follow) u) (freed.ports l) h.1.queued
  have frame := answerHead_frame l g (.done (followBody u.engines[e].follow) u)
  generalize answerHead l g (.done (followBody u.engines[e].follow) u) = t at *
  have engines : t.engines = u.engines := frame.engines
  refine ⟨t, rfl, kept.trans frame.toEngines, ?_, fun e' other => ?_, fun same => ?_, fun differs => ?_⟩
  · rw [engines, ← followBody_eq]
    exact replied
  · split at taken
    · rw [engines, taken]
      exact vmod_other _ _ _ _ other
    · rw [engines, taken, changeFollow_engines, vmod_other _ _ _ _ other]
      exact vmod_other _ _ _ _ other
  · rw [if_pos same] at taken
    rw [engines, frame.loss, frame.counters]
    dsimp only [Answer.done]
    rw [taken]
    exact ⟨vmod_self _ _ _, rfl, rfl⟩
  · rw [if_neg differs] at taken
    have stored : (modEngine e (fun g => { g with selection := sel }) s).engines[e] =
        { s.engines[e] with selection := sel } := vmod_self _ _ _
    refine ⟨by rw [engines, taken, changeFollow_engines, vmod_self, stored], Skipped.slots (u := u) ?_ frame⟩
    rw [taken]
    exact changeFollow_skipped e new (by rw [stored]; rfl) rfl rfl rfl

end Sys2Proof.Machine
end

