-- ==== Sys2Proof/Proofs/PreviewOffers.lean ====
section
/-! PROOF. The offer of a PREVIEW segment to the look engines (R133, R134): its placement, what an engine makes of it,
and what the slot and the counters show of it. Settles O26. -/

namespace Sys2Proof.Machine

open Sys2Proof

/-! ### What the reading leaves uncounted -/

/-- R206: the files and the counters of review skips are as they were. -/
structure SkipsKept (s t : State) : Prop where
  files : t.files = s.files
  skipsV0 : t.loss.skipsV0 = s.loss.skipsV0
  skipsV1 : t.loss.skipsV1 = s.loss.skipsV1

theorem SkipsKept.refl (s : State) : SkipsKept s s := ⟨rfl, rfl, rfl⟩

theorem SkipsKept.trans {s t u : State} (h : SkipsKept s t) (k : SkipsKept t u) : SkipsKept s u :=
  ⟨k.files.trans h.files, k.skipsV0.trans h.skipsV0, k.skipsV1.trans h.skipsV1⟩

theorem logFault_skips (r : FaultRec) (s : State) : SkipsKept s (logFault r s) := by
  have loss := (logFault_noticed r s).loss
  exact ⟨(logFault_frame r s).files, by rw [loss], by rw [loss]⟩

theorem modChannel_skips (c : Channel) (f : ChannelRec → ChannelRec) (s : State) : SkipsKept s (modChannel c f s) :=
  ⟨rfl, rfl, rfl⟩

theorem reportFlip_skips (c : Channel) (p : Fin 8) (dir : FlipDirection) (frame value : Nat) (s : State) :
    SkipsKept s (reportFlip c p dir frame value s) := by
  unfold reportFlip
  split
  · exact ⟨rfl, rfl, rfl⟩
  · exact (logFault_skips _ s).trans (modChannel_skips c _ _)

theorem evalProbe_skips (c : Channel) (m : Measures) (frame : Nat) (p : Fin 8) (s : State) :
    SkipsKept s (evalProbe c m frame p s) := by
  unfold evalProbe
  dsimp only
  split
  · split
    · exact .refl s
    · next v _ =>
      have stored : SkipsKept s (modProbe c p
          (fun _ => (s.channels[c].probes[p].next s.channels[c].probeStates[p] v).1) s) := modChannel_skips c _ s
      split <;> split
      · exact stored.trans (reportFlip_skips c p _ frame _ _)
      · exact stored
      · exact stored.trans (reportFlip_skips c p _ frame _ _)
      · exact stored
  · exact .refl s

/-- R158: the evaluation of a frame skips nothing. -/
theorem evaluatePicture_skips (c : Channel) (frame digest : Nat) (m : MetaMeasures) (s : State) :
    SkipsKept s (evaluatePicture c frame digest m s) := by
  have probes : SkipsKept s (evalProbes c (s.channels[c].pictureMeasures digest m) frame s) :=
    foldl_keeps SkipsKept .refl (fun _ _ _ => .trans) _ (fun s p => evalProbe_skips c _ frame p s) _ s
  exact probes.trans (modChannel_skips c _ _)

/-- R206, R204: what the reading of a segment of the file at `i` counts: no review skip, and no event where the file
holds no channel. -/
structure ReadCounts (i : FileIx) (s t : State) : Prop where
  skipsV0 : t.loss.skipsV0 = s.loss.skipsV0
  skipsV1 : t.loss.skipsV1 = s.loss.skipsV1
  channel : t.files[i].file.bind FileRec.channel = s.files[i].file.bind FileRec.channel
  counters : s.files[i].file.bind FileRec.channel = none → t.counters = s.counters

section
variable {i : FileIx} {s t : State}

theorem ReadCounts.refl (i : FileIx) (s : State) : ReadCounts i s s := ⟨rfl, rfl, rfl, fun _ => rfl⟩

theorem ReadCounts.trans {u : State} (h : ReadCounts i s t) (k : ReadCounts i t u) : ReadCounts i s u :=
  ⟨k.skipsV0.trans h.skipsV0, k.skipsV1.trans h.skipsV1, k.channel.trans h.channel,
    fun idle => (k.counters (h.channel.trans idle)).trans (h.counters idle)⟩

theorem SkipsKept.counts (h : SkipsKept s t) (i : FileIx) (counters : t.counters = s.counters) : ReadCounts i s t :=
  ⟨h.skipsV0, h.skipsV1, by rw [h.files], fun _ => counters⟩

theorem modAssembly_counts (f : Assembly → Assembly) (s : State) : ReadCounts i s (modAssembly i f s) := by
  refine ⟨rfl, rfl, ?_, fun _ => rfl⟩
  rw [modAssembly, modFile_files, vmod_self]
  cases s.files[i].file <;> rfl

/-- R106: a channel is told only where the file holds one. -/
theorem toChannel_counts (f : Channel → State → State) (s : State) (h : ∀ c, SkipsKept s (f c s)) :
    ReadCounts i s (toChannel i f s) := by
  unfold toChannel
  split
  · exact .refl i s
  · next c holds => exact ⟨(h c).skipsV0, (h c).skipsV1, by rw [(h c).files], fun no => nomatch holds.symm.trans no⟩

theorem logPartial_counts (frame : Nat) (c : PartialCause) (s : State) : ReadCounts i s (logPartial i frame c s) := by
  unfold logPartial
  split
  · exact .refl i s
  · exact (logFault_skips _ s).counts i (logFault_frame _ s).counters

theorem closePartial_counts (s : State) : ReadCounts i s (closePartial i s) := by
  unfold closePartial
  split
  · exact .refl i s
  · exact ((modAssembly_counts _ s).trans (toChannel_counts _ _ fun c => modChannel_skips c _ _)).trans
      (logPartial_counts _ _ _)

theorem completeFrame_counts (l : SrcLink) (frame : Nat) (m : FormatEntry) (s : State) :
    ReadCounts i s (completeFrame i l frame m s) := by
  unfold completeFrame
  split
  · exact .refl i s
  · have evaluated : ∀ digest measures (t : State), ReadCounts i t (toChannel i (fun c s =>
        evaluatePicture c frame digest measures (countEvent .framesInspected (.link l) 1 s)) t) := fun _ _ t =>
      have counted : SkipsKept t (countEvent .framesInspected (.link l) 1 t) := ⟨rfl, rfl, rfl⟩
      toChannel_counts _ t fun c => counted.trans (evaluatePicture_skips c frame _ _ _)
    exact (modAssembly_counts _ s).trans (evaluated _ _ _)

theorem parseSegment_counts (l : SrcLink) (m : FormatEntry) (g : Segment) (s : State) :
    ReadCounts i s (parseSegment i l m g s).1 := by
  have parsed : ReadCounts i s (toChannel i (fun c => gather c (pixelsOf m.packing g.payload) g.lineCount)
      (modAssembly i (fun a => { a with
        digest := a.digest.map fun d => d.advance g.payload, nextLine := g.firstLine + g.lineCount }) s)) :=
    (modAssembly_counts _ s).trans (toChannel_counts _ _ fun c => modChannel_skips c _ _)
  unfold parseSegment
  dsimp only
  split
  · exact parsed.trans (completeFrame_counts l _ m _)
  · exact parsed

theorem placeGreater_counts (l : SrcLink) (m : FormatEntry) (g : Segment) (s : State) :
    ReadCounts i s (placeGreater i l m g s).1 := by
  have begun : ReadCounts i s (beginAssembly i g s) := by
    unfold beginAssembly
    dsimp only
    split
    · exact modAssembly_counts _ s
    · exact (modAssembly_counts _ s).trans (toChannel_counts _ _ fun c => modChannel_skips c _ _)
  unfold placeGreater
  dsimp only
  split
  · exact begun.trans (parseSegment_counts l m g _)
  · exact modAssembly_counts _ s

theorem readPreview_counts (l : SrcLink) (m : FormatEntry) (g : Segment) (s : State) :
    ReadCounts i s (readPreview i l m g s).1 := by
  have closed : ReadCounts i s (placeGreater i l m g (closePartial i s)).1 :=
    (closePartial_counts s).trans (placeGreater_counts l m g _)
  unfold readPreview
  split
  · exact .refl i s
  split
  · split
    · exact placeGreater_counts l m g s
    · exact logPartial_counts _ _ s
  · split
    · exact closed
    split
    · exact modAssembly_counts _ s
    split
    · exact parseSegment_counts l m g s
    · exact modAssembly_counts _ s
  · split
    · exact closed
    · exact .refl i s

end

/-! ### The placement of a segment (R111, R133) -/

/-- R133: whether a segment at a placement completes its frame. -/
def completesAt (m : FormatEntry) (g : Segment) (p : Placement) : Bool :=
  p != .misfit && g.firstLine + g.lineCount == m.height

theorem parseSegment_snd (i : FileIx) (l : SrcLink) (m : FormatEntry) (g : Segment) (s : State) :
    (parseSegment i l m g s).2 = (g.firstLine + g.lineCount == m.height) := by
  unfold parseSegment
  dsimp only
  split <;> simp [*]

theorem placeGreater_placed (i : FileIx) (l : SrcLink) (m : FormatEntry) (g : Segment) (s : State) {p : Placement}
    (hp : p = if g.firstLine = 0 ∧ shapeOk m g = true then .begin else .misfit) :
    (placeGreater i l m g s).2 = (p, completesAt m g p) := by
  unfold placeGreater
  dsimp only
  split
  · next fits =>
    rw [if_pos fits] at hp
    rw [hp, parseSegment_snd]
    rfl
  · next fits =>
    rw [if_neg fits] at hp
    rw [hp]
    rfl

/-- R111, R133: the placement that the reading answers, and whether the segment completed its frame. -/
theorem readPreview_placed {j : FileIx} {f : FileRec} {a : Assembly} {s : State} (h : Assembles j f a s) (l : SrcLink)
    (m : FormatEntry) (g : Segment) :
    (readPreview j l m g s).2 = (placementOf a m g, completesAt m g (placementOf a m g)) := by
  unfold readPreview
  rw [h.assembly]
  dsimp only
  cases greater : a.greater g.frame with
  | true =>
    have place : placementOf a m g = if g.firstLine = 0 ∧ shapeOk m g = true then .begin else .misfit := by
      unfold placementOf
      exact if_pos greater
    cases a.state <;> exact placeGreater_placed j l m g _ place
  | false =>
    have place : placementOf a m g = if a.state = .building ∧ a.lastFrame = some g.frame ∧ g.firstLine = a.nextLine ∧
        shapeOk m g = true then .continue_ else .misfit := by
      unfold placementOf
      rw [if_neg (by rw [greater]; exact Bool.false_ne_true)]
    rw [place]
    cases a.state with
    | idle => simp [completesAt]
    | broken _ => simp [completesAt]
    | building =>
      by_cases current : a.lastFrame = some g.frame
      · by_cases fits : g.firstLine = a.nextLine ∧ shapeOk m g = true
        · simp [current, fits, completesAt, parseSegment_snd]
        · simp [current, fits, completesAt]
      · simp [current, completesAt]

/-! ### The offer to one engine (R134) -/

/-- R134: the engine follows the file. -/
def EngineState.followsTid (tid : Tid) (x : EngineState) : Bool := x.follow.map Follow.tid == some tid

/-- R134: the engine follows the file, and its queue has room. -/
def EngineState.takes (tid : Tid) (x : EngineState) : Bool := x.followsTid tid && decide (x.queue.length < 8)

/-- R134: the engine follows the file, and its queue is full. -/
def EngineState.skips (tid : Tid) (x : EngineState) : Bool := x.followsTid tid && !decide (x.queue.length < 8)

/-- R134: what the offer of a segment makes of an engine. -/
def EngineState.offered (tid : Tid) (i : SlotIx) (g : Segment) (place : Placement) (complete : Bool) (x : EngineState) :
    EngineState :=
  if x.takes tid = true then { x with
    queue := x.queue ++ [⟨i, g.frame, g.firstLine, g.lineCount, place, complete, x.pendingGap⟩], pendingGap := false }
  else if x.skips tid = true then { x with pendingGap := true }
  else x

/-- R56, R134: what the offer to engine `e` reaches. -/
structure OfferedTo (l : SrcLink) (tid : Tid) (i : SlotIx) (g : Segment) (place : Placement) (complete : Bool)
    (e : Engine) (s t : State) : Prop where
  engines : t.engines = vmod s.engines e (EngineState.offered tid i g place complete)
  slots : t.slots = vmod s.slots i fun x => { x with refs := x.refs + if s.engines[e].takes tid = true then 1 else 0 }
  loss : t.loss = if s.engines[e].skips tid = true then s.loss.inc (.skips e) else s.loss
  counters : t.counters = s.counters.map fun p =>
    if s.engines[e].skips tid = true then p.take .reviewSkips (.link l) 1 else p

/-- R134: an engine takes the segment, skips it, or does not follow the file. -/
theorem EngineState.takes_skips (tid : Tid) (x : EngineState) :
    (x.follow.map Follow.tid = some tid → x.queue.length < 8 → x.takes tid = true ∧ x.skips tid = false) ∧
    (x.follow.map Follow.tid = some tid → ¬ x.queue.length < 8 → x.takes tid = false ∧ x.skips tid = true) ∧
    (x.follow.map Follow.tid ≠ some tid → x.takes tid = false ∧ x.skips tid = false) := by
  unfold takes skips followsTid
  exact ⟨fun follows room => by simp [follows, room], fun follows full => by simp [follows, full],
    fun other => by simp [other]⟩

theorem offerLookTo_offered (l : SrcLink) (tid : Tid) (i : SlotIx) (g : Segment) (place : Placement) (complete : Bool)
    (e : Engine) (s : State) :
    OfferedTo l tid i g place complete e s (offerLookTo l tid i g place complete e s) := by
  have unreferred : s.slots = vmod s.slots i fun x => { x with refs := x.refs + if false = true then 1 else 0 } :=
    (vmod_same _ _ _ rfl).symm
  have uncounted : s.counters =
      s.counters.map fun p => if false = true then p.take .reviewSkips (.link l) 1 else p := by simp
  obtain ⟨withRoom, whenFull, otherwise⟩ := EngineState.takes_skips tid s.engines[e]
  unfold offerLookTo
  by_cases follows : s.engines[e].follow.map Follow.tid = some tid
  · rw [if_pos follows]
    by_cases room : s.engines[e].queue.length < 8
    · obtain ⟨takes, skips⟩ := withRoom follows room
      rw [if_pos (show s.engines[e].queue.length < Config.lookQueueCap from room)]
      refine ⟨(modSlot_engines i _ _).trans ((modEngine_engines e _ _).trans (vmod_congr s.engines e ?_)), ?_, ?_, ?_⟩
      · unfold EngineState.offered
        rw [if_pos takes]
      · rw [takes]
        rfl
      · rw [skips]
        rfl
      · rw [skips]
        exact uncounted
    · obtain ⟨takes, skips⟩ := whenFull follows room
      rw [if_neg (show ¬ s.engines[e].queue.length < Config.lookQueueCap from room)]
      refine ⟨(modEngine_engines e _ _).trans (vmod_congr s.engines e ?_), ?_, ?_, ?_⟩
      · unfold EngineState.offered
        rw [takes, if_neg Bool.false_ne_true, if_pos skips]
      · rw [takes]
        exact unreferred
      · rw [skips]
        rfl
      · rw [skips]
        rfl
  · obtain ⟨takes, skips⟩ := otherwise follows
    rw [if_neg follows]
    refine ⟨(vmod_same _ _ _ ?_).symm, ?_, ?_, ?_⟩
    · unfold EngineState.offered
      rw [takes, skips]
      rfl
    · rw [takes]
      exact unreferred
    · rw [skips]
      rfl
    · rw [skips]
      exact uncounted

/-! ### The offer to both engines -/

/-- R134: the segment is offered to one engine after the other. -/
def offerLook (l : SrcLink) (tid : Tid) (i : SlotIx) (g : Segment) (place : Placement) (complete : Bool) (s : State) :
    State :=
  offerLookTo l tid i g place complete 1 (offerLookTo l tid i g place complete 0 s)

/-- R56, R134: how many engines take the segment. -/
def takers (tid : Tid) (s : State) : Nat := ((List.finRange 2).filter fun e : Engine => s.engines[e].takes tid).length

/-- R134: what the offer reaches. -/
structure Offers (l : SrcLink) (tid : Tid) (i : SlotIx) (g : Segment) (place : Placement) (complete : Bool)
    (s t : State) : Prop where
  engines : ∀ e : Engine, t.engines[e] = s.engines[e].offered tid i g place complete
  slots : t.slots = vmod s.slots i fun x => { x with refs := x.refs + takers tid s }
  skipsV0 : t.loss.skipsV0 =
    if s.engines[(0 : Engine)].skips tid = true then oneMore s.loss.skipsV0 else s.loss.skipsV0
  skipsV1 : t.loss.skipsV1 =
    if s.engines[(1 : Engine)].skips tid = true then oneMore s.loss.skipsV1 else s.loss.skipsV1
  counters : ∀ count : Engine → CounterPair → CounterPair,
    (∀ e, count e = fun p => if s.engines[e].skips tid = true then p.take .reviewSkips (.link l) 1 else p) →
    t.counters = s.counters.map fun p => count 1 (count 0 p)

theorem offerLook_offers (l : SrcLink) (tid : Tid) (i : SlotIx) (g : Segment) (place : Placement) (complete : Bool)
    (s : State) : Offers l tid i g place complete s (offerLook l tid i g place complete s) := by
  have zero := offerLookTo_offered l tid i g place complete 0 s
  unfold offerLook
  generalize offerLookTo l tid i g place complete 0 s = t at *
  have one := offerLookTo_offered l tid i g place complete 1 t
  generalize offerLookTo l tid i g place complete 1 t = u at *
  have apart : (1 : Engine) ≠ 0 := by decide
  have later : t.engines[(1 : Engine)] = s.engines[(1 : Engine)] := by rw [zero.engines, vmod_other _ _ _ _ apart]
  refine ⟨fun e => ?_, ?_, ?_, ?_, fun count hcount => ?_⟩
  · rw [one.engines]
    obtain rfl | rfl := engine_cases e
    · rw [vmod_other _ _ _ _ apart.symm, zero.engines, vmod_self]
    · rw [vmod_self, later]
  · have both : takers tid s = (if s.engines[(0 : Engine)].takes tid = true then 1 else 0) +
        if s.engines[(1 : Engine)].takes tid = true then 1 else 0 := by
      have two : List.finRange 2 = [(0 : Engine), 1] := by decide
      unfold takers
      rw [two, List.filter_cons, List.filter_cons, List.filter_nil]
      split <;> split <;> rfl
    rw [one.slots, zero.slots, vmod_vmod, later, both]
    simp only [Nat.add_assoc]
  · rw [one.loss, zero.loss]
    split <;> split <;> rfl
  · rw [one.loss, zero.loss, later]
    split <;> split <;> rfl
  · rw [one.counters, zero.counters, later, Vector.map_map, hcount, hcount]
    rfl

/-! ### The segment's processing -/

/-- R106: a PREVIEW segment of a PICTURE file is read and offered. -/
theorem readSegment_offered (l : SrcLink) (j : FileIx) (i : SlotIx) {f now : FileRec} {a : Assembly} {m : FormatEntry}
    {g : Segment} {s : State} (h : Assembles j now a s) (preview : g.kind = 5)
    (format : f.assembly.bind Assembly.format = some m) (valid : m.valid = true) (picture : m.packing ≠ .none_) :
    readSegment l j i f g s = offerLook l (tidOf j s) i g (placementOf a m g) (completesAt m g (placementOf a m g))
      (readPreview j l m g s).1 := by
  have mode : f.mode = .picture := by
    unfold FileRec.mode
    rw [format, parseMode_valid valid, if_neg picture]
  unfold readSegment
  rw [format]
  dsimp only
  rw [if_pos ⟨preview, mode⟩]
  unfold previewSegment
  dsimp only
  rw [readPreview_placed h]
  rfl

/-- R55, R57: at the end of the processing of the head, its slot is free where nothing refers to it. -/
theorem endProcessing_referred {l : SrcLink} {i : SlotIx} {g : Segment} {s u : State} (head : AtHead l i g s) (n : Nat)
    (src : u.src = s.src) (slots : u.slots = vmod s.slots i fun x => { x with refs := x.refs + n }) :
    (endProcessing l u).slots = vmod s.slots i fun _ => if n = 0 then Slot.free else ⟨some l, false, n, g⟩ := by
  obtain ⟨-, first, slot⟩ := head
  rw [← src] at first
  have now : u.slots[i] = ⟨some l, true, n, g⟩ := by rw [slots, vmod_self, slot, Nat.zero_add]
  by_cases unreferred : n = 0
  · rw [unreferred] at now
    rw [(endProcessing_spec l i g u first now).2, slots, vmod_vmod, if_pos unreferred]
  · rw [endProcessing_held first (by rw [now]; exact unreferred), slots, vmod_vmod, if_neg unreferred]
    refine vmod_congr _ _ ?_
    rw [slot, Nat.zero_add]

/-- R36, R106: an accepted PREVIEW segment with bytes and without LAST: its bytes are queued, which leaves `v`, and it
is read, which leaves `r`, and offered; the stall flags are looked at, and its processing ends. -/
theorem exec_preview_offered {l : SrcLink} {i : SlotIx} {g : Segment} {c : CardIx} {k : Card} {j : FileIx} {f : FileRec}
    {a : Assembly} {m : FormatEntry} {s : State} (h : DataOf l i g c k j f s) (preview : g.kind = 5)
    (place : InPlace f g) (bytes : g.payload ≠ []) (last : g.last = false) (assembly : f.assembly = some a)
    (format : a.format = some m) (valid : m.valid = true) (picture : m.packing ≠ .none_) :
    ∃ v r, exec (.preview l) s = .next (endProcessing l (checkStalls (offerLook l ⟨j, s.files[j].gen⟩ i g
        (placementOf a m g) (completesAt m g (placementOf a m g)) r))) ∧
      v = { s with files := v.files, dest := v.dest, slots := v.slots } ∧
      (∀ d : Dest, v.dest[d].stall = s.dest[d].stall) ∧
      v.slots = (vmod s.slots i fun x => { x with refs := x.refs + f.receivers.length }) ∧
      v.files[j].file.bind FileRec.channel = f.channel ∧ Reading j 9 v r ∧ ReadCounts j v r := by
  obtain ⟨hf, -, -, -⟩ := DataOf.names h
  have step : dataStep l g.kind = .preview l := by rw [preview]; rfl
  have run : exec (.preview l) s = .next (endProcessing l (checkStalls (acceptBytes l j i f g s))) := by
    rw [← step, exec_dataStep_streaming h, if_pos (by unfold offsetOk; rw [decide_eq_true_eq]; exact place)]
    unfold acceptData
    dsimp only
    rw [last, if_neg bytes]
    rfl
  unfold acceptBytes at run
  dsimp only at run
  generalize hv : queueData j i f (modFile j (fun f => { f with
    sums := f.sums.advance g.payload, nextOffset := f.nextOffset + g.payload.length }) s) = v at run
  obtain ⟨⟨still, files⟩, dest, slots⟩ := queuedBytes hf bytes v hv.symm
  have record : Assembles j (f.taking g none) a v := by
    unfold Assembles
    rw [files, vmod_self, assembly]
    rfl
  have tid : tidOf j v = ⟨j, s.files[j].gen⟩ := by
    refine congrArg (Tid.mk j) ?_
    rw [files, vmod_self]
  rw [readSegment_offered l j i record preview (by rw [assembly]; exact format) valid picture, tid] at run
  exact ⟨v, _, run, still, fun d => by rw [dest], slots, record.channel, readPreview_reading l m g v,
    readPreview_counts l m g v⟩

/-- Settles O26: the segment is read, then offered to both engines, and its processing ends. -/
theorem previewOffered : Obligations.PreviewOffered := by
  intro l i g c k j f a m s h preview place bytes last assembly format valid picture follows full hfollows hfull
  obtain ⟨v, r, run, still, stalls, queued, channel, reading, counts⟩ :=
    exec_preview_offered h preview place bytes last assembly format valid picture
  have read : r.src = s.src ∧ r.slots = v.slots ∧ r.engines = s.engines ∧ r.dest = v.dest := by
    rw [reading.frame, still]
    exact ⟨rfl, rfl, rfl, rfl⟩
  obtain ⟨src, slots, engines, dest⟩ := read
  have before : v.loss = s.loss ∧ v.counters = s.counters := by
    rw [still]
    exact ⟨rfl, rfl⟩
  obtain ⟨loss, counters⟩ := before
  have followed : ∀ e, s.engines[e].followsTid ⟨j, s.files[j].gen⟩ = follows e := fun e => by
    rw [Bool.eq_iff_iff, hfollows]
    unfold EngineState.followsTid
    rw [beq_iff_eq, Option.map_eq_some_iff]
  have crowded : ∀ e, decide (s.engines[e].queue.length < 8) = !full e := fun e => by
    rw [Bool.eq_iff_iff, decide_eq_true_eq, Bool.not_eq_true', ← Bool.not_eq_true, hfull, Nat.not_le]
  have takes : ∀ e, s.engines[e].takes ⟨j, s.files[j].gen⟩ = (follows e && !full e) := fun e => by
    unfold EngineState.takes
    rw [followed, crowded]
  have skips : ∀ e, s.engines[e].skips ⟨j, s.files[j].gen⟩ = (follows e && full e) := fun e => by
    unfold EngineState.skips
    rw [followed, crowded, Bool.not_not]
  have offers := offerLook_offers l ⟨j, s.files[j].gen⟩ i g (placementOf a m g)
    (completesAt m g (placementOf a m g)) r
  have frame : (offerLook l ⟨j, s.files[j].gen⟩ i g (placementOf a m g) (completesAt m g (placementOf a m g)) r).src =
      r.src ∧ (offerLook l ⟨j, s.files[j].gen⟩ i g (placementOf a m g) (completesAt m g (placementOf a m g)) r).dest =
      r.dest := by
    unfold offerLook
    rw [offerLookTo_frame l _ i g _ _ 1]
    dsimp only
    rw [offerLookTo_frame l _ i g _ _ 0]
    exact ⟨rfl, rfl⟩
  generalize offerLook l _ i g _ _ r = w at *
  have checked := checkStalls_frame w
  have rise := checkStalls_rise w
  generalize checkStalls w = x at *
  have ended := endProcessing_frame l x
  refine ⟨_, run, fun e => ?_, fun n hn => ?_, ?_, ?_, fun idle same count hcount => ?_⟩
  · rw [ended.engines, checked.engines, offers.engines, engines]
    unfold EngineState.offered
    rw [takes, skips]
    cases follows e <;> cases full e <;> rfl
  · have taking : takers ⟨j, s.files[j].gen⟩ r = ((List.finRange 2).filter fun e => follows e && !full e).length := by
      unfold takers
      rw [engines]
      simp only [takes]
    refine endProcessing_referred h.1 n (checked.src.trans (frame.1.trans src)) ?_
    rw [checked.slots, offers.slots, slots, queued, vmod_vmod, taking, hn]
    simp only [Nat.add_assoc]
  · rw [ended.loss, checked.loss, offers.skipsV0, engines, skips, counts.skipsV0, loss]
  · rw [ended.loss, checked.loss, offers.skipsV1, engines, skips, counts.skipsV1, loss]
  · have all : StallsRise w (endProcessing l x) := rise.trans (.of_eq ended.dest ended.counters)
    rw [all.counters fun d => by rw [same d, frame.2, dest, stalls], offers.counters count fun e => ?_,
      counts.counters (channel.trans idle), counters]
    rw [engines, hcount]
    funext p
    rw [skips]

end Sys2Proof.Machine
end
